-- ==== Sys2Proof/Word.lean ====
section
/-! DEFINITION. The words of the engine: bytes, 32-bit operands and 64-bit command words (00_scope.md rules R22 to R25). -/

namespace Sys2Proof

/-- One byte of IN, WIN, DICT or LB (20_memory.md rule R200). -/
abbrev Byte := BitVec 8

/-- A 32-bit operand or register image (30_encoding.md rule R301). -/
abbrev Word32 := BitVec 32

/-- A 64-bit command word, or a 64-bit register (30_encoding.md rule R300, 10_state.md rule R106). -/
abbrev Word64 := BitVec 64

end Sys2Proof
end

