-- ==== Sys2Proof/Config.lean ====
section
/-! DEFINITION. What an engine instance fixes (10_state.md rule R100 class (d)): the parameters of 00_scope.md section 4, the
dictionary, the value types of the tables, the names of the wire structures, and the free values of the model. -/

namespace Sys2Proof

/-- The three sequence fields of 10_state.md rule R108: literal length, offset, match length. -/
inductive SeqField where
  | ll
  | oft
  | ml
  deriving DecidableEq, Repr

/-- The structures of the wire format that a selector byte opens. The byte alone does not say which: the engine knows what it
stands at (30_encoding.md rule R352). A modes byte is read once per field. -/
inductive Selector where
  /-- LITERALS_HEADER_BYTE0 (30_encoding.md rule R320). -/
  | literals
  /-- HUFFMAN_HEADER_BYTE (30_encoding.md rule R323). -/
  | huffman
  /-- SEQ_COUNT_BYTE0 (30_encoding.md rule R331). -/
  | seqCount
  /-- SEQ_MODES_BYTE, as it concerns one field (30_encoding.md rule R332). -/
  | seqModes (f : SeqField)
  deriving DecidableEq, Repr

/-- The formats of spec/opcode_table.json: which structure a word is read as. -/
inductive Format where
  /-- CMD64: the 64-bit command word (30_encoding.md rule R301). -/
  | cmd64
  /-- BLOCK_HEADER24: the 3-byte block header (30_encoding.md rule R310). -/
  | blockHeader24
  /-- A selector byte. -/
  | selector (k : Selector)
  deriving DecidableEq, Repr

/-- One state of a range-coded table: its symbol, its number of update bits and its base (10_state.md rule R129). -/
structure FseCell where
  sym  : Nat
  nb   : Nat
  base : Nat
  deriving DecidableEq, Repr

/-- A range-coded table: the accuracy and the cells indexed by state, `2^acc` of them (10_state.md rule R129). -/
structure FseTable where
  acc   : Nat
  cells : List FseCell
  deriving DecidableEq, Repr

/-- One code value of a prefix-code table: its symbol and its code length (10_state.md rule R130). -/
structure HufCell where
  sym : Nat
  nb  : Nat
  deriving DecidableEq, Repr

/-- A prefix-code table: the longest code length and the cells indexed by code value, `2^maxl` of them
(10_state.md rule R130). -/
structure HufTable where
  maxl  : Nat
  cells : List HufCell
  deriving DecidableEq, Repr

/-- The three repeat offsets, each a signed 64-bit register (10_state.md rule R106). -/
structure RepOffsets where
  r0 : Word64
  r1 : Word64
  r2 : Word64
  deriving DecidableEq, Repr

/-- The read-only dictionary (10_state.md rule R140). -/
structure Dictionary where
  id      : Word32
  content : List Byte
  huf     : Option HufTable
  fseLL   : Option FseTable
  fseOF   : Option FseTable
  fseML   : Option FseTable
  rep     : Option RepOffsets
  deriving DecidableEq, Repr

/-- The named parameters of 92_eei_decisions.md section 1 that a rule reads (log 8). -/
structure Params where
  /-- MAX_BLOCK_SIZE, 00_scope.md rule R14. -/
  maxBlock : Nat
  /-- WIN_CAP, 00_scope.md rule R15. -/
  winCap : Nat
  /-- IN_CAP, 00_scope.md rule R16. -/
  inCap : Nat
  /-- DICT, 10_state.md rule R140. -/
  dict : Option Dictionary
  /-- ADMIT_DICT_MATCH, 00_scope.md rule R21 (log 10). -/
  admitDictMatch : Bool
  deriving DecidableEq, Repr

/-- The defaults of 92_eei_decisions.md section 1 (00_scope.md rules R14 to R16 and R21). -/
def Params.default : Params :=
  { maxBlock := 131072, winCap := 8519680, inCap := 131080, dict := none, admitDictMatch := true }

/-- The constraints of 00_scope.md rules R14 to R16, with capacities that fit the 32-bit offsets of rule R22. -/
def Params.ok (p : Params) : Bool :=
  decide (1 ≤ p.maxBlock) && decide (p.maxBlock ≤ 131072) && decide (p.maxBlock + 1 ≤ p.winCap) &&
    decide (p.maxBlock + 7 ≤ p.inCap) && decide (p.winCap < 2 ^ 32) && decide (p.inCap < 2 ^ 32)

/-- WINDOW_SIZE_MAX, 00_scope.md rule R13. -/
def windowSizeMax : Nat := 8388608

/-- FREE VALUE: the input byte at a stream position that the host committed without writing it
(70_reset_and_hazards.md rule R911; log 5). -/
opaque Config.freeInByte : Nat → Byte

/-- FREE VALUE: what a host read of a byte of WIN that holds no defined value returns, by the model's counter and the
address (20_memory.md rule R204; log 6). -/
opaque Config.freeWinByte : Nat → Nat → Byte

/-- FREE VALUE: the repeat history after an error, by the model's counter (45_window.md rule R668; log 7). -/
opaque Config.freeRep : Nat → Nat → Word64

/-- FREE VALUE: PREV_HUF after an error, by the model's counter (45_window.md rule R668; log 7). -/
opaque Config.freeHuf : Nat → Option HufTable

/-- FREE VALUE: PREV_FSE after an error, by the model's counter and the field (45_window.md rule R668; log 7). -/
opaque Config.freeFse : Nat → SeqField → Option FseTable

/-- CSR_BASE, OPEN (20_memory.md rule R201; log 24). -/
opaque Config.csrBase : Nat

/-- IN_BASE, OPEN (20_memory.md rule R201; log 24). -/
opaque Config.inBase : Nat

/-- WIN_BASE, OPEN (20_memory.md rule R201; log 24). -/
opaque Config.winBase : Nat

end Sys2Proof
end

