-- ==== Sys2Proof/Syntax.lean ====
section
/-! DEFINITION. The instructions: one constructor per row of spec/opcode_table.json, in the table's order, with every bit of
the row's word that the row does not fix as an operand. -/

namespace Sys2Proof

/-- The two input languages of the engine (00_scope.md rule R4): the host's command words and the selectors of the wire
format. A command carries the bits the spec reserves too (`f`, `rsv0`, `rsv1` of 30_encoding.md rule R301), because a
nonzero one has an effect of its own (46_commands.md rule R704). -/
inductive Instr where
  -- CMD64
  /-- RESET: bits [63:8] are ignored (46_commands.md rule R710). -/
  | reset (ignored : BitVec 56)
  /-- FRAME_BEGIN: window size `a`, use-dictionary flag `f` (46_commands.md rule R711). -/
  | frameBegin (f : Bool) (rsv0 : BitVec 7) (a : Word32) (rsv1 : BitVec 16)
  /-- INPUT_COMMIT of `n` bytes (46_commands.md rule R715). -/
  | inputCommit (f : Bool) (rsv0 : BitVec 7) (n : Word32) (rsv1 : BitVec 16)
  /-- OUTPUT_COMMIT of `n` bytes (46_commands.md rule R716). -/
  | outputCommit (f : Bool) (rsv0 : BitVec 7) (n : Word32) (rsv1 : BitVec 16)
  /-- CONSUME of `n` bytes (46_commands.md rule R717). -/
  | consume (f : Bool) (rsv0 : BitVec 7) (n : Word32) (rsv1 : BitVec 16)
  /-- BLOCK with the header in `a[23:0]` (46_commands.md rule R720). -/
  | block (f : Bool) (rsv0 : BitVec 7) (a : Word32) (rsv1 : BitVec 16)
  /-- The reserved opcodes 0x06 to 0xFF (46_commands.md rule R706). -/
  | reservedOpcode (op : Byte) (f : Bool) (rsv0 : BitVec 7) (a : Word32) (rsv1 : BitVec 16)
  -- BLOCK_HEADER24
  /-- A Raw block (30_encoding.md rule R311, 45_window.md rule R654). -/
  | blkRaw (last : Bool) (size : BitVec 21)
  /-- An RLE block (30_encoding.md rule R311, 45_window.md rule R654). -/
  | blkRle (last : Bool) (size : BitVec 21)
  /-- A compressed block (30_encoding.md rule R311, 45_window.md rule R655). -/
  | blkCompressed (last : Bool) (size : BitVec 21)
  /-- Block kind 3 (46_commands.md rule R721). -/
  | blkReserved (last : Bool) (size : BitVec 21)
  -- LITERALS_HEADER_BYTE0 (30_encoding.md rules R320 to R322); `s` is the size bits of the first byte
  | litRawSf02 (s : BitVec 5)
  | litRawSf1 (s : BitVec 4)
  | litRawSf3 (s : BitVec 4)
  | litRleSf02 (s : BitVec 5)
  | litRleSf1 (s : BitVec 4)
  | litRleSf3 (s : BitVec 4)
  | litCompressedSf0 (s : BitVec 4)
  | litCompressedSf1 (s : BitVec 4)
  | litCompressedSf2 (s : BitVec 4)
  | litCompressedSf3 (s : BitVec 4)
  | litTreelessSf0 (s : BitVec 4)
  | litTreelessSf1 (s : BitVec 4)
  | litTreelessSf2 (s : BitVec 4)
  | litTreelessSf3 (s : BitVec 4)
  -- HUFFMAN_HEADER_BYTE (30_encoding.md rule R323)
  /-- Direct weights: the header is `128 + n` (42_huffman.md rule R501). -/
  | hufDirect (n : BitVec 7)
  /-- FSE-coded weights in `h` bytes (42_huffman.md rule R502). -/
  | hufFse (h : BitVec 7)
  -- SEQ_COUNT_BYTE0 (30_encoding.md rule R331)
  | seqCountZero
  /-- The count is `c`, not 0 (44_sequences.md rule R601). -/
  | seqCountShort (c : BitVec 7)
  /-- The first byte is `128 + c`, not 255 (44_sequences.md rule R601). -/
  | seqCountMedium (c : BitVec 7)
  | seqCountLong
  -- SEQ_MODES_BYTE (30_encoding.md rule R332); `x` is the other fields' mode bits, the higher field first
  | seqModeLlPredefined (x : BitVec 4)
  | seqModeLlRle (x : BitVec 4)
  | seqModeLlFse (x : BitVec 4)
  | seqModeLlRepeat (x : BitVec 4)
  | seqModeOfPredefined (x : BitVec 4)
  | seqModeOfRle (x : BitVec 4)
  | seqModeOfFse (x : BitVec 4)
  | seqModeOfRepeat (x : BitVec 4)
  | seqModeMlPredefined (x : BitVec 4)
  | seqModeMlRle (x : BitVec 4)
  | seqModeMlFse (x : BitVec 4)
  | seqModeMlRepeat (x : BitVec 4)
  /-- Nonzero reserved bits `r` (44_sequences.md rule R603); `x` is bits [7:2]. -/
  | seqModesReserved (r : BitVec 2) (x : BitVec 6)
  deriving DecidableEq, Repr

end Sys2Proof
end

