-- ==== Sys2Proof/WellFormed.lean ====
section
/-! DEFINITION. Which instructions are words of their row: the bits the table's row fixes are as it fixes them, and the
operand lies in the row's range. An instruction that fails a check here is still executed: its effect is the error the spec
gives such a word (46_commands.md rule R704). -/

namespace Sys2Proof

/-- The reserved bits of a command word that takes no flag are 0 (30_encoding.md rules R301 and R302). -/
def reservedBitsClear (f : Bool) (rsv0 : BitVec 7) (rsv1 : BitVec 16) : Bool :=
  !f && rsv0 == 0 && rsv1 == 0

/-- The instruction is a word of its row of spec/opcode_table.json. -/
def Instr.wf : Instr → Bool
  | .reset _ => true
  | .frameBegin _ rsv0 _ rsv1 => rsv0 == 0 && rsv1 == 0
  | .inputCommit f rsv0 _ rsv1 => reservedBitsClear f rsv0 rsv1
  | .outputCommit f rsv0 _ rsv1 => reservedBitsClear f rsv0 rsv1
  | .consume f rsv0 _ rsv1 => reservedBitsClear f rsv0 rsv1
  | .block f rsv0 _ rsv1 => reservedBitsClear f rsv0 rsv1
  | .reservedOpcode op _ _ _ _ => decide (6 ≤ op.toNat)
  | .blkRaw _ _ => true
  | .blkRle _ _ => true
  | .blkCompressed _ _ => true
  | .blkReserved _ _ => true
  | .litRawSf02 _ => true
  | .litRawSf1 _ => true
  | .litRawSf3 _ => true
  | .litRleSf02 _ => true
  | .litRleSf1 _ => true
  | .litRleSf3 _ => true
  | .litCompressedSf0 _ => true
  | .litCompressedSf1 _ => true
  | .litCompressedSf2 _ => true
  | .litCompressedSf3 _ => true
  | .litTreelessSf0 _ => true
  | .litTreelessSf1 _ => true
  | .litTreelessSf2 _ => true
  | .litTreelessSf3 _ => true
  | .hufDirect _ => true
  | .hufFse _ => true
  | .seqCountZero => true
  | .seqCountShort c => c != 0
  | .seqCountMedium c => c != 127
  | .seqCountLong => true
  | .seqModeLlPredefined _ => true
  | .seqModeLlRle _ => true
  | .seqModeLlFse _ => true
  | .seqModeLlRepeat _ => true
  | .seqModeOfPredefined _ => true
  | .seqModeOfRle _ => true
  | .seqModeOfFse _ => true
  | .seqModeOfRepeat _ => true
  | .seqModeMlPredefined _ => true
  | .seqModeMlRle _ => true
  | .seqModeMlFse _ => true
  | .seqModeMlRepeat _ => true
  | .seqModesReserved r _ => r != 0

end Sys2Proof
end

