-- ==== Sys2Proof/Decode.lean ====
section
/-! DEFINITION. Decoding and encoding of the two input languages (30_encoding.md): the 64-bit command word, the 24-bit block
header and the one-byte selectors of the wire format; then the encoder, written from the same encodings; then the host's
decoding of a table word. -/

namespace Sys2Proof

/-! ## Bytes and words -/

/-- The `n` little-endian bytes of `v`, the lowest first (20_memory.md rule R208, 00_scope.md rule R28). -/
def leBytes : Nat → Nat → List Byte
  | 0, _ => []
  | n + 1, v => BitVec.ofNat 8 v :: leBytes n (v / 256)

/-- The little-endian integer that bytes form (20_memory.md rule R208). -/
def leValue : List Byte → Nat
  | [] => 0
  | b :: bs => b.toNat + 256 * leValue bs

/-- How many bytes a word of the format has (30_encoding.md rule R352). -/
def formatBytes : Format → Nat
  | .cmd64 => 8
  | .blockHeader24 => 3
  | .selector _ => 1

/-! ## Fields (30_encoding.md rules R301 and R310) -/

/-- OP, bits [7:0] of a command word. -/
def cmdOp (w : Word64) : Byte := w.extractLsb' 0 8
/-- F, bit [8] of a command word. -/
def cmdF (w : Word64) : Bool := w.getLsbD 8
/-- RSV0, bits [15:9] of a command word. -/
def cmdRsv0 (w : Word64) : BitVec 7 := w.extractLsb' 9 7
/-- A, bits [47:16] of a command word. -/
def cmdA (w : Word64) : Word32 := w.extractLsb' 16 32
/-- RSV1, bits [63:48] of a command word. -/
def cmdRsv1 (w : Word64) : BitVec 16 := w.extractLsb' 48 16

/-- `last`, bit [0] of a block header. -/
def hdrLast (h : BitVec 24) : Bool := h.getLsbD 0
/-- `kind`, bits [2:1] of a block header. -/
def hdrKind (h : BitVec 24) : BitVec 2 := h.extractLsb' 1 2
/-- `size`, bits [23:3] of a block header. -/
def hdrSize (h : BitVec 24) : BitVec 21 := h.extractLsb' 3 21

/-! ## Decoding -/

/-- The opcode map (30_encoding.md rule R302, 46_commands.md rule R701). -/
def decodeCmd (w : Word64) : Instr :=
  match (cmdOp w).toNat with
  | 0 => .reset (w.extractLsb' 8 56)
  | 1 => .frameBegin (cmdF w) (cmdRsv0 w) (cmdA w) (cmdRsv1 w)
  | 2 => .inputCommit (cmdF w) (cmdRsv0 w) (cmdA w) (cmdRsv1 w)
  | 3 => .outputCommit (cmdF w) (cmdRsv0 w) (cmdA w) (cmdRsv1 w)
  | 4 => .consume (cmdF w) (cmdRsv0 w) (cmdA w) (cmdRsv1 w)
  | 5 => .block (cmdF w) (cmdRsv0 w) (cmdA w) (cmdRsv1 w)
  | _ => .reservedOpcode (cmdOp w) (cmdF w) (cmdRsv0 w) (cmdA w) (cmdRsv1 w)

/-- The block kinds (30_encoding.md rule R311). -/
def decodeBlockHeader (h : BitVec 24) : Instr :=
  match (hdrKind h).toNat with
  | 0 => .blkRaw (hdrLast h) (hdrSize h)
  | 1 => .blkRle (hdrLast h) (hdrSize h)
  | 2 => .blkCompressed (hdrLast h) (hdrSize h)
  | _ => .blkReserved (hdrLast h) (hdrSize h)

/-- The literals types and size formats: `ltype` is bits [1:0], `sf` is bits [3:2] (30_encoding.md rules R320 to R322).
For `ltype` 0 and 1, bit 3 of the size formats 0 and 2 is a size bit (rule R321). -/
def decodeLiteralsByte (b : Byte) : Instr :=
  let s4 : BitVec 4 := b.extractLsb' 4 4
  let s5 : BitVec 5 := b.extractLsb' 3 5
  match (b.extractLsb' 0 4).toNat with
  | 0 => .litRawSf02 s5
  | 1 => .litRleSf02 s5
  | 2 => .litCompressedSf0 s4
  | 3 => .litTreelessSf0 s4
  | 4 => .litRawSf1 s4
  | 5 => .litRleSf1 s4
  | 6 => .litCompressedSf1 s4
  | 7 => .litTreelessSf1 s4
  | 8 => .litRawSf02 s5
  | 9 => .litRleSf02 s5
  | 10 => .litCompressedSf2 s4
  | 11 => .litTreelessSf2 s4
  | 12 => .litRawSf3 s4
  | 13 => .litRleSf3 s4
  | 14 => .litCompressedSf3 s4
  | _ => .litTreelessSf3 s4

/-- The two forms of a Huffman table description (30_encoding.md rule R323). -/
def decodeHuffmanByte (b : Byte) : Instr :=
  if 128 ≤ b.toNat then .hufDirect (b.extractLsb' 0 7) else .hufFse (b.extractLsb' 0 7)

/-- The four forms of the sequence count (30_encoding.md rule R331). -/
def decodeSeqCountByte (b : Byte) : Instr :=
  if b.toNat = 0 then .seqCountZero
  else if b.toNat < 128 then .seqCountShort (b.extractLsb' 0 7)
  else if b.toNat < 255 then .seqCountMedium (b.extractLsb' 0 7)
  else .seqCountLong

/-- The mode of one field in a modes byte: LL is bits [7:6], OF [5:4], ML [3:2] (30_encoding.md rule R332). -/
def seqModeOf (f : SeqField) (b : Byte) : Nat :=
  match f with
  | .ll => (b.extractLsb' 6 2).toNat
  | .oft => (b.extractLsb' 4 2).toNat
  | .ml => (b.extractLsb' 2 2).toNat

/-- The mode bits of a modes byte that are not the field's, the higher field first. -/
def seqModeOthers (f : SeqField) (b : Byte) : BitVec 4 :=
  match f with
  | .ll => b.extractLsb' 2 4
  | .oft => b.extractLsb' 6 2 ++ b.extractLsb' 2 2
  | .ml => b.extractLsb' 4 4

/-- A modes byte as it concerns one field (30_encoding.md rule R332); bits [1:0] are checked first (44_sequences.md rule
R603). -/
def decodeSeqModesByte (f : SeqField) (b : Byte) : Instr :=
  if (b.extractLsb' 0 2) = 0 then
    match f, seqModeOf f b with
    | .ll, 0 => .seqModeLlPredefined (seqModeOthers f b)
    | .ll, 1 => .seqModeLlRle (seqModeOthers f b)
    | .ll, 2 => .seqModeLlFse (seqModeOthers f b)
    | .ll, _ => .seqModeLlRepeat (seqModeOthers f b)
    | .oft, 0 => .seqModeOfPredefined (seqModeOthers f b)
    | .oft, 1 => .seqModeOfRle (seqModeOthers f b)
    | .oft, 2 => .seqModeOfFse (seqModeOthers f b)
    | .oft, _ => .seqModeOfRepeat (seqModeOthers f b)
    | .ml, 0 => .seqModeMlPredefined (seqModeOthers f b)
    | .ml, 1 => .seqModeMlRle (seqModeOthers f b)
    | .ml, 2 => .seqModeMlFse (seqModeOthers f b)
    | .ml, _ => .seqModeMlRepeat (seqModeOthers f b)
  else .seqModesReserved (b.extractLsb' 0 2) (b.extractLsb' 2 6)

/-- The instruction a selector byte is, in the structure the engine stands at: total, every byte has one. -/
def decodeSelector (k : Selector) (b : Byte) : Instr :=
  match k with
  | .literals => decodeLiteralsByte b
  | .huffman => decodeHuffmanByte b
  | .seqCount => decodeSeqCountByte b
  | .seqModes f => decodeSeqModesByte f b

/-- The instruction a word of the format is: total, every word of every format has one. -/
def decodeWord (fmt : Format) (w : Nat) : Instr :=
  match fmt with
  | .cmd64 => decodeCmd (BitVec.ofNat 64 w)
  | .blockHeader24 => decodeBlockHeader (BitVec.ofNat 24 w)
  | .selector k => decodeSelector k (BitVec.ofNat 8 w)

/-- Why bytes are no instruction of a format. -/
inductive DecodeReject where
  /-- Fewer bytes than a word of the format has. -/
  | truncated
  deriving DecidableEq, Repr

/-- The instruction at the head of `bs` in the format, with the bytes after it; bytes shorter than a word are rejected. -/
def decode (fmt : Format) (bs : List Byte) : Except DecodeReject (Instr × List Byte) :=
  if bs.length < formatBytes fmt then .error .truncated
  else .ok (decodeWord fmt (leValue (bs.take (formatBytes fmt))), bs.drop (formatBytes fmt))

/-! ## Encoding -/

/-- The format of an instruction's row. -/
def formatOf : Instr → Format
  | .reset _ => .cmd64
  | .frameBegin _ _ _ _ => .cmd64
  | .inputCommit _ _ _ _ => .cmd64
  | .outputCommit _ _ _ _ => .cmd64
  | .consume _ _ _ _ => .cmd64
  | .block _ _ _ _ => .cmd64
  | .reservedOpcode _ _ _ _ _ => .cmd64
  | .blkRaw _ _ => .blockHeader24
  | .blkRle _ _ => .blockHeader24
  | .blkCompressed _ _ => .blockHeader24
  | .blkReserved _ _ => .blockHeader24
  | .litRawSf02 _ => .selector .literals
  | .litRawSf1 _ => .selector .literals
  | .litRawSf3 _ => .selector .literals
  | .litRleSf02 _ => .selector .literals
  | .litRleSf1 _ => .selector .literals
  | .litRleSf3 _ => .selector .literals
  | .litCompressedSf0 _ => .selector .literals
  | .litCompressedSf1 _ => .selector .literals
  | .litCompressedSf2 _ => .selector .literals
  | .litCompressedSf3 _ => .selector .literals
  | .litTreelessSf0 _ => .selector .literals
  | .litTreelessSf1 _ => .selector .literals
  | .litTreelessSf2 _ => .selector .literals
  | .litTreelessSf3 _ => .selector .literals
  | .hufDirect _ => .selector .huffman
  | .hufFse _ => .selector .huffman
  | .seqCountZero => .selector .seqCount
  | .seqCountShort _ => .selector .seqCount
  | .seqCountMedium _ => .selector .seqCount
  | .seqCountLong => .selector .seqCount
  | .seqModeLlPredefined _ => .selector (.seqModes .ll)
  | .seqModeLlRle _ => .selector (.seqModes .ll)
  | .seqModeLlFse _ => .selector (.seqModes .ll)
  | .seqModeLlRepeat _ => .selector (.seqModes .ll)
  | .seqModeOfPredefined _ => .selector (.seqModes .oft)
  | .seqModeOfRle _ => .selector (.seqModes .oft)
  | .seqModeOfFse _ => .selector (.seqModes .oft)
  | .seqModeOfRepeat _ => .selector (.seqModes .oft)
  | .seqModeMlPredefined _ => .selector (.seqModes .ml)
  | .seqModeMlRle _ => .selector (.seqModes .ml)
  | .seqModeMlFse _ => .selector (.seqModes .ml)
  | .seqModeMlRepeat _ => .selector (.seqModes .ml)
  | .seqModesReserved _ _ => .selector (.seqModes .ll)

/-- A command word from its fields (30_encoding.md rule R301). -/
def cmdWord (op : Byte) (f : Bool) (rsv0 : BitVec 7) (a : Word32) (rsv1 : BitVec 16) : Word64 :=
  rsv1 ++ a ++ rsv0 ++ BitVec.ofBool f ++ op

/-- A block header from its fields (30_encoding.md rule R310). -/
def hdrWord (last : Bool) (kind : BitVec 2) (size : BitVec 21) : BitVec 24 :=
  size ++ kind ++ BitVec.ofBool last

/-- A modes byte with mode `m` in the field's bits, the other fields' bits `x` and reserved bits 0 (30_encoding.md rule
R332). -/
def modesByte (f : SeqField) (m : BitVec 2) (x : BitVec 4) : Byte :=
  match f with
  | .ll => m ++ x ++ (0#2)
  | .oft => x.extractLsb' 2 2 ++ m ++ x.extractLsb' 0 2 ++ (0#2)
  | .ml => x ++ m ++ (0#2)

/-- The word of an instruction, in its row's format, as a number whose bit 0 is the least significant bit. -/
def encodeWord : Instr → Nat
  | .reset ignored => (ignored ++ (0x00#8)).toNat
  | .frameBegin f rsv0 a rsv1 => (cmdWord 0x01#8 f rsv0 a rsv1).toNat
  | .inputCommit f rsv0 n rsv1 => (cmdWord 0x02#8 f rsv0 n rsv1).toNat
  | .outputCommit f rsv0 n rsv1 => (cmdWord 0x03#8 f rsv0 n rsv1).toNat
  | .consume f rsv0 n rsv1 => (cmdWord 0x04#8 f rsv0 n rsv1).toNat
  | .block f rsv0 a rsv1 => (cmdWord 0x05#8 f rsv0 a rsv1).toNat
  | .reservedOpcode op f rsv0 a rsv1 => (cmdWord op f rsv0 a rsv1).toNat
  | .blkRaw last size => (hdrWord last 0#2 size).toNat
  | .blkRle last size => (hdrWord last 1#2 size).toNat
  | .blkCompressed last size => (hdrWord last 2#2 size).toNat
  | .blkReserved last size => (hdrWord last 3#2 size).toNat
  | .litRawSf02 s => (s ++ (0b000#3)).toNat
  | .litRawSf1 s => (s ++ (0b0100#4)).toNat
  | .litRawSf3 s => (s ++ (0b1100#4)).toNat
  | .litRleSf02 s => (s ++ (0b001#3)).toNat
  | .litRleSf1 s => (s ++ (0b0101#4)).toNat
  | .litRleSf3 s => (s ++ (0b1101#4)).toNat
  | .litCompressedSf0 s => (s ++ (0b0010#4)).toNat
  | .litCompressedSf1 s => (s ++ (0b0110#4)).toNat
  | .litCompressedSf2 s => (s ++ (0b1010#4)).toNat
  | .litCompressedSf3 s => (s ++ (0b1110#4)).toNat
  | .litTreelessSf0 s => (s ++ (0b0011#4)).toNat
  | .litTreelessSf1 s => (s ++ (0b0111#4)).toNat
  | .litTreelessSf2 s => (s ++ (0b1011#4)).toNat
  | .litTreelessSf3 s => (s ++ (0b1111#4)).toNat
  | .hufDirect n => ((1#1) ++ n).toNat
  | .hufFse h => ((0#1) ++ h).toNat
  | .seqCountZero => 0
  | .seqCountShort c => ((0#1) ++ c).toNat
  | .seqCountMedium c => ((1#1) ++ c).toNat
  | .seqCountLong => 255
  | .seqModeLlPredefined x => (modesByte .ll 0#2 x).toNat
  | .seqModeLlRle x => (modesByte .ll 1#2 x).toNat
  | .seqModeLlFse x => (modesByte .ll 2#2 x).toNat
  | .seqModeLlRepeat x => (modesByte .ll 3#2 x).toNat
  | .seqModeOfPredefined x => (modesByte .oft 0#2 x).toNat
  | .seqModeOfRle x => (modesByte .oft 1#2 x).toNat
  | .seqModeOfFse x => (modesByte .oft 2#2 x).toNat
  | .seqModeOfRepeat x => (modesByte .oft 3#2 x).toNat
  | .seqModeMlPredefined x => (modesByte .ml 0#2 x).toNat
  | .seqModeMlRle x => (modesByte .ml 1#2 x).toNat
  | .seqModeMlFse x => (modesByte .ml 2#2 x).toNat
  | .seqModeMlRepeat x => (modesByte .ml 3#2 x).toNat
  | .seqModesReserved r x => (x ++ r).toNat

/-- The bytes of an instruction, the lowest address first. -/
def encode (i : Instr) : List Byte :=
  leBytes (formatBytes (formatOf i)) (encodeWord i)

/-! ## The host's decoding of a table word -/

/-- The structure a lone 8-bit word of the table is read in: the table tells its 8-bit formats apart by row, not by bits, so
the model fixes one per byte (log 3). The word a row has with its free bits 0 is read in that row's format, the first such
row of the table winning; every other byte is read as a literals header, the first byte of a payload. -/
def tableSelector (w : Nat) : Selector :=
  match w with
  | 0x80 => .huffman
  | 0xFF => .seqCount
  | 0x40 => .seqModes .ll
  | 0xC0 => .seqModes .ll
  | 0x10 => .seqModes .oft
  | 0x20 => .seqModes .oft
  | 0x30 => .seqModes .oft
  | 0x08 => .seqModes .ml
  | _ => .literals

/-- The format of a table word of `nbits` bits (log 3). -/
def tableFormat (nbits w : Nat) : Option Format :=
  match nbits with
  | 64 => some .cmd64
  | 24 => some .blockHeader24
  | 8 => some (.selector (tableSelector w))
  | _ => none

/-- The instruction the decoder reads from a table word: the word's bytes are laid out little-endian and given to
`decode`. -/
def decodeTableWord (nbits w : Nat) : Option Instr :=
  match tableFormat nbits w with
  | none => none
  | some fmt =>
    match decode fmt (leBytes (formatBytes fmt) w) with
    | .ok (i, _) => some i
    | .error _ => none

end Sys2Proof
end

