-- ==== Sys2Proof/Machine/State.lean ====
section
/-! DEFINITION. The state of the engine, as plain data: every register of 10_state.md, the buffers, the command-internal
registers, the instance's parameters, and the model's own fields (the host's pending accesses, the data of the last host
read, the wire structure to fetch, the counters of the free values). The reasons a step can stop, and the reset state. -/

namespace Sys2Proof.Machine

/-! ## Registers with named values -/

/-- The frame state register (10_state.md rule R103). -/
inductive Fsm where
  | idle
  | active
  | done
  | failed
  deriving DecidableEq, Repr

/-- RESULT, the outcome of the last command (10_state.md rule R115). -/
inductive CmdResult where
  | ok
  | notYet
  | error
  deriving DecidableEq, Repr

/-- The error kinds (60_exceptions.md rule R802). -/
inductive ErrKind where
  | none
  | malformedSize
  | reservedFieldUsed
  | badMagic
  | outOfRange
  | corruption
  | starvation
  deriving DecidableEq, Repr

/-- The error sites (60_exceptions.md rule R806). -/
inductive Site where
  | none
  | frWidth
  | frOverrun
  | frRewind
  | frUnaligned
  | brWidth
  | brEmpty
  | brNoMarker
  | frAlign
  | fseAcc
  | fseNsym
  | fseSum
  | fseSpread
  | fseHdrAcc
  | fseHdrNsym
  | fseHdrSum
  | hufNweights
  | hufWeight
  | hufNoweight
  | hufLeftover
  | hufMaxlen
  | hufRank
  | hufEnd
  | litSize
  | litNoTable
  | litCount
  | seqTrailing
  | seqModes
  | seqNoTable
  | seqLlCode
  | seqMlCode
  | seqEnd
  | seqLitOverrun
  | offsetZero
  | offsetRange
  | blkOperand
  | blkKind
  | blkSize
  | blkOut
  | fbWindow
  | fbCap
  | fbNoDict
  | inCommit
  | outCommit
  | consume
  | illegalCmd
  | cmdReserved
  deriving DecidableEq, Repr

/-! ## Command-internal registers (10_state.md section 6) -/

/-- Which memory a forward reader reads (10_state.md rule R122). -/
inductive ReaderSpace where
  | inp
  | lb
  deriving DecidableEq, Repr

/-- The forward reader (10_state.md rule R122): `pos` is a bit position from `base`. -/
structure Fr where
  space : ReaderSpace
  base  : Nat
  len   : Nat
  pos   : Nat
  deriving DecidableEq, Repr

/-- The backward reader (10_state.md rule R123): `pos` is a signed bit position from `base`. -/
structure Br where
  base : Nat
  len  : Nat
  pos  : Int
  deriving DecidableEq, Repr

/-- One entry of the sequence buffer (10_state.md rule R126). -/
structure SeqEntry where
  ll  : Nat
  ml  : Nat
  ofv : Nat
  deriving DecidableEq, Repr

/-- The command-internal registers (10_state.md rules R122 to R127; log 4). `lb` holds LB[0 .. N_LIT-1], `sb` the decoded
entries of SB, `hw` the entries of HW that a table description has written: the `nW` weights read from the stream, then the
implied last weight HW[N_W] once HUF.BUILD has run (42_huffman.md rule R504). The count N_LIT is the length of `lb`. -/
structure Dp where
  fr   : Fr
  br   : Br
  sLL  : Nat
  sOF  : Nat
  sML  : Nat
  s1   : Nat
  s2   : Nat
  sHuf : Nat
  lb   : List Byte
  lp   : Nat
  nSeq : Nat
  sb   : List SeqEntry
  hw   : List Nat
  nW   : Nat
  tW   : Option FseTable
  tLit : Option HufTable
  tLL  : Option FseTable
  tOF  : Option FseTable
  tML  : Option FseTable
  deriving DecidableEq, Repr

/-- The command-internal registers between commands: no value of a command survives it (10_state.md rule R128). The values
are the model's (log 4). -/
def Dp.idle : Dp :=
  { fr := { space := .inp, base := 0, len := 0, pos := 0 }, br := { base := 0, len := 0, pos := 0 },
    sLL := 0, sOF := 0, sML := 0, s1 := 0, s2 := 0, sHuf := 0, lb := [], lp := 0, nSeq := 0, sb := [], hw := [],
    nW := 0, tW := none, tLit := none, tLL := none, tOF := none, tML := none }

/-! ## Memory and the host -/

/-- Memory: the listed bytes, addresses strictly rising. An unlisted address holds no defined value (log 5, log 6). -/
abbrev Memory := List Host.Cell

/-- PREV_FSE, one optional table per sequence field (10_state.md rule R108). -/
structure PrevFse where
  ll  : Option FseTable
  oft : Option FseTable
  ml  : Option FseTable
  deriving DecidableEq, Repr

/-- One access of the host (00_scope.md rule R10, 20_memory.md section 1); offsets are within the space (log 1). -/
inductive HostAccess where
  /-- A write of `width` bytes at `off` of the CSR space; one of 8 bytes at 0 is a command (10_state.md rule R121). -/
  | csrWrite (off width : Nat) (value : Word64)
  /-- A read of `width` bytes at `off` of the CSR space. -/
  | csrRead (off width : Nat)
  /-- A write of bytes at `off` of IN (20_memory.md rule R203). -/
  | inWrite (off : Nat) (bytes : List Byte)
  /-- A read of IN, which the host may not do (20_memory.md rule R203). -/
  | inRead (off len : Nat)
  /-- A read of `len` bytes at `off` of WIN (20_memory.md rule R204). -/
  | winRead (off len : Nat)
  /-- A write to WIN, which the host may not do (20_memory.md rule R204). -/
  | winWrite (off : Nat) (bytes : List Byte)
  deriving DecidableEq, Repr

/-- The machine's state. The first group is the persistent state of 10_state.md sections 2 to 5, the second the
command-internal registers, the third the configuration, the fourth the model's own fields. -/
structure State where
  /-- FSM, rule R103. -/
  fsm : Fsm
  /-- W, rule R104. -/
  w : Nat
  /-- DICT_ACTIVE, rule R105. -/
  dictActive : Bool
  /-- REP[0..2], rule R106. -/
  rep : RepOffsets
  /-- PREV_HUF, rule R107. -/
  prevHuf : Option HufTable
  /-- PREV_FSE, rule R108. -/
  prevFse : PrevFse
  /-- IN, rule R109. -/
  inp : Memory
  /-- I_END, rule R110. -/
  iEnd : Nat
  /-- WIN, rule R111. -/
  win : Memory
  /-- W_START, rule R112. -/
  wStart : Nat
  /-- W_END, rule R112. -/
  wEnd : Nat
  /-- DRAINED, rule R113. -/
  drained : Nat
  /-- RESULT, rule R115. -/
  result : CmdResult
  /-- NEED_INPUT, rule R116. -/
  needInput : Bool
  /-- NEED_DRAIN, rule R116. -/
  needDrain : Bool
  /-- ERR_KIND, rule R117. -/
  errKind : ErrKind
  /-- ERR_SITE, rule R117. -/
  errSite : Site
  /-- The command-internal registers, rules R122 to R128. -/
  dp : Dp
  /-- The parameters of the instance, rule R100 (d). -/
  params : Params
  /-- The host accesses to come, the next first (log 1). -/
  host : List HostAccess
  /-- The bytes the last host read returned (log 25). -/
  hostData : List Byte
  /-- The wire structure whose selector byte the next step fetches at the forward reader, if any (log 2). -/
  wire : Option Selector
  /-- The counter the free values of WIN and of the history are drawn with (log 6, log 7). -/
  tick : Nat
  /-- The stream position of IN[0]: how many bytes have left the front of IN, the index of free input bytes (log 5). -/
  inBase : Nat
  deriving DecidableEq, Repr

/-! ## Why a step stops -/

/-- A host access to an address that does not exist. Raised by the host accesses of Machine/HostPort.lean only; safe: the model
stops where the spec gives no access (20_memory.md rule R200; log 15). -/
inductive Fault where
  /-- A CSR access at or above 256: raised by csrWrite and csrRead; safe. -/
  | csrOutside
  /-- An IN access that reaches IN_CAP or above: raised by inWrite and inRead; safe. -/
  | inOutside
  /-- A WIN access that reaches WIN_CAP or above: raised by winRead and winWrite; safe. -/
  | winOutside
  deriving DecidableEq, Repr

/-- A step the model gives no meaning to. -/
inductive Refusal where
  /-- An instruction without a meaning: raised by no arm now; safe. -/
  | notModelled (mnemonic : String)
  /-- A host write to committed input, below I_END: raised by inWrite; safe (20_memory.md rule R203). -/
  | hostWriteCommittedInput
  /-- A host write to WIN: raised by winWrite; safe (20_memory.md rule R204). -/
  | hostWriteWindow
  /-- A host read of IN, to which the host has no read access: raised by inRead; safe (20_memory.md rule R203; log 16). -/
  | hostReadInput
  /-- A CSR access that is misaligned or not 1, 2, 4 or 8 bytes wide: raised by csrWrite and csrRead; safe
  (20_memory.md rule R212). -/
  | csrMisaligned
  /-- A match byte in the dictionary while ADMIT_DICT_MATCH is false: raised by the match copy of a compressed block; safe
  (00_scope.md rule R21, 45_window.md rule R662; log 10). -/
  | dictMatchNotAdmitted
  /-- FRAME_BEGIN with a dictionary outside the parameter domain: raised by FRAME_BEGIN with F = 1; safe
  (93_implementation_defined.md section 2; log 9). -/
  | dictOutsideDomain
  deriving DecidableEq, Repr

/-! ## Reset -/

/-- The repeat offsets after RESET and at the start of a frame without dictionary offsets (10_state.md rule R141,
46_commands.md rule R712). -/
def RepOffsets.initial : RepOffsets := { r0 := 1#64, r1 := 4#64, r2 := 8#64 }

/-- The state right after reset of an instance with the given parameters (10_state.md rule R141, 70_reset_and_hazards.md
rules R900 and R901); IN and WIN hold no defined byte. -/
def State.resetWith (p : Params) : State :=
  { fsm := .idle, w := 0, dictActive := false, rep := RepOffsets.initial, prevHuf := none,
    prevFse := { ll := none, oft := none, ml := none },
    inp := [], iEnd := 0, win := [], wStart := 0, wEnd := 0, drained := 0,
    result := .ok, needInput := false, needDrain := false, errKind := .none, errSite := .none,
    dp := Dp.idle, params := p, host := [], hostData := [], wire := none, tick := 0, inBase := 0 }

/-- The state right after reset of an instance with the default parameters (92_eei_decisions.md section 1). -/
def State.reset : State := State.resetWith Params.default

end Sys2Proof.Machine
end

