-- ==== Sys2Proof/Machine/Flags.lean ====
section
/-! DEFINITION. The codes of the named registers, the status flags and the CSR images the host reads (10_state.md section 5,
60_exceptions.md rules R802 and R806). -/

namespace Sys2Proof.Machine

/-- The encoding of FSM (10_state.md rule R103). -/
def fsmCode : Fsm → Nat
  | .idle => 0
  | .active => 1
  | .done => 2
  | .failed => 3

/-- The encoding of RESULT (10_state.md rule R115). -/
def resultCode : CmdResult → Nat
  | .ok => 0
  | .notYet => 1
  | .error => 2

/-- The encoding of ERR_KIND (60_exceptions.md rule R802). -/
def kindCode : ErrKind → Nat
  | .none => 0
  | .malformedSize => 1
  | .reservedFieldUsed => 2
  | .badMagic => 3
  | .outOfRange => 4
  | .corruption => 5
  | .starvation => 6

/-- The encoding of ERR_SITE (60_exceptions.md rule R806). -/
def siteCode : Site → Nat
  | .none => 0x00
  | .frWidth => 0x01
  | .frOverrun => 0x02
  | .frRewind => 0x03
  | .frUnaligned => 0x04
  | .brWidth => 0x05
  | .brEmpty => 0x06
  | .brNoMarker => 0x07
  | .frAlign => 0x08
  | .fseAcc => 0x10
  | .fseNsym => 0x11
  | .fseSum => 0x12
  | .fseSpread => 0x13
  | .fseHdrAcc => 0x14
  | .fseHdrNsym => 0x15
  | .fseHdrSum => 0x16
  | .hufNweights => 0x20
  | .hufWeight => 0x21
  | .hufNoweight => 0x22
  | .hufLeftover => 0x23
  | .hufMaxlen => 0x24
  | .hufRank => 0x25
  | .hufEnd => 0x26
  | .litSize => 0x30
  | .litNoTable => 0x31
  | .litCount => 0x32
  | .seqTrailing => 0x40
  | .seqModes => 0x41
  | .seqNoTable => 0x42
  | .seqLlCode => 0x43
  | .seqMlCode => 0x44
  | .seqEnd => 0x45
  | .seqLitOverrun => 0x46
  | .offsetZero => 0x47
  | .offsetRange => 0x48
  | .blkOperand => 0x50
  | .blkKind => 0x51
  | .blkSize => 0x52
  | .blkOut => 0x53
  | .fbWindow => 0x60
  | .fbCap => 0x61
  | .fbNoDict => 0x62
  | .inCommit => 0x63
  | .outCommit => 0x64
  | .consume => 0x65
  | .illegalCmd => 0x66
  | .cmdReserved => 0x67

/-- The one kind each site is raised by (60_exceptions.md rule R806). -/
def siteKind : Site → ErrKind
  | .none => .none
  | .frWidth => .malformedSize
  | .frOverrun => .corruption
  | .frRewind => .corruption
  | .frUnaligned => .corruption
  | .brWidth => .malformedSize
  | .brEmpty => .corruption
  | .brNoMarker => .corruption
  | .frAlign => .corruption
  | .fseAcc => .outOfRange
  | .fseNsym => .outOfRange
  | .fseSum => .corruption
  | .fseSpread => .corruption
  | .fseHdrAcc => .outOfRange
  | .fseHdrNsym => .corruption
  | .fseHdrSum => .corruption
  | .hufNweights => .outOfRange
  | .hufWeight => .outOfRange
  | .hufNoweight => .corruption
  | .hufLeftover => .corruption
  | .hufMaxlen => .outOfRange
  | .hufRank => .corruption
  | .hufEnd => .corruption
  | .litSize => .outOfRange
  | .litNoTable => .corruption
  | .litCount => .corruption
  | .seqTrailing => .corruption
  | .seqModes => .reservedFieldUsed
  | .seqNoTable => .corruption
  | .seqLlCode => .outOfRange
  | .seqMlCode => .outOfRange
  | .seqEnd => .corruption
  | .seqLitOverrun => .corruption
  | .offsetZero => .corruption
  | .offsetRange => .outOfRange
  | .blkOperand => .reservedFieldUsed
  | .blkKind => .reservedFieldUsed
  | .blkSize => .outOfRange
  | .blkOut => .outOfRange
  | .fbWindow => .outOfRange
  | .fbCap => .outOfRange
  | .fbNoDict => .starvation
  | .inCommit => .starvation
  | .outCommit => .starvation
  | .consume => .starvation
  | .illegalCmd => .starvation
  | .cmdReserved => .reservedFieldUsed

/-- A flag as a number. -/
def bit (b : Bool) : Nat := if b then 1 else 0

/-- STATUS.NEEDS_FLUSH (10_state.md rule R119). -/
def needsFlush (s : State) : Bool :=
  decide (s.wStart < s.wEnd) && (s.needDrain || s.iEnd == s.params.inCap)

/-- STATUS (10_state.md rule R118). -/
def statusImage (s : State) : Nat :=
  resultCode s.result + 2 ^ 2 * bit s.needInput + 2 ^ 3 * bit s.needDrain + 2 ^ 4 * fsmCode s.fsm +
    2 ^ 7 * bit s.dictActive + 2 ^ 8 * bit (needsFlush s)

/-- ERR (10_state.md rule R118). -/
def errImage (s : State) : Nat :=
  kindCode s.errKind + 2 ^ 8 * siteCode s.errSite

/-- The frame position `T` between commands (10_state.md rule R131). -/
def framePos (s : State) : Nat := s.drained + s.wEnd

/-- The readable registers: offset, width in bytes, value (10_state.md rule R118). Every other byte of the space, CMD's
included, reads 0 (rule R121). -/
def csrImages (s : State) : List (Nat × Nat × Nat) :=
  [(0x08, 4, statusImage s),
   (0x0C, 4, errImage s),
   (0x10, 4, s.iEnd),
   (0x14, 4, s.params.inCap - s.iEnd),
   (0x18, 4, s.iEnd),
   (0x20, 4, s.wStart),
   (0x24, 4, s.wEnd - s.wStart),
   (0x28, 8, s.drained),
   (0x30, 4, s.w),
   (0x38, 8, s.rep.r0.toNat),
   (0x40, 8, s.rep.r1.toNat),
   (0x48, 8, s.rep.r2.toNat),
   (0x50, 4, s.params.winCap),
   (0x54, 4, s.params.inCap),
   (0x58, 4, s.params.maxBlock)]

/-- The byte at offset `a` of the CSR space: bits `[8(a - off) + 7 : 8(a - off)]` of the register there (20_memory.md rule
R208), 0 where there is none (10_state.md rule R121). -/
def csrByte (s : State) (a : Nat) : Byte :=
  match (csrImages s).find? (fun r => decide (r.1 ≤ a) && decide (a < r.1 + r.2.1)) with
  | some r => BitVec.ofNat 8 (r.2.2 >>> (8 * (a - r.1)))
  | none => 0

/-- The `n` bytes of the CSR space from offset `a`. -/
def csrBytes (s : State) (a : Nat) : Nat → List Byte
  | 0 => []
  | n + 1 => csrByte s a :: csrBytes s (a + 1) n

end Sys2Proof.Machine
end

