-- ==== Sys2Proof/Machine/Ops.lean ====
section
/-! DEFINITION. The operations the meanings share: memory, the buffers, the end of a command, error entry (the engine's one
exception, 60_exceptions.md rule R801) and the steps common to every command (46_commands.md rule R702). -/

namespace Sys2Proof.Machine

/-! ## Integers -/

/-- The index of the highest set bit of `x ≥ 1` (00_scope.md rule R26). -/
def hsb (x : Nat) : Nat := Nat.log2 x

/-! ## Memory -/

/-- The canonical form: addresses strictly rising. -/
def Memory.wf (m : Memory) : Bool := decide (List.Pairwise (fun x y => x.1 < y.1) m)

/-- The byte at an address, if it holds a defined one. -/
def Memory.get : Memory → Nat → Option Byte
  | [], _ => none
  | (k, b) :: m, a => if a = k then some b else Memory.get m a

/-- Write one byte (00_scope.md rule R28). -/
def Memory.set : Memory → Nat → Byte → Memory
  | [], a, v => [(a, v)]
  | (k, b) :: m, a, v =>
    if a < k then (a, v) :: (k, b) :: m
    else if a = k then (a, v) :: m
    else (k, b) :: Memory.set m a v

/-- The cells of bytes at rising addresses. -/
def cellsFrom : Nat → List Byte → Memory
  | _, [] => []
  | a, v :: vs => (a, v) :: cellsFrom (a + 1) vs

/-- Write bytes at rising addresses from `a`. -/
def Memory.setMany (m : Memory) (a : Nat) (vs : List Byte) : Memory :=
  m.filter (fun c => decide (c.1 < a)) ++ cellsFrom a vs ++ m.filter (fun c => decide (a + vs.length ≤ c.1))

/-- Move the bytes of `[lo, hi)` down to offset 0, in ascending order; every other byte is unspecified afterwards
(20_memory.md rule R206, 45_window.md rule R651; log 27). -/
def Memory.slide (m : Memory) (lo hi : Nat) : Memory :=
  (m.filter (fun c => decide (lo ≤ c.1) && decide (c.1 < hi))).map (fun c => (c.1 - lo, c.2))

/-- The byte `IN[a]` the engine reads; one that was committed unwritten is any value (70_reset_and_hazards.md rule R911;
log 5). -/
def inByte (s : State) (a : Nat) : Byte :=
  (Memory.get s.inp a).getD (Config.freeInByte (s.inBase + a))

/-- The byte `WIN[a]`; one that holds no defined value is any value (20_memory.md rule R204; log 6). -/
def winByte (s : State) (a : Nat) : Byte :=
  (Memory.get s.win a).getD (Config.freeWinByte s.tick a)

/-- The `n` bytes of WIN from `a`. -/
def winBytes (s : State) (a : Nat) : Nat → List Byte
  | 0 => []
  | n + 1 => winByte s a :: winBytes s (a + 1) n

/-- The `n` bytes of IN from `a`. -/
def inBytes (s : State) (a : Nat) : Nat → List Byte
  | 0 => []
  | n + 1 => inByte s a :: inBytes s (a + 1) n

/-- CONSUME_IN(k): remove `k` bytes from the front of buffered input (20_memory.md rule R206). The fill region is
unspecified afterwards, also for `k = 0` (log 20). -/
def consumeIn (k : Nat) (s : State) : State :=
  { s with inp := Memory.slide s.inp k s.iEnd, iEnd := s.iEnd - k, inBase := s.inBase + k }

/-! ## The end of a command -/

/-- How an operation that has no result ends: with a raised error (60_exceptions.md rule R800), or without a meaning. -/
inductive Halt where
  | raised (site : Site)
  | refused (r : Refusal)
  deriving DecidableEq, Repr

/-- An internal operation of a command: its result, or how it ended without one. -/
abbrev Micro (α : Type) := Except Halt α

/-- `raise K(S)`: the kind is the site's (60_exceptions.md rules R800 and R806). -/
def raise {α : Type} (site : Site) : Micro α := .error (.raised site)

/-- What a step answers. -/
abbrev Answer := Host.Outcome State Fault Refusal

/-- ERROR_ENTRY(K, S) (60_exceptions.md rule R801). The command ends, so its internal registers are gone (10_state.md rule
R128), and the history is any value (45_window.md rule R668; log 7). -/
def errorEntry (site : Site) (s : State) : State :=
  { s with
    errKind := siteKind site, errSite := site, fsm := .failed, result := .error,
    rep := { r0 := Config.freeRep s.tick 0, r1 := Config.freeRep s.tick 1, r2 := Config.freeRep s.tick 2 },
    prevHuf := Config.freeHuf s.tick,
    prevFse := { ll := Config.freeFse s.tick .ll, oft := Config.freeFse s.tick .oft, ml := Config.freeFse s.tick .ml },
    dp := Dp.idle, tick := s.tick + 1 }

/-- The answer of an operation started in `s`: an error enters the error state from `s`, so nothing the operation did
before it stays (60_exceptions.md rule R800, 45_window.md rule R668). -/
def settle (s : State) : Micro State → Answer
  | .ok t => .next t
  | .error (.raised site) => .next (errorEntry site s)
  | .error (.refused r) => .refused r

/-- Clear the hints, the first step of every command but RESET (46_commands.md rule R703). What the free bytes of WIN hold may
change with the command (log 6). -/
def clearHints (s : State) : State := { s with needInput := false, needDrain := false, tick := s.tick + 1 }

/-- What the FAILED gate leaves (46_commands.md rule R705). -/
def gateFailed (s : State) : State := { s with result := .error }

/-- The steps common to every command but RESET (46_commands.md rules R702 to R705): clear the hints; the FAILED gate, for a
command that does not run there; the reserved bits; then the command. -/
def dispatchCommand (runsInFailed reservedClear : Bool) (body : State → Answer) (s : State) : Answer :=
  let t := clearHints s
  if t.fsm = .failed ∧ runsInFailed = false then .next (gateFailed t)
  else if reservedClear = false then .next (errorEntry .cmdReserved t)
  else body t

/-- The host's address of offset `off` in each space the host sees (20_memory.md rule R201; log 24). -/
def csrHostAddress (off : Nat) : Nat := Config.csrBase + off
/-- See `csrHostAddress`. -/
def inHostAddress (off : Nat) : Nat := Config.inBase + off
/-- See `csrHostAddress`. -/
def winHostAddress (off : Nat) : Nat := Config.winBase + off

end Sys2Proof.Machine
end

