-- ==== Sys2Proof/Machine/BitReaders.lean ====
section
/-! DEFINITION. The forward and the backward bit reader (40_bit_readers.md). A reader is a value; an operation takes it and
returns it advanced. -/

namespace Sys2Proof.Machine

/-- What the readers read: a byte of IN, or of LB, at an offset (10_state.md rule R122). -/
abbrev Source := ReaderSpace → Nat → Byte

/-- The bytes a state's readers see. No rule reads LB through a reader (10_state.md rule R122); its bytes past N_LIT hold no
defined value. -/
def source (s : State) : Source
  | .inp, a => inByte s a
  | .lb, a => s.dp.lb.getD a (Config.freeInByte a)

/-- Bit `i` of a byte sequence from `base` (00_scope.md rule R24). -/
def bitAt (src : Source) (sp : ReaderSpace) (base i : Nat) : Nat :=
  ((src sp (base + i / 8)).toNat >>> (i % 8)) % 2

/-- The `n` bits from bit position `p`, the first in bit 0 (20_memory.md rule R209). -/
def forwardBits (src : Source) (sp : ReaderSpace) (base : Nat) : Nat → Nat → Nat
  | _, 0 => 0
  | p, n + 1 => bitAt src sp base p + 2 * forwardBits src sp base (p + 1) n

/-- MemRead: the little-endian integer of `k` bytes (00_scope.md rule R28, 20_memory.md rule R208). -/
def memRead (src : Source) (sp : ReaderSpace) : Nat → Nat → Nat
  | _, 0 => 0
  | a, k + 1 => (src sp a).toNat + 256 * memRead src sp (a + 1) k

/-! ## Forward reader -/

/-- FR.MAKE (40_bit_readers.md rule R400). -/
def frMake (sp : ReaderSpace) (base len : Nat) : Fr := { space := sp, base := base, len := len, pos := 0 }

/-- FR.READ_BITS(N) (40_bit_readers.md rule R401). -/
def frReadBits (src : Source) (fr : Fr) (n : Nat) : Micro (Nat × Fr) :=
  if 32 < n then raise .frWidth
  else if n = 0 then .ok (0, fr)
  else if 8 * fr.len < fr.pos + n then raise .frOverrun
  else .ok (forwardBits src fr.space fr.base fr.pos n, { fr with pos := fr.pos + n })

/-- FR.REWIND(N) (40_bit_readers.md rule R402). -/
def frRewind (fr : Fr) (n : Nat) : Micro Fr :=
  if fr.pos < n then raise .frRewind else .ok { fr with pos := fr.pos - n }

/-- FR.ALIGN (40_bit_readers.md rule R403). -/
def frAlign (fr : Fr) : Micro Fr :=
  let np := (fr.pos + 7) / 8 * 8
  if 8 * fr.len ≤ np then raise .frAlign else .ok { fr with pos := np }

/-- FR.READ_LE(k) (40_bit_readers.md rule R404). -/
def frReadLe (src : Source) (fr : Fr) (k : Nat) : Micro (Nat × Fr) :=
  if fr.pos % 8 ≠ 0 then raise .frUnaligned
  else if fr.len < fr.pos / 8 + k then raise .frOverrun
  else .ok (memRead src fr.space (fr.base + fr.pos / 8) k, { fr with pos := fr.pos + 8 * k })

/-- FR.READ_BYTES(k): the start of the range, whose length is `k` (40_bit_readers.md rule R405). -/
def frReadBytes (fr : Fr) (k : Nat) : Micro (Nat × Fr) :=
  if fr.pos % 8 ≠ 0 then raise .frUnaligned
  else if fr.len < fr.pos / 8 + k then raise .frOverrun
  else .ok (fr.base + fr.pos / 8, { fr with pos := fr.pos + 8 * k })

/-- FR.REMAINING (40_bit_readers.md rule R406). -/
def frRemaining (fr : Fr) : Micro Nat :=
  if fr.pos % 8 ≠ 0 then raise .frUnaligned else .ok (fr.len - fr.pos / 8)

/-- FR.SUB_FORWARD(k): the sub-reader, and this reader past it (40_bit_readers.md rule R407). -/
def frSubForward (fr : Fr) (k : Nat) : Micro (Fr × Fr) := do
  let (b, fr') ← frReadBytes fr k
  return (frMake fr.space b k, fr')

/-! ## Backward reader -/

/-- BR.MAKE (40_bit_readers.md rule R420). -/
def brMake (src : Source) (base len : Nat) : Micro Br :=
  if len = 0 then raise .brEmpty
  else
    let last := (src .inp (base + len - 1)).toNat
    if last = 0 then raise .brNoMarker
    else .ok { base := base, len := len, pos := 8 * ((len : Int) - 1) + hsb last }

/-- The bits at the positions `i, i + 1, …` below `old`, the first in bit 0; a position below 0 gives 0
(40_bit_readers.md rules R421, R424 and R425). -/
def backwardBits (src : Source) (base : Nat) (old : Int) : Int → Nat → Nat
  | _, 0 => 0
  | i, n + 1 =>
    (if 0 ≤ i ∧ i < old then bitAt src .inp base i.toNat else 0) + 2 * backwardBits src base old (i + 1) n

/-- BR.READ(N, MAXN) (40_bit_readers.md rule R421). -/
def brRead (src : Source) (br : Br) (n maxn : Nat) : Micro (Nat × Br) :=
  if maxn < n then raise .brWidth
  else if n = 0 then .ok (0, br)
  else .ok (backwardBits src br.base br.pos (br.pos - n) n, { br with pos := br.pos - n })

/-- BR.READ_NARROW(N), BR_NARROW = 16 (40_bit_readers.md rule R422, 00_scope.md rule R20). -/
def brReadNarrow (src : Source) (br : Br) (n : Nat) : Micro (Nat × Br) := brRead src br n 16

/-- BR.READ_WIDE(N), BR_WIDE = 32 (40_bit_readers.md rule R423, 00_scope.md rule R20). -/
def brReadWide (src : Source) (br : Br) (n : Nat) : Micro (Nat × Br) := brRead src br n 32

/-- FR.SUB_BACKWARD(k): the backward reader, and this reader past it (40_bit_readers.md rule R408). -/
def frSubBackward (src : Source) (fr : Fr) (k : Nat) : Micro (Br × Fr) := do
  let (b, fr') ← frReadBytes fr k
  let br ← brMake src b k
  return (br, fr')

/-- FR.REST_BACKWARD (40_bit_readers.md rule R409). -/
def frRestBackward (src : Source) (fr : Fr) : Micro (Br × Fr) := do
  let n ← frRemaining fr
  frSubBackward src fr n

end Sys2Proof.Machine
end

