-- ==== Sys2Proof/Machine/Fse.lean ====
section
/-! DEFINITION. Range-coded tables (41_fse.md): building a table, reading a distribution header, the predefined
distributions, and the decoder operations. -/

namespace Sys2Proof.Machine

/-! ## Caps (00_scope.md rules R17 and R18, 41_fse.md rule R459) -/

/-- The accuracy cap of the table that codes Huffman weights. -/
def hufWeightMaxAcc : Nat := 7

/-- MAXACC of a sequence field's table: LL 9, OF 8, ML 9. -/
def seqMaxAcc : SeqField → Nat
  | .ll => 9
  | .oft => 8
  | .ml => 9

/-- FSE_MAX_SYMBOLS. -/
def fseMaxSymbols : Nat := 256

/-- FSE_MAX_ACCURACY. -/
def fseMaxAccuracy : Nat := 15

/-! ## Building a table (41_fse.md rule R450) -/

/-- How many states a probability takes: the sentinel -1 counts as 1. -/
def normWeight (p : Int) : Int := if p = -1 then 1 else p

/-- The sum of a distribution. -/
def normSum (norm : List Int) : Int := (norm.map normWeight).sum

/-- Place the symbols of probability -1, from symbol `s` on, at the high end: the threshold `high` and the cells' symbols. -/
def placeSentinels : List Int → Nat → Nat → List Nat → Nat × List Nat
  | [], _, high, sym => (high, sym)
  | p :: ps, s, high, sym =>
    if p = -1 then placeSentinels ps (s + 1) (high - 1) (sym.set (high - 1) s)
    else placeSentinels ps (s + 1) high sym

/-- Advance the placement position past every cell at or above the threshold; `fuel` is the number of cells, which the
retries cannot use up (41_fse.md rule R452; log 18). -/
def skipHigh (step size high : Nat) : Nat → Nat → Nat
  | 0, pos => pos
  | fuel + 1, pos => if high ≤ pos then skipHigh step size high fuel ((pos + step) % size) else pos

/-- Place symbol `s` in `k` cells from position `pos`. -/
def placeRun (step size high s : Nat) : Nat → Nat → List Nat → Nat × List Nat
  | 0, pos, sym => (pos, sym)
  | k + 1, pos, sym => placeRun step size high s k (skipHigh step size high size ((pos + step) % size)) (sym.set pos s)

/-- Place the symbols of positive probability, from symbol `s` on: the final position and the cells' symbols. -/
def placePositive (step size high : Nat) : List Int → Nat → Nat → List Nat → Nat × List Nat
  | [], _, pos, sym => (pos, sym)
  | p :: ps, s, pos, sym =>
    let r := placeRun step size high s p.toNat pos sym
    placePositive step size high ps (s + 1) r.1 r.2

/-- The step of the spread. -/
def spreadStep (size : Nat) : Nat := size / 2 + size / 8 + 3

/-- Give each state, in ascending order, its update width and base from its symbol's running count. -/
def assignCells (acc : Nat) : List Nat → List Nat → List FseCell
  | [], _ => []
  | s :: syms, next =>
    let r := next.getD s 0
    let nb := acc - hsb r
    { sym := s, nb := nb, base := r * 2 ^ nb - 2 ^ acc } :: assignCells acc syms (next.set s (r + 1))

/-- The first count of each symbol: its probability, 1 for the sentinel. -/
def firstCounts (norm : List Int) : List Nat := norm.map (fun p => (normWeight p).toNat)

/-- FSE.BUILD(norm, acc) (41_fse.md rule R450). -/
def fseBuild (norm : List Int) (acc : Nat) : Micro FseTable :=
  if acc < 1 ∨ fseMaxAccuracy < acc then raise .fseAcc
  else if fseMaxSymbols < norm.length then raise .fseNsym
  else
    let size : Nat := 2 ^ acc
    if normSum norm ≠ (size : Int) then raise .fseSum
    else
      let low := placeSentinels norm 0 size (List.replicate size 0)
      let placed := placePositive (spreadStep size) size low.1 norm 0 0 low.2
      if placed.1 ≠ 0 then raise .fseSpread
      else .ok { acc := acc, cells := assignCells acc placed.2 (firstCounts norm) }

/-- FSE.BUILD_RLE(s) (41_fse.md rule R454). -/
def fseBuildRle (s : Nat) : FseTable := { acc := 0, cells := [{ sym := s, nb := 0, base := 0 }] }

/-! ## The predefined tables (41_fse.md rules R455 and R457) -/

/-- DIST_LL. -/
def distLL : List Int :=
  [4, 3, 2, 2, 2, 2, 2, 2, 2, 2, 2, 2, 2, 1, 1, 1] ++
  [2, 2, 2, 2, 2, 2, 2, 2, 2, 3, 2, 1, 1, 1, 1, 1] ++
  [-1, -1, -1, -1]

/-- DIST_ML. -/
def distML : List Int :=
  [1, 4, 3, 2, 2, 2, 2, 2, 2, 1, 1, 1, 1, 1, 1, 1] ++
  [1, 1, 1, 1, 1, 1, 1, 1, 1, 1, 1, 1, 1, 1, 1, 1] ++
  [1, 1, 1, 1, 1, 1, 1, 1, 1, 1, 1, 1, 1, 1, -1, -1] ++
  [-1, -1, -1, -1, -1]

/-- DIST_OF. -/
def distOF : List Int :=
  [1, 1, 1, 1, 1, 1, 2, 2, 2, 1, 1, 1, 1, 1, 1, 1] ++
  [1, 1, 1, 1, 1, 1, 1, 1, -1, -1, -1, -1, -1]

/-- The distribution of a field's predefined table. -/
def predefDist : SeqField → List Int
  | .ll => distLL
  | .oft => distOF
  | .ml => distML

/-- ACC_LL = 6, ACC_OF = 5, ACC_ML = 6. -/
def predefAcc : SeqField → Nat
  | .ll => 6
  | .oft => 5
  | .ml => 6

/-- FSE.PREDEF(f): the table FSE.BUILD makes of the field's distribution (41_fse.md rule R455). The build succeeds, so the
other arm is not reached (Sys2Proof/Tests/Slice0.lean checks the three tables against 95_test_vectors.md section 3.4). -/
def fsePredef (f : SeqField) : FseTable :=
  match fseBuild (predefDist f) (predefAcc f) with
  | .ok t => t
  | .error _ => { acc := 0, cells := [] }

/-! ## Reading a distribution header (41_fse.md rule R458) -/

/-- The 2-bit repeat fields after a probability 0: each adds that many zeros, and a 3 is followed by another. `norm` is the
distribution so far, the last symbol first; `fuel` bounds the fields, which the symbol limit does before it. -/
def fseRepeats (src : Source) : Nat → Fr → List Int → Micro (Fr × List Int)
  | 0, _, _ => raise .fseHdrNsym
  | fuel + 1, fr, norm => do
    let (rep, fr) ← frReadBits src fr 2
    if fseMaxSymbols < norm.length + rep then raise .fseHdrNsym
    else if rep = 3 then fseRepeats src fuel fr (List.replicate rep 0 ++ norm)
    else return (fr, List.replicate rep 0 ++ norm)

/-- One probability field read with the whole budget `remaining`: the field's value (41_fse.md rules R458 and R460). -/
def fseField (src : Source) (fr : Fr) (remaining : Nat) : Micro (Nat × Fr) := do
  let bits := hsb (remaining + 1) + 1
  let (val, fr) ← frReadBits src fr bits
  let lowerMask := 2 ^ (bits - 1) - 1
  let threshold := 2 ^ bits - 1 - (remaining + 1)
  if val &&& lowerMask < threshold then
    let fr ← frRewind fr 1
    return (val &&& lowerMask, fr)
  else if lowerMask < val then return (val - threshold, fr)
  else return (val, fr)

/-- The loop over the probability fields while the budget is above 0. `norm` is the distribution so far, the last symbol
first; `fuel` bounds the fields, which the symbol limit does before it. Answers the reader, the distribution and what is
left of the budget. -/
def fseFields (src : Source) : Nat → Fr → Int → List Int → Micro (Fr × List Int × Int)
  | 0, _, _, _ => raise .fseHdrNsym
  | fuel + 1, fr, remaining, norm =>
    if remaining ≤ 0 then .ok (fr, norm, remaining)
    else if fseMaxSymbols ≤ norm.length then raise .fseHdrNsym
    else do
      let (val, fr) ← fseField src fr remaining.toNat
      let p : Int := (val : Int) - 1
      let remaining := remaining - normWeight p
      if p = 0 then
        let (fr, norm) ← fseRepeats src (fseMaxSymbols + 1) fr (p :: norm)
        fseFields src fuel fr remaining norm
      else fseFields src fuel fr remaining (p :: norm)

/-- The distribution a header codes, with its accuracy, and the reader aligned past it. -/
def fseReadDistribution (src : Source) (fr : Fr) (maxacc : Nat) : Micro (List Int × Nat × Fr) := do
  let (e, fr) ← frReadBits src fr 4
  let acc := 5 + e
  if maxacc < acc then raise .fseHdrAcc
  else do
    let (fr, norm, remaining) ← fseFields src (fseMaxSymbols + 2) fr (2 ^ acc : Nat) []
    let fr ← frAlign fr
    if remaining ≠ 0 then raise .fseHdrSum
    else return (norm.reverse, acc, fr)

/-- FSE.READ_HEADER(fr, maxacc) (41_fse.md rule R458). -/
def fseReadHeader (src : Source) (fr : Fr) (maxacc : Nat) : Micro (FseTable × Fr) := do
  let (norm, acc, fr) ← fseReadDistribution src fr maxacc
  let t ← fseBuild norm acc
  return (t, fr)

/-! ## Decoder operations -/

/-- The cell of a state. A state of a built table is below `2^acc` (41_fse.md rule R451); past the cells nothing is coded. -/
def fseCell (t : FseTable) (s : Nat) : FseCell := t.cells.getD s { sym := 0, nb := 0, base := 0 }

/-- FSE.INIT(t, br) (41_fse.md rule R461). -/
def fseInit (src : Source) (t : FseTable) (br : Br) : Micro (Nat × Br) := brReadNarrow src br t.acc

/-- FSE.PEEK(t, s) (41_fse.md rule R462). -/
def fsePeek (t : FseTable) (s : Nat) : Nat := (fseCell t s).sym

/-- FSE.UPDATE(t, s, br) (41_fse.md rule R463). -/
def fseUpdate (src : Source) (t : FseTable) (s : Nat) (br : Br) : Micro (Nat × Br) := do
  let (v, br) ← brReadNarrow src br (fseCell t s).nb
  return ((fseCell t s).base + v, br)

/-- What FSE.DECODE2 leaves: HW with the weights in order, the two states, the reader. -/
structure Decode2 where
  hw : List Nat
  s1 : Nat
  s2 : Nat
  br : Br
  deriving DecidableEq, Repr

/-- `emit(x)` of FSE.DECODE2: one more symbol, at most `cap` (41_fse.md rule R464). `acc` holds the last symbol first. -/
def emitWeight (cap : Nat) (acc : List Nat) (x : Nat) : Micro (List Nat) :=
  if cap ≤ acc.length then raise .hufNweights else .ok (x :: acc)

/-- The loop of FSE.DECODE2; `fuel` bounds its turns, which the cap does before it. -/
def fseDecode2Loop (src : Source) (t : FseTable) (cap : Nat) : Nat → Nat → Nat → Br → List Nat → Micro Decode2
  | 0, _, _, _, _ => raise .hufNweights
  | fuel + 1, s1, s2, br, acc => do
    let acc ← emitWeight cap acc (fsePeek t s1)
    let (s1, br) ← fseUpdate src t s1 br
    if br.pos < 0 then
      let acc ← emitWeight cap acc (fsePeek t s2)
      return { hw := acc.reverse, s1 := s1, s2 := s2, br := br }
    else
      let acc ← emitWeight cap acc (fsePeek t s2)
      let (s2, br) ← fseUpdate src t s2 br
      if br.pos < 0 then
        let acc ← emitWeight cap acc (fsePeek t s1)
        return { hw := acc.reverse, s1 := s1, s2 := s2, br := br }
      else fseDecode2Loop src t cap fuel s1 s2 br acc

/-- FSE.DECODE2(t, br, cap) (41_fse.md rule R464). -/
def fseDecode2 (src : Source) (t : FseTable) (br : Br) (cap : Nat) : Micro Decode2 := do
  let (s1, br) ← fseInit src t br
  let (s2, br) ← fseInit src t br
  fseDecode2Loop src t cap (cap + 1) s1 s2 br []

end Sys2Proof.Machine
end

