-- ==== Sys2Proof/Machine/Huffman.lean ====
section
/-! DEFINITION. Canonical prefix-code tables (42_huffman.md): reading the weights, building the table, and decoding one
literal stream. -/

namespace Sys2Proof.Machine

/-- The largest number of weights a description may give (41_fse.md rule R464, 42_huffman.md rule R503). -/
def hufMaxWeights : Nat := 255

/-- HUF_MAX_CODE_LENGTH (00_scope.md rule R19); also the largest weight (42_huffman.md rule R504). -/
def hufMaxCodeLength : Nat := 16

/-! ## Building a table (42_huffman.md rule R504) -/

/-- The states a weight fills: `2^(w-1)`, none for weight 0. -/
def weightSpan (w : Nat) : Nat := if w = 0 then 0 else 2 ^ (w - 1)

/-- The code length of a weight, 0 for a symbol without a code. -/
def weightLength (m w : Nat) : Nat := if w = 0 then 0 else m + 1 - w

/-- The entries of the symbols from `s` on whose code length is `len`, in symbol order, each `2^(maxl - len)` times
(42_huffman.md rule R507; log 19). -/
def hufRankCells (maxl len : Nat) : List Nat → Nat → List HufCell
  | [], _ => []
  | l :: ls, s =>
    if l = len then List.replicate (2 ^ (maxl - len)) { sym := s, nb := len } ++ hufRankCells maxl len ls (s + 1)
    else hufRankCells maxl len ls (s + 1)

/-- The entries of all symbols, the longest codes first (42_huffman.md rules R504 and R507; log 19). -/
def hufCells (maxl : Nat) (lens : List Nat) : Nat → List HufCell
  | 0 => []
  | len + 1 => hufRankCells maxl (len + 1) lens 0 ++ hufCells maxl lens len

/-- The weights with the implied last one, or why there is none: the checks of 42_huffman.md rule R504 up to the leftover.
Answers the weights and `M`. -/
def hufAllWeights (hw : List Nat) : Micro (List Nat × Nat) :=
  if hufMaxWeights < hw.length then raise .hufNweights
  else if hw.any (fun w => decide (hufMaxCodeLength < w)) then raise .hufWeight
  else
    let total := (hw.map weightSpan).sum
    if total = 0 then raise .hufNoweight
    else
      let m := hsb total + 1
      let left := 2 ^ m - total
      if left ≠ 2 ^ hsb left then raise .hufLeftover
      else .ok (hw ++ [hsb left + 1], m)

/-- HUF.BUILD(HW, N_W) (42_huffman.md rule R504): HW with the implied weight, and the table. -/
def hufBuild (hw : List Nat) : Micro (List Nat × HufTable) := do
  let (ws, m) ← hufAllWeights hw
  let lens := ws.map (weightLength m)
  let maxl := lens.foldl max 0
  if hufMaxCodeLength < maxl then raise .hufMaxlen
  else
    let cells := hufCells maxl lens maxl
    if cells.length ≠ 2 ^ maxl then raise .hufRank
    else return (ws, { maxl := maxl, cells := cells })

/-! ## Reading the weights -/

/-- The nibbles of `n` weights from address `a`, the high nibble first (42_huffman.md rule R501). -/
def directWeights (src : Source) (sp : ReaderSpace) (a : Nat) : Nat → List Nat
  | 0 => []
  | 1 => [(src sp a).toNat / 16]
  | n + 2 => (src sp a).toNat / 16 :: (src sp a).toNat % 16 :: directWeights src sp (a + 1) n

/-- What reading the weights leaves: the reader past them, HW[0 .. N_W-1], whose length is N_W, the FSE table and the states of the weight
decoder when the weights are FSE-coded. -/
structure HufWeights where
  fr : Fr
  hw : List Nat
  coded : Option (FseTable × Decode2)
  deriving DecidableEq, Repr

/-- HUF.DIRECT_WEIGHTS(fr, hdr) (42_huffman.md rule R501). -/
def hufDirectWeights (src : Source) (fr : Fr) (hdr : Nat) : Micro HufWeights := do
  let n := hdr - 127
  let (a, fr') ← frReadBytes fr ((n + 1) / 2)
  return { fr := fr', hw := directWeights src fr.space a n, coded := none }

/-- HUF.FSE_WEIGHTS(fr, hdr) (42_huffman.md rule R502). -/
def hufFseWeights (src : Source) (fr : Fr) (hdr : Nat) : Micro HufWeights := do
  let (sub, fr) ← frSubForward fr hdr
  let (t, sub) ← fseReadHeader src sub hufWeightMaxAcc
  let (br, _) ← frRestBackward src sub
  let d ← fseDecode2 src t br hufMaxWeights
  return { fr := fr, hw := d.hw, coded := some (t, d) }

/-- The weights of a description whose header byte is `hdr` (42_huffman.md rule R500). -/
def hufReadWeights (src : Source) (fr : Fr) (hdr : Nat) : Micro HufWeights :=
  if 128 ≤ hdr then hufDirectWeights src fr hdr else hufFseWeights src fr hdr

/-- What HUF.READ_TABLE leaves: the weights read, HW completed by the implied weight, and the table. -/
structure HufRead where
  weights : HufWeights
  hw : List Nat
  table : HufTable
  deriving DecidableEq, Repr

/-- N_W: the count of the weights read from the stream, without the implied one (10_state.md rule R127). -/
def HufRead.count (r : HufRead) : Nat := r.weights.hw.length

/-- The rest of HUF.READ_TABLE after its header byte (42_huffman.md rule R500). -/
def hufTableAfterHeader (src : Source) (fr : Fr) (hdr : Nat) : Micro HufRead := do
  let ws ← hufReadWeights src fr hdr
  let (hw, t) ← hufBuild ws.hw
  return { weights := ws, hw := hw, table := t }

/-- HUF.READ_TABLE(fr) (42_huffman.md rule R500). -/
def hufReadTable (src : Source) (fr : Fr) : Micro HufRead := do
  let (hdr, fr) ← frReadLe src fr 1
  hufTableAfterHeader src fr hdr

/-! ## Decoding one literal stream -/

/-- The cell of a code value. A state of a built table is below `2^maxl` (42_huffman.md rule R506); past the cells nothing
is coded. -/
def hufCell (t : HufTable) (s : Nat) : HufCell := t.cells.getD s { sym := 0, nb := 0 }

/-- HUF.INIT(t, br) (42_huffman.md rule R508). -/
def hufInit (src : Source) (t : HufTable) (br : Br) : Micro (Nat × Br) := brReadNarrow src br t.maxl

/-- HUF.PEEK(t, s) (42_huffman.md rule R509). -/
def hufPeek (t : HufTable) (s : Nat) : Byte := BitVec.ofNat 8 (hufCell t s).sym

/-- HUF.UPDATE(t, s, br) (42_huffman.md rule R510). -/
def hufUpdate (src : Source) (t : HufTable) (s : Nat) (br : Br) : Micro (Nat × Br) := do
  let k := (hufCell t s).nb
  let (v, br) ← brReadNarrow src br k
  return ((s * 2 ^ k + v) % 2 ^ t.maxl, br)

/-- What HUF.STREAM leaves: the literals so far, the last first, the state and the reader. -/
structure HufStream where
  lits : List Byte
  sHuf : Nat
  br : Br
  deriving DecidableEq, Repr

/-- The loop of HUF.STREAM. `room` is how many literals may still be appended; a literal past it raises LIT_COUNT, so it
also bounds the loop (42_huffman.md rule R515). `lits` holds the last literal first. -/
def hufStreamLoop (src : Source) (t : HufTable) : Nat → Nat → Br → List Byte → Micro HufStream
  | room, s, br, lits =>
    if br.pos ≤ -(t.maxl : Int) then
      if br.pos ≠ -(t.maxl : Int) then raise .hufEnd
      else .ok { lits := lits, sHuf := s, br := br }
    else
      match room with
      | 0 => raise .litCount
      | room + 1 => do
        let (s', br) ← hufUpdate src t s br
        hufStreamLoop src t room s' br (hufPeek t s :: lits)

/-- HUF.STREAM(t, br, cap), with `lits` the literals already decoded, the last first (42_huffman.md rule R515). -/
def hufStream (src : Source) (t : HufTable) (br : Br) (cap : Nat) (lits : List Byte) : Micro HufStream := do
  let (s, br) ← hufInit src t br
  hufStreamLoop src t (cap - lits.length) s br lits

end Sys2Proof.Machine
end

