-- ==== Sys2Proof/Machine/Literals.lean ====
section
/-! DEFINITION. The literals decoder (43_literals.md). It reads through the block's forward reader `dp.fr` and fills `dp.lb`.
The header is read as rule R550 reads it; Machine/Wire.lean gives the table's literals rows over the same operations. -/

namespace Sys2Proof.Machine

/-- The state with the block's forward reader moved. -/
def putFr (s : State) (fr : Fr) : State := { s with dp := { s.dp with fr := fr } }

/-- The state with the literal buffer filled. -/
def putLits (s : State) (lits : List Byte) : State := { s with dp := { s.dp with lb := lits } }

/-- The `n` bytes a reader's range holds from address `a`. -/
def sourceBytes (src : Source) (sp : ReaderSpace) (a : Nat) : Nat → List Byte
  | 0 => []
  | n + 1 => src sp a :: sourceBytes src sp (a + 1) n

/-- The size field of a Raw or RLE section; the formats 0 and 2 rewind one bit (43_literals.md rule R551). -/
def litSizeBits (src : Source) (fr : Fr) (sf : Nat) : Micro (Nat × Fr) :=
  if sf = 0 ∨ sf = 2 then do
    let fr ← frRewind fr 1
    frReadBits src fr 5
  else if sf = 1 then frReadBits src fr 12
  else frReadBits src fr 20

/-- LIT.RAW_RLE_SIZE(sf) (43_literals.md rule R551). -/
def litRawRleSize (src : Source) (fr : Fr) (sf maxBlock : Nat) : Micro (Nat × Fr) := do
  let (size, fr) ← litSizeBits src fr sf
  if maxBlock < size then raise .litSize
  else return (size, fr)

/-- LIT.RAW(size) (43_literals.md rule R553). -/
def litRaw (size : Nat) (s : State) : Micro State := do
  let (a, fr) ← frReadBytes s.dp.fr size
  return putLits (putFr s fr) (sourceBytes (source s) s.dp.fr.space a size)

/-- LIT.RLE(size): the byte is read also for size 0 (43_literals.md rule R554). -/
def litRle (size : Nat) (s : State) : Micro State := do
  let (v, fr) ← frReadLe (source s) s.dp.fr 1
  return putLits (putFr s fr) (List.replicate size (BitVec.ofNat 8 v))

/-- LIT.PREVIOUS_TABLE() (43_literals.md rule R558). -/
def litPreviousTable (s : State) : Micro HufTable :=
  match s.prevHuf with
  | none => raise .litNoTable
  | some t => .ok t

/-- The state with HW, N_W, the weight decoder and T_LIT as reading a table description leaves them (10_state.md rule
R127). -/
def putHufRead (s : State) (r : HufRead) : State :=
  match r.weights.coded with
  | none => { s with dp := { s.dp with hw := r.hw, nW := r.count, tLit := some r.table } }
  | some (t, d) =>
    { s with dp := { s.dp with
        hw := r.hw, nW := r.count, tLit := some r.table, tW := some t, s1 := d.s1, s2 := d.s2, br := d.br } }

/-- LIT.ONE_STREAM(sub, regen) (43_literals.md rule R559). -/
def litOneStream (src : Source) (t : HufTable) (sub : Fr) (regen : Nat) : Micro HufStream := do
  let (br, _) ← frRestBackward src sub
  hufStream src t br regen []

/-- LIT.FOUR_STREAMS(sub, regen): the four readers are made before any decoding (43_literals.md rule R560). -/
def litFourStreams (src : Source) (t : HufTable) (sub : Fr) (regen : Nat) : Micro HufStream := do
  let (c1, sub) ← frReadLe src sub 2
  let (c2, sub) ← frReadLe src sub 2
  let (c3, sub) ← frReadLe src sub 2
  let (b1, sub) ← frSubBackward src sub c1
  let (b2, sub) ← frSubBackward src sub c2
  let (b3, sub) ← frSubBackward src sub c3
  let (b4, _) ← frRestBackward src sub
  let e1 ← hufStream src t b1 regen []
  let e2 ← hufStream src t b2 regen e1.lits
  let e3 ← hufStream src t b3 regen e2.lits
  hufStream src t b4 regen e3.lits

/-- The stream or the four streams of a section (43_literals.md rule R555). -/
def litDecodeStreams (src : Source) (four : Bool) (t : HufTable) (sub : Fr) (regen : Nat) : Micro HufStream :=
  if four then litFourStreams src t sub regen else litOneStream src t sub regen

/-- The streams of a section with the table `t`, and the count check (43_literals.md rules R555 and R561). -/
def litStreams (four : Bool) (t : HufTable) (sub : Fr) (regen : Nat) (s : State) : Micro State := do
  let e ← litDecodeStreams (source s) four t sub regen
  if e.lits.length ≠ regen then raise .litCount
  else return { s with dp := { s.dp with lb := e.lits.reverse, sHuf := e.sHuf, br := e.br, tLit := some t } }

/-- LIT.HUFFMAN after the two sizes are read; `fresh` is `ltype = 2`, `four` is `sf ≠ 0`. A fresh table becomes PREV_HUF
before the streams decode (43_literals.md rules R555 and R557). -/
def litHuffmanBody (fresh four : Bool) (regen csize : Nat) (s : State) : Micro State :=
  if s.params.maxBlock < regen then raise .litSize
  else do
    let (sub, fr) ← frSubForward s.dp.fr csize
    let s := putFr s fr
    if fresh then
      let r ← hufReadTable (source s) sub
      litStreams four r.table r.weights.fr regen { putHufRead s r with prevHuf := some r.table }
    else
      let t ← litPreviousTable s
      litStreams four t sub regen s

/-- The width of the two size fields of a Huffman section (43_literals.md rule R555). -/
def litSizeWidth (sf : Nat) : Nat := if sf = 0 ∨ sf = 1 then 10 else if sf = 2 then 14 else 18

/-- LIT.HUFFMAN(ltype, sf) (43_literals.md rule R555). -/
def litHuffman (ltype sf : Nat) (s : State) : Micro State := do
  let (regen, fr) ← frReadBits (source s) s.dp.fr (litSizeWidth sf)
  let (csize, fr) ← frReadBits (source s) fr (litSizeWidth sf)
  litHuffmanBody (ltype == 2) (sf != 0) regen csize (putFr s fr)

/-- LIT.SECTION(fr) (43_literals.md rule R550). -/
def litSection (s : State) : Micro State := do
  let (ltype, fr) ← frReadBits (source s) s.dp.fr 2
  let (sf, fr) ← frReadBits (source s) fr 2
  if ltype = 0 ∨ ltype = 1 then
    let (size, fr) ← litRawRleSize (source s) fr sf s.params.maxBlock
    if ltype = 0 then litRaw size (putFr s fr) else litRle size (putFr s fr)
  else litHuffman ltype sf (putFr s fr)

end Sys2Proof.Machine
end

