-- ==== Sys2Proof/Machine/Sequences.lean ====
section
/-! DEFINITION. The sequence decoder and the repeat offsets (44_sequences.md). It reads through `dp.fr` and fills `dp.sb`. -/

namespace Sys2Proof.Machine

/-! ## The code tables (44_sequences.md rule R610) -/

/-- LL_BASE. -/
def llBase : List Nat :=
  [0, 1, 2, 3, 4, 5, 6, 7, 8, 9, 10, 11, 12, 13, 14, 15] ++
  [16, 18, 20, 22, 24, 28, 32, 40, 48, 64, 128, 256, 512, 1024, 2048, 4096, 8192, 16384, 32768, 65536]

/-- LL_BITS. -/
def llBits : List Nat :=
  [0, 0, 0, 0, 0, 0, 0, 0, 0, 0, 0, 0, 0, 0, 0, 0] ++
  [1, 1, 1, 1, 2, 2, 3, 3, 4, 6, 7, 8, 9, 10, 11, 12, 13, 14, 15, 16]

/-- ML_BASE. -/
def mlBase : List Nat :=
  [3, 4, 5, 6, 7, 8, 9, 10, 11, 12, 13, 14, 15, 16, 17, 18] ++
  [19, 20, 21, 22, 23, 24, 25, 26, 27, 28, 29, 30, 31, 32, 33, 34] ++
  [35, 37, 39, 41, 43, 47, 51, 59, 67, 83, 99, 131, 259, 515, 1027, 2051, 4099, 8195, 16387, 32771, 65539]

/-- ML_BITS. -/
def mlBits : List Nat :=
  [0, 0, 0, 0, 0, 0, 0, 0, 0, 0, 0, 0, 0, 0, 0, 0] ++
  [0, 0, 0, 0, 0, 0, 0, 0, 0, 0, 0, 0, 0, 0, 0, 0] ++
  [1, 1, 1, 1, 2, 2, 3, 3, 4, 4, 5, 7, 8, 9, 10, 11, 12, 13, 14, 15, 16]

/-- The largest literal-length code. -/
def llMaxCode : Nat := 35

/-- The largest match-length code. -/
def mlMaxCode : Nat := 52

/-! ## The count -/

/-- The medium form's count from its first byte, `128 + c`, with the second byte read (44_sequences.md rule R601). -/
def seqCountMediumRest (src : Source) (fr : Fr) (c : Nat) : Micro (Nat × Fr) := do
  let (b1, fr) ← frReadLe src fr 1
  return (c * 256 + b1, fr)

/-- The long form's count with its two bytes read (44_sequences.md rule R601). -/
def seqCountLongRest (src : Source) (fr : Fr) : Micro (Nat × Fr) := do
  let (v, fr) ← frReadLe src fr 2
  return (v + 0x7F00, fr)

/-- SEQ.COUNT() (44_sequences.md rule R601). -/
def seqCount (src : Source) (fr : Fr) : Micro (Nat × Fr) := do
  let (b0, fr) ← frReadLe src fr 1
  if b0 < 128 then return (b0, fr)
  else if b0 < 255 then seqCountMediumRest src fr (b0 - 128)
  else seqCountLongRest src fr

/-- The state with N_SEQ and the reader set, and SB empty. -/
def putCount (s : State) (n : Nat) (fr : Fr) : State :=
  { s with dp := { s.dp with nSeq := n, sb := [], fr := fr } }

/-- SEQ.EMPTY_END() (44_sequences.md rule R602). -/
def seqEmptyEnd (s : State) : Micro State := do
  let n ← frRemaining s.dp.fr
  if n ≠ 0 then raise .seqTrailing else return s

/-! ## The tables -/

/-- The field's previous table. -/
def prevTable (s : State) : SeqField → Option FseTable
  | .ll => s.prevFse.ll
  | .oft => s.prevFse.oft
  | .ml => s.prevFse.ml

/-- The state with the field's table configured: it is the field's table of this block and its previous table from now on
(44_sequences.md rules R604 and R605). -/
def putTable (f : SeqField) (t : FseTable) (s : State) : State :=
  match f with
  | .ll => { s with prevFse := { s.prevFse with ll := some t }, dp := { s.dp with tLL := some t } }
  | .oft => { s with prevFse := { s.prevFse with oft := some t }, dp := { s.dp with tOF := some t } }
  | .ml => { s with prevFse := { s.prevFse with ml := some t }, dp := { s.dp with tML := some t } }

/-- Mode 0 of SEQ.TABLE(f, m) (44_sequences.md rule R604, 41_fse.md rule R455). -/
def seqTablePredefined (f : SeqField) (s : State) : Micro (FseTable × State) :=
  .ok (fsePredef f, putTable f (fsePredef f) s)

/-- Mode 1 of SEQ.TABLE(f, m) (44_sequences.md rule R604, 41_fse.md rule R454). -/
def seqTableRle (f : SeqField) (s : State) : Micro (FseTable × State) := do
  let (v, fr) ← frReadLe (source s) s.dp.fr 1
  return (fseBuildRle v, putTable f (fseBuildRle v) (putFr s fr))

/-- Mode 2 of SEQ.TABLE(f, m) (44_sequences.md rule R604, 41_fse.md rules R458 and R459). -/
def seqTableFse (f : SeqField) (s : State) : Micro (FseTable × State) := do
  let (t, fr) ← fseReadHeader (source s) s.dp.fr (seqMaxAcc f)
  return (t, putTable f t (putFr s fr))

/-- Mode 3 of SEQ.TABLE(f, m) (44_sequences.md rule R604). -/
def seqTableRepeat (f : SeqField) (s : State) : Micro (FseTable × State) :=
  match prevTable s f with
  | none => raise .seqNoTable
  | some t => .ok (t, putTable f t s)

/-- SEQ.TABLE(f, m) (44_sequences.md rule R604). -/
def seqTable (f : SeqField) (m : Nat) (s : State) : Micro (FseTable × State) :=
  match m with
  | 0 => seqTablePredefined f s
  | 1 => seqTableRle f s
  | 2 => seqTableFse f s
  | _ => seqTableRepeat f s

/-! ## Decoding the sequences -/

/-- The three tables of a block. -/
structure SeqTables where
  ll : FseTable
  oft : FseTable
  ml : FseTable
  deriving DecidableEq, Repr

/-- The three states S_LL, S_OF, S_ML and the reader. -/
structure SeqStates where
  ll : Nat
  oft : Nat
  ml : Nat
  br : Br
  deriving DecidableEq, Repr

/-- SEQ.DECODE_ONE(br): the extra bits are read in the order offset, match length, literal length (44_sequences.md rules R611
and R612). -/
def seqDecodeOne (src : Source) (t : SeqTables) (st : SeqStates) : Micro (SeqEntry × Br) :=
  let llc := fsePeek t.ll st.ll
  let ofc := fsePeek t.oft st.oft
  let mlc := fsePeek t.ml st.ml
  if llMaxCode < llc then raise .seqLlCode
  else if mlMaxCode < mlc then raise .seqMlCode
  else do
    let (x, br) ← brReadWide src st.br ofc
    let (m, br) ← brReadWide src br (mlBits.getD mlc 0)
    let (l, br) ← brReadWide src br (llBits.getD llc 0)
    return ({ ll := llBase.getD llc 0 + l, ml := mlBase.getD mlc 0 + m, ofv := 2 ^ ofc + x }, br)

/-- The updates between two sequences, in the order LL, ML, OF (44_sequences.md rule R611). -/
def seqUpdate (src : Source) (t : SeqTables) (st : SeqStates) : Micro SeqStates := do
  let (ll, br) ← fseUpdate src t.ll st.ll st.br
  let (ml, br) ← fseUpdate src t.ml st.ml br
  let (oft, br) ← fseUpdate src t.oft st.oft br
  return { ll := ll, oft := oft, ml := ml, br := br }

/-- The initial states, read in the order LL, OF, ML (44_sequences.md rule R611). -/
def seqInit (src : Source) (t : SeqTables) (br : Br) : Micro SeqStates := do
  let (ll, br) ← fseInit src t.ll br
  let (oft, br) ← fseInit src t.oft br
  let (ml, br) ← fseInit src t.ml br
  return { ll := ll, oft := oft, ml := ml, br := br }

/-- The loop of SEQ.DECODE_ALL over the sequences left; the last takes no update (44_sequences.md rule R611). `acc` holds the
last entry first. -/
def seqDecodeLoop (src : Source) (t : SeqTables) : Nat → SeqStates → List SeqEntry → Micro (List SeqEntry × SeqStates)
  | 0, st, acc => .ok (acc.reverse, st)
  | k + 1, st, acc => do
    let (e, br) ← seqDecodeOne src t st
    let st := { st with br := br }
    if k = 0 then return ((e :: acc).reverse, st)
    else do
      let st ← seqUpdate src t st
      seqDecodeLoop src t k st (e :: acc)

/-- SEQ.DECODE_ALL(br) with SEQ.END_CHECK(br) (44_sequences.md rules R611 and R613). -/
def seqDecodeAll (src : Source) (t : SeqTables) (br : Br) (n : Nat) : Micro (List SeqEntry × SeqStates) := do
  let st ← seqInit src t br
  let (sb, st) ← seqDecodeLoop src t n st []
  if st.br.pos ≠ 0 then raise .seqEnd
  else return (sb, st)

/-- The part of SEQ.SECTION after a count that is not 0 (44_sequences.md rules R600, R603, R605 and R607). -/
def seqBody (s : State) : Micro State := do
  let (modes, fr) ← frReadLe (source s) s.dp.fr 1
  if modes % 4 ≠ 0 then raise .seqModes
  else do
    let (tll, s) ← seqTable .ll (modes / 64 % 4) (putFr s fr)
    let (tof, s) ← seqTable .oft (modes / 16 % 4) s
    let (tml, s) ← seqTable .ml (modes / 4 % 4) s
    let (br, fr) ← frRestBackward (source s) s.dp.fr
    let (sb, st) ← seqDecodeAll (source s) { ll := tll, oft := tof, ml := tml } br s.dp.nSeq
    return { s with dp := { s.dp with fr := fr, br := st.br, sLL := st.ll, sOF := st.oft, sML := st.ml, sb := sb } }

/-- SEQ.SECTION(fr) (44_sequences.md rule R600). -/
def seqSection (s : State) : Micro State := do
  let (n, fr) ← seqCount (source s) s.dp.fr
  if n = 0 then seqEmptyEnd (putCount s n fr)
  else seqBody (putCount s n fr)

/-! ## Repeat offsets -/

/-- SEQ.RESOLVE(ofv, ll): the match offset and the new history (44_sequences.md rule R621). -/
def seqResolve (ofv ll : Nat) (rep : RepOffsets) : Word64 × RepOffsets :=
  if 3 < ofv then
    let off := BitVec.ofNat 64 (ofv - 3)
    (off, { r0 := off, r1 := rep.r0, r2 := rep.r1 })
  else
    match ofv - 1 + (if ll = 0 then 1 else 0) with
    | 0 => (rep.r0, rep)
    | 1 => (rep.r1, { r0 := rep.r1, r1 := rep.r0, r2 := rep.r2 })
    | 2 => (rep.r2, { r0 := rep.r2, r1 := rep.r0, r2 := rep.r1 })
    | _ => (rep.r0 - 1, { r0 := rep.r0 - 1, r1 := rep.r0, r2 := rep.r1 })

end Sys2Proof.Machine
end

