-- ==== Sys2Proof/Machine/Window.lean ====
section
/-! DEFINITION. The window buffer and the reconstruction engine (45_window.md). -/

namespace Sys2Proof.Machine

/-! ## TryFlush -/

/-- How many bytes TRYFLUSH drops: the bytes both drained and more than W behind W_END (45_window.md rule R651). -/
def slideAmount (s : State) : Nat := min s.wStart (s.wEnd - s.w)

/-- TRYFLUSH(need): the state with room, or none for `not_yet` (45_window.md rule R651). -/
def tryFlush (need : Nat) (s : State) : Option State :=
  if s.wEnd + need ≤ s.params.winCap then some s
  else
    let lo := slideAmount s
    if s.params.winCap < (s.wEnd - lo) + need then none
    else some { s with win := Memory.slide s.win lo s.wEnd, wStart := s.wStart - lo, wEnd := s.wEnd - lo,
                       drained := s.drained + lo }

/-! ## Writing output -/

/-- Write bytes to WIN from offset `a`. -/
def writeWin (s : State) (a : Nat) (bytes : List Byte) : State := { s with win := Memory.setMany s.win a bytes }

/-- Write one byte to WIN. -/
def putByte (s : State) (a : Nat) (v : Byte) : State := { s with win := Memory.set s.win a v }

/-- MATERIALIZE_RAW(size) (45_window.md rule R654). -/
def materializeRaw (size : Nat) (s : State) : State := writeWin s s.wEnd (inBytes s 0 size)

/-- MATERIALIZE_RLE(size) (45_window.md rule R654). -/
def materializeRle (size : Nat) (s : State) : State := writeWin s s.wEnd (List.replicate size (inByte s 0))

/-! ## Match copy -/

/-- DL: the length of the dictionary content the frame uses (45_window.md rule R661). -/
def dictLen (s : State) : Nat :=
  if s.dictActive then
    match s.params.dict with
    | some d => d.content.length
    | none => 0
  else 0

/-- The byte of the dictionary content at an index (20_memory.md rule R207). An index outside it is not reached
(45_window.md rule R662); it would hold no defined value. -/
def dictByte (s : State) (i : Nat) : Byte :=
  match s.params.dict with
  | some d => d.content.getD i (Config.freeWinByte s.tick i)
  | none => Config.freeWinByte s.tick i

/-- Frame byte `x`, at `WIN[x - DRAINED]` (45_window.md rule R660). A byte that has left the arena is not reached (45_window.md
rule R665); it would hold no defined value (log 21). -/
def frameByte (s : State) (x : Nat) : Byte :=
  if x < s.drained then Config.freeWinByte s.tick x else winByte s (x - s.drained)

/-- MATCH_BYTE(x, DL) (45_window.md rule R662). -/
def matchByte (x : Int) (dl : Nat) (s : State) : Micro Byte :=
  if 0 ≤ x then .ok (frameByte s x.toNat)
  else if s.params.admitDictMatch then .ok (dictByte s ((dl : Int) + x).toNat)
  else .error (.refused .dictMatchNotAdmitted)

/-- The copy of MATCH_COPY: `n` bytes from frame position `t` on, one at a time in ascending order (45_window.md rules R661 and
R664). -/
def matchLoop (off : Int) (dl : Nat) : Nat → Nat → State → Micro State
  | 0, _, s => .ok s
  | n + 1, t, s => do
    let v ← matchByte ((t : Int) - off) dl s
    matchLoop off dl n (t + 1) (putByte s (t - s.drained) v)

/-- MATCH_COPY(off, ml, T) (45_window.md rules R661 and R663). -/
def matchCopy (off : Word64) (ml t : Nat) (s : State) : Micro State :=
  let dl := dictLen s
  if off.toInt < 1 then raise .offsetZero
  else if t ≤ s.w then
    if (t + dl : Nat) < off.toInt then raise .offsetRange else matchLoop off.toInt dl ml t s
  else
    if (s.w : Nat) < off.toInt then raise .offsetRange else matchLoop off.toInt dl ml t s

/-! ## Execute -/

/-- The repeat offsets and the literal cursor after a sequence's literals are written and its offset is resolved. -/
def useLiterals (ll : Nat) (r : RepOffsets) (s : State) : State := { s with rep := r, dp := { s.dp with lp := s.dp.lp + ll } }

/-- One sequence of EXECUTE at frame position `t`: its literals, its offset, its match (45_window.md rules R656 and R659). -/
def executeOne (e : SeqEntry) (t : Nat) (s : State) : Micro State :=
  if s.dp.lb.length - s.dp.lp < e.ll then raise .seqLitOverrun
  else
    let s := writeWin s (t - s.drained) ((s.dp.lb.drop s.dp.lp).take e.ll)
    let r := seqResolve e.ofv e.ll s.rep
    matchCopy r.1 e.ml (t + e.ll) (useLiterals e.ll r.2 s)

/-- The sequences of EXECUTE from frame position `t` on: the position after them, and the state. -/
def executeSeqs : List SeqEntry → Nat → State → Micro (Nat × State)
  | [], t, s => .ok (t, s)
  | e :: es, t, s => do
    let s ← executeOne e t s
    executeSeqs es (t + e.ll + e.ml) s

/-- EXECUTE: `out_len` and the state (45_window.md rules R656 to R658). -/
def execute (s : State) : Micro (Nat × State) :=
  if s.params.maxBlock < s.dp.lb.length + (s.dp.sb.map SeqEntry.ml).sum then raise .blkOut
  else do
    let t0 := framePos s
    let (t, s) ← executeSeqs s.dp.sb t0 { s with dp := { s.dp with lp := 0 } }
    let tail := s.dp.lb.drop s.dp.lp
    return (t + tail.length - t0, writeWin s (t - s.drained) tail)

/-- The decode phase of a compressed block of `size` bytes (45_window.md rule R655). -/
def decodePhase (size : Nat) (s : State) : Micro State := do
  let s ← litSection { s with dp := { Dp.idle with fr := frMake .inp 0 size } }
  seqSection s

/-- The decode phase, then EXECUTE (46_commands.md rule R720). -/
def materializeCompressed (size : Nat) (s : State) : Micro (Nat × State) := do
  let s ← decodePhase size s
  execute s

/-! ## Commit -/

/-- COMMIT(out_len, need_in, last) (45_window.md rule R667). The command ends, so its internal registers are gone (10_state.md
rule R128). -/
def commit (outLen needIn : Nat) (last : Bool) (s : State) : State :=
  consumeIn needIn
    { s with wEnd := s.wEnd + outLen, fsm := if last then .done else s.fsm, result := .ok, dp := Dp.idle }

end Sys2Proof.Machine
end

