-- ==== Sys2Proof/Machine/Operands.lean ====
section
/-! DEFINITION. The operand forms of the instructions: the header operand of BLOCK, the size operands of the literals rows, and
the reserved bits of a command word. -/

namespace Sys2Proof.Machine

/-- The block header value `H`, A[23:0] (30_encoding.md rule R302). -/
def operandHeader (a : Word32) : BitVec 24 := a.extractLsb' 0 24

/-- A[31:24], which must be 0 (46_commands.md rule R720). -/
def operandHigh (a : Word32) : Byte := a.extractLsb' 24 8

/-- The operand A that carries a header. -/
def headerOperand (h : BitVec 24) : Word32 := (0#8) ++ h

/-- The reserved bits of a command word, F among them unless the command is FRAME_BEGIN, are 0 (46_commands.md rule R704). -/
def reservedClear (frameBegin f : Bool) (rsv0 : BitVec 7) (rsv1 : BitVec 16) : Bool :=
  (frameBegin || !f) && rsv0 == 0 && rsv1 == 0

/-- A size whose low `width` bits are the operand of a selector byte and whose next `more` bits follow in the stream, with the
state past them (30_encoding.md rules R321 and R322, 20_memory.md rule R210; log 26). -/
def extendSize (low width more : Nat) (s : State) : Micro (Nat × State) := do
  let (v, fr) ← frReadBits (source s) s.dp.fr more
  return (low + 2 ^ width * v, putFr s fr)

end Sys2Proof.Machine
end

