-- ==== Sys2Proof/Machine/Commands.lean ====
section
/-! DEFINITION. The host's commands (46_commands.md). Each meaning is the steps common to every command
(`dispatchCommand`, rule R702) around the command's own rule; RESET is recognised before them. -/

namespace Sys2Proof.Machine

/-! ## RESET -/

/-- RESET: every persistent register at its reset value (46_commands.md rule R710). The parameters stay
(70_reset_and_hazards.md rule R901), and so do the model's own fields; the bytes that were buffered have left IN (log 5). -/
def resetState (s : State) : State :=
  { State.resetWith s.params with
    host := s.host, hostData := s.hostData, wire := s.wire, tick := s.tick + 1, inBase := s.inBase + s.iEnd }

/-- RESET (46_commands.md rule R710). -/
def execReset (_ignored : BitVec 56) (s : State) : Answer := .next (resetState s)

/-! ## FRAME_BEGIN -/

/-- The symbols of a table's cells, each counted, as a distribution in which the symbols of the `k` highest states have
probability -1. -/
def recoveredNorm (t : FseTable) (k : Nat) : List Int :=
  let syms := t.cells.map FseCell.sym
  let sentinels := syms.drop (syms.length - k)
  (List.range fseMaxSymbols).map (fun s => if s ∈ sentinels then -1 else ((syms.count s : Nat) : Int))

/-- The table is one that FSE.BUILD_RLE, or FSE.BUILD at an accuracy a stream or ROM can have, produces (10_state.md rule R140,
41_fse.md rules R450, R452 and R454; log 9, log 18). -/
def fseBuildable (t : FseTable) : Bool :=
  if t.acc = 0 then
    match t.cells with
    | [c] => c == { sym := c.sym, nb := 0, base := 0 } && decide (c.sym < fseMaxSymbols)
    | _ => false
  else
    decide (5 ≤ t.acc) && (List.range (fseMaxSymbols + 1)).any (fun k =>
      match fseBuild (recoveredNorm t k) t.acc with
      | .ok u => u == t
      | .error _ => false)

/-- The code length of a symbol in a table, 0 if it has no code. -/
def hufLengthOf (t : HufTable) (s : Nat) : Nat :=
  match t.cells.find? (fun c => c.sym == s) with
  | some c => c.nb
  | none => 0

/-- The table is one that HUF.BUILD produces: building it again from the weights its code lengths have gives it back
(10_state.md rule R140, 42_huffman.md rule R504; log 9). -/
def hufBuildable (t : HufTable) : Bool :=
  let top := (t.cells.map HufCell.sym).foldl max 0
  let weight := fun s => if hufLengthOf t s = 0 then 0 else t.maxl + 1 - hufLengthOf t s
  match hufBuild ((List.range top).map weight) with
  | .ok (_, u) => u == t
  | .error _ => false

/-- An absent table is in the domain. -/
def tableAdmitted {α : Type} (buildable : α → Bool) : Option α → Bool
  | none => true
  | some t => buildable t

/-- The dictionary is in the domain of the parameter: its content has a 32-bit length, its tables are buildable, and no repeat
offset is -2^63 (10_state.md rule R140, 93_implementation_defined.md section 2; log 9). -/
def dictInDomain (d : Dictionary) : Bool :=
  decide (d.content.length < 2 ^ 32) && tableAdmitted hufBuildable d.huf && tableAdmitted fseBuildable d.fseLL &&
    tableAdmitted fseBuildable d.fseOF && tableAdmitted fseBuildable d.fseML &&
    tableAdmitted (fun r : RepOffsets => r.r0 != 1#64 <<< 63 && r.r1 != 1#64 <<< 63 && r.r2 != 1#64 <<< 63) d.rep

/-- SEED_HISTORY(F), with the dictionary the frame uses, if any (46_commands.md rule R712). -/
def seedHistory (d : Option Dictionary) (s : State) : State :=
  match d with
  | none =>
    { s with prevHuf := none, prevFse := { ll := none, oft := none, ml := none }, rep := RepOffsets.initial }
  | some d =>
    { s with prevHuf := d.huf, prevFse := { ll := d.fseLL, oft := d.fseOF, ml := d.fseML },
             rep := d.rep.getD RepOffsets.initial }

/-- The state a frame begins in (46_commands.md rule R711): window size `a`, the dictionary the frame uses, if any. -/
def frameStart (a : Nat) (d : Option Dictionary) (s : State) : State :=
  seedHistory d
    { s with w := a, win := [], wStart := 0, wEnd := 0, drained := 0, dictActive := d.isSome,
             errKind := .none, errSite := .none, fsm := .active, result := .ok }

/-- FRAME_BEGIN(A, F) (46_commands.md rule R711); a dictionary outside the parameter's domain is refused (log 9). -/
def frameBegin (a : Nat) (f : Bool) (s : State) : Micro State :=
  if windowSizeMax < a then raise .fbWindow
  else if s.params.winCap < a + s.params.maxBlock then raise .fbCap
  else if f then
    match s.params.dict with
    | none => raise .fbNoDict
    | some d => if dictInDomain d then .ok (frameStart a (some d) s) else .error (.refused .dictOutsideDomain)
  else .ok (frameStart a none s)

/-- FRAME_BEGIN (46_commands.md rules R702 and R711). -/
def execFrameBegin (f : Bool) (rsv0 : BitVec 7) (a : Word32) (rsv1 : BitVec 16) (s : State) : Answer :=
  dispatchCommand true (reservedClear true f rsv0 rsv1) (fun t => settle t (frameBegin a.toNat f t)) s

/-! ## Buffer commits -/

/-- INPUT_COMMIT(n) (46_commands.md rule R715). -/
def inputCommit (n : Nat) (s : State) : Micro State :=
  if s.params.inCap - s.iEnd < n then raise .inCommit
  else .ok { s with iEnd := s.iEnd + n, result := .ok }

/-- INPUT_COMMIT (46_commands.md rules R702 and R715). -/
def execInputCommit (f : Bool) (rsv0 : BitVec 7) (n : Word32) (rsv1 : BitVec 16) (s : State) : Answer :=
  dispatchCommand true (reservedClear false f rsv0 rsv1) (fun t => settle t (inputCommit n.toNat t)) s

/-- OUTPUT_COMMIT(n) (46_commands.md rule R716). -/
def outputCommit (n : Nat) (s : State) : Micro State :=
  if s.wEnd - s.wStart < n then raise .outCommit
  else .ok { s with wStart := s.wStart + n, result := .ok }

/-- OUTPUT_COMMIT (46_commands.md rules R702 and R716). -/
def execOutputCommit (f : Bool) (rsv0 : BitVec 7) (n : Word32) (rsv1 : BitVec 16) (s : State) : Answer :=
  dispatchCommand true (reservedClear false f rsv0 rsv1) (fun t => settle t (outputCommit n.toNat t)) s

/-- CONSUME(n) (46_commands.md rule R717). -/
def consumeInput (n : Nat) (s : State) : Micro State :=
  if s.iEnd < n then raise .consume
  else .ok { consumeIn n s with result := .ok }

/-- CONSUME (46_commands.md rules R702 and R717). -/
def execConsume (f : Bool) (rsv0 : BitVec 7) (n : Word32) (rsv1 : BitVec 16) (s : State) : Answer :=
  dispatchCommand true (reservedClear false f rsv0 rsv1) (fun t => settle t (consumeInput n.toNat t)) s

/-! ## BLOCK -/

/-- BLOCK runs only in ACTIVE (46_commands.md rule R720; FAILED is gated before, rule R705). -/
def inActive (body : State → Answer) (s : State) : Answer :=
  if s.fsm = .active then body s else .next (errorEntry .illegalCmd s)

/-- NOT_YET for want of input (46_commands.md rule R723). -/
def awaitInput (s : State) : State := { s with needInput := true, result := .notYet }

/-- NOT_YET for want of room (46_commands.md rule R720). -/
def awaitDrain (s : State) : State := { s with needDrain := true, result := .notYet }

/-- BLOCK after the header checks: the size check, the input need, TRYFLUSH, the materialization and the commit (46_commands.md
rules R720, R721 and R723). An error in the materialization is entered from the state after TRYFLUSH, whose slide stays
(45_window.md rule R668). -/
def blockSteps (size needIn needOut : Nat) (last : Bool) (materialize : State → Micro (Nat × State)) (s : State) : Answer :=
  if s.params.maxBlock < size then .next (errorEntry .blkSize s)
  else if s.iEnd < needIn then .next (awaitInput s)
  else
    match tryFlush needOut s with
    | none => .next (awaitDrain s)
    | some t =>
      settle t (do
        let (outLen, u) ← materialize t
        return commit outLen needIn last u)

/-- BLOCK with a Raw header (45_window.md rules R653 and R654). -/
def blockRaw (last : Bool) (size : Nat) (s : State) : Answer :=
  blockSteps size size size last (fun t => .ok (size, materializeRaw size t)) s

/-- BLOCK with an RLE header (45_window.md rules R653 and R654). -/
def blockRle (last : Bool) (size : Nat) (s : State) : Answer :=
  blockSteps size 1 size last (fun t => .ok (size, materializeRle size t)) s

/-- BLOCK with a compressed header: the room is MAX_BLOCK_SIZE (45_window.md rules R653, R655 and R656). -/
def blockCompressed (last : Bool) (size : Nat) (s : State) : Answer :=
  blockSteps size size s.params.maxBlock last (materializeCompressed size) s

/-- BLOCK with kind 3 (46_commands.md rule R721). -/
def blockReservedKind (s : State) : Answer := .next (errorEntry .blkKind s)

/-- BLOCK(A) in ACTIVE: the operand check, then the kind (46_commands.md rule R720). -/
def blockForm (a : Word32) (s : State) : Answer :=
  if operandHigh a ≠ 0 then .next (errorEntry .blkOperand s)
  else
    let h := operandHeader a
    match (hdrKind h).toNat with
    | 0 => blockRaw (hdrLast h) (hdrSize h).toNat s
    | 1 => blockRle (hdrLast h) (hdrSize h).toNat s
    | 2 => blockCompressed (hdrLast h) (hdrSize h).toNat s
    | _ => blockReservedKind s

/-- BLOCK (46_commands.md rules R702 and R720). -/
def execBlock (f : Bool) (rsv0 : BitVec 7) (a : Word32) (rsv1 : BitVec 16) (s : State) : Answer :=
  dispatchCommand false (reservedClear false f rsv0 rsv1) (inActive (blockForm a)) s

/-! ## Reserved opcodes -/

/-- A reserved opcode (46_commands.md rules R702, R704, R705 and R706; log 12). -/
def execReservedOpcode (_op : Byte) (f : Bool) (rsv0 : BitVec 7) (_a : Word32) (rsv1 : BitVec 16) (s : State) : Answer :=
  dispatchCommand false (reservedClear false f rsv0 rsv1) (fun t => .next (errorEntry .illegalCmd t)) s

/-! ## The block headers of the table -/

/-- blk.raw: the BLOCK command whose operand is this header (30_encoding.md rules R310 and R311; log 2). -/
def execBlkRaw (last : Bool) (size : BitVec 21) (s : State) : Answer :=
  dispatchCommand false true (inActive (blockRaw last size.toNat)) s

/-- blk.rle: the BLOCK command whose operand is this header (30_encoding.md rules R310 and R311; log 2). -/
def execBlkRle (last : Bool) (size : BitVec 21) (s : State) : Answer :=
  dispatchCommand false true (inActive (blockRle last size.toNat)) s

/-- blk.compressed: the BLOCK command whose operand is this header (30_encoding.md rules R310 and R311; log 2). -/
def execBlkCompressed (last : Bool) (size : BitVec 21) (s : State) : Answer :=
  dispatchCommand false true (inActive (blockCompressed last size.toNat)) s

/-- blk.reserved: the BLOCK command whose operand is this header (46_commands.md rule R721; log 2). -/
def execBlkReserved (_last : Bool) (_size : BitVec 21) (s : State) : Answer :=
  dispatchCommand false true (inActive blockReservedKind) s

end Sys2Proof.Machine
end

