-- ==== Sys2Proof/Machine/Wire.lean ====
section
/-! DEFINITION. The selector rows of the table: what the engine does with the structure a selector byte opens, once it has read
that byte (log 2). Each is an internal operation of BLOCK, over the same definitions BLOCK's decode phase uses; it acts on the
command-internal registers, with the forward reader `dp.fr` past the byte. An error in it ends the block
(60_exceptions.md rules R800 and R801). -/

namespace Sys2Proof.Machine

/-! ## Literals (43_literals.md; 30_encoding.md rules R321 and R322) -/

/-- The size bound, then LIT.RAW (43_literals.md rules R551 and R553). -/
def litRawSized (size : Nat) (s : State) : Micro State :=
  if s.params.maxBlock < size then raise .litSize else litRaw size s

/-- The size bound, then LIT.RLE (43_literals.md rules R551 and R554). -/
def litRleSized (size : Nat) (s : State) : Micro State :=
  if s.params.maxBlock < size then raise .litSize else litRle size s

/-- A Huffman section from the four regenerated-size bits of its first byte; `w` is the width of its size fields
(43_literals.md rule R555, 30_encoding.md rule R322). -/
def litHuffmanFrom (fresh four : Bool) (w low : Nat) (s : State) : Micro State := do
  let (regen, s) ← extendSize low 4 (w - 4) s
  let (csize, fr) ← frReadBits (source s) s.dp.fr w
  litHuffmanBody fresh four regen csize (putFr s fr)

/-- lit.raw.sf0_2: the size is the 5 bits of the byte (30_encoding.md rule R321). -/
def execLitRawSf02 (x : BitVec 5) (s : State) : Answer := settle s (litRawSized x.toNat s)

/-- lit.raw.sf1: the size is 12 bits. -/
def execLitRawSf1 (x : BitVec 4) (s : State) : Answer :=
  settle s (do
    let (size, t) ← extendSize x.toNat 4 8 s
    litRawSized size t)

/-- lit.raw.sf3: the size is 20 bits. -/
def execLitRawSf3 (x : BitVec 4) (s : State) : Answer :=
  settle s (do
    let (size, t) ← extendSize x.toNat 4 16 s
    litRawSized size t)

/-- lit.rle.sf0_2: the size is the 5 bits of the byte (30_encoding.md rule R321). -/
def execLitRleSf02 (x : BitVec 5) (s : State) : Answer := settle s (litRleSized x.toNat s)

/-- lit.rle.sf1: the size is 12 bits. -/
def execLitRleSf1 (x : BitVec 4) (s : State) : Answer :=
  settle s (do
    let (size, t) ← extendSize x.toNat 4 8 s
    litRleSized size t)

/-- lit.rle.sf3: the size is 20 bits. -/
def execLitRleSf3 (x : BitVec 4) (s : State) : Answer :=
  settle s (do
    let (size, t) ← extendSize x.toNat 4 16 s
    litRleSized size t)

/-- lit.compressed.sf0: one stream, 10-bit sizes (30_encoding.md rule R322). -/
def execLitCompressedSf0 (x : BitVec 4) (s : State) : Answer := settle s (litHuffmanFrom true false 10 x.toNat s)

/-- lit.compressed.sf1: four streams, 10-bit sizes. -/
def execLitCompressedSf1 (x : BitVec 4) (s : State) : Answer := settle s (litHuffmanFrom true true 10 x.toNat s)

/-- lit.compressed.sf2: four streams, 14-bit sizes. -/
def execLitCompressedSf2 (x : BitVec 4) (s : State) : Answer := settle s (litHuffmanFrom true true 14 x.toNat s)

/-- lit.compressed.sf3: four streams, 18-bit sizes. -/
def execLitCompressedSf3 (x : BitVec 4) (s : State) : Answer := settle s (litHuffmanFrom true true 18 x.toNat s)

/-- lit.treeless.sf0: one stream, 10-bit sizes, the previous table (43_literals.md rule R558). -/
def execLitTreelessSf0 (x : BitVec 4) (s : State) : Answer := settle s (litHuffmanFrom false false 10 x.toNat s)

/-- lit.treeless.sf1: four streams, 10-bit sizes, the previous table. -/
def execLitTreelessSf1 (x : BitVec 4) (s : State) : Answer := settle s (litHuffmanFrom false true 10 x.toNat s)

/-- lit.treeless.sf2: four streams, 14-bit sizes, the previous table. -/
def execLitTreelessSf2 (x : BitVec 4) (s : State) : Answer := settle s (litHuffmanFrom false true 14 x.toNat s)

/-- lit.treeless.sf3: four streams, 18-bit sizes, the previous table. -/
def execLitTreelessSf3 (x : BitVec 4) (s : State) : Answer := settle s (litHuffmanFrom false true 18 x.toNat s)

/-! ## Huffman table descriptions (42_huffman.md rules R500 to R502) -/

/-- HUF.READ_TABLE after its header byte: HW, N_W, T_LIT, the weight decoder, and the reader past the description. -/
def hufDescription (hdr : Nat) (s : State) : Micro State := do
  let r ← hufTableAfterHeader (source s) s.dp.fr hdr
  return putFr (putHufRead s r) r.weights.fr

/-- huf.direct: the header is `128 + n` (42_huffman.md rule R501). -/
def execHufDirect (n : BitVec 7) (s : State) : Answer := settle s (hufDescription (128 + n.toNat) s)

/-- huf.fse: the header is `h` (42_huffman.md rule R502). -/
def execHufFse (h : BitVec 7) (s : State) : Answer := settle s (hufDescription h.toNat s)

/-! ## Sequence counts (44_sequences.md rules R601 and R602) -/

/-- seq.count.zero: no sequences, and nothing may follow (44_sequences.md rule R602). -/
def execSeqCountZero (s : State) : Answer := settle s (seqEmptyEnd (putCount s 0 s.dp.fr))

/-- seq.count.short: the count is the byte (44_sequences.md rule R601). -/
def execSeqCountShort (c : BitVec 7) (s : State) : Answer := .next (putCount s c.toNat s.dp.fr)

/-- A count that may be 0, in which case the section ends (44_sequences.md rules R600 and R602). -/
def finishCount (n : Nat) (fr : Fr) (s : State) : Micro State :=
  if n = 0 then seqEmptyEnd (putCount s n fr) else .ok (putCount s n fr)

/-- seq.count.medium: the count has a second byte, and may be 0 (44_sequences.md rule R601). -/
def execSeqCountMedium (c : BitVec 7) (s : State) : Answer :=
  settle s (do
    let (n, fr) ← seqCountMediumRest (source s) s.dp.fr c.toNat
    finishCount n fr s)

/-- seq.count.long: the count has two more bytes (44_sequences.md rule R601). -/
def execSeqCountLong (s : State) : Answer :=
  settle s (do
    let (n, fr) ← seqCountLongRest (source s) s.dp.fr
    finishCount n fr s)

/-! ## Sequence modes (44_sequences.md rules R603 and R604) -/

/-- The state a table configuration leaves. -/
def configured (m : Micro (FseTable × State)) : Micro State := do
  let (_, s) ← m
  return s

/-- seq.mode.ll.predefined. -/
def execSeqModeLlPredefined (_x : BitVec 4) (s : State) : Answer := settle s (configured (seqTable .ll 0 s))
/-- seq.mode.ll.rle. -/
def execSeqModeLlRle (_x : BitVec 4) (s : State) : Answer := settle s (configured (seqTable .ll 1 s))
/-- seq.mode.ll.fse. -/
def execSeqModeLlFse (_x : BitVec 4) (s : State) : Answer := settle s (configured (seqTable .ll 2 s))
/-- seq.mode.ll.repeat. -/
def execSeqModeLlRepeat (_x : BitVec 4) (s : State) : Answer := settle s (configured (seqTable .ll 3 s))
/-- seq.mode.of.predefined. -/
def execSeqModeOfPredefined (_x : BitVec 4) (s : State) : Answer := settle s (configured (seqTable .oft 0 s))
/-- seq.mode.of.rle. -/
def execSeqModeOfRle (_x : BitVec 4) (s : State) : Answer := settle s (configured (seqTable .oft 1 s))
/-- seq.mode.of.fse. -/
def execSeqModeOfFse (_x : BitVec 4) (s : State) : Answer := settle s (configured (seqTable .oft 2 s))
/-- seq.mode.of.repeat. -/
def execSeqModeOfRepeat (_x : BitVec 4) (s : State) : Answer := settle s (configured (seqTable .oft 3 s))
/-- seq.mode.ml.predefined. -/
def execSeqModeMlPredefined (_x : BitVec 4) (s : State) : Answer := settle s (configured (seqTable .ml 0 s))
/-- seq.mode.ml.rle. -/
def execSeqModeMlRle (_x : BitVec 4) (s : State) : Answer := settle s (configured (seqTable .ml 1 s))
/-- seq.mode.ml.fse. -/
def execSeqModeMlFse (_x : BitVec 4) (s : State) : Answer := settle s (configured (seqTable .ml 2 s))
/-- seq.mode.ml.repeat. -/
def execSeqModeMlRepeat (_x : BitVec 4) (s : State) : Answer := settle s (configured (seqTable .ml 3 s))

/-- seq.modes.reserved: the reserved bits are not 0 (44_sequences.md rule R603). -/
def execSeqModesReserved (_r : BitVec 2) (_x : BitVec 6) (s : State) : Answer := .next (errorEntry .seqModes s)

end Sys2Proof.Machine
end

