-- ==== Sys2Proof/Machine/Dispatch.lean ====
section
/-! DEFINITION. One arm per instruction, each one call of its meaning. -/

namespace Sys2Proof.Machine

-- The arms stand in the order of spec/opcode_table.json.
def exec (i : Instr) (s : State) : Host.Outcome State Fault Refusal :=
  match i with
  | .reset ignored => Sys2Proof.Machine.execReset ignored s
  | .frameBegin f rsv0 a rsv1 => Sys2Proof.Machine.execFrameBegin f rsv0 a rsv1 s
  | .inputCommit f rsv0 n rsv1 => Sys2Proof.Machine.execInputCommit f rsv0 n rsv1 s
  | .outputCommit f rsv0 n rsv1 => Sys2Proof.Machine.execOutputCommit f rsv0 n rsv1 s
  | .consume f rsv0 n rsv1 => Sys2Proof.Machine.execConsume f rsv0 n rsv1 s
  | .block f rsv0 a rsv1 => Sys2Proof.Machine.execBlock f rsv0 a rsv1 s
  | .reservedOpcode op f rsv0 a rsv1 => Sys2Proof.Machine.execReservedOpcode op f rsv0 a rsv1 s
  | .blkRaw last size => Sys2Proof.Machine.execBlkRaw last size s
  | .blkRle last size => Sys2Proof.Machine.execBlkRle last size s
  | .blkCompressed last size => Sys2Proof.Machine.execBlkCompressed last size s
  | .blkReserved last size => Sys2Proof.Machine.execBlkReserved last size s
  | .litRawSf02 x => Sys2Proof.Machine.execLitRawSf02 x s
  | .litRawSf1 x => Sys2Proof.Machine.execLitRawSf1 x s
  | .litRawSf3 x => Sys2Proof.Machine.execLitRawSf3 x s
  | .litRleSf02 x => Sys2Proof.Machine.execLitRleSf02 x s
  | .litRleSf1 x => Sys2Proof.Machine.execLitRleSf1 x s
  | .litRleSf3 x => Sys2Proof.Machine.execLitRleSf3 x s
  | .litCompressedSf0 x => Sys2Proof.Machine.execLitCompressedSf0 x s
  | .litCompressedSf1 x => Sys2Proof.Machine.execLitCompressedSf1 x s
  | .litCompressedSf2 x => Sys2Proof.Machine.execLitCompressedSf2 x s
  | .litCompressedSf3 x => Sys2Proof.Machine.execLitCompressedSf3 x s
  | .litTreelessSf0 x => Sys2Proof.Machine.execLitTreelessSf0 x s
  | .litTreelessSf1 x => Sys2Proof.Machine.execLitTreelessSf1 x s
  | .litTreelessSf2 x => Sys2Proof.Machine.execLitTreelessSf2 x s
  | .litTreelessSf3 x => Sys2Proof.Machine.execLitTreelessSf3 x s
  | .hufDirect n => Sys2Proof.Machine.execHufDirect n s
  | .hufFse h => Sys2Proof.Machine.execHufFse h s
  | .seqCountZero => Sys2Proof.Machine.execSeqCountZero s
  | .seqCountShort c => Sys2Proof.Machine.execSeqCountShort c s
  | .seqCountMedium c => Sys2Proof.Machine.execSeqCountMedium c s
  | .seqCountLong => Sys2Proof.Machine.execSeqCountLong s
  | .seqModeLlPredefined x => Sys2Proof.Machine.execSeqModeLlPredefined x s
  | .seqModeLlRle x => Sys2Proof.Machine.execSeqModeLlRle x s
  | .seqModeLlFse x => Sys2Proof.Machine.execSeqModeLlFse x s
  | .seqModeLlRepeat x => Sys2Proof.Machine.execSeqModeLlRepeat x s
  | .seqModeOfPredefined x => Sys2Proof.Machine.execSeqModeOfPredefined x s
  | .seqModeOfRle x => Sys2Proof.Machine.execSeqModeOfRle x s
  | .seqModeOfFse x => Sys2Proof.Machine.execSeqModeOfFse x s
  | .seqModeOfRepeat x => Sys2Proof.Machine.execSeqModeOfRepeat x s
  | .seqModeMlPredefined x => Sys2Proof.Machine.execSeqModeMlPredefined x s
  | .seqModeMlRle x => Sys2Proof.Machine.execSeqModeMlRle x s
  | .seqModeMlFse x => Sys2Proof.Machine.execSeqModeMlFse x s
  | .seqModeMlRepeat x => Sys2Proof.Machine.execSeqModeMlRepeat x s
  | .seqModesReserved r x => Sys2Proof.Machine.execSeqModesReserved r x s

end Sys2Proof.Machine
end

