-- ==== Sys2Proof/Machine/HostPort.lean ====
section
/-! DEFINITION. What the host can do to the engine (10_state.md rule R121, 20_memory.md section 1), the fetch of a selector byte
on its own (log 2), and the placing of a table word for the next step. The command a CMD write runs is a parameter `run`, which
Machine/Step.lean fills with `exec`. -/

namespace Sys2Proof.Machine

/-- A CSR access the host may make: 1, 2, 4 or 8 bytes, naturally aligned (20_memory.md rule R212). -/
def csrAligned (off width : Nat) : Bool :=
  (width == 1 || width == 2 || width == 4 || width == 8) && off % width == 0

/-- One access of the host. A CMD write of 8 bytes at offset 0 runs a command; any other CSR write has no effect (10_state.md
rule R121). A read changes no engine state (20_memory.md rule R214); what it returns goes to the host. -/
def hostAccess (run : Instr → State → Answer) (acc : HostAccess) (s : State) : Answer :=
  match acc with
  | .csrWrite off width value =>
    if 256 ≤ off then .fault .csrOutside
    else if csrAligned off width = false then .refused .csrMisaligned
    else if off = 0 ∧ width = 8 then run (decodeCmd value) s
    else .next s
  | .csrRead off width =>
    if 256 ≤ off then .fault .csrOutside
    else if csrAligned off width = false then .refused .csrMisaligned
    else .next { s with hostData := csrBytes s off width }
  | .inWrite off bytes =>
    if s.params.inCap < off + bytes.length then .fault .inOutside
    else if off < s.iEnd ∧ bytes ≠ [] then .refused .hostWriteCommittedInput
    else .next { s with inp := Memory.setMany s.inp off bytes }
  | .inRead off len =>
    if s.params.inCap < off + len then .fault .inOutside else .refused .hostReadInput
  | .winRead off len =>
    if s.params.winCap < off + len then .fault .winOutside
    else .next { s with hostData := winBytes s off len }
  | .winWrite off bytes =>
    if s.params.winCap < off + bytes.length then .fault .winOutside else .refused .hostWriteWindow

/-- Fetch one selector byte at the forward reader, in the structure the state names, and run its instruction (log 2). -/
def fetchSelector (run : Instr → State → Answer) (k : Selector) (s : State) : Answer :=
  let t := { s with wire := none }
  match frReadLe (source s) s.dp.fr 1 with
  | .ok (b, fr) => run (decodeSelector k (BitVec.ofNat 8 b)) (putFr t fr)
  | .error h => settle t (.error h)

/-- One step: the selector byte to fetch, if the state names one; else the next access of the host; else nothing
(60_exceptions.md rule R818: between commands the engine holds its state). -/
def stepWith (run : Instr → State → Answer) (s : State) : Answer :=
  match s.wire with
  | some k => fetchSelector run k s
  | none =>
    match s.host with
    | [] => .next s
    | acc :: rest => hostAccess run acc { s with host := rest }

/-- The longest selector structure that is an instruction of the table: a literals header of 5 bytes (30_encoding.md rule
R352). -/
def longestHeader : Nat := 5

/-- The state in which the next step runs a table word (log 2, log 3): a command word, or a block header in the operand of
BLOCK, is the host's next access; a selector byte, followed by zeros, stands at the front of IN with the forward reader on
it. -/
def placeTableWord (nbits w : Nat) (s : State) : State :=
  match tableFormat nbits w with
  | some .cmd64 => { s with wire := none, host := .csrWrite 0 8 (BitVec.ofNat 64 w) :: s.host }
  | some .blockHeader24 =>
    { s with wire := none,
             host := .csrWrite 0 8 (cmdWord 0x05#8 false 0 (headerOperand (BitVec.ofNat 24 w)) 0) :: s.host }
  | some (.selector k) =>
    { s with wire := some k, inp := Memory.setMany s.inp 0 (leBytes longestHeader w), iEnd := max s.iEnd longestHeader,
             dp := { s.dp with fr := frMake .inp 0 longestHeader } }
  | none => s

end Sys2Proof.Machine
end

