-- ==== Sys2Proof/Safety.lean ====
section
/-! DEFINITION. What holds of the engine between steps (10_state.md rules R103 to R117), and what an error leaves
(60_exceptions.md rule R801, 45_window.md rule R668): the terms the statements use. -/

namespace Sys2Proof.Machine

/-- The invariants between commands. -/
structure State.Inv (s : State) : Prop where
  /-- The parameters satisfy 00_scope.md rules R14 to R16. -/
  params : s.params.ok = true
  /-- `0 ≤ W ≤ 8388608` (10_state.md rule R104). -/
  window : s.w ≤ windowSizeMax
  /-- The arena holds a full window and one block (46_commands.md rule R711). -/
  room : s.w + s.params.maxBlock ≤ s.params.winCap
  /-- `0 ≤ I_END ≤ IN_CAP` (10_state.md rule R114). -/
  inEnd : s.iEnd ≤ s.params.inCap
  /-- IN is in the canonical form. -/
  inWf : Memory.wf s.inp = true
  /-- IN has no byte at or above IN_CAP (20_memory.md rule R200). -/
  inFits : ∀ c ∈ s.inp, c.1 < s.params.inCap
  /-- `0 ≤ W_START ≤ W_END` (10_state.md rule R114). -/
  outOrder : s.wStart ≤ s.wEnd
  /-- `W_END ≤ WIN_CAP` (10_state.md rule R114). -/
  outEnd : s.wEnd ≤ s.params.winCap
  /-- WIN is in the canonical form. -/
  winWf : Memory.wf s.win = true
  /-- The bytes of WIN that hold a defined value are those below W_END (10_state.md rule R111). -/
  winListed : ∀ a, (Memory.get s.win a).isSome = true ↔ a < s.wEnd
  /-- Everything within W bytes behind the write position is in the arena (10_state.md rule R114). -/
  retained : (s.drained : Int) ≤ max 0 ((s.drained : Int) + s.wEnd - s.w)
  /-- In IDLE no frame has begun (10_state.md rule R103). -/
  idle : s.fsm = .idle → s.w = 0 ∧ s.wEnd = 0 ∧ s.drained = 0 ∧ s.dictActive = false
  /-- A frame that uses the dictionary has one, in the parameter's domain (46_commands.md rule R711; log 9). -/
  dict : s.dictActive = true → ∃ d, s.params.dict = some d ∧ dictInDomain d = true
  /-- The two hints are never both 1 (46_commands.md rule R723). -/
  oneHint : ¬(s.needInput = true ∧ s.needDrain = true)
  /-- RESULT is NOT_YET exactly when a hint says why (46_commands.md rule R703). -/
  notYet : s.result = .notYet ↔ s.needInput = true ∨ s.needDrain = true
  /-- Only a BLOCK in ACTIVE returns NOT_YET (46_commands.md rules R703 and R720). -/
  notYetActive : s.result = .notYet → s.fsm = .active
  /-- The error kind is the one the site is raised by (60_exceptions.md rule R806). -/
  errorKind : s.errKind = siteKind s.errSite
  /-- ERR records an error exactly in FAILED (10_state.md rules R103 and R117). -/
  failed : s.fsm = .failed ↔ s.errSite ≠ .none
  /-- A structure waiting to be fetched is inside a command, whose hints are clear (log 2). -/
  wireHints : s.wire ≠ none → s.needInput = false ∧ s.needDrain = false

/-- `t` is `s` after an error of kind `k` at `site`: ERR, FSM and RESULT as ERROR_ENTRY writes them (60_exceptions.md rule R801),
every other persistent register but the history as it was (45_window.md rule R668), the model's own fields but the counter as
they were. The history (REP, PREV_HUF, PREV_FSE) is any value, and nothing is said of the command-internal registers, which are
undefined between commands (10_state.md rule R128). -/
structure EndsInError (k : ErrKind) (site : Site) (s t : State) : Prop where
  errKind : t.errKind = k
  errSite : t.errSite = site
  fsm : t.fsm = .failed
  result : t.result = .error
  needInput : t.needInput = s.needInput
  needDrain : t.needDrain = s.needDrain
  w : t.w = s.w
  dictActive : t.dictActive = s.dictActive
  inp : t.inp = s.inp
  iEnd : t.iEnd = s.iEnd
  win : t.win = s.win
  wStart : t.wStart = s.wStart
  wEnd : t.wEnd = s.wEnd
  drained : t.drained = s.drained
  params : t.params = s.params
  host : t.host = s.host
  hostData : t.hostData = s.hostData
  wire : t.wire = s.wire
  inBase : t.inBase = s.inBase

/-- What TRYFLUSH slides by for a block that needs `need` bytes of room: nothing when there is room, else the drained bytes that
are more than W behind W_END (45_window.md rule R651). -/
def slideFor (need : Nat) (s : State) : Nat :=
  if s.wEnd + need ≤ s.params.winCap then 0 else min s.wStart (s.wEnd - s.w)

/-- There is room for `need` bytes, if need be after a slide (45_window.md rule R651). -/
def hasRoom (need : Nat) (s : State) : Prop := s.wEnd - slideFor need s + need ≤ s.params.winCap

/-- `s` with both hints clear, as every command but RESET first leaves them (46_commands.md rule R703). -/
def quiet (s : State) : State := { s with needInput := false, needDrain := false }

/-- `t` is `s` after a block that needed `room` bytes of room, consumed `needIn` bytes of input and produced the `outLen` bytes
`out 0, out 1, …` (45_window.md rules R651, R654, R656 and R667): every register but the history, which each statement gives, and the
command-internal ones, undefined between commands (10_state.md rule R128); the
bytes of WIN below the old W_END, slid down if a slide made the room; the bytes produced; the bytes above them, when nothing
slid; the input left, moved to the front. -/
structure Commits (room needIn outLen : Nat) (last : Bool) (out : Nat → Byte) (s t : State) : Prop where
  frame : t = { s with
    fsm := if last then .done else s.fsm, win := t.win, wStart := s.wStart - slideFor room s,
    wEnd := s.wEnd - slideFor room s + outLen, drained := s.drained + slideFor room s, inp := t.inp,
    iEnd := s.iEnd - needIn, result := .ok, needInput := false, needDrain := false, rep := t.rep, prevHuf := t.prevHuf,
    prevFse := t.prevFse, dp := t.dp, tick := t.tick, inBase := t.inBase }
  kept : ∀ a, a < s.wEnd - slideFor room s → Memory.get t.win a = Memory.get s.win (a + slideFor room s)
  written : ∀ j, j < outLen → Memory.get t.win (s.wEnd - slideFor room s + j) = some (out j)
  above : slideFor room s = 0 → ∀ a, s.wEnd + outLen ≤ a → Memory.get t.win a = Memory.get s.win a
  input : ∀ a, a < s.iEnd - needIn → inByte t a = inByte s (a + needIn)

/-- The history of the frame is as it was. -/
def sameHistory (s t : State) : Prop := t.rep = s.rep ∧ t.prevHuf = s.prevHuf ∧ t.prevFse = s.prevFse

/-! ## The forward reader, at a byte boundary -/

/-- The reader stands at a byte boundary and at least `n` bytes of its range are left. -/
def hasBytes (s : State) (n : Nat) : Prop := s.dp.fr.pos % 8 = 0 ∧ s.dp.fr.pos / 8 + n ≤ s.dp.fr.len

/-- The byte `j` bytes past the reader. -/
def nextByte (s : State) (j : Nat) : Byte := source s s.dp.fr.space (s.dp.fr.base + s.dp.fr.pos / 8 + j)

/-- The little-endian integer of the `k` bytes at the reader (20_memory.md rule R208). -/
def nextLe (s : State) (k : Nat) : Nat := leValue ((List.range k).map (nextByte s))

/-- The reader moved on by `n` bytes. -/
def frPast (s : State) (n : Nat) : Fr := { s.dp.fr with pos := s.dp.fr.pos + 8 * n }

/-- A reader over the `n` bytes that stand `j` bytes past the reader. -/
def frSub (s : State) (j n : Nat) : Fr :=
  { space := s.dp.fr.space, base := s.dp.fr.base + s.dp.fr.pos / 8 + j, len := n, pos := 0 }

/-! ## Sequence tables -/

/-- The selector row of a field's mode (30_encoding.md rule R332): 0 predefined, 1 RLE, 2 FSE, 3 repeat. -/
def modeRow (f : SeqField) (m : Fin 4) (x : BitVec 4) : Instr :=
  match f, m with
  | .ll, 0 => .seqModeLlPredefined x
  | .ll, 1 => .seqModeLlRle x
  | .ll, 2 => .seqModeLlFse x
  | .ll, 3 => .seqModeLlRepeat x
  | .oft, 0 => .seqModeOfPredefined x
  | .oft, 1 => .seqModeOfRle x
  | .oft, 2 => .seqModeOfFse x
  | .oft, 3 => .seqModeOfRepeat x
  | .ml, 0 => .seqModeMlPredefined x
  | .ml, 1 => .seqModeMlRle x
  | .ml, 2 => .seqModeMlFse x
  | .ml, 3 => .seqModeMlRepeat x

/-- The field's table of the block being decoded. -/
def blockTable (d : Dp) : SeqField → Option FseTable
  | .ll => d.tLL
  | .oft => d.tOF
  | .ml => d.tML

/-- `t` is `s` with the field's table set to `tab`, for this block and as the field's previous table, the other fields' tables
as they were, and the reader at `fr` (44_sequences.md rule R604). -/
structure Configures (f : SeqField) (tab : FseTable) (fr : Fr) (s t : State) : Prop where
  frame : t = { s with
    prevFse := t.prevFse, dp := { s.dp with fr := fr, tLL := t.dp.tLL, tOF := t.dp.tOF, tML := t.dp.tML } }
  previous : ∀ g, prevTable t g = if g = f then some tab else prevTable s g
  current : ∀ g, blockTable t.dp g = if g = f then some tab else blockTable s.dp g

/-! ## The literals rows of a Huffman section -/

/-- How many header bytes follow the first when the size fields have `w` bits: 2, 3 or 4 (30_encoding.md rule R322). -/
def sizeBytes (w : Nat) : Nat := (w - 2) / 4

/-- The regenerated size: its low 4 bits are the operand, the next `w - 4` bits follow (30_encoding.md rule R322). -/
def regenSize (s : State) (w : Nat) (x : BitVec 4) : Nat := x.toNat + 16 * (nextLe s (sizeBytes w) % 2 ^ (w - 4))

/-- The compressed size: the last `w` bits of the header (30_encoding.md rule R322). -/
def compressedSize (s : State) (w : Nat) : Nat := nextLe s (sizeBytes w) / 2 ^ (w - 4)

/-- The row, whether its section has four streams, and the width of its size fields (30_encoding.md rule R322). -/
def compressedRows (x : BitVec 4) : List (Instr × Bool × Nat) :=
  [(.litCompressedSf0 x, false, 10), (.litCompressedSf1 x, true, 10), (.litCompressedSf2 x, true, 14),
   (.litCompressedSf3 x, true, 18)]

/-- See `compressedRows`. -/
def treelessRows (x : BitVec 4) : List (Instr × Bool × Nat) :=
  [(.litTreelessSf0 x, false, 10), (.litTreelessSf1 x, true, 10), (.litTreelessSf2 x, true, 14),
   (.litTreelessSf3 x, true, 18)]

/-! ## Kinds of instruction -/

/-- The BLOCK command and the block headers of the table. -/
def isBlock : Instr → Bool
  | .block _ _ _ _ => true
  | .blkRaw _ _ => true
  | .blkRle _ _ => true
  | .blkCompressed _ _ => true
  | .blkReserved _ _ => true
  | _ => false

/-- The selector rows: the rows of the wire format but the block headers (log 2). -/
def isSelector (i : Instr) : Bool :=
  match formatOf i with
  | .selector _ => true
  | _ => false

end Sys2Proof.Machine
end

