-- ==== Sys2Proof/Certificates/Slice0/Obligations.lean ====
section
/-! DEFINITION. The statements for the provers. Each docstring names the rules of spec/ it formalises; where a clause is the
model's own choice, it names the log entry. Memory is read through `Memory.get`, `inByte` and `winByte`. The terms used are
defined in Sys2Proof/Safety.lean. -/

open Sys2Proof Sys2Proof.Machine

/-! ## Encodings -/

/-- Decoding an instruction's bytes gives the instruction and leaves what follows, for every well-formed instruction; encoding
what a word decodes to gives the word, for every word of every format; and only bytes shorter than a word are rejected
(30_encoding.md rules R301, R302, R310, R320 to R323, R331, R332). -/
def Obligations.EncodingRoundTrips : Prop :=
  (∀ (i : Instr) (rest : List Byte), i.wf = true → decode (formatOf i) (encode i ++ rest) = .ok (i, rest)) ∧
  (∀ (fmt : Format) (bs : List Byte), bs.length = formatBytes fmt →
    ∃ i, decode fmt bs = .ok (i, []) ∧ encode i = bs) ∧
  (∀ (fmt : Format) (bs : List Byte), decode fmt bs = .error .truncated ↔ bs.length < formatBytes fmt)

/-- The assembled command words of 30_encoding.md rule R303, and what they decode to. -/
def Obligations.AssembledWordsDecode : Prop :=
  decodeCmd 0x00000000000B0002#64 = .inputCommit false 0 11 0 ∧
  decodeCmd 0x0000000004000001#64 = .frameBegin false 0 1024 0 ∧
  decodeCmd 0x0000000004000101#64 = .frameBegin true 0 1024 0 ∧
  decodeCmd 0x00000000004D0005#64 = .block false 0 0x4D 0 ∧
  decodeBlockHeader 0x4D#24 = .blkCompressed true 9 ∧
  decodeCmd 0x0000000000000000#64 = .reset 0 ∧
  encodeWord (.inputCommit false 0 11 0) = 0x00000000000B0002 ∧
  encodeWord (.frameBegin false 0 1024 0) = 0x0000000004000001 ∧
  encodeWord (.frameBegin true 0 1024 0) = 0x0000000004000101 ∧
  encodeWord (.block false 0 0x4D 0) = 0x00000000004D0005 ∧
  encodeWord (.reset 0) = 0

/-- A command word's fields stand at the bits of 30_encoding.md rule R301, and its opcode selects the command
(rule R302). -/
def Obligations.CommandFieldsAtTheirBits : Prop :=
  ∀ w : Word64,
    let op := w.toNat % 2 ^ 8
    let f := decide (w.toNat / 2 ^ 8 % 2 = 1)
    let rsv0 := BitVec.ofNat 7 (w.toNat / 2 ^ 9)
    let a := BitVec.ofNat 32 (w.toNat / 2 ^ 16)
    let rsv1 := BitVec.ofNat 16 (w.toNat / 2 ^ 48)
    (op = 0 → decodeCmd w = .reset (BitVec.ofNat 56 (w.toNat / 2 ^ 8))) ∧
    (op = 1 → decodeCmd w = .frameBegin f rsv0 a rsv1) ∧
    (op = 2 → decodeCmd w = .inputCommit f rsv0 a rsv1) ∧
    (op = 3 → decodeCmd w = .outputCommit f rsv0 a rsv1) ∧
    (op = 4 → decodeCmd w = .consume f rsv0 a rsv1) ∧
    (op = 5 → decodeCmd w = .block f rsv0 a rsv1) ∧
    (6 ≤ op → decodeCmd w = .reservedOpcode (BitVec.ofNat 8 op) f rsv0 a rsv1)

/-- The fields of a 3-byte block header (30_encoding.md rule R310) and the kinds (rule R311), with a few bytes of the other
wire structures, written out from the examples of 43_literals.md, 42_huffman.md and 44_sequences.md. -/
def Obligations.BlockHeaderFields : Prop :=
  (∀ b0 b1 b2 : Byte,
    let h := b0.toNat + b1.toNat * 2 ^ 8 + b2.toNat * 2 ^ 16
    let last := decide (h % 2 = 1)
    let size := BitVec.ofNat 21 (h / 2 ^ 3)
    (h / 2 % 4 = 0 → decode .blockHeader24 [b0, b1, b2] = .ok (.blkRaw last size, [])) ∧
    (h / 2 % 4 = 1 → decode .blockHeader24 [b0, b1, b2] = .ok (.blkRle last size, [])) ∧
    (h / 2 % 4 = 2 → decode .blockHeader24 [b0, b1, b2] = .ok (.blkCompressed last size, [])) ∧
    (h / 2 % 4 = 3 → decode .blockHeader24 [b0, b1, b2] = .ok (.blkReserved last size, []))) ∧
  decode (.selector .literals) [0x18#8] = .ok (.litRawSf02 3, []) ∧
  decode (.selector .literals) [0x29#8] = .ok (.litRleSf02 5, []) ∧
  decode (.selector .literals) [0x42#8, 0xC0#8] = .ok (.litCompressedSf0 4, [0xC0#8]) ∧
  decode (.selector .huffman) [0x81#8, 0x21#8] = .ok (.hufDirect 1, [0x21#8]) ∧
  decode (.selector .seqCount) [0x81#8, 0x05#8] = .ok (.seqCountMedium 1, [0x05#8]) ∧
  decode (.selector (.seqModes .oft)) [0x54#8] = .ok (.seqModeOfRle 0b0101, [])

/-! ## Steps, the host, reset -/

/-- A step runs the instruction the bytes decode to: the command word of the next access, after which the access is gone; or the
selector byte at the forward reader, after which the reader stands past it; a byte that is not there is the reader's error
(46_commands.md rules R701 and R702; what a step is, and selector bytes on their own, are the model's choices, log 1 and
log 2). -/
def Obligations.StepRunsTheDecodedInstruction : Prop :=
  (∀ (s : State) (v : Word64) (rest : List HostAccess) (i : Instr), s.wire = none →
    s.host = .csrWrite 0 8 v :: rest → decode .cmd64 (leBytes 8 v.toNat) = .ok (i, []) →
    step s = exec i { s with host := rest }) ∧
  (∀ (s : State) (k : Selector) (i : Instr), s.wire = some k → hasBytes s 1 →
    decode (.selector k) [nextByte s 0] = .ok (i, []) →
    step s = exec i { s with wire := none, dp := { s.dp with fr := frPast s 1 } }) ∧
  (∀ (s : State) (k : Selector), s.wire = some k → ¬ hasBytes s 1 →
    ∃ t site, step s = .next t ∧ EndsInError .corruption site { s with wire := none } t ∧
      site = if s.dp.fr.pos % 8 = 0 then .frOverrun else .frUnaligned)

/-- With no access of the host to come, the engine holds its state (60_exceptions.md rule R818). -/
def Obligations.EngineHoldsItsStateBetweenCommands : Prop :=
  ∀ s : State, s.wire = none → s.host = [] → step s = .next s

/-- A CMD write executes one command, and no other access has a side effect: a CSR read, any other CSR write, an IN write and a
WIN read change no register, and give what the addressed bytes hold (20_memory.md rules R203, R204 and R214, 10_state.md rule
R121). -/
def Obligations.HostAccessesHaveNoSideEffect : Prop :=
  ∀ (s : State) (rest : List HostAccess), s.wire = none →
    (∀ v, s.host = .csrWrite 0 8 v :: rest → step s = exec (decodeCmd v) { s with host := rest }) ∧
    (∀ off width, s.host = .csrRead off width :: rest → off < 256 → csrAligned off width = true →
      step s = .next { s with host := rest, hostData := csrBytes s off width }) ∧
    (∀ off width v, s.host = .csrWrite off width v :: rest → off < 256 → csrAligned off width = true →
      ¬(off = 0 ∧ width = 8) → step s = .next { s with host := rest }) ∧
    (∀ off bytes, s.host = .inWrite off bytes :: rest → s.iEnd ≤ off → off + bytes.length ≤ s.params.inCap →
      Memory.wf s.inp = true →
      ∃ m, step s = .next { s with host := rest, inp := m } ∧
        ∀ a, Memory.get m a = if off ≤ a ∧ a < off + bytes.length then bytes[a - off]? else Memory.get s.inp a) ∧
    (∀ off len, s.host = .winRead off len :: rest → off + len ≤ s.params.winCap →
      step s = .next { s with host := rest, hostData := (List.range len).map fun j => winByte s (off + j) })

/-- A host access outside a space faults (log 15), and a violation of the host's obligations is refused: a misaligned CSR access
(20_memory.md rule R212), a write below I_END and a read of IN (rule R203, log 16), a write to WIN (rule R204). -/
def Obligations.HostViolationsAreRefused : Prop :=
  ∀ (s : State) (rest : List HostAccess), s.wire = none →
    (∀ off width v, s.host = .csrWrite off width v :: rest ∨ s.host = .csrRead off width :: rest →
      (256 ≤ off → step s = .fault .csrOutside) ∧
      (off < 256 → csrAligned off width = false → step s = .refused .csrMisaligned)) ∧
    (∀ off bytes, s.host = .inWrite off bytes :: rest →
      (s.params.inCap < off + bytes.length → step s = .fault .inOutside) ∧
      (off + bytes.length ≤ s.params.inCap → off < s.iEnd → bytes ≠ [] → step s = .refused .hostWriteCommittedInput)) ∧
    (∀ off len, s.host = .inRead off len :: rest →
      (s.params.inCap < off + len → step s = .fault .inOutside) ∧
      (off + len ≤ s.params.inCap → step s = .refused .hostReadInput)) ∧
    (∀ off len, s.host = .winRead off len :: rest → s.params.winCap < off + len → step s = .fault .winOutside) ∧
    (∀ off bytes, s.host = .winWrite off bytes :: rest →
      (s.params.winCap < off + bytes.length → step s = .fault .winOutside) ∧
      (off + bytes.length ≤ s.params.winCap → step s = .refused .hostWriteWindow))

/-- The registers the host reads (10_state.md rules R118, R119 and R121): each is its register's little-endian image, STATUS
holds its fields with NEEDS_FLUSH computed on the read, and every other byte reads 0. -/
def Obligations.CsrReadsGiveTheRegisters : Prop :=
  ∀ s : State,
    csrBytes s 0x08 4 = leBytes 4 (resultCode s.result + 4 * bit s.needInput + 8 * bit s.needDrain +
      16 * fsmCode s.fsm + 128 * bit s.dictActive +
      256 * bit (decide (s.wStart < s.wEnd) && (s.needDrain || decide (s.iEnd = s.params.inCap)))) ∧
    csrBytes s 0x0C 4 = leBytes 4 (kindCode s.errKind + 256 * siteCode s.errSite) ∧
    csrBytes s 0x10 4 = leBytes 4 s.iEnd ∧
    csrBytes s 0x14 4 = leBytes 4 (s.params.inCap - s.iEnd) ∧
    csrBytes s 0x18 4 = leBytes 4 s.iEnd ∧
    csrBytes s 0x20 4 = leBytes 4 s.wStart ∧
    csrBytes s 0x24 4 = leBytes 4 (s.wEnd - s.wStart) ∧
    csrBytes s 0x28 8 = leBytes 8 s.drained ∧
    csrBytes s 0x30 4 = leBytes 4 s.w ∧
    csrBytes s 0x38 8 = leBytes 8 s.rep.r0.toNat ∧
    csrBytes s 0x40 8 = leBytes 8 s.rep.r1.toNat ∧
    csrBytes s 0x48 8 = leBytes 8 s.rep.r2.toNat ∧
    csrBytes s 0x50 4 = leBytes 4 s.params.winCap ∧
    csrBytes s 0x54 4 = leBytes 4 s.params.inCap ∧
    csrBytes s 0x58 4 = leBytes 4 s.params.maxBlock ∧
    ∀ a, (a < 0x08 ∨ (0x1C ≤ a ∧ a < 0x20) ∨ (0x34 ≤ a ∧ a < 0x38) ∨ 0x5C ≤ a) → csrByte s a = 0

/-- The reset values of 10_state.md rule R141, which a RESET leaves in every state, whatever its other bits (46_commands.md rule
R710), with the configuration as it was (70_reset_and_hazards.md rule R901). The command-internal registers and the model's own
fields have no reset value of the spec (log 4); nothing is said of them but that RESET leaves the host's side alone. -/
def Obligations.ResetLeavesTheResetValues : Prop :=
  (∀ s : State, s = State.reset ∨ (∃ u ignored, exec (.reset ignored) u = .next s) →
    s.fsm = .idle ∧ s.w = 0 ∧ s.dictActive = false ∧ s.rep = { r0 := 1, r1 := 4, r2 := 8 } ∧ s.prevHuf = none ∧
    s.prevFse = { ll := none, oft := none, ml := none } ∧ s.iEnd = 0 ∧ s.wStart = 0 ∧ s.wEnd = 0 ∧ s.drained = 0 ∧
    s.result = .ok ∧ s.needInput = false ∧ s.needDrain = false ∧ s.errKind = .none ∧ s.errSite = .none) ∧
  (∀ (s : State) (ignored : BitVec 56), ∃ t, exec (.reset ignored) s = .next t ∧
    t.params = s.params ∧ t.host = s.host ∧ t.hostData = s.hostData ∧ t.wire = s.wire)

/-! ## Commands -/

/-- FRAME_BEGIN starts a frame with the history of 46_commands.md rule R712, without or with the dictionary, and touches neither IN
nor the configuration; else it raises the first error of rule R711 that applies. A dictionary outside the parameter's domain is
refused (log 9), which the last hypothesis of the second clause rules out. -/
def Obligations.FrameBeginStartsFrame : Prop :=
  ∀ (s : State) (a : Word32),
    (a.toNat ≤ 8388608 → a.toNat + s.params.maxBlock ≤ s.params.winCap →
      ∃ k, exec (.frameBegin false 0 a 0) s = .next { s with
        w := a.toNat, win := [], wStart := 0, wEnd := 0, drained := 0, dictActive := false,
        rep := { r0 := 1, r1 := 4, r2 := 8 }, prevHuf := none, prevFse := { ll := none, oft := none, ml := none },
        errKind := .none, errSite := .none, fsm := .active, result := .ok, needInput := false, needDrain := false,
        tick := k }) ∧
    (∀ d, a.toNat ≤ 8388608 → a.toNat + s.params.maxBlock ≤ s.params.winCap → s.params.dict = some d →
      dictInDomain d = true →
      ∃ k, exec (.frameBegin true 0 a 0) s = .next { s with
        w := a.toNat, win := [], wStart := 0, wEnd := 0, drained := 0, dictActive := true,
        rep := d.rep.getD { r0 := 1, r1 := 4, r2 := 8 }, prevHuf := d.huf,
        prevFse := { ll := d.fseLL, oft := d.fseOF, ml := d.fseML },
        errKind := .none, errSite := .none, fsm := .active, result := .ok, needInput := false, needDrain := false,
        tick := k }) ∧
    (∀ f, 8388608 < a.toNat →
      ∃ t, exec (.frameBegin f 0 a 0) s = .next t ∧ EndsInError .outOfRange .fbWindow (quiet s) t) ∧
    (∀ f, a.toNat ≤ 8388608 → s.params.winCap < a.toNat + s.params.maxBlock →
      ∃ t, exec (.frameBegin f 0 a 0) s = .next t ∧ EndsInError .outOfRange .fbCap (quiet s) t) ∧
    (a.toNat ≤ 8388608 → a.toNat + s.params.maxBlock ≤ s.params.winCap → s.params.dict = none →
      ∃ t, exec (.frameBegin true 0 a 0) s = .next t ∧ EndsInError .starvation .fbNoDict (quiet s) t)

/-- INPUT_COMMIT (46_commands.md rule R715) and OUTPUT_COMMIT (rule R716) move their cursor and nothing else, in every FSM state;
a larger count raises. -/
def Obligations.BufferCommitsMoveTheirCursor : Prop :=
  ∀ (s : State) (n : Word32),
    (s.iEnd ≤ s.params.inCap → n.toNat ≤ s.params.inCap - s.iEnd →
      ∃ k, exec (.inputCommit false 0 n 0) s = .next { s with
        iEnd := s.iEnd + n.toNat, result := .ok, needInput := false, needDrain := false, tick := k }) ∧
    (s.params.inCap - s.iEnd < n.toNat →
      ∃ t, exec (.inputCommit false 0 n 0) s = .next t ∧ EndsInError .starvation .inCommit (quiet s) t) ∧
    (s.wStart ≤ s.wEnd → n.toNat ≤ s.wEnd - s.wStart →
      ∃ k, exec (.outputCommit false 0 n 0) s = .next { s with
        wStart := s.wStart + n.toNat, result := .ok, needInput := false, needDrain := false, tick := k }) ∧
    (s.wEnd - s.wStart < n.toNat →
      ∃ t, exec (.outputCommit false 0 n 0) s = .next t ∧ EndsInError .starvation .outCommit (quiet s) t)

/-- CONSUME moves the input left to the front of IN (46_commands.md rule R717, 20_memory.md rule R206) and changes no other
register; a count above the buffered input raises. -/
def Obligations.ConsumeMovesInputToTheFront : Prop :=
  ∀ (s : State) (n : Word32),
    (n.toNat ≤ s.iEnd →
      ∃ t, exec (.consume false 0 n 0) s = .next t ∧
        t = { s with inp := t.inp, iEnd := s.iEnd - n.toNat, result := .ok, needInput := false, needDrain := false,
                     tick := t.tick, inBase := t.inBase } ∧
        ∀ a, a < s.iEnd - n.toNat → inByte t a = inByte s (a + n.toNat)) ∧
    (s.iEnd < n.toNat →
      ∃ t, exec (.consume false 0 n 0) s = .next t ∧ EndsInError .starvation .consume (quiet s) t)

/-- A reserved bit of a command word, F among them unless the command is FRAME_BEGIN, raises CMD_RESERVED before the opcode is
looked at (46_commands.md rule R704); RESET ignores them, and the FAILED gate of rule R705 comes first (rule R702). -/
def Obligations.ReservedCommandBitsRaise : Prop :=
  ∀ (s : State) (w : Word64), cmdOp w ≠ 0#8 →
    (s.fsm = .failed → cmdOp w = 1#8 ∨ cmdOp w = 2#8 ∨ cmdOp w = 3#8 ∨ cmdOp w = 4#8) →
    w.extractLsb' 9 7 ≠ 0 ∨ w.extractLsb' 48 16 ≠ 0 ∨ (w.getLsbD 8 = true ∧ cmdOp w ≠ 1#8) →
    ∃ t, exec (decodeCmd w) s = .next t ∧ EndsInError .reservedFieldUsed .cmdReserved (quiet s) t

/-- In FAILED, BLOCK and the reserved opcodes only set RESULT to ERROR (46_commands.md rule R705), whatever their other bits
(rule R702); a reserved opcode with its reserved bits 0 raises ILLEGAL_CMD elsewhere (rule R706). -/
def Obligations.FailedGateAndReservedOpcodes : Prop :=
  (∀ (s : State) (w : Word64), s.fsm = .failed → 5 ≤ (cmdOp w).toNat →
    ∃ k, exec (decodeCmd w) s = .next { s with result := .error, needInput := false, needDrain := false, tick := k }) ∧
  (∀ (s : State) (op : Byte) (a : Word32), s.fsm ≠ .failed → 6 ≤ op.toNat →
    ∃ t, exec (.reservedOpcode op false 0 a 0) s = .next t ∧ EndsInError .starvation .illegalCmd (quiet s) t)

/-- Every command ends with exactly one result (46_commands.md rule R703): OK; NOT_YET, only of BLOCK, with one hint set and
nothing else changed; or ERROR, in FAILED. -/
def Obligations.CommandsEndWithOneResult : Prop :=
  ∀ (s t : State) (w : Word64), exec (decodeCmd w) s = .next t →
    (t.result = .ok ∧ t.needInput = false ∧ t.needDrain = false) ∨
    (cmdOp w = 5#8 ∧ ∃ x y, x ≠ y ∧
      t = { s with needInput := x, needDrain := y, result := .notYet, tick := t.tick }) ∨
    (t.result = .error ∧ t.needInput = false ∧ t.needDrain = false ∧ t.fsm = .failed)

/-- Who writes FSM, what each sets, a raised error among them, and its encoding (10_state.md rule R103); only RESET and
FRAME_BEGIN write W and DICT_ACTIVE (rules R104 and R105); no command writes the configuration or the host's side. -/
def Obligations.FrameStateWriters : Prop :=
  (fsmCode .idle = 0 ∧ fsmCode .active = 1 ∧ fsmCode .done = 2 ∧ fsmCode .failed = 3) ∧
  (∀ (s t : State) (w : Word64), exec (decodeCmd w) s = .next t →
    (t.fsm = s.fsm ∨ (cmdOp w = 0#8 ∧ t.fsm = .idle) ∨ (cmdOp w = 1#8 ∧ t.fsm = .active) ∨
      (cmdOp w = 5#8 ∧ s.fsm = .active ∧ t.fsm = .done ∧ w.getLsbD 16 = true) ∨
      (t.fsm = .failed ∧ t.result = .error ∧ t.errSite ≠ .none)) ∧
    (cmdOp w = 0#8 → t.fsm = .idle) ∧
    (cmdOp w = 1#8 → t.result = .ok → t.fsm = .active) ∧
    (cmdOp w = 5#8 → t.result = .ok → w.getLsbD 16 = true → t.fsm = .done) ∧
    (t.result = .error → t.fsm = .failed) ∧
    (t.w ≠ s.w ∨ t.dictActive ≠ s.dictActive → cmdOp w = 0#8 ∨ cmdOp w = 1#8) ∧
    t.params = s.params ∧ t.host = s.host ∧ t.hostData = s.hostData ∧ t.wire = s.wire)

/-! ## BLOCK -/

/-- BLOCK is the instruction of the header its operand holds (30_encoding.md rules R302 and R310), and a header placed for the
next step runs so; that the header rows stand for BLOCK is the model's choice (log 2). -/
def Obligations.BlockRunsItsHeader : Prop :=
  (∀ (s : State) (a : Word32), a.toNat < 2 ^ 24 →
    exec (.block false 0 a 0) s = exec (decodeBlockHeader (BitVec.ofNat 24 a.toNat)) s) ∧
  (∀ (s : State) (h : BitVec 24),
    step (s.withFetchWord 24 h.toNat) = exec (decodeBlockHeader h) { s with wire := none })

/-- The checks of BLOCK on its state and header, in their order (46_commands.md rules R720 and R721); the reserved kind as a row
of the table raises BLK_KIND (rule R721). -/
def Obligations.BlockHeaderErrors : Prop :=
  ∀ (s : State) (a : Word32) (last : Bool) (size : BitVec 21),
    (s.fsm = .idle ∨ s.fsm = .done →
      ∃ t, exec (.block false 0 a 0) s = .next t ∧ EndsInError .starvation .illegalCmd (quiet s) t) ∧
    (s.fsm = .active → 2 ^ 24 ≤ a.toNat →
      ∃ t, exec (.block false 0 a 0) s = .next t ∧ EndsInError .reservedFieldUsed .blkOperand (quiet s) t) ∧
    (s.fsm = .active → a.toNat < 2 ^ 24 → a.toNat / 2 % 4 = 3 →
      ∃ t, exec (.block false 0 a 0) s = .next t ∧ EndsInError .reservedFieldUsed .blkKind (quiet s) t) ∧
    (s.fsm = .active → a.toNat < 2 ^ 24 → a.toNat / 2 % 4 ≠ 3 → s.params.maxBlock < a.toNat / 8 →
      ∃ t, exec (.block false 0 a 0) s = .next t ∧ EndsInError .outOfRange .blkSize (quiet s) t) ∧
    (s.fsm = .active →
      ∃ t, exec (.blkReserved last size) s = .next t ∧ EndsInError .reservedFieldUsed .blkKind (quiet s) t)

/-- A block whose input is not there yet waits for it, and then one whose room is not there waits for that; nothing but RESULT
and the hint changes (46_commands.md rules R720 and R723, 45_window.md rules R651 and R653). -/
def Obligations.BlockWaitsForInputThenRoom : Prop :=
  ∀ (s : State) (last : Bool) (size : BitVec 21), s.fsm = .active → size.toNat ≤ s.params.maxBlock →
    ∀ (i : Instr) (needIn room : Nat),
      (i, needIn, room) ∈ [(Instr.blkRaw last size, size.toNat, size.toNat), (Instr.blkRle last size, 1, size.toNat),
        (Instr.blkCompressed last size, size.toNat, s.params.maxBlock)] →
      (s.iEnd < needIn →
        ∃ k, exec i s = .next { s with needInput := true, needDrain := false, result := .notYet, tick := k }) ∧
      (needIn ≤ s.iEnd → ¬ hasRoom room s →
        ∃ k, exec i s = .next { s with needInput := false, needDrain := true, result := .notYet, tick := k })

/-- A Raw and an RLE block, given as a header or as the operand of BLOCK, append their output at W_END, consume their input and
move on (45_window.md rules R654 and R667); the history is as it was. -/
def Obligations.RawAndRleBlocksCommit : Prop :=
  ∀ (s : State) (last : Bool) (size : BitVec 21), s.Inv → s.fsm = .active → size.toNat ≤ s.params.maxBlock →
    hasRoom size.toNat s →
    (size.toNat ≤ s.iEnd →
      ∀ i ∈ [Instr.blkRaw last size, .block false 0 (BitVec.ofNat 32 (bit last + 8 * size.toNat)) 0],
        ∃ t, exec i s = .next t ∧ Commits size.toNat size.toNat size.toNat last (inByte s) s t ∧ sameHistory s t) ∧
    (1 ≤ s.iEnd →
      ∀ i ∈ [Instr.blkRle last size, .block false 0 (BitVec.ofNat 32 (bit last + 2 + 8 * size.toNat)) 0],
        ∃ t, exec i s = .next t ∧ Commits size.toNat 1 size.toNat last (fun _ => inByte s 0) s t ∧ sameHistory s t)

/-- A compressed block whose two phases have a result, in the state TRYFLUSH left, commits it (46_commands.md rule R720,
45_window.md rules R655, R656 and R667). -/
def Obligations.CompressedBlockCommitsItsPhases : Prop :=
  ∀ (s u v : State) (last : Bool) (size : BitVec 21) (outLen : Nat), s.Inv → s.fsm = .active →
    size.toNat ≤ s.params.maxBlock → size.toNat ≤ s.iEnd → tryFlush s.params.maxBlock (clearHints s) = some u →
    materializeCompressed size.toNat u = .ok (outLen, v) →
    ∃ t, exec (.blkCompressed last size) s = .next t ∧
      Commits s.params.maxBlock size.toNat outLen last (fun j => winByte v (u.wEnd + j)) s t ∧ sameHistory v t ∧
      outLen ≤ s.params.maxBlock

/-- A compressed block of a Raw literals section of `n` bytes, `n` at most 31, and a zero sequence count produces its literals
(43_literals.md rules R550, R551 and R553, 44_sequences.md rules R601 and R602, 45_window.md rule R656); the history is as it
was. -/
def Obligations.LiteralsOnlyBlockProducesThem : Prop :=
  ∀ (s : State) (last : Bool) (n : Nat), s.Inv → s.fsm = .active → n ≤ 31 → n + 2 ≤ s.params.maxBlock →
    n + 2 ≤ s.iEnd → hasRoom s.params.maxBlock s → inByte s 0 = BitVec.ofNat 8 (8 * n) → inByte s (n + 1) = 0 →
    ∃ t, exec (.blkCompressed last (BitVec.ofNat 21 (n + 2))) s = .next t ∧
      Commits s.params.maxBlock (n + 2) n last (fun j => inByte s (1 + j)) s t ∧ sameHistory s t

/-- A block that ends in an error commits nothing (45_window.md rule R668): but for a slide that has happened, the cursors, the
input and the bytes of WIN below W_END are as they were, and FSM is FAILED. The history is any value. -/
def Obligations.FailedBlockCommitsNothing : Prop :=
  ∀ (s t : State) (i : Instr), isBlock i = true → s.fsm = .active → exec i s = .next t → t.result = .error →
    ∃ lo, (lo = 0 ∨ ∃ room, room ≤ s.params.maxBlock ∧ lo = slideFor room s) ∧
      t = { s with
        fsm := .failed, win := t.win, wStart := s.wStart - lo, wEnd := s.wEnd - lo, drained := s.drained + lo,
        result := .error, needInput := false, needDrain := false, errKind := t.errKind, errSite := t.errSite,
        rep := t.rep, prevHuf := t.prevHuf, prevFse := t.prevFse, dp := t.dp, tick := t.tick } ∧
      ∀ a, a < s.wEnd - lo → Memory.get t.win a = Memory.get s.win (a + lo)

/-! ## The window -/

/-- A slide changes the place of a frame byte and not the byte (45_window.md rule R666): every frame byte still in the arena reads
as before, the frame position and the drained position stay, the last W bytes stay, and there is room (rules R651 and
R652). -/
def Obligations.SlideKeepsFrameBytes : Prop :=
  ∀ (s t : State) (need : Nat), s.Inv → tryFlush need s = some t →
    t.drained + t.wEnd = s.drained + s.wEnd ∧ t.drained + t.wStart = s.drained + s.wStart ∧
    t.wEnd + need ≤ s.params.winCap ∧ (t.drained ≠ s.drained → s.w ≤ t.wEnd) ∧
    ∀ x, t.drained ≤ x → x < s.drained + s.wEnd → frameByte t x = frameByte s x

/-- Backpressure (70_reset_and_hazards.md rule R924, 45_window.md rule R652): too much undrained output makes every compressed
block wait, a block that waits for room has output to drain, and draining it all makes the room. -/
def Obligations.DrainingCuresNotYet : Prop :=
  ∀ (s : State) (need : Nat), s.Inv → need ≤ s.params.maxBlock →
    (s.params.winCap - s.params.maxBlock < s.wEnd - s.wStart → tryFlush s.params.maxBlock s = none) ∧
    (tryFlush need s = none → s.wStart < s.wEnd ∧ ∃ t, tryFlush need { s with wStart := s.wEnd } = some t)

/-- A match within the frame repeats the `off` bytes before it (45_window.md rule R664) and writes nothing else (rule R661). -/
def Obligations.MatchRepeatsTheBytesBefore : Prop :=
  ∀ (s : State) (off : Word64) (o ml t : Nat), Memory.wf s.win = true → off.toInt = (o : Int) → 1 ≤ o →
    s.drained + o ≤ t → (s.w < t → o ≤ s.w) →
    ∃ m, matchCopy off ml t s = .ok { s with win := m } ∧
      (∀ j, j < ml → Memory.get m (t + j - s.drained) = some (winByte s (t + j % o - o - s.drained))) ∧
      (∀ a, a < t - s.drained ∨ t - s.drained + ml ≤ a → Memory.get m a = Memory.get s.win a)

/-- The offsets a match refuses, in the order of 45_window.md rule R661: below 1 (rule R663), before the dictionary's bytes while
the frame is no longer than the window, and beyond the window after that. -/
def Obligations.MatchOffsetErrors : Prop :=
  ∀ (s : State) (off : Word64) (ml t dl : Nat),
    (s.dictActive = false ∧ dl = 0 ∨
      s.dictActive = true ∧ ∃ d, s.params.dict = some d ∧ dl = d.content.length) →
    (off.toInt < 1 → matchCopy off ml t s = raise .offsetZero) ∧
    (1 ≤ off.toInt → t ≤ s.w → ((t + dl : Nat) : Int) < off.toInt → matchCopy off ml t s = raise .offsetRange) ∧
    (1 ≤ off.toInt → s.w < t → (s.w : Int) < off.toInt → matchCopy off ml t s = raise .offsetRange) ∧
    siteKind .offsetZero = .corruption ∧ siteKind .offsetRange = .outOfRange

/-- The source byte of a match (45_window.md rule R662): a byte of the frame in the arena, or a byte of the dictionary, whose
content ends where the frame begins, unless the model does not admit it (00_scope.md rule R21, log 10). -/
def Obligations.MatchByteComesFromFrameOrDictionary : Prop :=
  ∀ (s : State) (x : Int) (dl : Nat),
    ((s.drained : Int) ≤ x → matchByte x dl s = .ok (winByte s (x.toNat - s.drained))) ∧
    (∀ d, x < 0 → -(dl : Int) ≤ x → s.params.dict = some d → d.content.length = dl → s.params.admitDictMatch = true →
      ∃ b, d.content[((dl : Int) + x).toNat]? = some b ∧ matchByte x dl s = .ok b) ∧
    (x < 0 → s.params.admitDictMatch = false → matchByte x dl s = .error (.refused .dictMatchNotAdmitted))

/-- EXECUTE: output above MAX_BLOCK_SIZE raises BLK_OUT before anything is written (45_window.md rule R658); a literal length above
the literals left raises SEQ_LIT_OVERRUN (rule R657); a result is N_LIT plus the match lengths long, and only that run of WIN,
REP and the literal cursor are written (rule R665). -/
def Obligations.ExecuteStaysInItsBounds : Prop :=
  (∀ s : State, s.params.maxBlock < s.dp.lb.length + (s.dp.sb.map SeqEntry.ml).sum → execute s = raise .blkOut) ∧
  (∀ (s : State) (e : SeqEntry) (t : Nat), s.dp.lp ≤ s.dp.lb.length → s.dp.lb.length - s.dp.lp < e.ll →
    executeOne e t s = raise .seqLitOverrun) ∧
  (∀ (s u : State) (outLen : Nat), Memory.wf s.win = true → execute s = .ok (outLen, u) →
    outLen = s.dp.lb.length + (s.dp.sb.map SeqEntry.ml).sum ∧ outLen ≤ s.params.maxBlock ∧
    u = { s with win := u.win, rep := u.rep, dp := { s.dp with lp := u.dp.lp } } ∧
    ∀ a, a < s.wEnd ∨ s.wEnd + outLen ≤ a → Memory.get u.win a = Memory.get s.win a)

/-- The repeat offsets (44_sequences.md rule R621), and that their arithmetic does not wrap (rule R622). -/
def Obligations.RepeatOffsetsResolve : Prop :=
  ∀ (ofv ll : Nat) (rep : RepOffsets), 1 ≤ ofv → ofv < 2 ^ 33 →
    (3 < ofv → ∃ off : Word64, off.toInt = (ofv : Int) - 3 ∧
      seqResolve ofv ll rep = (off, { r0 := off, r1 := rep.r0, r2 := rep.r1 })) ∧
    (ofv = 1 → ll ≠ 0 → seqResolve ofv ll rep = (rep.r0, rep)) ∧
    (ofv = 2 ∧ ll ≠ 0 ∨ ofv = 1 ∧ ll = 0 →
      seqResolve ofv ll rep = (rep.r1, { r0 := rep.r1, r1 := rep.r0, r2 := rep.r2 })) ∧
    (ofv = 3 ∧ ll ≠ 0 ∨ ofv = 2 ∧ ll = 0 →
      seqResolve ofv ll rep = (rep.r2, { r0 := rep.r2, r1 := rep.r0, r2 := rep.r1 })) ∧
    (ofv = 3 → ll = 0 → -(2 ^ 63 : Int) < rep.r0.toInt → ∃ off : Word64, off.toInt = rep.r0.toInt - 1 ∧
      seqResolve ofv ll rep = (off, { r0 := off, r1 := rep.r0, r2 := rep.r1 }))

/-! ## Bit readers -/

/-- Forward reads: READ_BITS gives the stream's bits, the first in bit 0 (40_bit_readers.md rule R401), READ_LE the little-endian
value of aligned bytes (rule R404), each with its errors in their order. -/
def Obligations.ForwardReadsGiveTheStreamBits : Prop :=
  ∀ (src : Source) (fr : Fr) (n : Nat),
    (32 < n → frReadBits src fr n = raise .frWidth) ∧
    (n = 0 → frReadBits src fr n = .ok (0, fr)) ∧
    (1 ≤ n → n ≤ 32 → 8 * fr.len < fr.pos + n → frReadBits src fr n = raise .frOverrun) ∧
    (1 ≤ n → n ≤ 32 → fr.pos + n ≤ 8 * fr.len →
      ∃ v, frReadBits src fr n = .ok (v, { fr with pos := fr.pos + n }) ∧ v < 2 ^ n ∧
        ∀ j, j < n → v.testBit j = (src fr.space (fr.base + (fr.pos + j) / 8)).getLsbD ((fr.pos + j) % 8)) ∧
    (fr.pos % 8 ≠ 0 → frReadLe src fr n = raise .frUnaligned) ∧
    (fr.pos % 8 = 0 → fr.len < fr.pos / 8 + n → frReadLe src fr n = raise .frOverrun) ∧
    (fr.pos % 8 = 0 → fr.pos / 8 + n ≤ fr.len →
      frReadLe src fr n = .ok (leValue ((List.range n).map fun j => src fr.space (fr.base + fr.pos / 8 + j)),
        { fr with pos := fr.pos + 8 * n }))

/-- A field read in two parts is the field read at once, by both readers; the backward reader's low part is the later read
(20_memory.md rule R210). -/
def Obligations.MixedWidthReadsAgree : Prop :=
  (∀ (src : Source) (fr fr1 fr2 : Fr) (n m x y : Nat), n + m ≤ 32 → frReadBits src fr n = .ok (x, fr1) →
    frReadBits src fr1 m = .ok (y, fr2) → frReadBits src fr (n + m) = .ok (x + 2 ^ n * y, fr2)) ∧
  (∀ (src : Source) (br br1 br2 : Br) (n m x y maxn : Nat), n + m ≤ maxn → brRead src br n maxn = .ok (x, br1) →
    brRead src br1 m maxn = .ok (y, br2) → brRead src br (n + m) maxn = .ok (2 ^ m * x + y, br2))

/-- Backward reads: BR.MAKE starts below the highest set bit of the last byte, and refuses an empty range and a last byte 0
(40_bit_readers.md rule R420); BR.READ gives the bits below the position, zeros below bit 0, and moves by exactly the width
(rule R421). -/
def Obligations.BackwardReadsGiveTheStreamBits : Prop :=
  (∀ (src : Source) (base len : Nat),
    (len = 0 → brMake src base len = raise .brEmpty) ∧
    (1 ≤ len → src .inp (base + len - 1) = 0 → brMake src base len = raise .brNoMarker) ∧
    (1 ≤ len → ∀ k, k < 8 → (src .inp (base + len - 1)).getLsbD k = true →
      (∀ j, k < j → (src .inp (base + len - 1)).getLsbD j = false) →
      brMake src base len = .ok { base := base, len := len, pos := 8 * ((len : Int) - 1) + k })) ∧
  (∀ (src : Source) (br : Br) (n maxn : Nat),
    (maxn < n → brRead src br n maxn = raise .brWidth) ∧
    (n = 0 → brRead src br n maxn = .ok (0, br)) ∧
    (1 ≤ n → n ≤ maxn →
      ∃ v, brRead src br n maxn = .ok (v, { br with pos := br.pos - n }) ∧ v < 2 ^ n ∧
        ∀ j, j < n → v.testBit j =
          (decide (0 ≤ br.pos - n + j) &&
            (src .inp (br.base + (br.pos - n + j).toNat / 8)).getLsbD ((br.pos - n + j).toNat % 8))))

/-! ## Tables -/

/-- The ranges of a built FSE table (41_fse.md rule R451): one cell per state, update widths at most the accuracy, every update a
valid state, symbols of the distribution. -/
def Obligations.FseTableRanges : Prop :=
  ∀ (norm : List Int) (acc : Nat) (t : FseTable), (∀ p ∈ norm, -1 ≤ p) → fseBuild norm acc = .ok t →
    t.acc = acc ∧ 1 ≤ acc ∧ acc ≤ 15 ∧ t.cells.length = 2 ^ acc ∧
    ∀ c ∈ t.cells, c.nb ≤ acc ∧ c.base < 2 ^ acc ∧ (∀ v, v < 2 ^ c.nb → c.base + v < 2 ^ acc) ∧ c.sym < norm.length

/-- For an accuracy a stream or ROM can have, a distribution with the right sum builds: the spread visits every free cell once and
returns to 0, so FSE_SPREAD is not reached (41_fse.md rule R452). -/
def Obligations.FseSpreadReturnsToZero : Prop :=
  ∀ (norm : List Int) (acc : Nat), 5 ≤ acc → acc ≤ 15 → norm.length ≤ 256 → (∀ p ∈ norm, -1 ≤ p) →
    normSum norm = (2 ^ acc : Nat) → ∃ t, fseBuild norm acc = .ok t

/-- A distribution header spends its budget exactly (41_fse.md rules R458 and R460): a field's value is at most the budget plus 1,
and a distribution that is read has an accuracy under the cap, at most 256 probabilities, each at least -1, and the sum its table
needs; so FSE_HDR_SUM is not reached. -/
def Obligations.FseHeaderSpendsItsBudget : Prop :=
  (∀ (src : Source) (fr fr' : Fr) (remaining v : Nat), 1 ≤ remaining → fseField src fr remaining = .ok (v, fr') →
    v ≤ remaining + 1) ∧
  (∀ (src : Source) (fr fr' : Fr) (maxacc acc : Nat) (norm : List Int),
    fseReadDistribution src fr maxacc = .ok (norm, acc, fr') →
    5 ≤ acc ∧ acc ≤ maxacc ∧ norm.length ≤ 256 ∧ (∀ p ∈ norm, -1 ≤ p) ∧ normSum norm = (2 ^ acc : Nat)) ∧
  (∀ (src : Source) (fr : Fr) (maxacc : Nat), fseReadDistribution src fr maxacc ≠ .error (.raised .fseHdrSum))

/-- Neither weight form gives more than 255 weights, the direct one no more than 128, and a table has at most 256 symbols
(42_huffman.md rule R503): N_W counts the weights read, and HW holds the implied one after them (10_state.md rule R127). -/
def Obligations.WeightCountIsBounded : Prop :=
  (∀ (src : Source) (fr : Fr) (hdr : Nat) (r : HufWeights), hdr < 256 → hufReadWeights src fr hdr = .ok r →
    1 ≤ r.hw.length ∧ r.hw.length ≤ 255 ∧ (128 ≤ hdr → r.hw.length = hdr - 127 ∧ r.hw.length ≤ 128)) ∧
  (∀ (hw ws : List Nat) (t : HufTable), hufBuild hw = .ok (ws, t) → ws.length = hw.length + 1 ∧ ws.length ≤ 256) ∧
  (∀ (hdr : Nat) (s t : State), hdr < 256 → hufDescription hdr s = .ok t →
    t.dp.nW ≤ 255 ∧ t.dp.hw.length = t.dp.nW + 1)

/-- The ranges of a built prefix-code table (42_huffman.md rule R506): code lengths from 1 to the longest, at most 16, the table
exactly filled, symbols below 256; so HUF_RANK is not reached. -/
def Obligations.HuffmanTableIsFilled : Prop :=
  (∀ (hw ws : List Nat) (t : HufTable), hufBuild hw = .ok (ws, t) →
    1 ≤ t.maxl ∧ t.maxl ≤ 16 ∧ t.cells.length = 2 ^ t.maxl ∧
    (∀ c ∈ t.cells, 1 ≤ c.nb ∧ c.nb ≤ t.maxl ∧ c.sym < 256) ∧ ∃ m, (ws.map weightSpan).sum = 2 ^ m) ∧
  (∀ hw : List Nat, hufBuild hw ≠ .error (.raised .hufRank))

/-- The codes of a built table (42_huffman.md rule R507): the longest codes take the lowest values, symbols of one length take
rising values in symbol order, and a code of length `len` with value `v` fills the entries from `v * 2^(maxl - len)` up to the
next code's. -/
def Obligations.HuffmanCodesAreCanonical : Prop :=
  ∀ (hw ws : List Nat) (t : HufTable), hufBuild hw = .ok (ws, t) →
    (∀ c d, c < d → d < 2 ^ t.maxl → (hufCell t d).nb < (hufCell t c).nb ∨
      (hufCell t d).nb = (hufCell t c).nb ∧ (hufCell t c).sym ≤ (hufCell t d).sym) ∧
    ∃ m, (ws.map weightSpan).sum = 2 ^ m ∧ ∀ s, s < ws.length →
      (ws.getD s 0 = 0 → ∀ c, c < 2 ^ t.maxl → (hufCell t c).sym ≠ s) ∧
      (1 ≤ ws.getD s 0 → ∃ len v, len + ws.getD s 0 = m + 1 ∧ len ≤ t.maxl ∧ ∀ c, c < 2 ^ t.maxl →
        ((hufCell t c).sym = s ↔ v * 2 ^ (t.maxl - len) ≤ c ∧ c < (v + 1) * 2 ^ (t.maxl - len)) ∧
        ((hufCell t c).sym = s → (hufCell t c).nb = len))

/-- A literal stream ends exactly `maxl` bits past zero and never appends past its cap (42_huffman.md rule R515); it appends to the
literals before it. -/
def Obligations.LiteralStreamEndsAtItsMark : Prop :=
  ∀ (src : Source) (t : HufTable) (br : Br) (cap : Nat) (lits : List Byte) (r : HufStream), lits.length ≤ cap →
    hufStream src t br cap lits = .ok r →
    r.br.pos = -(t.maxl : Int) ∧ r.lits.length ≤ cap ∧ ∃ more, r.lits = more ++ lits

/-! ## Literals rows -/

/-- The Raw rows copy their literals and the RLE rows repeat their byte, also for size 0 (43_literals.md rules R553 and R554), the
size being the operand and the bytes after it (30_encoding.md rule R321); bytes that are missing raise FR_OVERRUN. Nothing but
the literal buffer and the reader changes. -/
def Obligations.RawAndRleLiterals : Prop :=
  ∀ (s : State) (x5 : BitVec 5) (x4 : BitVec 4) (i : Instr) (rle : Bool) (k size : Nat),
    (i, rle, k, size) ∈
      [(Instr.litRawSf02 x5, false, 0, x5.toNat), (Instr.litRawSf1 x4, false, 1, x4.toNat + 16 * nextLe s 1),
       (Instr.litRawSf3 x4, false, 2, x4.toNat + 16 * nextLe s 2), (Instr.litRleSf02 x5, true, 0, x5.toNat),
       (Instr.litRleSf1 x4, true, 1, x4.toNat + 16 * nextLe s 1), (Instr.litRleSf3 x4, true, 2, x4.toNat + 16 * nextLe s 2)] →
    hasBytes s k → size ≤ s.params.maxBlock →
    (hasBytes s (k + (if rle then 1 else size)) →
      ∃ lits, exec i s = .next { s with
          dp := { s.dp with fr := frPast s (k + (if rle then 1 else size)), lb := lits } } ∧
        lits.length = size ∧ ∀ j, j < size → lits[j]? = some (nextByte s (k + (if rle then 0 else j)))) ∧
    (¬ hasBytes s (k + (if rle then 1 else size)) →
      ∃ t, exec i s = .next t ∧ EndsInError .corruption .frOverrun s t)

/-- The Compressed rows: the sizes of 30_encoding.md rule R322, a fresh table, which becomes PREV_HUF (43_literals.md rules R555
and R557), and the streams of the section; nothing else changes. -/
def Obligations.FreshTableLiterals : Prop :=
  ∀ (s : State) (x : BitVec 4) (i : Instr) (four : Bool) (w : Nat) (r : HufRead) (e : HufStream),
    (i, four, w) ∈ compressedRows x → hasBytes s (sizeBytes w + compressedSize s w) → regenSize s w x ≤ s.params.maxBlock →
    hufReadTable (source s) (frSub s (sizeBytes w) (compressedSize s w)) = .ok r →
    litDecodeStreams (source s) four r.table r.weights.fr (regenSize s w x) = .ok e →
    (e.lits.length = regenSize s w x →
      ∃ t, exec i s = .next t ∧
        t = { s with prevHuf := some r.table, dp := { s.dp with
          fr := frPast s (sizeBytes w + compressedSize s w), lb := e.lits.reverse, hw := r.hw,
          nW := r.weights.hw.length, tLit := some r.table, tW := t.dp.tW, s1 := t.dp.s1, s2 := t.dp.s2,
          sHuf := e.sHuf, br := e.br } }) ∧
    (e.lits.length ≠ regenSize s w x →
      ∃ t, exec i s = .next t ∧ EndsInError .corruption .litCount s t)

/-- The Treeless rows: the sizes of 30_encoding.md rule R322, the previous table, and the streams of the section (43_literals.md
rules R555 and R561); nothing else changes. Without a previous table they raise LIT_NO_TABLE (rule R558). -/
def Obligations.TreelessLiterals : Prop :=
  ∀ (s : State) (x : BitVec 4) (i : Instr) (four : Bool) (w : Nat),
    (i, four, w) ∈ treelessRows x → hasBytes s (sizeBytes w + compressedSize s w) → regenSize s w x ≤ s.params.maxBlock →
    (∀ (t : HufTable) (e : HufStream), s.prevHuf = some t →
      litDecodeStreams (source s) four t (frSub s (sizeBytes w) (compressedSize s w)) (regenSize s w x) = .ok e →
      e.lits.length = regenSize s w x →
      exec i s = .next { s with dp := { s.dp with
        fr := frPast s (sizeBytes w + compressedSize s w), lb := e.lits.reverse, tLit := some t, sHuf := e.sHuf,
        br := e.br } }) ∧
    (s.prevHuf = none → ∃ t, exec i s = .next t ∧ EndsInError .corruption .litNoTable s t)

/-- The size bound of every literals row is MAX_BLOCK_SIZE (43_literals.md rules R551, R552 and R555). -/
def Obligations.LiteralSizesAreBounded : Prop :=
  ∀ (s : State) (x5 : BitVec 5) (x4 : BitVec 4),
    (∀ (i : Instr) (k size : Nat), (i, k, size) ∈
        [(Instr.litRawSf02 x5, 0, x5.toNat), (Instr.litRawSf1 x4, 1, x4.toNat + 16 * nextLe s 1),
         (Instr.litRawSf3 x4, 2, x4.toNat + 16 * nextLe s 2), (Instr.litRleSf02 x5, 0, x5.toNat),
         (Instr.litRleSf1 x4, 1, x4.toNat + 16 * nextLe s 1), (Instr.litRleSf3 x4, 2, x4.toNat + 16 * nextLe s 2)] →
      hasBytes s k → s.params.maxBlock < size →
      ∃ t, exec i s = .next t ∧ EndsInError .outOfRange .litSize s t) ∧
    (∀ (i : Instr) (four : Bool) (w : Nat), (i, four, w) ∈ compressedRows x4 ++ treelessRows x4 →
      hasBytes s (sizeBytes w) → s.params.maxBlock < regenSize s w x4 →
      ∃ t, exec i s = .next t ∧ EndsInError .outOfRange .litSize s t)

/-- The Huffman description rows: direct weights are the nibbles of the bytes that follow, the high one first (42_huffman.md
rule R501); coded weights are those FSE.DECODE2 reads from the region (rule R502); N_W is their number; the table is the one
HUF.BUILD makes of them, or its error (rules R500 and R504). -/
def Obligations.HuffmanDescriptionsBuildTheirTable : Prop :=
  (∀ (s : State) (n : BitVec 7) (hw : List Nat), hasBytes s ((n.toNat + 2) / 2) → hw.length = n.toNat + 1 →
    (∀ i, i ≤ n.toNat → hw[i]? = some (if i % 2 = 0 then (nextByte s (i / 2)).toNat / 16
      else (nextByte s (i / 2)).toNat % 16)) →
    (∀ ws t, hufBuild hw = .ok (ws, t) →
      exec (.hufDirect n) s = .next { s with
        dp := { s.dp with fr := frPast s ((n.toNat + 2) / 2), hw := ws, nW := n.toNat + 1, tLit := some t } }) ∧
    (∀ e, hufBuild hw = .error (.raised e) →
      ∃ t, exec (.hufDirect n) s = .next t ∧ EndsInError (siteKind e) e s t)) ∧
  (∀ (s : State) (h : BitVec 7) (tw : FseTable) (sub rest : Fr) (br : Br) (d : Decode2) (ws : List Nat) (t : HufTable),
    hasBytes s h.toNat → fseReadHeader (source s) (frSub s 0 h.toNat) 7 = .ok (tw, sub) →
    frRestBackward (source s) sub = .ok (br, rest) → fseDecode2 (source s) tw br 255 = .ok d →
    hufBuild d.hw = .ok (ws, t) →
    exec (.hufFse h) s = .next { s with dp := { s.dp with
      fr := frPast s h.toNat, hw := ws, nW := d.hw.length, tLit := some t, tW := some tw, s1 := d.s1, s2 := d.s2,
      br := d.br } })

/-! ## Sequences rows -/

/-- The four forms of the sequence count (44_sequences.md rule R601), and the end of a section with no sequences (rule R602):
nothing may follow a count of 0. Only the count, the empty sequence buffer and the reader change. -/
def Obligations.SequenceCountForms : Prop :=
  ∀ s : State,
    (∀ c : BitVec 7, c ≠ 0 →
      exec (.seqCountShort c) s = .next { s with dp := { s.dp with nSeq := c.toNat, sb := [] } }) ∧
    (∀ (i : Instr) (k n : Nat),
      (i = .seqCountZero ∧ k = 0 ∧ n = 0) ∨ (∃ c : BitVec 7, i = .seqCountMedium c ∧ k = 1 ∧ n = c.toNat * 256 + nextLe s 1) ∨
        (i = .seqCountLong ∧ k = 2 ∧ n = nextLe s 2 + 0x7F00) →
      (hasBytes s k → n ≠ 0 ∨ s.dp.fr.pos / 8 + k = s.dp.fr.len →
        exec i s = .next { s with dp := { s.dp with nSeq := n, sb := [], fr := frPast s k } }) ∧
      (hasBytes s (k + 1) → n = 0 → ∃ t, exec i s = .next t ∧ EndsInError .corruption .seqTrailing s t) ∧
      (1 ≤ k → s.dp.fr.pos % 8 = 0 → ¬ hasBytes s k → ∃ t, exec i s = .next t ∧ EndsInError .corruption .frOverrun s t))

/-- The Predefined rows select the field's ROM table, the one FSE.BUILD makes of its distribution (41_fse.md rule R455); the RLE
rows build the one-state table of the next byte, whatever its value (rule R454), or raise FR_OVERRUN; the table becomes the
field's previous table (44_sequences.md rule R604). -/
def Obligations.PredefinedAndRleTables : Prop :=
  ∀ (s : State) (f : SeqField) (x : BitVec 4),
    (∃ tab t, fseBuild (predefDist f) (predefAcc f) = .ok tab ∧ exec (modeRow f 0 x) s = .next t ∧
      Configures f tab s.dp.fr s t) ∧
    (hasBytes s 1 → ∃ t, exec (modeRow f 1 x) s = .next t ∧
      Configures f { acc := 0, cells := [{ sym := (nextByte s 0).toNat, nb := 0, base := 0 }] } (frPast s 1) s t) ∧
    (s.dp.fr.pos % 8 = 0 → ¬ hasBytes s 1 →
      ∃ t, exec (modeRow f 1 x) s = .next t ∧ EndsInError .corruption .frOverrun s t)

/-- The FSE rows read a table from the stream, with the field's accuracy cap, LL 9, OF 8, ML 9, and the weight table's cap is 7
(41_fse.md rule R459): a header above the cap raises FSE_HDR_ACC, any other error of the header is the row's, and a table read
becomes the field's previous table (44_sequences.md rule R604). -/
def Obligations.StreamTablesUnderTheirCap : Prop :=
  (∀ (s : State) (f : SeqField) (x : BitVec 4) (cap : Nat), (f, cap) ∈ [(SeqField.ll, 9), (.oft, 8), (.ml, 9)] →
    (∀ tab fr, fseReadHeader (source s) s.dp.fr cap = .ok (tab, fr) →
      ∃ t, exec (modeRow f 2 x) s = .next t ∧ Configures f tab fr s t) ∧
    (∀ e, fseReadHeader (source s) s.dp.fr cap = .error (.raised e) →
      ∃ t, exec (modeRow f 2 x) s = .next t ∧ EndsInError (siteKind e) e s t) ∧
    (hasBytes s 1 → cap < 5 + (nextByte s 0).toNat % 16 →
      ∃ t, exec (modeRow f 2 x) s = .next t ∧ EndsInError .outOfRange .fseHdrAcc s t)) ∧
  (∀ (s : State) (h : BitVec 7), 1 ≤ h.toNat → hasBytes s h.toNat → 7 < 5 + (nextByte s 0).toNat % 16 →
    ∃ t, exec (.hufFse h) s = .next t ∧ EndsInError .outOfRange .fseHdrAcc s t)

/-- The Repeat rows use the field's previous table, and without one raise SEQ_NO_TABLE (44_sequences.md rule R604); a modes byte
with a reserved bit set raises SEQ_MODES before any table is read (rule R603). -/
def Obligations.RepeatTablesAndReservedModes : Prop :=
  (∀ (s : State) (f : SeqField) (x : BitVec 4),
    (∀ tab, prevTable s f = some tab →
      ∃ t, exec (modeRow f 3 x) s = .next t ∧ Configures f tab s.dp.fr s t) ∧
    (prevTable s f = none →
      ∃ t, exec (modeRow f 3 x) s = .next t ∧ EndsInError .corruption .seqNoTable s t)) ∧
  (∀ (s : State) (r : BitVec 2) (x : BitVec 6),
    ∃ t, exec (.seqModesReserved r x) s = .next t ∧ EndsInError .reservedFieldUsed .seqModes s t) ∧
  (∀ s : State, hasBytes s 1 → (nextByte s 0).toNat % 4 ≠ 0 → seqBody s = raise .seqModes)

/-! ## The rows are the block's own steps -/

/-- A literals section, as BLOCK decodes it (43_literals.md rule R550), is its first byte and the row of that byte: that the rows
stand for these steps is the model's choice (log 2, log 26). -/
def Obligations.LiteralsSectionIsItsRow : Prop :=
  ∀ s : State, hasBytes s 1 →
    settle s (litSection s) =
      exec (decodeSelector .literals (nextByte s 0)) { s with dp := { s.dp with fr := frPast s 1 } }

/-- So are a Huffman description (42_huffman.md rule R500), a sequence count (44_sequences.md rule R601) with the end of a section
that has none (rule R602), and a field's table as a modes byte selects it (rules R603 and R604); the rows are the model's
choice (log 2). -/
def Obligations.DescriptionsCountsAndModesAreTheirRows : Prop :=
  ∀ s : State, hasBytes s 1 →
    (settle s (hufReadTable (source s) s.dp.fr >>= fun r => .ok (putFr (putHufRead s r) r.weights.fr)) =
      exec (decodeSelector .huffman (nextByte s 0)) { s with dp := { s.dp with fr := frPast s 1 } }) ∧
    (settle s (seqCount (source s) s.dp.fr >>= fun r => finishCount r.1 r.2 s) =
      exec (decodeSelector .seqCount (nextByte s 0)) { s with dp := { s.dp with fr := frPast s 1 } }) ∧
    (∀ f : SeqField, (nextByte s 0).toNat % 4 = 0 →
      settle s (seqTable f (match f with
          | .ll => (nextByte s 0).toNat / 64
          | .oft => (nextByte s 0).toNat / 16 % 4
          | .ml => (nextByte s 0).toNat / 4 % 4) (putFr s (frPast s 1)) >>= fun r => .ok r.2) =
        exec (decodeSelector (.seqModes f) (nextByte s 0)) { s with dp := { s.dp with fr := frPast s 1 } })

/-- The ranges of a decoded sequence (44_sequences.md rule R614), from code tables without gaps (rule R610) and the code bounds of
rule R612; and the bitstream of a block's sequences ends exactly at 0 (rule R613). -/
def Obligations.DecodedSequencesInRange : Prop :=
  (∀ c, c < 35 → llBase.getD c 0 + 2 ^ llBits.getD c 0 = llBase.getD (c + 1) 0) ∧
  (∀ c, c < 52 → mlBase.getD c 0 + 2 ^ mlBits.getD c 0 = mlBase.getD (c + 1) 0) ∧
  (∀ (src : Source) (t : SeqTables) (st : SeqStates) (e : SeqEntry) (br : Br),
    seqDecodeOne src t st = .ok (e, br) →
    e.ll ≤ 131071 ∧ 3 ≤ e.ml ∧ e.ml ≤ 131074 ∧ 1 ≤ e.ofv ∧ e.ofv ≤ 2 ^ 33 - 1) ∧
  (∀ (src : Source) (t : SeqTables) (br : Br) (n : Nat) (sb : List SeqEntry) (st : SeqStates),
    seqDecodeAll src t br n = .ok (sb, st) → st.br.pos = 0 ∧ sb.length = n)

/-- A sequence bitstream whose position after the last sequence is not 0 raises SEQ_END (44_sequences.md rule R613). -/
def Obligations.SequenceStreamMustBeExhausted : Prop :=
  ∀ (src : Source) (t : SeqTables) (br : Br) (n : Nat) (st0 st : SeqStates) (sb : List SeqEntry),
    seqInit src t br = .ok st0 → seqDecodeLoop src t n st0 [] = .ok (sb, st) →
    (st.br.pos = 0 → seqDecodeAll src t br n = .ok (sb, st)) ∧
    (st.br.pos ≠ 0 → seqDecodeAll src t br n = raise .seqEnd) ∧ siteKind .seqEnd = .corruption

/-! ## The machine -/

/-- Every step keeps the invariants of 10_state.md rules R103, R104, R111 and R114 and the canonical form of the memories, from
every state that has them. -/
def Obligations.EveryStepKeepsTheInvariants : Prop :=
  ∀ s t : State, s.Inv → step s = .next t → t.Inv

/-- The reset state has the invariants (10_state.md rules R114 and R141). -/
def Obligations.ResetHasTheInvariants : Prop := State.reset.Inv

/-- Every instruction, in every state, ends in a next state (70_reset_and_hazards.md rule R931): with an admitted dictionary match
and a dictionary in the parameter's domain none is refused (log 9, log 10); no instruction faults; and a refusal is one of the
two the spec asks for (00_scope.md rule R21, 93_implementation_defined.md section 2). -/
def Obligations.EveryInstructionEndsInANextState : Prop :=
  (∀ (i : Instr) (s : State), s.params.admitDictMatch = true →
    (∀ d, s.params.dict = some d → dictInDomain d = true) → ∃ t, exec i s = .next t) ∧
  (∀ (i : Instr) (s : State) (f : Fault), exec i s ≠ .fault f) ∧
  (∀ (i : Instr) (s : State) (r : Refusal), exec i s = .refused r →
    (r = .dictMatchNotAdmitted ∧ s.params.admitDictMatch = false ∧ isBlock i = true) ∨
    (r = .dictOutsideDomain ∧ ∃ rsv0 a rsv1 d, i = .frameBegin true rsv0 a rsv1 ∧ s.params.dict = some d ∧
      dictInDomain d = false))

/-- What a selector row can change: an error of the spec, or the command-internal registers, PREV_HUF of a Compressed row only,
and PREV_FSE of the field of a mode row only (43_literals.md rule R555, 44_sequences.md rules R600 and R604); every other
register, every byte of IN and WIN, is as it was. -/
def Obligations.SelectorRowsWriteOnlyDecodeState : Prop :=
  ∀ (i : Instr) (s t : State), isSelector i = true → exec i s = .next t →
    (∃ e, e ≠ Site.none ∧ EndsInError (siteKind e) e s t) ∨
    (t = { s with dp := t.dp, prevHuf := t.prevHuf, prevFse := t.prevFse } ∧
      (t.prevHuf ≠ s.prevHuf → ∃ x, i ∈ (compressedRows x).map fun r => r.1) ∧
      (t.prevFse ≠ s.prevFse → ∃ f m x, i = modeRow f m x ∧ ∀ g, g ≠ f → prevTable t g = prevTable s g))

/-- A block reads IN only below its input need (20_memory.md rule R202): two states whose IN agrees there end alike, but for the
bytes of IN. -/
def Obligations.BlocksReadOnlyTheirPayload : Prop :=
  ∀ (s t : State) (m : Memory) (last : Bool) (size : BitVec 21) (i : Instr) (needIn : Nat),
    (i, needIn) ∈ [(Instr.blkRaw last size, size.toNat), (Instr.blkRle last size, 1),
      (Instr.blkCompressed last size, size.toNat)] →
    (∀ a, a < needIn → inByte { s with inp := m } a = inByte s a) → exec i s = .next t →
    ∃ t', exec i { s with inp := m } = .next t' ∧ t = { t' with inp := t.inp }

/-- No command reads a command-internal register before it writes it (10_state.md rule R128): two states that differ only there
end alike, but for those registers. That they are held in the state at all is the model's choice (log 4). -/
def Obligations.CommandsReadNoInternalRegister : Prop :=
  ∀ (s t : State) (d : Dp) (w : Word64), exec (decodeCmd w) s = .next t →
    ∃ t', exec (decodeCmd w) { s with dp := d } = .next t' ∧ t = { t' with dp := t.dp }
end

