-- ==== Sys2Proof/Laws/Memory.lean ====
section
/-! SUPPORT. Laws of memory: what each operation leaves at every address, and that each keeps the canonical form. -/

namespace Sys2Proof.Machine

/-! ## The canonical form -/

/-- The canonical form as a list property. -/
theorem Memory.wf_iff (m : Memory) : Memory.wf m = true ↔ List.Pairwise (fun x y => x.1 < y.1) m := by
  simp [Memory.wf]

theorem Memory.wf_nil : Memory.wf [] = true := by simp [Memory.wf_iff]

theorem Memory.wf_cons (c : Host.Cell) (m : Memory) :
    Memory.wf (c :: m) = true ↔ (∀ d ∈ m, c.1 < d.1) ∧ Memory.wf m = true := by
  simp only [Memory.wf_iff, List.pairwise_cons]

/-! ## Reading -/

@[simp] theorem Memory.get_nil (a : Nat) : Memory.get [] a = none := rfl

theorem Memory.get_cons (k : Nat) (b : Byte) (m : Memory) (a : Nat) :
    Memory.get ((k, b) :: m) a = if a = k then some b else Memory.get m a := rfl

/-- A listed byte is in the list. -/
theorem Memory.mem_of_get {m : Memory} {a : Nat} {b : Byte} (h : Memory.get m a = some b) : (a, b) ∈ m := by
  induction m with
  | nil => simp at h
  | cons c m ih =>
    obtain ⟨k, v⟩ := c
    rw [Memory.get_cons] at h
    split at h
    · cases h; subst_vars; exact List.mem_cons_self ..
    · exact List.mem_cons_of_mem _ (ih h)

/-- An address above or below every listed one reads as nothing. -/
theorem Memory.get_none {m : Memory} {a : Nat} (h : ∀ c ∈ m, c.1 ≠ a) : Memory.get m a = none := by
  induction m with
  | nil => rfl
  | cons c m ih =>
    obtain ⟨k, v⟩ := c
    rw [Memory.get_cons, if_neg (fun e => h (k, v) (List.mem_cons_self ..) e.symm)]
    exact ih fun d hd => h d (List.mem_cons_of_mem _ hd)

/-- In the canonical form the list holds exactly what is read. -/
theorem Memory.get_eq_some {m : Memory} (hm : Memory.wf m = true) (a : Nat) (b : Byte) :
    Memory.get m a = some b ↔ (a, b) ∈ m := by
  refine ⟨Memory.mem_of_get, fun h => ?_⟩
  induction m with
  | nil => simp at h
  | cons c m ih =>
    obtain ⟨k, v⟩ := c
    rw [Memory.wf_cons] at hm
    rw [Memory.get_cons]
    rcases List.mem_cons.1 h with e | e
    · cases e; simp
    · rw [if_neg (by have := hm.1 _ e; simp only at this; omega)]
      exact ih hm.2 e

/-- Which addresses read as a byte. -/
theorem Memory.get_isSome {m : Memory} (a : Nat) : (Memory.get m a).isSome ↔ ∃ c ∈ m, c.1 = a := by
  constructor
  · intro h
    obtain ⟨b, hb⟩ := Option.isSome_iff_exists.1 h
    exact ⟨_, Memory.mem_of_get hb, rfl⟩
  · rintro ⟨c, hc, rfl⟩
    by_contra hn
    induction m with
    | nil => simp at hc
    | cons d m ih =>
      obtain ⟨k, v⟩ := d
      rw [Memory.get_cons] at hn
      split at hn
      · simp at hn
      · rcases List.mem_cons.1 hc with e | e
        · cases e; simp_all
        · exact ih e hn

/-! ## Writing one byte -/

theorem Memory.mem_set {m : Memory} {a : Nat} {v : Byte} {c : Host.Cell} (h : c ∈ Memory.set m a v) :
    c = (a, v) ∨ c ∈ m := by
  induction m with
  | nil => simpa [Memory.set] using h
  | cons d m ih =>
    obtain ⟨k, b⟩ := d
    simp only [Memory.set] at h
    split at h
    · simpa using h
    · split at h
      · simp only [List.mem_cons] at h ⊢; tauto
      · rcases List.mem_cons.1 h with e | e
        · simp [e]
        · rcases ih e with e | e <;> simp [e]

/-- The byte written is read, every other address reads as before. -/
theorem Memory.get_set (m : Memory) (a : Nat) (v : Byte) (b : Nat) (hm : Memory.wf m = true) :
    Memory.get (Memory.set m a v) b = if b = a then some v else Memory.get m b := by
  induction m with
  | nil => simp [Memory.set, Memory.get]
  | cons d m ih =>
    obtain ⟨k, x⟩ := d
    rw [Memory.wf_cons] at hm
    simp only [Memory.set]
    split
    · simp [Memory.get]
    · split
      · subst_vars; simp only [Memory.get_cons]; split <;> rfl
      · rw [Memory.get_cons, ih hm.2, Memory.get_cons]
        split <;> split <;> first | rfl | omega

theorem Memory.wf_set (m : Memory) (a : Nat) (v : Byte) (hm : Memory.wf m = true) :
    Memory.wf (Memory.set m a v) = true := by
  induction m with
  | nil => simp [Memory.set, Memory.wf_iff]
  | cons d m ih =>
    obtain ⟨k, x⟩ := d
    have h := hm
    rw [Memory.wf_cons] at h
    simp only [Memory.set]
    split
    · rw [Memory.wf_cons]
      refine ⟨fun c hc => ?_, hm⟩
      rcases List.mem_cons.1 hc with e | e
      · subst e; assumption
      · have := h.1 c e; simp only at this ⊢; omega
    · split
      · subst_vars
        rw [Memory.wf_cons]
        exact ⟨fun c hc => h.1 c hc, h.2⟩
      · rw [Memory.wf_cons]
        refine ⟨fun c hc => ?_, ih h.2⟩
        rcases Memory.mem_set hc with e | e
        · subst e; simp only; omega
        · exact h.1 c e

/-! ## Writing a run of bytes -/

theorem mem_cellsFrom {a : Nat} {vs : List Byte} {c : Host.Cell} (h : c ∈ cellsFrom a vs) :
    a ≤ c.1 ∧ c.1 < a + vs.length := by
  induction vs generalizing a with
  | nil => simp [cellsFrom] at h
  | cons v vs ih =>
    simp only [cellsFrom, List.mem_cons] at h
    rcases h with e | e
    · subst e; simp
    · have := ih e; simp only [List.length_cons]; omega

theorem wf_cellsFrom (a : Nat) (vs : List Byte) : Memory.wf (cellsFrom a vs) = true := by
  induction vs generalizing a with
  | nil => exact Memory.wf_nil
  | cons v vs ih =>
    rw [cellsFrom, Memory.wf_cons]
    exact ⟨fun c hc => by have := mem_cellsFrom hc; simp only; omega, ih (a + 1)⟩

theorem get_cellsFrom (a : Nat) (vs : List Byte) (b : Nat) :
    Memory.get (cellsFrom a vs) b = if a ≤ b then vs[b - a]? else none := by
  induction vs generalizing a with
  | nil => simp [cellsFrom]
  | cons v vs ih =>
    rw [cellsFrom, Memory.get_cons, ih]
    by_cases h : b = a
    · simp [h]
    · rw [if_neg h]
      by_cases h2 : a ≤ b
      · obtain ⟨d, rfl⟩ : ∃ d, b = a + 1 + d := ⟨b - a - 1, by omega⟩
        rw [if_pos (by omega), if_pos h2, show a + 1 + d - a = (a + 1 + d - (a + 1)) + 1 by omega]
        simp
      · rw [if_neg (by omega), if_neg h2]

theorem Memory.get_append {m n : Memory} (a : Nat) :
    Memory.get (m ++ n) a = (Memory.get m a).or (Memory.get n a) := by
  induction m with
  | nil => simp
  | cons c m ih =>
    obtain ⟨k, v⟩ := c
    rw [List.cons_append, Memory.get_cons, Memory.get_cons, ih]
    split <;> rfl

theorem Memory.get_filter (m : Memory) (p : Nat → Bool) (a : Nat) :
    Memory.get (m.filter (fun c => p c.1)) a = if p a then Memory.get m a else none := by
  induction m with
  | nil => simp
  | cons c m ih =>
    obtain ⟨k, v⟩ := c
    rw [List.filter_cons]
    by_cases h : a = k
    · subst h
      by_cases hp : p a
      · simp [hp, Memory.get_cons]
      · rw [if_neg (by simpa using hp), ih]; simp [hp]
    · by_cases hp : p k
      · rw [if_pos (by simpa using hp), Memory.get_cons, if_neg h, ih, Memory.get_cons, if_neg h]
      · rw [if_neg (by simpa using hp), ih, Memory.get_cons, if_neg h]

/-- A run written is read back byte for byte, every other address reads as before. -/
theorem Memory.get_setMany (m : Memory) (a : Nat) (vs : List Byte) (b : Nat) :
    Memory.get (Memory.setMany m a vs) b =
      if a ≤ b ∧ b < a + vs.length then vs[b - a]? else Memory.get m b := by
  have h1 := Memory.get_filter m (fun k => decide (k < a)) b
  have h2 := Memory.get_filter m (fun k => decide (a + vs.length ≤ k)) b
  simp only [Memory.setMany, Memory.get_append, h1, h2, get_cellsFrom, decide_eq_true_eq]
  rcases lt_or_ge b a with h | h
  · rw [if_pos h, if_neg (by omega), if_neg (by omega), if_neg (by omega)]
    simp
  · by_cases h3 : b < a + vs.length
    · simp [h, h3, not_lt.2 h, not_le.2 h3]
    · simp [h, h3, not_lt.2 h, not_lt.1 h3, show vs.length ≤ b - a by omega]

theorem Memory.mem_setMany {m : Memory} {a : Nat} {vs : List Byte} {c : Host.Cell} (h : c ∈ Memory.setMany m a vs) :
    c ∈ m ∨ (a ≤ c.1 ∧ c.1 < a + vs.length) := by
  simp only [Memory.setMany, List.mem_append, List.mem_filter] at h
  rcases h with (h | h) | h
  · exact .inl h.1
  · exact .inr (mem_cellsFrom h)
  · exact .inl h.1

theorem Memory.wf_setMany (m : Memory) (a : Nat) (vs : List Byte) (hm : Memory.wf m = true) :
    Memory.wf (Memory.setMany m a vs) = true := by
  rw [Memory.wf_iff] at hm ⊢
  simp only [Memory.setMany, List.pairwise_append, List.mem_append, List.mem_filter, decide_eq_true_eq]
  refine ⟨⟨hm.filter _, (Memory.wf_iff _).1 (wf_cellsFrom a vs), ?_⟩, hm.filter _, ?_⟩
  · intro x hx y hy
    have := mem_cellsFrom hy
    omega
  · rintro x (hx | hx) y hy
    · omega
    · have := mem_cellsFrom hx
      omega

/-! ## Sliding -/

theorem Memory.mem_slide {m : Memory} {lo hi : Nat} {c : Host.Cell} (h : c ∈ Memory.slide m lo hi) :
    (c.1 + lo, c.2) ∈ m ∧ c.1 + lo < hi := by
  simp only [Memory.slide, List.mem_map, List.mem_filter, Bool.and_eq_true, decide_eq_true_eq] at h
  obtain ⟨d, ⟨hd, h1, h2⟩, rfl⟩ := h
  simp only
  rw [Nat.sub_add_cancel h1]
  exact ⟨hd, h2⟩

/-- Offset `a` holds afterwards what `lo + a` held, as far as the range reaches. -/
theorem Memory.get_slide (m : Memory) (lo hi a : Nat) :
    Memory.get (Memory.slide m lo hi) a = if lo + a < hi then Memory.get m (lo + a) else none := by
  induction m with
  | nil => simp [Memory.slide]
  | cons c m ih =>
    obtain ⟨k, v⟩ := c
    simp only [Memory.slide] at ih ⊢
    rw [List.filter_cons]
    split
    · rename_i h
      simp only [Bool.and_eq_true, decide_eq_true_eq] at h
      rw [List.map_cons, Memory.get_cons, ih, Memory.get_cons]
      by_cases e : a = k - lo
      · rw [if_pos e, if_pos (by omega), if_pos (by omega)]
      · rw [if_neg e]; split
        · rw [if_neg (by omega)]
        · rfl
    · rename_i h
      simp only [Bool.and_eq_true, decide_eq_true_eq] at h
      rw [ih, Memory.get_cons]
      split
      · rw [if_neg (by omega)]
      · rfl

theorem Memory.wf_slide (m : Memory) (lo hi : Nat) (hm : Memory.wf m = true) :
    Memory.wf (Memory.slide m lo hi) = true := by
  rw [Memory.wf_iff] at hm ⊢
  rw [Memory.slide, List.pairwise_map]
  refine List.Pairwise.imp_of_mem ?_ (hm.filter _)
  intro x y hx hy h
  simp only [List.mem_filter, Bool.and_eq_true, decide_eq_true_eq] at hx hy
  simp only
  omega

end Sys2Proof.Machine
end

