-- ==== Sys2Proof/Laws/State.lean ====
section
/-! SUPPORT. What each update of the state leaves in each field: one equation per field and update, so that a proof rewrites
with them and unfolds no update. -/

namespace Sys2Proof.Machine

/-! ## `clearHints` -/

@[simp] theorem clearHints_fsm (s : State) : (clearHints s).fsm = s.fsm := rfl
@[simp] theorem clearHints_w (s : State) : (clearHints s).w = s.w := rfl
@[simp] theorem clearHints_dictActive (s : State) : (clearHints s).dictActive = s.dictActive := rfl
@[simp] theorem clearHints_rep (s : State) : (clearHints s).rep = s.rep := rfl
@[simp] theorem clearHints_prevHuf (s : State) : (clearHints s).prevHuf = s.prevHuf := rfl
@[simp] theorem clearHints_prevFse (s : State) : (clearHints s).prevFse = s.prevFse := rfl
@[simp] theorem clearHints_inp (s : State) : (clearHints s).inp = s.inp := rfl
@[simp] theorem clearHints_iEnd (s : State) : (clearHints s).iEnd = s.iEnd := rfl
@[simp] theorem clearHints_win (s : State) : (clearHints s).win = s.win := rfl
@[simp] theorem clearHints_wStart (s : State) : (clearHints s).wStart = s.wStart := rfl
@[simp] theorem clearHints_wEnd (s : State) : (clearHints s).wEnd = s.wEnd := rfl
@[simp] theorem clearHints_drained (s : State) : (clearHints s).drained = s.drained := rfl
@[simp] theorem clearHints_result (s : State) : (clearHints s).result = s.result := rfl
@[simp] theorem clearHints_needInput (s : State) : (clearHints s).needInput = false := rfl
@[simp] theorem clearHints_needDrain (s : State) : (clearHints s).needDrain = false := rfl
@[simp] theorem clearHints_errKind (s : State) : (clearHints s).errKind = s.errKind := rfl
@[simp] theorem clearHints_errSite (s : State) : (clearHints s).errSite = s.errSite := rfl
@[simp] theorem clearHints_dp (s : State) : (clearHints s).dp = s.dp := rfl
@[simp] theorem clearHints_params (s : State) : (clearHints s).params = s.params := rfl
@[simp] theorem clearHints_host (s : State) : (clearHints s).host = s.host := rfl
@[simp] theorem clearHints_hostData (s : State) : (clearHints s).hostData = s.hostData := rfl
@[simp] theorem clearHints_wire (s : State) : (clearHints s).wire = s.wire := rfl
@[simp] theorem clearHints_tick (s : State) : (clearHints s).tick = s.tick + 1 := rfl
@[simp] theorem clearHints_inBase (s : State) : (clearHints s).inBase = s.inBase := rfl

/-! ## `gateFailed` -/

@[simp] theorem gateFailed_fsm (s : State) : (gateFailed s).fsm = s.fsm := rfl
@[simp] theorem gateFailed_w (s : State) : (gateFailed s).w = s.w := rfl
@[simp] theorem gateFailed_dictActive (s : State) : (gateFailed s).dictActive = s.dictActive := rfl
@[simp] theorem gateFailed_rep (s : State) : (gateFailed s).rep = s.rep := rfl
@[simp] theorem gateFailed_prevHuf (s : State) : (gateFailed s).prevHuf = s.prevHuf := rfl
@[simp] theorem gateFailed_prevFse (s : State) : (gateFailed s).prevFse = s.prevFse := rfl
@[simp] theorem gateFailed_inp (s : State) : (gateFailed s).inp = s.inp := rfl
@[simp] theorem gateFailed_iEnd (s : State) : (gateFailed s).iEnd = s.iEnd := rfl
@[simp] theorem gateFailed_win (s : State) : (gateFailed s).win = s.win := rfl
@[simp] theorem gateFailed_wStart (s : State) : (gateFailed s).wStart = s.wStart := rfl
@[simp] theorem gateFailed_wEnd (s : State) : (gateFailed s).wEnd = s.wEnd := rfl
@[simp] theorem gateFailed_drained (s : State) : (gateFailed s).drained = s.drained := rfl
@[simp] theorem gateFailed_result (s : State) : (gateFailed s).result = .error := rfl
@[simp] theorem gateFailed_needInput (s : State) : (gateFailed s).needInput = s.needInput := rfl
@[simp] theorem gateFailed_needDrain (s : State) : (gateFailed s).needDrain = s.needDrain := rfl
@[simp] theorem gateFailed_errKind (s : State) : (gateFailed s).errKind = s.errKind := rfl
@[simp] theorem gateFailed_errSite (s : State) : (gateFailed s).errSite = s.errSite := rfl
@[simp] theorem gateFailed_dp (s : State) : (gateFailed s).dp = s.dp := rfl
@[simp] theorem gateFailed_params (s : State) : (gateFailed s).params = s.params := rfl
@[simp] theorem gateFailed_host (s : State) : (gateFailed s).host = s.host := rfl
@[simp] theorem gateFailed_hostData (s : State) : (gateFailed s).hostData = s.hostData := rfl
@[simp] theorem gateFailed_wire (s : State) : (gateFailed s).wire = s.wire := rfl
@[simp] theorem gateFailed_tick (s : State) : (gateFailed s).tick = s.tick := rfl
@[simp] theorem gateFailed_inBase (s : State) : (gateFailed s).inBase = s.inBase := rfl

/-! ## `awaitInput` -/

@[simp] theorem awaitInput_fsm (s : State) : (awaitInput s).fsm = s.fsm := rfl
@[simp] theorem awaitInput_w (s : State) : (awaitInput s).w = s.w := rfl
@[simp] theorem awaitInput_dictActive (s : State) : (awaitInput s).dictActive = s.dictActive := rfl
@[simp] theorem awaitInput_rep (s : State) : (awaitInput s).rep = s.rep := rfl
@[simp] theorem awaitInput_prevHuf (s : State) : (awaitInput s).prevHuf = s.prevHuf := rfl
@[simp] theorem awaitInput_prevFse (s : State) : (awaitInput s).prevFse = s.prevFse := rfl
@[simp] theorem awaitInput_inp (s : State) : (awaitInput s).inp = s.inp := rfl
@[simp] theorem awaitInput_iEnd (s : State) : (awaitInput s).iEnd = s.iEnd := rfl
@[simp] theorem awaitInput_win (s : State) : (awaitInput s).win = s.win := rfl
@[simp] theorem awaitInput_wStart (s : State) : (awaitInput s).wStart = s.wStart := rfl
@[simp] theorem awaitInput_wEnd (s : State) : (awaitInput s).wEnd = s.wEnd := rfl
@[simp] theorem awaitInput_drained (s : State) : (awaitInput s).drained = s.drained := rfl
@[simp] theorem awaitInput_result (s : State) : (awaitInput s).result = .notYet := rfl
@[simp] theorem awaitInput_needInput (s : State) : (awaitInput s).needInput = true := rfl
@[simp] theorem awaitInput_needDrain (s : State) : (awaitInput s).needDrain = s.needDrain := rfl
@[simp] theorem awaitInput_errKind (s : State) : (awaitInput s).errKind = s.errKind := rfl
@[simp] theorem awaitInput_errSite (s : State) : (awaitInput s).errSite = s.errSite := rfl
@[simp] theorem awaitInput_dp (s : State) : (awaitInput s).dp = s.dp := rfl
@[simp] theorem awaitInput_params (s : State) : (awaitInput s).params = s.params := rfl
@[simp] theorem awaitInput_host (s : State) : (awaitInput s).host = s.host := rfl
@[simp] theorem awaitInput_hostData (s : State) : (awaitInput s).hostData = s.hostData := rfl
@[simp] theorem awaitInput_wire (s : State) : (awaitInput s).wire = s.wire := rfl
@[simp] theorem awaitInput_tick (s : State) : (awaitInput s).tick = s.tick := rfl
@[simp] theorem awaitInput_inBase (s : State) : (awaitInput s).inBase = s.inBase := rfl

/-! ## `awaitDrain` -/

@[simp] theorem awaitDrain_fsm (s : State) : (awaitDrain s).fsm = s.fsm := rfl
@[simp] theorem awaitDrain_w (s : State) : (awaitDrain s).w = s.w := rfl
@[simp] theorem awaitDrain_dictActive (s : State) : (awaitDrain s).dictActive = s.dictActive := rfl
@[simp] theorem awaitDrain_rep (s : State) : (awaitDrain s).rep = s.rep := rfl
@[simp] theorem awaitDrain_prevHuf (s : State) : (awaitDrain s).prevHuf = s.prevHuf := rfl
@[simp] theorem awaitDrain_prevFse (s : State) : (awaitDrain s).prevFse = s.prevFse := rfl
@[simp] theorem awaitDrain_inp (s : State) : (awaitDrain s).inp = s.inp := rfl
@[simp] theorem awaitDrain_iEnd (s : State) : (awaitDrain s).iEnd = s.iEnd := rfl
@[simp] theorem awaitDrain_win (s : State) : (awaitDrain s).win = s.win := rfl
@[simp] theorem awaitDrain_wStart (s : State) : (awaitDrain s).wStart = s.wStart := rfl
@[simp] theorem awaitDrain_wEnd (s : State) : (awaitDrain s).wEnd = s.wEnd := rfl
@[simp] theorem awaitDrain_drained (s : State) : (awaitDrain s).drained = s.drained := rfl
@[simp] theorem awaitDrain_result (s : State) : (awaitDrain s).result = .notYet := rfl
@[simp] theorem awaitDrain_needInput (s : State) : (awaitDrain s).needInput = s.needInput := rfl
@[simp] theorem awaitDrain_needDrain (s : State) : (awaitDrain s).needDrain = true := rfl
@[simp] theorem awaitDrain_errKind (s : State) : (awaitDrain s).errKind = s.errKind := rfl
@[simp] theorem awaitDrain_errSite (s : State) : (awaitDrain s).errSite = s.errSite := rfl
@[simp] theorem awaitDrain_dp (s : State) : (awaitDrain s).dp = s.dp := rfl
@[simp] theorem awaitDrain_params (s : State) : (awaitDrain s).params = s.params := rfl
@[simp] theorem awaitDrain_host (s : State) : (awaitDrain s).host = s.host := rfl
@[simp] theorem awaitDrain_hostData (s : State) : (awaitDrain s).hostData = s.hostData := rfl
@[simp] theorem awaitDrain_wire (s : State) : (awaitDrain s).wire = s.wire := rfl
@[simp] theorem awaitDrain_tick (s : State) : (awaitDrain s).tick = s.tick := rfl
@[simp] theorem awaitDrain_inBase (s : State) : (awaitDrain s).inBase = s.inBase := rfl

/-! ## `consumeIn` -/

@[simp] theorem consumeIn_fsm (k : Nat) (s : State) : (consumeIn k s).fsm = s.fsm := rfl
@[simp] theorem consumeIn_w (k : Nat) (s : State) : (consumeIn k s).w = s.w := rfl
@[simp] theorem consumeIn_dictActive (k : Nat) (s : State) : (consumeIn k s).dictActive = s.dictActive := rfl
@[simp] theorem consumeIn_rep (k : Nat) (s : State) : (consumeIn k s).rep = s.rep := rfl
@[simp] theorem consumeIn_prevHuf (k : Nat) (s : State) : (consumeIn k s).prevHuf = s.prevHuf := rfl
@[simp] theorem consumeIn_prevFse (k : Nat) (s : State) : (consumeIn k s).prevFse = s.prevFse := rfl
@[simp] theorem consumeIn_inp (k : Nat) (s : State) : (consumeIn k s).inp = Memory.slide s.inp k s.iEnd := rfl
@[simp] theorem consumeIn_iEnd (k : Nat) (s : State) : (consumeIn k s).iEnd = s.iEnd - k := rfl
@[simp] theorem consumeIn_win (k : Nat) (s : State) : (consumeIn k s).win = s.win := rfl
@[simp] theorem consumeIn_wStart (k : Nat) (s : State) : (consumeIn k s).wStart = s.wStart := rfl
@[simp] theorem consumeIn_wEnd (k : Nat) (s : State) : (consumeIn k s).wEnd = s.wEnd := rfl
@[simp] theorem consumeIn_drained (k : Nat) (s : State) : (consumeIn k s).drained = s.drained := rfl
@[simp] theorem consumeIn_result (k : Nat) (s : State) : (consumeIn k s).result = s.result := rfl
@[simp] theorem consumeIn_needInput (k : Nat) (s : State) : (consumeIn k s).needInput = s.needInput := rfl
@[simp] theorem consumeIn_needDrain (k : Nat) (s : State) : (consumeIn k s).needDrain = s.needDrain := rfl
@[simp] theorem consumeIn_errKind (k : Nat) (s : State) : (consumeIn k s).errKind = s.errKind := rfl
@[simp] theorem consumeIn_errSite (k : Nat) (s : State) : (consumeIn k s).errSite = s.errSite := rfl
@[simp] theorem consumeIn_dp (k : Nat) (s : State) : (consumeIn k s).dp = s.dp := rfl
@[simp] theorem consumeIn_params (k : Nat) (s : State) : (consumeIn k s).params = s.params := rfl
@[simp] theorem consumeIn_host (k : Nat) (s : State) : (consumeIn k s).host = s.host := rfl
@[simp] theorem consumeIn_hostData (k : Nat) (s : State) : (consumeIn k s).hostData = s.hostData := rfl
@[simp] theorem consumeIn_wire (k : Nat) (s : State) : (consumeIn k s).wire = s.wire := rfl
@[simp] theorem consumeIn_tick (k : Nat) (s : State) : (consumeIn k s).tick = s.tick := rfl
@[simp] theorem consumeIn_inBase (k : Nat) (s : State) : (consumeIn k s).inBase = s.inBase + k := rfl

/-! ## `errorEntry` -/

@[simp] theorem errorEntry_fsm (e : Site) (s : State) : (errorEntry e s).fsm = .failed := rfl
@[simp] theorem errorEntry_w (e : Site) (s : State) : (errorEntry e s).w = s.w := rfl
@[simp] theorem errorEntry_dictActive (e : Site) (s : State) : (errorEntry e s).dictActive = s.dictActive := rfl
@[simp] theorem errorEntry_rep (e : Site) (s : State) : (errorEntry e s).rep = { r0 := Config.freeRep s.tick 0, r1 := Config.freeRep s.tick 1, r2 := Config.freeRep s.tick 2 } := rfl
@[simp] theorem errorEntry_prevHuf (e : Site) (s : State) : (errorEntry e s).prevHuf = Config.freeHuf s.tick := rfl
@[simp] theorem errorEntry_prevFse (e : Site) (s : State) : (errorEntry e s).prevFse = { ll := Config.freeFse s.tick .ll, oft := Config.freeFse s.tick .oft, ml := Config.freeFse s.tick .ml } := rfl
@[simp] theorem errorEntry_inp (e : Site) (s : State) : (errorEntry e s).inp = s.inp := rfl
@[simp] theorem errorEntry_iEnd (e : Site) (s : State) : (errorEntry e s).iEnd = s.iEnd := rfl
@[simp] theorem errorEntry_win (e : Site) (s : State) : (errorEntry e s).win = s.win := rfl
@[simp] theorem errorEntry_wStart (e : Site) (s : State) : (errorEntry e s).wStart = s.wStart := rfl
@[simp] theorem errorEntry_wEnd (e : Site) (s : State) : (errorEntry e s).wEnd = s.wEnd := rfl
@[simp] theorem errorEntry_drained (e : Site) (s : State) : (errorEntry e s).drained = s.drained := rfl
@[simp] theorem errorEntry_result (e : Site) (s : State) : (errorEntry e s).result = .error := rfl
@[simp] theorem errorEntry_needInput (e : Site) (s : State) : (errorEntry e s).needInput = s.needInput := rfl
@[simp] theorem errorEntry_needDrain (e : Site) (s : State) : (errorEntry e s).needDrain = s.needDrain := rfl
@[simp] theorem errorEntry_errKind (e : Site) (s : State) : (errorEntry e s).errKind = siteKind e := rfl
@[simp] theorem errorEntry_errSite (e : Site) (s : State) : (errorEntry e s).errSite = e := rfl
@[simp] theorem errorEntry_dp (e : Site) (s : State) : (errorEntry e s).dp = Dp.idle := rfl
@[simp] theorem errorEntry_params (e : Site) (s : State) : (errorEntry e s).params = s.params := rfl
@[simp] theorem errorEntry_host (e : Site) (s : State) : (errorEntry e s).host = s.host := rfl
@[simp] theorem errorEntry_hostData (e : Site) (s : State) : (errorEntry e s).hostData = s.hostData := rfl
@[simp] theorem errorEntry_wire (e : Site) (s : State) : (errorEntry e s).wire = s.wire := rfl
@[simp] theorem errorEntry_tick (e : Site) (s : State) : (errorEntry e s).tick = s.tick + 1 := rfl
@[simp] theorem errorEntry_inBase (e : Site) (s : State) : (errorEntry e s).inBase = s.inBase := rfl

/-! ## `putFr` -/

@[simp] theorem putFr_fsm (s : State) (fr : Fr) : (putFr s fr).fsm = s.fsm := rfl
@[simp] theorem putFr_w (s : State) (fr : Fr) : (putFr s fr).w = s.w := rfl
@[simp] theorem putFr_dictActive (s : State) (fr : Fr) : (putFr s fr).dictActive = s.dictActive := rfl
@[simp] theorem putFr_rep (s : State) (fr : Fr) : (putFr s fr).rep = s.rep := rfl
@[simp] theorem putFr_prevHuf (s : State) (fr : Fr) : (putFr s fr).prevHuf = s.prevHuf := rfl
@[simp] theorem putFr_prevFse (s : State) (fr : Fr) : (putFr s fr).prevFse = s.prevFse := rfl
@[simp] theorem putFr_inp (s : State) (fr : Fr) : (putFr s fr).inp = s.inp := rfl
@[simp] theorem putFr_iEnd (s : State) (fr : Fr) : (putFr s fr).iEnd = s.iEnd := rfl
@[simp] theorem putFr_win (s : State) (fr : Fr) : (putFr s fr).win = s.win := rfl
@[simp] theorem putFr_wStart (s : State) (fr : Fr) : (putFr s fr).wStart = s.wStart := rfl
@[simp] theorem putFr_wEnd (s : State) (fr : Fr) : (putFr s fr).wEnd = s.wEnd := rfl
@[simp] theorem putFr_drained (s : State) (fr : Fr) : (putFr s fr).drained = s.drained := rfl
@[simp] theorem putFr_result (s : State) (fr : Fr) : (putFr s fr).result = s.result := rfl
@[simp] theorem putFr_needInput (s : State) (fr : Fr) : (putFr s fr).needInput = s.needInput := rfl
@[simp] theorem putFr_needDrain (s : State) (fr : Fr) : (putFr s fr).needDrain = s.needDrain := rfl
@[simp] theorem putFr_errKind (s : State) (fr : Fr) : (putFr s fr).errKind = s.errKind := rfl
@[simp] theorem putFr_errSite (s : State) (fr : Fr) : (putFr s fr).errSite = s.errSite := rfl
@[simp] theorem putFr_dp (s : State) (fr : Fr) : (putFr s fr).dp = { s.dp with fr := fr } := rfl
@[simp] theorem putFr_params (s : State) (fr : Fr) : (putFr s fr).params = s.params := rfl
@[simp] theorem putFr_host (s : State) (fr : Fr) : (putFr s fr).host = s.host := rfl
@[simp] theorem putFr_hostData (s : State) (fr : Fr) : (putFr s fr).hostData = s.hostData := rfl
@[simp] theorem putFr_wire (s : State) (fr : Fr) : (putFr s fr).wire = s.wire := rfl
@[simp] theorem putFr_tick (s : State) (fr : Fr) : (putFr s fr).tick = s.tick := rfl
@[simp] theorem putFr_inBase (s : State) (fr : Fr) : (putFr s fr).inBase = s.inBase := rfl

/-! ## `putLits` -/

@[simp] theorem putLits_fsm (s : State) (l : List Byte) : (putLits s l).fsm = s.fsm := rfl
@[simp] theorem putLits_w (s : State) (l : List Byte) : (putLits s l).w = s.w := rfl
@[simp] theorem putLits_dictActive (s : State) (l : List Byte) : (putLits s l).dictActive = s.dictActive := rfl
@[simp] theorem putLits_rep (s : State) (l : List Byte) : (putLits s l).rep = s.rep := rfl
@[simp] theorem putLits_prevHuf (s : State) (l : List Byte) : (putLits s l).prevHuf = s.prevHuf := rfl
@[simp] theorem putLits_prevFse (s : State) (l : List Byte) : (putLits s l).prevFse = s.prevFse := rfl
@[simp] theorem putLits_inp (s : State) (l : List Byte) : (putLits s l).inp = s.inp := rfl
@[simp] theorem putLits_iEnd (s : State) (l : List Byte) : (putLits s l).iEnd = s.iEnd := rfl
@[simp] theorem putLits_win (s : State) (l : List Byte) : (putLits s l).win = s.win := rfl
@[simp] theorem putLits_wStart (s : State) (l : List Byte) : (putLits s l).wStart = s.wStart := rfl
@[simp] theorem putLits_wEnd (s : State) (l : List Byte) : (putLits s l).wEnd = s.wEnd := rfl
@[simp] theorem putLits_drained (s : State) (l : List Byte) : (putLits s l).drained = s.drained := rfl
@[simp] theorem putLits_result (s : State) (l : List Byte) : (putLits s l).result = s.result := rfl
@[simp] theorem putLits_needInput (s : State) (l : List Byte) : (putLits s l).needInput = s.needInput := rfl
@[simp] theorem putLits_needDrain (s : State) (l : List Byte) : (putLits s l).needDrain = s.needDrain := rfl
@[simp] theorem putLits_errKind (s : State) (l : List Byte) : (putLits s l).errKind = s.errKind := rfl
@[simp] theorem putLits_errSite (s : State) (l : List Byte) : (putLits s l).errSite = s.errSite := rfl
@[simp] theorem putLits_dp (s : State) (l : List Byte) : (putLits s l).dp = { s.dp with lb := l } := rfl
@[simp] theorem putLits_params (s : State) (l : List Byte) : (putLits s l).params = s.params := rfl
@[simp] theorem putLits_host (s : State) (l : List Byte) : (putLits s l).host = s.host := rfl
@[simp] theorem putLits_hostData (s : State) (l : List Byte) : (putLits s l).hostData = s.hostData := rfl
@[simp] theorem putLits_wire (s : State) (l : List Byte) : (putLits s l).wire = s.wire := rfl
@[simp] theorem putLits_tick (s : State) (l : List Byte) : (putLits s l).tick = s.tick := rfl
@[simp] theorem putLits_inBase (s : State) (l : List Byte) : (putLits s l).inBase = s.inBase := rfl

/-! ## `putCount` -/

@[simp] theorem putCount_fsm (s : State) (n : Nat) (fr : Fr) : (putCount s n fr).fsm = s.fsm := rfl
@[simp] theorem putCount_w (s : State) (n : Nat) (fr : Fr) : (putCount s n fr).w = s.w := rfl
@[simp] theorem putCount_dictActive (s : State) (n : Nat) (fr : Fr) : (putCount s n fr).dictActive = s.dictActive := rfl
@[simp] theorem putCount_rep (s : State) (n : Nat) (fr : Fr) : (putCount s n fr).rep = s.rep := rfl
@[simp] theorem putCount_prevHuf (s : State) (n : Nat) (fr : Fr) : (putCount s n fr).prevHuf = s.prevHuf := rfl
@[simp] theorem putCount_prevFse (s : State) (n : Nat) (fr : Fr) : (putCount s n fr).prevFse = s.prevFse := rfl
@[simp] theorem putCount_inp (s : State) (n : Nat) (fr : Fr) : (putCount s n fr).inp = s.inp := rfl
@[simp] theorem putCount_iEnd (s : State) (n : Nat) (fr : Fr) : (putCount s n fr).iEnd = s.iEnd := rfl
@[simp] theorem putCount_win (s : State) (n : Nat) (fr : Fr) : (putCount s n fr).win = s.win := rfl
@[simp] theorem putCount_wStart (s : State) (n : Nat) (fr : Fr) : (putCount s n fr).wStart = s.wStart := rfl
@[simp] theorem putCount_wEnd (s : State) (n : Nat) (fr : Fr) : (putCount s n fr).wEnd = s.wEnd := rfl
@[simp] theorem putCount_drained (s : State) (n : Nat) (fr : Fr) : (putCount s n fr).drained = s.drained := rfl
@[simp] theorem putCount_result (s : State) (n : Nat) (fr : Fr) : (putCount s n fr).result = s.result := rfl
@[simp] theorem putCount_needInput (s : State) (n : Nat) (fr : Fr) : (putCount s n fr).needInput = s.needInput := rfl
@[simp] theorem putCount_needDrain (s : State) (n : Nat) (fr : Fr) : (putCount s n fr).needDrain = s.needDrain := rfl
@[simp] theorem putCount_errKind (s : State) (n : Nat) (fr : Fr) : (putCount s n fr).errKind = s.errKind := rfl
@[simp] theorem putCount_errSite (s : State) (n : Nat) (fr : Fr) : (putCount s n fr).errSite = s.errSite := rfl
@[simp] theorem putCount_dp (s : State) (n : Nat) (fr : Fr) : (putCount s n fr).dp = { s.dp with nSeq := n, sb := [], fr := fr } := rfl
@[simp] theorem putCount_params (s : State) (n : Nat) (fr : Fr) : (putCount s n fr).params = s.params := rfl
@[simp] theorem putCount_host (s : State) (n : Nat) (fr : Fr) : (putCount s n fr).host = s.host := rfl
@[simp] theorem putCount_hostData (s : State) (n : Nat) (fr : Fr) : (putCount s n fr).hostData = s.hostData := rfl
@[simp] theorem putCount_wire (s : State) (n : Nat) (fr : Fr) : (putCount s n fr).wire = s.wire := rfl
@[simp] theorem putCount_tick (s : State) (n : Nat) (fr : Fr) : (putCount s n fr).tick = s.tick := rfl
@[simp] theorem putCount_inBase (s : State) (n : Nat) (fr : Fr) : (putCount s n fr).inBase = s.inBase := rfl

/-! ## `writeWin` -/

@[simp] theorem writeWin_fsm (s : State) (a : Nat) (bytes : List Byte) : (writeWin s a bytes).fsm = s.fsm := rfl
@[simp] theorem writeWin_w (s : State) (a : Nat) (bytes : List Byte) : (writeWin s a bytes).w = s.w := rfl
@[simp] theorem writeWin_dictActive (s : State) (a : Nat) (bytes : List Byte) : (writeWin s a bytes).dictActive = s.dictActive := rfl
@[simp] theorem writeWin_rep (s : State) (a : Nat) (bytes : List Byte) : (writeWin s a bytes).rep = s.rep := rfl
@[simp] theorem writeWin_prevHuf (s : State) (a : Nat) (bytes : List Byte) : (writeWin s a bytes).prevHuf = s.prevHuf := rfl
@[simp] theorem writeWin_prevFse (s : State) (a : Nat) (bytes : List Byte) : (writeWin s a bytes).prevFse = s.prevFse := rfl
@[simp] theorem writeWin_inp (s : State) (a : Nat) (bytes : List Byte) : (writeWin s a bytes).inp = s.inp := rfl
@[simp] theorem writeWin_iEnd (s : State) (a : Nat) (bytes : List Byte) : (writeWin s a bytes).iEnd = s.iEnd := rfl
@[simp] theorem writeWin_win (s : State) (a : Nat) (bytes : List Byte) : (writeWin s a bytes).win = Memory.setMany s.win a bytes := rfl
@[simp] theorem writeWin_wStart (s : State) (a : Nat) (bytes : List Byte) : (writeWin s a bytes).wStart = s.wStart := rfl
@[simp] theorem writeWin_wEnd (s : State) (a : Nat) (bytes : List Byte) : (writeWin s a bytes).wEnd = s.wEnd := rfl
@[simp] theorem writeWin_drained (s : State) (a : Nat) (bytes : List Byte) : (writeWin s a bytes).drained = s.drained := rfl
@[simp] theorem writeWin_result (s : State) (a : Nat) (bytes : List Byte) : (writeWin s a bytes).result = s.result := rfl
@[simp] theorem writeWin_needInput (s : State) (a : Nat) (bytes : List Byte) : (writeWin s a bytes).needInput = s.needInput := rfl
@[simp] theorem writeWin_needDrain (s : State) (a : Nat) (bytes : List Byte) : (writeWin s a bytes).needDrain = s.needDrain := rfl
@[simp] theorem writeWin_errKind (s : State) (a : Nat) (bytes : List Byte) : (writeWin s a bytes).errKind = s.errKind := rfl
@[simp] theorem writeWin_errSite (s : State) (a : Nat) (bytes : List Byte) : (writeWin s a bytes).errSite = s.errSite := rfl
@[simp] theorem writeWin_dp (s : State) (a : Nat) (bytes : List Byte) : (writeWin s a bytes).dp = s.dp := rfl
@[simp] theorem writeWin_params (s : State) (a : Nat) (bytes : List Byte) : (writeWin s a bytes).params = s.params := rfl
@[simp] theorem writeWin_host (s : State) (a : Nat) (bytes : List Byte) : (writeWin s a bytes).host = s.host := rfl
@[simp] theorem writeWin_hostData (s : State) (a : Nat) (bytes : List Byte) : (writeWin s a bytes).hostData = s.hostData := rfl
@[simp] theorem writeWin_wire (s : State) (a : Nat) (bytes : List Byte) : (writeWin s a bytes).wire = s.wire := rfl
@[simp] theorem writeWin_tick (s : State) (a : Nat) (bytes : List Byte) : (writeWin s a bytes).tick = s.tick := rfl
@[simp] theorem writeWin_inBase (s : State) (a : Nat) (bytes : List Byte) : (writeWin s a bytes).inBase = s.inBase := rfl

/-! ## `putByte` -/

@[simp] theorem putByte_fsm (s : State) (a : Nat) (v : Byte) : (putByte s a v).fsm = s.fsm := rfl
@[simp] theorem putByte_w (s : State) (a : Nat) (v : Byte) : (putByte s a v).w = s.w := rfl
@[simp] theorem putByte_dictActive (s : State) (a : Nat) (v : Byte) : (putByte s a v).dictActive = s.dictActive := rfl
@[simp] theorem putByte_rep (s : State) (a : Nat) (v : Byte) : (putByte s a v).rep = s.rep := rfl
@[simp] theorem putByte_prevHuf (s : State) (a : Nat) (v : Byte) : (putByte s a v).prevHuf = s.prevHuf := rfl
@[simp] theorem putByte_prevFse (s : State) (a : Nat) (v : Byte) : (putByte s a v).prevFse = s.prevFse := rfl
@[simp] theorem putByte_inp (s : State) (a : Nat) (v : Byte) : (putByte s a v).inp = s.inp := rfl
@[simp] theorem putByte_iEnd (s : State) (a : Nat) (v : Byte) : (putByte s a v).iEnd = s.iEnd := rfl
@[simp] theorem putByte_win (s : State) (a : Nat) (v : Byte) : (putByte s a v).win = Memory.set s.win a v := rfl
@[simp] theorem putByte_wStart (s : State) (a : Nat) (v : Byte) : (putByte s a v).wStart = s.wStart := rfl
@[simp] theorem putByte_wEnd (s : State) (a : Nat) (v : Byte) : (putByte s a v).wEnd = s.wEnd := rfl
@[simp] theorem putByte_drained (s : State) (a : Nat) (v : Byte) : (putByte s a v).drained = s.drained := rfl
@[simp] theorem putByte_result (s : State) (a : Nat) (v : Byte) : (putByte s a v).result = s.result := rfl
@[simp] theorem putByte_needInput (s : State) (a : Nat) (v : Byte) : (putByte s a v).needInput = s.needInput := rfl
@[simp] theorem putByte_needDrain (s : State) (a : Nat) (v : Byte) : (putByte s a v).needDrain = s.needDrain := rfl
@[simp] theorem putByte_errKind (s : State) (a : Nat) (v : Byte) : (putByte s a v).errKind = s.errKind := rfl
@[simp] theorem putByte_errSite (s : State) (a : Nat) (v : Byte) : (putByte s a v).errSite = s.errSite := rfl
@[simp] theorem putByte_dp (s : State) (a : Nat) (v : Byte) : (putByte s a v).dp = s.dp := rfl
@[simp] theorem putByte_params (s : State) (a : Nat) (v : Byte) : (putByte s a v).params = s.params := rfl
@[simp] theorem putByte_host (s : State) (a : Nat) (v : Byte) : (putByte s a v).host = s.host := rfl
@[simp] theorem putByte_hostData (s : State) (a : Nat) (v : Byte) : (putByte s a v).hostData = s.hostData := rfl
@[simp] theorem putByte_wire (s : State) (a : Nat) (v : Byte) : (putByte s a v).wire = s.wire := rfl
@[simp] theorem putByte_tick (s : State) (a : Nat) (v : Byte) : (putByte s a v).tick = s.tick := rfl
@[simp] theorem putByte_inBase (s : State) (a : Nat) (v : Byte) : (putByte s a v).inBase = s.inBase := rfl

/-! ## `useLiterals` -/

@[simp] theorem useLiterals_fsm (n : Nat) (r : RepOffsets) (s : State) : (useLiterals n r s).fsm = s.fsm := rfl
@[simp] theorem useLiterals_w (n : Nat) (r : RepOffsets) (s : State) : (useLiterals n r s).w = s.w := rfl
@[simp] theorem useLiterals_dictActive (n : Nat) (r : RepOffsets) (s : State) : (useLiterals n r s).dictActive = s.dictActive := rfl
@[simp] theorem useLiterals_rep (n : Nat) (r : RepOffsets) (s : State) : (useLiterals n r s).rep = r := rfl
@[simp] theorem useLiterals_prevHuf (n : Nat) (r : RepOffsets) (s : State) : (useLiterals n r s).prevHuf = s.prevHuf := rfl
@[simp] theorem useLiterals_prevFse (n : Nat) (r : RepOffsets) (s : State) : (useLiterals n r s).prevFse = s.prevFse := rfl
@[simp] theorem useLiterals_inp (n : Nat) (r : RepOffsets) (s : State) : (useLiterals n r s).inp = s.inp := rfl
@[simp] theorem useLiterals_iEnd (n : Nat) (r : RepOffsets) (s : State) : (useLiterals n r s).iEnd = s.iEnd := rfl
@[simp] theorem useLiterals_win (n : Nat) (r : RepOffsets) (s : State) : (useLiterals n r s).win = s.win := rfl
@[simp] theorem useLiterals_wStart (n : Nat) (r : RepOffsets) (s : State) : (useLiterals n r s).wStart = s.wStart := rfl
@[simp] theorem useLiterals_wEnd (n : Nat) (r : RepOffsets) (s : State) : (useLiterals n r s).wEnd = s.wEnd := rfl
@[simp] theorem useLiterals_drained (n : Nat) (r : RepOffsets) (s : State) : (useLiterals n r s).drained = s.drained := rfl
@[simp] theorem useLiterals_result (n : Nat) (r : RepOffsets) (s : State) : (useLiterals n r s).result = s.result := rfl
@[simp] theorem useLiterals_needInput (n : Nat) (r : RepOffsets) (s : State) : (useLiterals n r s).needInput = s.needInput := rfl
@[simp] theorem useLiterals_needDrain (n : Nat) (r : RepOffsets) (s : State) : (useLiterals n r s).needDrain = s.needDrain := rfl
@[simp] theorem useLiterals_errKind (n : Nat) (r : RepOffsets) (s : State) : (useLiterals n r s).errKind = s.errKind := rfl
@[simp] theorem useLiterals_errSite (n : Nat) (r : RepOffsets) (s : State) : (useLiterals n r s).errSite = s.errSite := rfl
@[simp] theorem useLiterals_dp (n : Nat) (r : RepOffsets) (s : State) : (useLiterals n r s).dp = { s.dp with lp := s.dp.lp + n } := rfl
@[simp] theorem useLiterals_params (n : Nat) (r : RepOffsets) (s : State) : (useLiterals n r s).params = s.params := rfl
@[simp] theorem useLiterals_host (n : Nat) (r : RepOffsets) (s : State) : (useLiterals n r s).host = s.host := rfl
@[simp] theorem useLiterals_hostData (n : Nat) (r : RepOffsets) (s : State) : (useLiterals n r s).hostData = s.hostData := rfl
@[simp] theorem useLiterals_wire (n : Nat) (r : RepOffsets) (s : State) : (useLiterals n r s).wire = s.wire := rfl
@[simp] theorem useLiterals_tick (n : Nat) (r : RepOffsets) (s : State) : (useLiterals n r s).tick = s.tick := rfl
@[simp] theorem useLiterals_inBase (n : Nat) (r : RepOffsets) (s : State) : (useLiterals n r s).inBase = s.inBase := rfl

/-! ## `commit` -/

@[simp] theorem commit_fsm (o n : Nat) (last : Bool) (s : State) : (commit o n last s).fsm = if last then .done else s.fsm := rfl
@[simp] theorem commit_w (o n : Nat) (last : Bool) (s : State) : (commit o n last s).w = s.w := rfl
@[simp] theorem commit_dictActive (o n : Nat) (last : Bool) (s : State) : (commit o n last s).dictActive = s.dictActive := rfl
@[simp] theorem commit_rep (o n : Nat) (last : Bool) (s : State) : (commit o n last s).rep = s.rep := rfl
@[simp] theorem commit_prevHuf (o n : Nat) (last : Bool) (s : State) : (commit o n last s).prevHuf = s.prevHuf := rfl
@[simp] theorem commit_prevFse (o n : Nat) (last : Bool) (s : State) : (commit o n last s).prevFse = s.prevFse := rfl
@[simp] theorem commit_inp (o n : Nat) (last : Bool) (s : State) : (commit o n last s).inp = Memory.slide s.inp n s.iEnd := rfl
@[simp] theorem commit_iEnd (o n : Nat) (last : Bool) (s : State) : (commit o n last s).iEnd = s.iEnd - n := rfl
@[simp] theorem commit_win (o n : Nat) (last : Bool) (s : State) : (commit o n last s).win = s.win := rfl
@[simp] theorem commit_wStart (o n : Nat) (last : Bool) (s : State) : (commit o n last s).wStart = s.wStart := rfl
@[simp] theorem commit_wEnd (o n : Nat) (last : Bool) (s : State) : (commit o n last s).wEnd = s.wEnd + o := rfl
@[simp] theorem commit_drained (o n : Nat) (last : Bool) (s : State) : (commit o n last s).drained = s.drained := rfl
@[simp] theorem commit_result (o n : Nat) (last : Bool) (s : State) : (commit o n last s).result = .ok := rfl
@[simp] theorem commit_needInput (o n : Nat) (last : Bool) (s : State) : (commit o n last s).needInput = s.needInput := rfl
@[simp] theorem commit_needDrain (o n : Nat) (last : Bool) (s : State) : (commit o n last s).needDrain = s.needDrain := rfl
@[simp] theorem commit_errKind (o n : Nat) (last : Bool) (s : State) : (commit o n last s).errKind = s.errKind := rfl
@[simp] theorem commit_errSite (o n : Nat) (last : Bool) (s : State) : (commit o n last s).errSite = s.errSite := rfl
@[simp] theorem commit_dp (o n : Nat) (last : Bool) (s : State) : (commit o n last s).dp = Dp.idle := rfl
@[simp] theorem commit_params (o n : Nat) (last : Bool) (s : State) : (commit o n last s).params = s.params := rfl
@[simp] theorem commit_host (o n : Nat) (last : Bool) (s : State) : (commit o n last s).host = s.host := rfl
@[simp] theorem commit_hostData (o n : Nat) (last : Bool) (s : State) : (commit o n last s).hostData = s.hostData := rfl
@[simp] theorem commit_wire (o n : Nat) (last : Bool) (s : State) : (commit o n last s).wire = s.wire := rfl
@[simp] theorem commit_tick (o n : Nat) (last : Bool) (s : State) : (commit o n last s).tick = s.tick := rfl
@[simp] theorem commit_inBase (o n : Nat) (last : Bool) (s : State) : (commit o n last s).inBase = s.inBase + n := rfl

/-! ## `resetState` -/

@[simp] theorem resetState_fsm (s : State) : (resetState s).fsm = .idle := rfl
@[simp] theorem resetState_w (s : State) : (resetState s).w = 0 := rfl
@[simp] theorem resetState_dictActive (s : State) : (resetState s).dictActive = false := rfl
@[simp] theorem resetState_rep (s : State) : (resetState s).rep = RepOffsets.initial := rfl
@[simp] theorem resetState_prevHuf (s : State) : (resetState s).prevHuf = none := rfl
@[simp] theorem resetState_prevFse (s : State) : (resetState s).prevFse = { ll := none, oft := none, ml := none } := rfl
@[simp] theorem resetState_inp (s : State) : (resetState s).inp = [] := rfl
@[simp] theorem resetState_iEnd (s : State) : (resetState s).iEnd = 0 := rfl
@[simp] theorem resetState_win (s : State) : (resetState s).win = [] := rfl
@[simp] theorem resetState_wStart (s : State) : (resetState s).wStart = 0 := rfl
@[simp] theorem resetState_wEnd (s : State) : (resetState s).wEnd = 0 := rfl
@[simp] theorem resetState_drained (s : State) : (resetState s).drained = 0 := rfl
@[simp] theorem resetState_result (s : State) : (resetState s).result = .ok := rfl
@[simp] theorem resetState_needInput (s : State) : (resetState s).needInput = false := rfl
@[simp] theorem resetState_needDrain (s : State) : (resetState s).needDrain = false := rfl
@[simp] theorem resetState_errKind (s : State) : (resetState s).errKind = .none := rfl
@[simp] theorem resetState_errSite (s : State) : (resetState s).errSite = .none := rfl
@[simp] theorem resetState_dp (s : State) : (resetState s).dp = Dp.idle := rfl
@[simp] theorem resetState_params (s : State) : (resetState s).params = s.params := rfl
@[simp] theorem resetState_host (s : State) : (resetState s).host = s.host := rfl
@[simp] theorem resetState_hostData (s : State) : (resetState s).hostData = s.hostData := rfl
@[simp] theorem resetState_wire (s : State) : (resetState s).wire = s.wire := rfl
@[simp] theorem resetState_tick (s : State) : (resetState s).tick = s.tick + 1 := rfl
@[simp] theorem resetState_inBase (s : State) : (resetState s).inBase = s.inBase + s.iEnd := rfl

/-! ## `resetWith` -/

@[simp] theorem resetWith_fsm (p : Params) : (State.resetWith p).fsm = .idle := rfl
@[simp] theorem resetWith_w (p : Params) : (State.resetWith p).w = 0 := rfl
@[simp] theorem resetWith_dictActive (p : Params) : (State.resetWith p).dictActive = false := rfl
@[simp] theorem resetWith_rep (p : Params) : (State.resetWith p).rep = RepOffsets.initial := rfl
@[simp] theorem resetWith_prevHuf (p : Params) : (State.resetWith p).prevHuf = none := rfl
@[simp] theorem resetWith_prevFse (p : Params) : (State.resetWith p).prevFse = { ll := none, oft := none, ml := none } := rfl
@[simp] theorem resetWith_inp (p : Params) : (State.resetWith p).inp = [] := rfl
@[simp] theorem resetWith_iEnd (p : Params) : (State.resetWith p).iEnd = 0 := rfl
@[simp] theorem resetWith_win (p : Params) : (State.resetWith p).win = [] := rfl
@[simp] theorem resetWith_wStart (p : Params) : (State.resetWith p).wStart = 0 := rfl
@[simp] theorem resetWith_wEnd (p : Params) : (State.resetWith p).wEnd = 0 := rfl
@[simp] theorem resetWith_drained (p : Params) : (State.resetWith p).drained = 0 := rfl
@[simp] theorem resetWith_result (p : Params) : (State.resetWith p).result = .ok := rfl
@[simp] theorem resetWith_needInput (p : Params) : (State.resetWith p).needInput = false := rfl
@[simp] theorem resetWith_needDrain (p : Params) : (State.resetWith p).needDrain = false := rfl
@[simp] theorem resetWith_errKind (p : Params) : (State.resetWith p).errKind = .none := rfl
@[simp] theorem resetWith_errSite (p : Params) : (State.resetWith p).errSite = .none := rfl
@[simp] theorem resetWith_dp (p : Params) : (State.resetWith p).dp = Dp.idle := rfl
@[simp] theorem resetWith_params (p : Params) : (State.resetWith p).params = p := rfl
@[simp] theorem resetWith_host (p : Params) : (State.resetWith p).host = [] := rfl
@[simp] theorem resetWith_hostData (p : Params) : (State.resetWith p).hostData = [] := rfl
@[simp] theorem resetWith_wire (p : Params) : (State.resetWith p).wire = none := rfl
@[simp] theorem resetWith_tick (p : Params) : (State.resetWith p).tick = 0 := rfl
@[simp] theorem resetWith_inBase (p : Params) : (State.resetWith p).inBase = 0 := rfl

/-! ## `putTable` -/

@[simp] theorem putTable_fsm (f : SeqField) (t : FseTable) (s : State) : (putTable f t s).fsm = s.fsm := by cases f <;> rfl
@[simp] theorem putTable_w (f : SeqField) (t : FseTable) (s : State) : (putTable f t s).w = s.w := by cases f <;> rfl
@[simp] theorem putTable_dictActive (f : SeqField) (t : FseTable) (s : State) : (putTable f t s).dictActive = s.dictActive := by cases f <;> rfl
@[simp] theorem putTable_rep (f : SeqField) (t : FseTable) (s : State) : (putTable f t s).rep = s.rep := by cases f <;> rfl
@[simp] theorem putTable_prevHuf (f : SeqField) (t : FseTable) (s : State) : (putTable f t s).prevHuf = s.prevHuf := by cases f <;> rfl
@[simp] theorem putTable_inp (f : SeqField) (t : FseTable) (s : State) : (putTable f t s).inp = s.inp := by cases f <;> rfl
@[simp] theorem putTable_iEnd (f : SeqField) (t : FseTable) (s : State) : (putTable f t s).iEnd = s.iEnd := by cases f <;> rfl
@[simp] theorem putTable_win (f : SeqField) (t : FseTable) (s : State) : (putTable f t s).win = s.win := by cases f <;> rfl
@[simp] theorem putTable_wStart (f : SeqField) (t : FseTable) (s : State) : (putTable f t s).wStart = s.wStart := by cases f <;> rfl
@[simp] theorem putTable_wEnd (f : SeqField) (t : FseTable) (s : State) : (putTable f t s).wEnd = s.wEnd := by cases f <;> rfl
@[simp] theorem putTable_drained (f : SeqField) (t : FseTable) (s : State) : (putTable f t s).drained = s.drained := by cases f <;> rfl
@[simp] theorem putTable_result (f : SeqField) (t : FseTable) (s : State) : (putTable f t s).result = s.result := by cases f <;> rfl
@[simp] theorem putTable_needInput (f : SeqField) (t : FseTable) (s : State) : (putTable f t s).needInput = s.needInput := by cases f <;> rfl
@[simp] theorem putTable_needDrain (f : SeqField) (t : FseTable) (s : State) : (putTable f t s).needDrain = s.needDrain := by cases f <;> rfl
@[simp] theorem putTable_errKind (f : SeqField) (t : FseTable) (s : State) : (putTable f t s).errKind = s.errKind := by cases f <;> rfl
@[simp] theorem putTable_errSite (f : SeqField) (t : FseTable) (s : State) : (putTable f t s).errSite = s.errSite := by cases f <;> rfl
@[simp] theorem putTable_params (f : SeqField) (t : FseTable) (s : State) : (putTable f t s).params = s.params := by cases f <;> rfl
@[simp] theorem putTable_host (f : SeqField) (t : FseTable) (s : State) : (putTable f t s).host = s.host := by cases f <;> rfl
@[simp] theorem putTable_hostData (f : SeqField) (t : FseTable) (s : State) : (putTable f t s).hostData = s.hostData := by cases f <;> rfl
@[simp] theorem putTable_wire (f : SeqField) (t : FseTable) (s : State) : (putTable f t s).wire = s.wire := by cases f <;> rfl
@[simp] theorem putTable_tick (f : SeqField) (t : FseTable) (s : State) : (putTable f t s).tick = s.tick := by cases f <;> rfl
@[simp] theorem putTable_inBase (f : SeqField) (t : FseTable) (s : State) : (putTable f t s).inBase = s.inBase := by cases f <;> rfl

/-! ## `putHufRead` -/

@[simp] theorem putHufRead_fsm (s : State) (r : HufRead) : (putHufRead s r).fsm = s.fsm := by unfold putHufRead; split <;> rfl
@[simp] theorem putHufRead_w (s : State) (r : HufRead) : (putHufRead s r).w = s.w := by unfold putHufRead; split <;> rfl
@[simp] theorem putHufRead_dictActive (s : State) (r : HufRead) : (putHufRead s r).dictActive = s.dictActive := by unfold putHufRead; split <;> rfl
@[simp] theorem putHufRead_rep (s : State) (r : HufRead) : (putHufRead s r).rep = s.rep := by unfold putHufRead; split <;> rfl
@[simp] theorem putHufRead_prevHuf (s : State) (r : HufRead) : (putHufRead s r).prevHuf = s.prevHuf := by unfold putHufRead; split <;> rfl
@[simp] theorem putHufRead_prevFse (s : State) (r : HufRead) : (putHufRead s r).prevFse = s.prevFse := by unfold putHufRead; split <;> rfl
@[simp] theorem putHufRead_inp (s : State) (r : HufRead) : (putHufRead s r).inp = s.inp := by unfold putHufRead; split <;> rfl
@[simp] theorem putHufRead_iEnd (s : State) (r : HufRead) : (putHufRead s r).iEnd = s.iEnd := by unfold putHufRead; split <;> rfl
@[simp] theorem putHufRead_win (s : State) (r : HufRead) : (putHufRead s r).win = s.win := by unfold putHufRead; split <;> rfl
@[simp] theorem putHufRead_wStart (s : State) (r : HufRead) : (putHufRead s r).wStart = s.wStart := by unfold putHufRead; split <;> rfl
@[simp] theorem putHufRead_wEnd (s : State) (r : HufRead) : (putHufRead s r).wEnd = s.wEnd := by unfold putHufRead; split <;> rfl
@[simp] theorem putHufRead_drained (s : State) (r : HufRead) : (putHufRead s r).drained = s.drained := by unfold putHufRead; split <;> rfl
@[simp] theorem putHufRead_result (s : State) (r : HufRead) : (putHufRead s r).result = s.result := by unfold putHufRead; split <;> rfl
@[simp] theorem putHufRead_needInput (s : State) (r : HufRead) : (putHufRead s r).needInput = s.needInput := by unfold putHufRead; split <;> rfl
@[simp] theorem putHufRead_needDrain (s : State) (r : HufRead) : (putHufRead s r).needDrain = s.needDrain := by unfold putHufRead; split <;> rfl
@[simp] theorem putHufRead_errKind (s : State) (r : HufRead) : (putHufRead s r).errKind = s.errKind := by unfold putHufRead; split <;> rfl
@[simp] theorem putHufRead_errSite (s : State) (r : HufRead) : (putHufRead s r).errSite = s.errSite := by unfold putHufRead; split <;> rfl
@[simp] theorem putHufRead_params (s : State) (r : HufRead) : (putHufRead s r).params = s.params := by unfold putHufRead; split <;> rfl
@[simp] theorem putHufRead_host (s : State) (r : HufRead) : (putHufRead s r).host = s.host := by unfold putHufRead; split <;> rfl
@[simp] theorem putHufRead_hostData (s : State) (r : HufRead) : (putHufRead s r).hostData = s.hostData := by unfold putHufRead; split <;> rfl
@[simp] theorem putHufRead_wire (s : State) (r : HufRead) : (putHufRead s r).wire = s.wire := by unfold putHufRead; split <;> rfl
@[simp] theorem putHufRead_tick (s : State) (r : HufRead) : (putHufRead s r).tick = s.tick := by unfold putHufRead; split <;> rfl
@[simp] theorem putHufRead_inBase (s : State) (r : HufRead) : (putHufRead s r).inBase = s.inBase := by unfold putHufRead; split <;> rfl
@[simp] theorem putHufRead_hw (s : State) (r : HufRead) : (putHufRead s r).dp.hw = r.hw := by unfold putHufRead; split <;> rfl
@[simp] theorem putHufRead_nW (s : State) (r : HufRead) : (putHufRead s r).dp.nW = r.count := by unfold putHufRead; split <;> rfl
@[simp] theorem putHufRead_tLit (s : State) (r : HufRead) : (putHufRead s r).dp.tLit = some r.table := by unfold putHufRead; split <;> rfl

/-! ## `seedHistory` -/

@[simp] theorem seedHistory_fsm (d : Option Dictionary) (s : State) : (seedHistory d s).fsm = s.fsm := by cases d <;> rfl
@[simp] theorem seedHistory_w (d : Option Dictionary) (s : State) : (seedHistory d s).w = s.w := by cases d <;> rfl
@[simp] theorem seedHistory_dictActive (d : Option Dictionary) (s : State) : (seedHistory d s).dictActive = s.dictActive := by cases d <;> rfl
@[simp] theorem seedHistory_inp (d : Option Dictionary) (s : State) : (seedHistory d s).inp = s.inp := by cases d <;> rfl
@[simp] theorem seedHistory_iEnd (d : Option Dictionary) (s : State) : (seedHistory d s).iEnd = s.iEnd := by cases d <;> rfl
@[simp] theorem seedHistory_win (d : Option Dictionary) (s : State) : (seedHistory d s).win = s.win := by cases d <;> rfl
@[simp] theorem seedHistory_wStart (d : Option Dictionary) (s : State) : (seedHistory d s).wStart = s.wStart := by cases d <;> rfl
@[simp] theorem seedHistory_wEnd (d : Option Dictionary) (s : State) : (seedHistory d s).wEnd = s.wEnd := by cases d <;> rfl
@[simp] theorem seedHistory_drained (d : Option Dictionary) (s : State) : (seedHistory d s).drained = s.drained := by cases d <;> rfl
@[simp] theorem seedHistory_result (d : Option Dictionary) (s : State) : (seedHistory d s).result = s.result := by cases d <;> rfl
@[simp] theorem seedHistory_needInput (d : Option Dictionary) (s : State) : (seedHistory d s).needInput = s.needInput := by cases d <;> rfl
@[simp] theorem seedHistory_needDrain (d : Option Dictionary) (s : State) : (seedHistory d s).needDrain = s.needDrain := by cases d <;> rfl
@[simp] theorem seedHistory_errKind (d : Option Dictionary) (s : State) : (seedHistory d s).errKind = s.errKind := by cases d <;> rfl
@[simp] theorem seedHistory_errSite (d : Option Dictionary) (s : State) : (seedHistory d s).errSite = s.errSite := by cases d <;> rfl
@[simp] theorem seedHistory_dp (d : Option Dictionary) (s : State) : (seedHistory d s).dp = s.dp := by cases d <;> rfl
@[simp] theorem seedHistory_params (d : Option Dictionary) (s : State) : (seedHistory d s).params = s.params := by cases d <;> rfl
@[simp] theorem seedHistory_host (d : Option Dictionary) (s : State) : (seedHistory d s).host = s.host := by cases d <;> rfl
@[simp] theorem seedHistory_hostData (d : Option Dictionary) (s : State) : (seedHistory d s).hostData = s.hostData := by cases d <;> rfl
@[simp] theorem seedHistory_wire (d : Option Dictionary) (s : State) : (seedHistory d s).wire = s.wire := by cases d <;> rfl
@[simp] theorem seedHistory_tick (d : Option Dictionary) (s : State) : (seedHistory d s).tick = s.tick := by cases d <;> rfl
@[simp] theorem seedHistory_inBase (d : Option Dictionary) (s : State) : (seedHistory d s).inBase = s.inBase := by cases d <;> rfl

/-! ## `frameStart` -/

@[simp] theorem frameStart_fsm (a : Nat) (d : Option Dictionary) (s : State) : (frameStart a d s).fsm = .active := by cases d <;> rfl
@[simp] theorem frameStart_w (a : Nat) (d : Option Dictionary) (s : State) : (frameStart a d s).w = a := by cases d <;> rfl
@[simp] theorem frameStart_dictActive (a : Nat) (d : Option Dictionary) (s : State) : (frameStart a d s).dictActive = d.isSome := by cases d <;> rfl
@[simp] theorem frameStart_inp (a : Nat) (d : Option Dictionary) (s : State) : (frameStart a d s).inp = s.inp := by cases d <;> rfl
@[simp] theorem frameStart_iEnd (a : Nat) (d : Option Dictionary) (s : State) : (frameStart a d s).iEnd = s.iEnd := by cases d <;> rfl
@[simp] theorem frameStart_win (a : Nat) (d : Option Dictionary) (s : State) : (frameStart a d s).win = [] := by cases d <;> rfl
@[simp] theorem frameStart_wStart (a : Nat) (d : Option Dictionary) (s : State) : (frameStart a d s).wStart = 0 := by cases d <;> rfl
@[simp] theorem frameStart_wEnd (a : Nat) (d : Option Dictionary) (s : State) : (frameStart a d s).wEnd = 0 := by cases d <;> rfl
@[simp] theorem frameStart_drained (a : Nat) (d : Option Dictionary) (s : State) : (frameStart a d s).drained = 0 := by cases d <;> rfl
@[simp] theorem frameStart_result (a : Nat) (d : Option Dictionary) (s : State) : (frameStart a d s).result = .ok := by cases d <;> rfl
@[simp] theorem frameStart_needInput (a : Nat) (d : Option Dictionary) (s : State) : (frameStart a d s).needInput = s.needInput := by cases d <;> rfl
@[simp] theorem frameStart_needDrain (a : Nat) (d : Option Dictionary) (s : State) : (frameStart a d s).needDrain = s.needDrain := by cases d <;> rfl
@[simp] theorem frameStart_errKind (a : Nat) (d : Option Dictionary) (s : State) : (frameStart a d s).errKind = .none := by cases d <;> rfl
@[simp] theorem frameStart_errSite (a : Nat) (d : Option Dictionary) (s : State) : (frameStart a d s).errSite = .none := by cases d <;> rfl
@[simp] theorem frameStart_dp (a : Nat) (d : Option Dictionary) (s : State) : (frameStart a d s).dp = s.dp := by cases d <;> rfl
@[simp] theorem frameStart_params (a : Nat) (d : Option Dictionary) (s : State) : (frameStart a d s).params = s.params := by cases d <;> rfl
@[simp] theorem frameStart_host (a : Nat) (d : Option Dictionary) (s : State) : (frameStart a d s).host = s.host := by cases d <;> rfl
@[simp] theorem frameStart_hostData (a : Nat) (d : Option Dictionary) (s : State) : (frameStart a d s).hostData = s.hostData := by cases d <;> rfl
@[simp] theorem frameStart_wire (a : Nat) (d : Option Dictionary) (s : State) : (frameStart a d s).wire = s.wire := by cases d <;> rfl
@[simp] theorem frameStart_tick (a : Nat) (d : Option Dictionary) (s : State) : (frameStart a d s).tick = s.tick := by cases d <;> rfl
@[simp] theorem frameStart_inBase (a : Nat) (d : Option Dictionary) (s : State) : (frameStart a d s).inBase = s.inBase := by cases d <;> rfl

/-! ## The bytes the readers see -/

@[simp] theorem inByte_clearHints (s : State) : inByte (clearHints s) = inByte s := rfl
@[simp] theorem inByte_putFr (s : State) (fr : Fr) : inByte (putFr s fr) = inByte s := rfl
@[simp] theorem inByte_putLits (s : State) (l : List Byte) : inByte (putLits s l) = inByte s := rfl
@[simp] theorem inByte_putCount (s : State) (n : Nat) (fr : Fr) : inByte (putCount s n fr) = inByte s := rfl
@[simp] theorem inByte_writeWin (s : State) (a : Nat) (bytes : List Byte) : inByte (writeWin s a bytes) = inByte s := rfl

/-- What a state's readers see depends on IN and on LB alone. -/
theorem source_congr {s t : State} (h1 : inByte s = inByte t) (h2 : s.dp.lb = t.dp.lb) : source s = source t := by
  funext sp a
  cases sp <;> simp [source, h1, h2]

@[simp] theorem source_putFr (s : State) (fr : Fr) : source (putFr s fr) = source s :=
  source_congr rfl rfl

@[simp] theorem source_putCount (s : State) (n : Nat) (fr : Fr) : source (putCount s n fr) = source s :=
  source_congr rfl rfl

@[simp] theorem source_putTable (f : SeqField) (t : FseTable) (s : State) : source (putTable f t s) = source s := by
  cases f <;> exact source_congr rfl rfl

@[simp] theorem putFr_putFr (s : State) (x y : Fr) : putFr (putFr s x) y = putFr s y := rfl

@[simp] theorem putTable_fr (f : SeqField) (t : FseTable) (s : State) : (putTable f t s).dp.fr = s.dp.fr := by
  cases f <;> rfl

/-- The field's previous table is the one configured, the others' are as before. -/
@[simp] theorem prevTable_putTable (f g : SeqField) (t : FseTable) (s : State) :
    prevTable (putTable f t s) g = if g = f then some t else prevTable s g := by
  cases f <;> cases g <;> rfl

/-- Entering the error state forgets the command-internal registers. -/
@[simp] theorem errorEntry_putFr (e : Site) (s : State) (fr : Fr) : errorEntry e (putFr s fr) = errorEntry e s := rfl

end Sys2Proof.Machine
end

