-- ==== Sys2Proof/Laws/Ops.lean ====
section
/-! SUPPORT. What the shared operations of the commands can do: the end of a command, the common steps, TRYFLUSH and the steps
of BLOCK, each said once as the cases of its answer. -/

namespace Sys2Proof.Machine

/-! ## The end of an operation -/

@[simp] theorem settle_ok (s t : State) : settle s (.ok t) = .next t := rfl
@[simp] theorem settle_raised (s : State) (e : Site) : settle s (.error (.raised e)) = .next (errorEntry e s) := rfl
@[simp] theorem settle_refused (s : State) (r : Refusal) : settle s (.error (.refused r)) = .refused r := rfl
@[simp] theorem settle_raise (s : State) (e : Site) : settle s (raise e) = .next (errorEntry e s) := rfl

/-- An operation that ends in a next state had a result, or raised an error. -/
theorem settle_next {s t : State} {m : Micro State} (h : settle s m = .next t) :
    m = .ok t ∨ ∃ e, m = .error (.raised e) ∧ t = errorEntry e s := by
  rcases m with (e | r) | u <;> simp_all [settle]

/-- No operation faults. -/
theorem settle_fault (s : State) (m : Micro State) (f : Fault) : settle s m ≠ .fault f := by
  rcases m with (e | r) | u <;> simp [settle]

/-- An operation refuses only as itself. -/
theorem settle_refuses {s : State} {m : Micro State} {r : Refusal} (h : settle s m = .refused r) :
    m = .error (.refused r) := by
  rcases m with (e | r') | u <;> simp_all [settle]

/-- A sequence of operations that has a result: its first part had one. -/
theorem bind_ok {α β : Type} {m : Micro α} {f : α → Micro β} {b : β} (h : (m >>= f) = .ok b) :
    ∃ a, m = .ok a ∧ f a = .ok b := by
  rcases m with e | a
  · cases h
  · exact ⟨a, rfl, h⟩

/-- A sequence of operations that ends without a result: one of its parts does. -/
theorem bind_error {α β : Type} {m : Micro α} {f : α → Micro β} {e : Halt} (h : (m >>= f) = .error e) :
    m = .error e ∨ ∃ a, m = .ok a ∧ f a = .error e := by
  rcases m with e' | a
  · exact .inl (by injection h with h; rw [h])
  · exact .inr ⟨a, rfl, h⟩

/-! ## The common steps (46_commands.md rule R702) -/

/-- What a command but RESET can do before its own rule runs. -/
theorem dispatchCommand_next {rf rc : Bool} {body : State → Answer} {s t : State}
    (h : dispatchCommand rf rc body s = .next t) :
    (s.fsm = .failed ∧ rf = false ∧ t = gateFailed (clearHints s)) ∨
    (rc = false ∧ t = errorEntry .cmdReserved (clearHints s)) ∨
    (rc = true ∧ (s.fsm = .failed → rf = true) ∧ body (clearHints s) = .next t) := by
  by_cases g : s.fsm = .failed ∧ rf = false
  · rw [dispatchCommand, clearHints_fsm, if_pos g] at h
    exact .inl ⟨g.1, g.2, by injection h with h; exact h.symm⟩
  · rw [dispatchCommand, clearHints_fsm, if_neg g] at h
    cases rc with
    | false => exact .inr (.inl ⟨rfl, by injection h with h; exact h.symm⟩)
    | true => exact .inr (.inr ⟨rfl, fun e => by simpa [e] using g, h⟩)

/-- A command whose reserved bits are clear and that is not gated runs its own rule. -/
theorem dispatchCommand_runs {rf : Bool} {body : State → Answer} {s : State} (h : s.fsm = .failed → rf = true) :
    dispatchCommand rf true body s = body (clearHints s) := by
  rw [dispatchCommand, clearHints_fsm, if_neg (fun g => by simp [h g.1] at g)]
  rfl

/-! ## TRYFLUSH (45_window.md rule R651) -/

/-- The bytes a slide drops are drained ones, and more than W behind the write position. -/
theorem slideAmount_le (s : State) : slideAmount s ≤ s.wStart ∧ slideAmount s ≤ s.wEnd - s.w := by
  simp [slideAmount]

/-- TRYFLUSH with a result: there was room, or a slide made it. -/
theorem tryFlush_some {need : Nat} {s t : State} (h : tryFlush need s = some t) :
    (s.wEnd + need ≤ s.params.winCap ∧ t = s) ∨
    (s.params.winCap < s.wEnd + need ∧ (s.wEnd - slideAmount s) + need ≤ s.params.winCap ∧
      t = { s with win := Memory.slide s.win (slideAmount s) s.wEnd, wStart := s.wStart - slideAmount s,
                   wEnd := s.wEnd - slideAmount s, drained := s.drained + slideAmount s }) := by
  simp only [tryFlush] at h
  split at h
  · rename_i g; injection h with h; exact .inl ⟨g, h.symm⟩
  · rename_i g
    split at h
    · cases h
    · rename_i g2; injection h with h; exact .inr ⟨by omega, by omega, h.symm⟩

/-- TRYFLUSH without a result: not even a slide makes room. -/
theorem tryFlush_none {need : Nat} {s : State} (h : tryFlush need s = none) :
    s.params.winCap < (s.wEnd - slideAmount s) + need := by
  simp only [tryFlush] at h
  split at h
  · cases h
  · split at h
    · assumption
    · cases h

/-- What TRYFLUSH changes: the arena and its cursors. -/
theorem tryFlush_shape {need : Nat} {s t : State} (h : tryFlush need s = some t) :
    ∃ m a b d, t = { s with win := m, wStart := a, wEnd := b, drained := d } := by
  rcases tryFlush_some h with ⟨-, rfl⟩ | ⟨-, -, rfl⟩
  · exact ⟨t.win, t.wStart, t.wEnd, t.drained, rfl⟩
  · exact ⟨_, _, _, _, rfl⟩

/-! ## BLOCK (46_commands.md rule R720) -/

/-- What BLOCK can do after the header checks: the size error, waiting for input, waiting for room, an error of the
materialization, the commit. -/
theorem blockSteps_next {size needIn needOut : Nat} {last : Bool} {mat : State → Micro (Nat × State)} {s t : State}
    (h : blockSteps size needIn needOut last mat s = .next t) :
    (s.params.maxBlock < size ∧ t = errorEntry .blkSize s) ∨
    (size ≤ s.params.maxBlock ∧ s.iEnd < needIn ∧ t = awaitInput s) ∨
    (size ≤ s.params.maxBlock ∧ needIn ≤ s.iEnd ∧ tryFlush needOut s = none ∧
      t = awaitDrain s) ∨
    (∃ u, size ≤ s.params.maxBlock ∧ needIn ≤ s.iEnd ∧ tryFlush needOut s = some u ∧
      ((∃ e, mat u = .error (.raised e) ∧ t = errorEntry e u) ∨
       (∃ o v, mat u = .ok (o, v) ∧ t = commit o needIn last v))) := by
  simp only [blockSteps] at h
  split at h
  · rename_i g; injection h with h; exact .inl ⟨g, h.symm⟩
  · rename_i g
    split at h
    · rename_i g2; injection h with h; exact .inr (.inl ⟨by omega, g2, h.symm⟩)
    · rename_i g2
      split at h
      · rename_i g3; injection h with h; exact .inr (.inr (.inl ⟨by omega, by omega, g3, h.symm⟩))
      · rename_i u g3
        refine .inr (.inr (.inr ⟨u, by omega, by omega, g3, ?_⟩))
        cases hm : mat u with
        | ok a => rw [hm] at h; injection h with h; exact .inr ⟨a.1, a.2, rfl, h.symm⟩
        | error x =>
          rw [hm] at h
          cases x with
          | raised e => injection h with h; exact .inl ⟨e, rfl, h.symm⟩
          | refused r => cases h

/-- BLOCK in ACTIVE, or the error of a BLOCK elsewhere. -/
theorem inActive_next {body : State → Answer} {s t : State} (h : inActive body s = .next t) :
    (s.fsm = .active ∧ body s = .next t) ∨ (s.fsm ≠ .active ∧ t = errorEntry .illegalCmd s) := by
  simp only [inActive] at h
  split at h
  · exact .inl ⟨‹_›, h⟩
  · exact .inr ⟨‹_›, by injection h with h; exact h.symm⟩

end Sys2Proof.Machine
end

