-- ==== Sys2Proof/Laws/Readers.lean ====
section
/-! SUPPORT. What the bit readers can do (40_bit_readers.md): the result of each operation that has one, and that an operation
without a result raised an error of the spec. -/

namespace Sys2Proof.Machine

/-! ## Operations that only raise -/

/-- The operation has a result, or raises one of the spec's errors; it refuses nothing. -/
def OnlyRaises {α : Type} (m : Micro α) : Prop := ∀ e, m = .error e → ∃ site, site ≠ Site.none ∧ e = .raised site

theorem onlyRaises_ok {α : Type} (a : α) : OnlyRaises (.ok a : Micro α) := by intro e h; cases h

theorem onlyRaises_pure {α : Type} (a : α) : OnlyRaises (pure a : Micro α) := onlyRaises_ok a

theorem onlyRaises_raise {α : Type} {site : Site} (h : site ≠ .none) : OnlyRaises (raise site : Micro α) := by
  intro e he; injection he with he; exact ⟨site, h, he.symm⟩

theorem onlyRaises_bind {α β : Type} {m : Micro α} {f : α → Micro β} (hm : OnlyRaises m)
    (hf : ∀ a, m = .ok a → OnlyRaises (f a)) : OnlyRaises (m >>= f) := by
  intro e he
  rcases bind_error he with h | ⟨a, h1, h2⟩
  · exact hm e h
  · exact hf a h1 e h2

theorem onlyRaises_ite {α : Type} {c : Prop} [Decidable c] {x y : Micro α} (hx : c → OnlyRaises x)
    (hy : ¬c → OnlyRaises y) : OnlyRaises (if c then x else y) := by
  split
  · exact hx ‹_›
  · exact hy ‹_›

/-! ## Forward reader -/

theorem frReadBits_ok {src : Source} {fr fr' : Fr} {n v : Nat} (h : frReadBits src fr n = .ok (v, fr')) :
    n ≤ 32 ∧ (n = 0 ∨ fr.pos + n ≤ 8 * fr.len) ∧ v = forwardBits src fr.space fr.base fr.pos n ∧
      fr' = { fr with pos := fr.pos + n } := by
  simp only [frReadBits] at h
  split at h
  · cases h
  · split at h
    · rename_i g; cases h; subst g; exact ⟨by omega, .inl rfl, rfl, rfl⟩
    · split at h
      · cases h
      · cases h; exact ⟨by omega, .inr (by omega), rfl, rfl⟩

theorem frReadBits_onlyRaises (src : Source) (fr : Fr) (n : Nat) : OnlyRaises (frReadBits src fr n) :=
  onlyRaises_ite (fun _ => onlyRaises_raise (by decide)) fun _ => onlyRaises_ite (fun _ => onlyRaises_ok _) fun _ =>
    onlyRaises_ite (fun _ => onlyRaises_raise (by decide)) fun _ => onlyRaises_ok _

theorem frRewind_ok {fr fr' : Fr} {n : Nat} (h : frRewind fr n = .ok fr') :
    n ≤ fr.pos ∧ fr' = { fr with pos := fr.pos - n } := by
  simp only [frRewind] at h
  split at h
  · cases h
  · cases h; exact ⟨by omega, rfl⟩

theorem frRewind_onlyRaises (fr : Fr) (n : Nat) : OnlyRaises (frRewind fr n) :=
  onlyRaises_ite (fun _ => onlyRaises_raise (by decide)) fun _ => onlyRaises_ok _

theorem frAlign_ok {fr fr' : Fr} (h : frAlign fr = .ok fr') :
    (fr.pos + 7) / 8 * 8 < 8 * fr.len ∧ fr' = { fr with pos := (fr.pos + 7) / 8 * 8 } := by
  simp only [frAlign] at h
  split at h
  · cases h
  · cases h; exact ⟨by omega, rfl⟩

theorem frAlign_onlyRaises (fr : Fr) : OnlyRaises (frAlign fr) :=
  onlyRaises_ite (fun _ => onlyRaises_raise (by decide)) fun _ => onlyRaises_ok _

theorem frReadLe_ok {src : Source} {fr fr' : Fr} {k v : Nat} (h : frReadLe src fr k = .ok (v, fr')) :
    fr.pos % 8 = 0 ∧ fr.pos / 8 + k ≤ fr.len ∧ v = memRead src fr.space (fr.base + fr.pos / 8) k ∧
      fr' = { fr with pos := fr.pos + 8 * k } := by
  simp only [frReadLe] at h
  split at h
  · cases h
  · split at h
    · cases h
    · cases h; exact ⟨by omega, by omega, rfl, rfl⟩

theorem frReadLe_onlyRaises (src : Source) (fr : Fr) (k : Nat) : OnlyRaises (frReadLe src fr k) :=
  onlyRaises_ite (fun _ => onlyRaises_raise (by decide)) fun _ =>
    onlyRaises_ite (fun _ => onlyRaises_raise (by decide)) fun _ => onlyRaises_ok _

theorem frReadBytes_ok {fr fr' : Fr} {k a : Nat} (h : frReadBytes fr k = .ok (a, fr')) :
    fr.pos % 8 = 0 ∧ fr.pos / 8 + k ≤ fr.len ∧ a = fr.base + fr.pos / 8 ∧ fr' = { fr with pos := fr.pos + 8 * k } := by
  simp only [frReadBytes] at h
  split at h
  · cases h
  · split at h
    · cases h
    · cases h; exact ⟨by omega, by omega, rfl, rfl⟩

theorem frReadBytes_onlyRaises (fr : Fr) (k : Nat) : OnlyRaises (frReadBytes fr k) :=
  onlyRaises_ite (fun _ => onlyRaises_raise (by decide)) fun _ =>
    onlyRaises_ite (fun _ => onlyRaises_raise (by decide)) fun _ => onlyRaises_ok _

theorem frRemaining_ok {fr : Fr} {n : Nat} (h : frRemaining fr = .ok n) : fr.pos % 8 = 0 ∧ n = fr.len - fr.pos / 8 := by
  simp only [frRemaining] at h
  split at h
  · cases h
  · cases h; exact ⟨by omega, rfl⟩

theorem frRemaining_onlyRaises (fr : Fr) : OnlyRaises (frRemaining fr) :=
  onlyRaises_ite (fun _ => onlyRaises_raise (by decide)) fun _ => onlyRaises_ok _

theorem frSubForward_ok {fr sub fr' : Fr} {k : Nat} (h : frSubForward fr k = .ok (sub, fr')) :
    fr.pos % 8 = 0 ∧ fr.pos / 8 + k ≤ fr.len ∧ sub = frMake fr.space (fr.base + fr.pos / 8) k ∧
      fr' = { fr with pos := fr.pos + 8 * k } := by
  obtain ⟨⟨a, fr1⟩, h1, h2⟩ := bind_ok h
  obtain ⟨g1, g2, rfl, rfl⟩ := frReadBytes_ok h1
  cases h2
  exact ⟨g1, g2, rfl, rfl⟩

theorem frSubForward_onlyRaises (fr : Fr) (k : Nat) : OnlyRaises (frSubForward fr k) :=
  onlyRaises_bind (frReadBytes_onlyRaises _ _) fun _ _ => onlyRaises_pure _

/-! ## Backward reader -/

theorem brMake_ok {src : Source} {base len : Nat} {br : Br} (h : brMake src base len = .ok br) :
    0 < len ∧ (src .inp (base + len - 1)).toNat ≠ 0 ∧
      br = { base := base, len := len, pos := 8 * ((len : Int) - 1) + hsb (src .inp (base + len - 1)).toNat } := by
  simp only [brMake] at h
  split at h
  · cases h
  · split at h
    · cases h
    · cases h; exact ⟨by omega, by assumption, rfl⟩

theorem brMake_onlyRaises (src : Source) (base len : Nat) : OnlyRaises (brMake src base len) :=
  onlyRaises_ite (fun _ => onlyRaises_raise (by decide)) fun _ =>
    onlyRaises_ite (fun _ => onlyRaises_raise (by decide)) fun _ => onlyRaises_ok _

theorem brRead_ok {src : Source} {br br' : Br} {n maxn v : Nat} (h : brRead src br n maxn = .ok (v, br')) :
    n ≤ maxn ∧ v = backwardBits src br.base br.pos (br.pos - n) n ∧ br' = { br with pos := br.pos - n } := by
  simp only [brRead] at h
  split at h
  · cases h
  · split at h
    · rename_i g; cases h; subst g; exact ⟨by omega, rfl, by simp⟩
    · cases h; exact ⟨by omega, rfl, rfl⟩

theorem brRead_onlyRaises (src : Source) (br : Br) (n maxn : Nat) : OnlyRaises (brRead src br n maxn) :=
  onlyRaises_ite (fun _ => onlyRaises_raise (by decide)) fun _ =>
    onlyRaises_ite (fun _ => onlyRaises_ok _) fun _ => onlyRaises_ok _

theorem frSubBackward_ok {src : Source} {fr fr' : Fr} {br : Br} {k : Nat} (h : frSubBackward src fr k = .ok (br, fr')) :
    fr.pos % 8 = 0 ∧ fr.pos / 8 + k ≤ fr.len ∧ brMake src (fr.base + fr.pos / 8) k = .ok br ∧
      fr' = { fr with pos := fr.pos + 8 * k } := by
  obtain ⟨⟨a, fr1⟩, h1, h2⟩ := bind_ok h
  obtain ⟨g1, g2, rfl, rfl⟩ := frReadBytes_ok h1
  obtain ⟨br1, h3, h4⟩ := bind_ok h2
  cases h4
  exact ⟨g1, g2, h3, rfl⟩

theorem frSubBackward_onlyRaises (src : Source) (fr : Fr) (k : Nat) : OnlyRaises (frSubBackward src fr k) :=
  onlyRaises_bind (frReadBytes_onlyRaises _ _) fun _ _ =>
    onlyRaises_bind (brMake_onlyRaises _ _ _) fun _ _ => onlyRaises_pure _

theorem frRestBackward_ok {src : Source} {fr fr' : Fr} {br : Br} (h : frRestBackward src fr = .ok (br, fr')) :
    fr.pos % 8 = 0 ∧ brMake src (fr.base + fr.pos / 8) (fr.len - fr.pos / 8) = .ok br ∧
      fr' = { fr with pos := fr.pos + 8 * (fr.len - fr.pos / 8) } := by
  obtain ⟨n, h1, h2⟩ := bind_ok h
  obtain ⟨g1, rfl⟩ := frRemaining_ok h1
  obtain ⟨-, -, h3, h4⟩ := frSubBackward_ok h2
  exact ⟨g1, h3, h4⟩

theorem frRestBackward_onlyRaises (src : Source) (fr : Fr) : OnlyRaises (frRestBackward src fr) :=
  onlyRaises_bind (frRemaining_onlyRaises _) fun _ _ => frSubBackward_onlyRaises _ _ _

end Sys2Proof.Machine
end

