-- ==== Sys2Proof/Laws/Tables.lean ====
section
/-! SUPPORT. What building and reading a table can do (41_fse.md, 42_huffman.md): every operation has a result or raises one of
the spec's errors, and the shape of the results. -/

namespace Sys2Proof.Machine

/-! ## FSE -/

theorem fseBuild_onlyRaises (norm : List Int) (acc : Nat) : OnlyRaises (fseBuild norm acc) :=
  onlyRaises_ite (fun _ => onlyRaises_raise (by decide)) fun _ =>
    onlyRaises_ite (fun _ => onlyRaises_raise (by decide)) fun _ =>
      onlyRaises_ite (fun _ => onlyRaises_raise (by decide)) fun _ =>
        onlyRaises_ite (fun _ => onlyRaises_raise (by decide)) fun _ => onlyRaises_ok _

/-- A table that is built: the checks of 41_fse.md rule R450 passed. -/
theorem fseBuild_ok {norm : List Int} {acc : Nat} {t : FseTable} (h : fseBuild norm acc = .ok t) :
    1 ≤ acc ∧ acc ≤ 15 ∧ norm.length ≤ 256 ∧ normSum norm = (2 ^ acc : Nat) ∧
      ∃ low placed, low = placeSentinels norm 0 (2 ^ acc) (List.replicate (2 ^ acc) 0) ∧
        placed = placePositive (spreadStep (2 ^ acc)) (2 ^ acc) low.1 norm 0 0 low.2 ∧ placed.1 = 0 ∧
        t = { acc := acc, cells := assignCells acc placed.2 (firstCounts norm) } := by
  simp only [fseBuild, fseMaxAccuracy, fseMaxSymbols] at h
  split at h
  · cases h
  · split at h
    · cases h
    · split at h
      · cases h
      · split at h
        · cases h
        · rename_i h1 h2 h3 h4
          cases h
          exact ⟨by omega, by omega, by omega, by simpa using h3, _, _, rfl, rfl, by simpa using h4, rfl⟩

theorem assignCells_length (acc : Nat) (syms next : List Nat) : (assignCells acc syms next).length = syms.length := by
  induction syms generalizing next with
  | nil => rfl
  | cons s syms ih => simp [assignCells, ih]

theorem placeSentinels_length (norm : List Int) (s high : Nat) (sym : List Nat) :
    (placeSentinels norm s high sym).2.length = sym.length := by
  induction norm generalizing s high sym with
  | nil => rfl
  | cons p ps ih =>
    simp only [placeSentinels]
    split
    · rw [ih]; simp
    · exact ih _ _ _

theorem placeRun_length (step size high s k pos : Nat) (sym : List Nat) :
    (placeRun step size high s k pos sym).2.length = sym.length := by
  induction k generalizing pos sym with
  | zero => rfl
  | succ k ih => simp [placeRun, ih]

theorem placePositive_length (step size high : Nat) (norm : List Int) (s pos : Nat) (sym : List Nat) :
    (placePositive step size high norm s pos sym).2.length = sym.length := by
  induction norm generalizing s pos sym with
  | nil => rfl
  | cons p ps ih => simp [placePositive, ih, placeRun_length]

/-- A built table has one cell per state (10_state.md rule R129). -/
theorem fseBuild_cells {norm : List Int} {acc : Nat} {t : FseTable} (h : fseBuild norm acc = .ok t) :
    t.acc = acc ∧ t.cells.length = 2 ^ acc := by
  obtain ⟨-, -, -, -, low, placed, rfl, rfl, -, rfl⟩ := fseBuild_ok h
  exact ⟨rfl, by simp [assignCells_length, placePositive_length, placeSentinels_length]⟩

theorem fseRepeats_onlyRaises (src : Source) (fuel : Nat) (fr : Fr) (norm : List Int) :
    OnlyRaises (fseRepeats src fuel fr norm) := by
  induction fuel generalizing fr norm with
  | zero => exact onlyRaises_raise (by decide)
  | succ fuel ih =>
    refine onlyRaises_bind (frReadBits_onlyRaises _ _ _) fun a _ => ?_
    exact onlyRaises_ite (fun _ => onlyRaises_raise (by decide)) fun _ =>
      onlyRaises_ite (fun _ => ih _ _) fun _ => onlyRaises_pure _

theorem fseField_onlyRaises (src : Source) (fr : Fr) (remaining : Nat) : OnlyRaises (fseField src fr remaining) := by
  refine onlyRaises_bind (frReadBits_onlyRaises _ _ _) fun a _ => ?_
  exact onlyRaises_ite (fun _ => onlyRaises_bind (frRewind_onlyRaises _ _) fun _ _ => onlyRaises_pure _) fun _ =>
    onlyRaises_ite (fun _ => onlyRaises_pure _) fun _ => onlyRaises_pure _

theorem fseFields_onlyRaises (src : Source) (fuel : Nat) (fr : Fr) (remaining : Int) (norm : List Int) :
    OnlyRaises (fseFields src fuel fr remaining norm) := by
  induction fuel generalizing fr remaining norm with
  | zero => exact onlyRaises_raise (by decide)
  | succ fuel ih =>
    refine onlyRaises_ite (fun _ => onlyRaises_ok _) fun _ => onlyRaises_ite (fun _ => onlyRaises_raise (by decide)) fun _ => ?_
    refine onlyRaises_bind (fseField_onlyRaises _ _ _) fun a _ => ?_
    exact onlyRaises_ite (fun _ => onlyRaises_bind (fseRepeats_onlyRaises _ _ _ _) fun _ _ => ih _ _ _) fun _ => ih _ _ _

theorem fseReadDistribution_onlyRaises (src : Source) (fr : Fr) (maxacc : Nat) :
    OnlyRaises (fseReadDistribution src fr maxacc) := by
  refine onlyRaises_bind (frReadBits_onlyRaises _ _ _) fun a _ => ?_
  refine onlyRaises_ite (fun _ => onlyRaises_raise (by decide)) fun _ => ?_
  refine onlyRaises_bind (fseFields_onlyRaises _ _ _ _ _) fun b _ => ?_
  refine onlyRaises_bind (frAlign_onlyRaises _) fun c _ => ?_
  exact onlyRaises_ite (fun _ => onlyRaises_raise (by decide)) fun _ => onlyRaises_pure _

theorem fseReadHeader_onlyRaises (src : Source) (fr : Fr) (maxacc : Nat) : OnlyRaises (fseReadHeader src fr maxacc) :=
  onlyRaises_bind (fseReadDistribution_onlyRaises _ _ _) fun _ _ =>
    onlyRaises_bind (fseBuild_onlyRaises _ _) fun _ _ => onlyRaises_pure _

theorem fseInit_onlyRaises (src : Source) (t : FseTable) (br : Br) : OnlyRaises (fseInit src t br) :=
  brRead_onlyRaises _ _ _ _

theorem fseUpdate_onlyRaises (src : Source) (t : FseTable) (s : Nat) (br : Br) : OnlyRaises (fseUpdate src t s br) :=
  onlyRaises_bind (brRead_onlyRaises _ _ _ _) fun _ _ => onlyRaises_pure _

theorem emitWeight_onlyRaises (cap : Nat) (acc : List Nat) (x : Nat) : OnlyRaises (emitWeight cap acc x) :=
  onlyRaises_ite (fun _ => onlyRaises_raise (by decide)) fun _ => onlyRaises_ok _

theorem fseDecode2Loop_onlyRaises (src : Source) (t : FseTable) (cap fuel s1 s2 : Nat) (br : Br) (acc : List Nat) :
    OnlyRaises (fseDecode2Loop src t cap fuel s1 s2 br acc) := by
  induction fuel generalizing s1 s2 br acc with
  | zero => exact onlyRaises_raise (by decide)
  | succ fuel ih =>
    refine onlyRaises_bind (emitWeight_onlyRaises _ _ _) fun _ _ => onlyRaises_bind (fseUpdate_onlyRaises _ _ _ _) fun _ _ => ?_
    refine onlyRaises_ite (fun _ => onlyRaises_bind (emitWeight_onlyRaises _ _ _) fun _ _ => onlyRaises_pure _) fun _ => ?_
    refine onlyRaises_bind (emitWeight_onlyRaises _ _ _) fun _ _ => onlyRaises_bind (fseUpdate_onlyRaises _ _ _ _) fun _ _ => ?_
    exact onlyRaises_ite (fun _ => onlyRaises_bind (emitWeight_onlyRaises _ _ _) fun _ _ => onlyRaises_pure _) fun _ => ih _ _ _ _

theorem fseDecode2_onlyRaises (src : Source) (t : FseTable) (br : Br) (cap : Nat) : OnlyRaises (fseDecode2 src t br cap) :=
  onlyRaises_bind (fseInit_onlyRaises _ _ _) fun _ _ => onlyRaises_bind (fseInit_onlyRaises _ _ _) fun _ _ =>
    fseDecode2Loop_onlyRaises _ _ _ _ _ _ _ _

/-! ## Huffman -/

theorem hufAllWeights_onlyRaises (hw : List Nat) : OnlyRaises (hufAllWeights hw) :=
  onlyRaises_ite (fun _ => onlyRaises_raise (by decide)) fun _ =>
    onlyRaises_ite (fun _ => onlyRaises_raise (by decide)) fun _ =>
      onlyRaises_ite (fun _ => onlyRaises_raise (by decide)) fun _ =>
        onlyRaises_ite (fun _ => onlyRaises_raise (by decide)) fun _ => onlyRaises_ok _

theorem hufBuild_onlyRaises (hw : List Nat) : OnlyRaises (hufBuild hw) :=
  onlyRaises_bind (hufAllWeights_onlyRaises _) fun _ _ => onlyRaises_ite (fun _ => onlyRaises_raise (by decide)) fun _ =>
    onlyRaises_ite (fun _ => onlyRaises_raise (by decide)) fun _ => onlyRaises_pure _

theorem hufReadWeights_onlyRaises (src : Source) (fr : Fr) (hdr : Nat) : OnlyRaises (hufReadWeights src fr hdr) := by
  refine onlyRaises_ite (fun _ => onlyRaises_bind (frReadBytes_onlyRaises _ _) fun _ _ => onlyRaises_pure _) fun _ => ?_
  refine onlyRaises_bind (frSubForward_onlyRaises _ _) fun _ _ => onlyRaises_bind (fseReadHeader_onlyRaises _ _ _) fun _ _ => ?_
  exact onlyRaises_bind (frRestBackward_onlyRaises _ _) fun _ _ =>
    onlyRaises_bind (fseDecode2_onlyRaises _ _ _ _) fun _ _ => onlyRaises_pure _

theorem hufTableAfterHeader_onlyRaises (src : Source) (fr : Fr) (hdr : Nat) :
    OnlyRaises (hufTableAfterHeader src fr hdr) :=
  onlyRaises_bind (hufReadWeights_onlyRaises _ _ _) fun _ _ => onlyRaises_bind (hufBuild_onlyRaises _) fun _ _ => onlyRaises_pure _

theorem hufReadTable_onlyRaises (src : Source) (fr : Fr) : OnlyRaises (hufReadTable src fr) :=
  onlyRaises_bind (frReadLe_onlyRaises _ _ _) fun _ _ => hufTableAfterHeader_onlyRaises _ _ _

theorem hufUpdate_onlyRaises (src : Source) (t : HufTable) (s : Nat) (br : Br) : OnlyRaises (hufUpdate src t s br) :=
  onlyRaises_bind (brRead_onlyRaises _ _ _ _) fun _ _ => onlyRaises_pure _

theorem hufStreamLoop_onlyRaises (src : Source) (t : HufTable) (room s : Nat) (br : Br) (lits : List Byte) :
    OnlyRaises (hufStreamLoop src t room s br lits) := by
  induction room generalizing s br lits with
  | zero =>
    unfold hufStreamLoop
    exact onlyRaises_ite (fun _ => onlyRaises_ite (fun _ => onlyRaises_raise (by decide)) fun _ => onlyRaises_ok _) fun _ =>
      onlyRaises_raise (by decide)
  | succ room ih =>
    unfold hufStreamLoop
    exact onlyRaises_ite (fun _ => onlyRaises_ite (fun _ => onlyRaises_raise (by decide)) fun _ => onlyRaises_ok _) fun _ =>
      onlyRaises_bind (hufUpdate_onlyRaises _ _ _ _) fun _ _ => ih _ _ _

theorem hufStream_onlyRaises (src : Source) (t : HufTable) (br : Br) (cap : Nat) (lits : List Byte) :
    OnlyRaises (hufStream src t br cap lits) :=
  onlyRaises_bind (brRead_onlyRaises _ _ _ _) fun _ _ => hufStreamLoop_onlyRaises _ _ _ _ _ _

end Sys2Proof.Machine
end

