-- ==== Sys2Proof/Laws/Blocks.lean ====
section
/-! SUPPORT. What the literals decoder, the sequence decoder and the selector rows can do: which registers they write, and that
an operation without a result raised an error of the spec. -/

namespace Sys2Proof.Machine

/-! ## What decoding writes -/

/-- Only the command-internal registers and PREV_HUF differ: what decoding literals writes (43_literals.md rule R550). -/
def LitsWrite (s t : State) : Prop := ∃ dp ph, t = { s with dp := dp, prevHuf := ph }

/-- Only the command-internal registers and PREV_FSE differ: what decoding sequences writes (44_sequences.md rule R600). -/
def SeqsWrite (s t : State) : Prop := ∃ dp pf, t = { s with dp := dp, prevFse := pf }

/-- Only the command-internal registers and the two table histories differ. -/
def DecodeWrites (s t : State) : Prop := ∃ dp ph pf, t = { s with dp := dp, prevHuf := ph, prevFse := pf }

theorem LitsWrite.decode {s t : State} (h : LitsWrite s t) : DecodeWrites s t := by
  obtain ⟨dp, ph, rfl⟩ := h; exact ⟨dp, ph, s.prevFse, rfl⟩

theorem SeqsWrite.decode {s t : State} (h : SeqsWrite s t) : DecodeWrites s t := by
  obtain ⟨dp, pf, rfl⟩ := h; exact ⟨dp, s.prevHuf, pf, rfl⟩

theorem DecodeWrites.trans {s t u : State} (h : DecodeWrites s t) (g : DecodeWrites t u) : DecodeWrites s u := by
  obtain ⟨dp, ph, pf, rfl⟩ := h; obtain ⟨dp', ph', pf', rfl⟩ := g; exact ⟨dp', ph', pf', rfl⟩

theorem LitsWrite.trans {s t u : State} (h : LitsWrite s t) (g : LitsWrite t u) : LitsWrite s u := by
  obtain ⟨dp, ph, rfl⟩ := h; obtain ⟨dp', ph', rfl⟩ := g; exact ⟨dp', ph', rfl⟩

theorem SeqsWrite.trans {s t u : State} (h : SeqsWrite s t) (g : SeqsWrite t u) : SeqsWrite s u := by
  obtain ⟨dp, pf, rfl⟩ := h; obtain ⟨dp', pf', rfl⟩ := g; exact ⟨dp', pf', rfl⟩

theorem litsWrite_refl (s : State) : LitsWrite s s := ⟨s.dp, s.prevHuf, rfl⟩
theorem seqsWrite_refl (s : State) : SeqsWrite s s := ⟨s.dp, s.prevFse, rfl⟩
theorem litsWrite_putFr (s : State) (fr : Fr) : LitsWrite s (putFr s fr) := ⟨_, _, rfl⟩
theorem seqsWrite_putFr (s : State) (fr : Fr) : SeqsWrite s (putFr s fr) := ⟨_, _, rfl⟩
theorem litsWrite_putLits (s : State) (l : List Byte) : LitsWrite s (putLits s l) := ⟨_, _, rfl⟩
theorem seqsWrite_putCount (s : State) (n : Nat) (fr : Fr) : SeqsWrite s (putCount s n fr) := ⟨_, _, rfl⟩

theorem litsWrite_putHufRead (s : State) (r : HufRead) : LitsWrite s (putHufRead s r) := by
  unfold putHufRead; split <;> exact ⟨_, _, rfl⟩

theorem seqsWrite_putTable (f : SeqField) (t : FseTable) (s : State) : SeqsWrite s (putTable f t s) := by
  cases f <;> exact ⟨_, _, rfl⟩

/-! ## Literals -/

theorem litSizeBits_onlyRaises (src : Source) (fr : Fr) (sf : Nat) : OnlyRaises (litSizeBits src fr sf) :=
  onlyRaises_ite (fun _ => onlyRaises_bind (frRewind_onlyRaises _ _) fun _ _ => frReadBits_onlyRaises _ _ _) fun _ =>
    onlyRaises_ite (fun _ => frReadBits_onlyRaises _ _ _) fun _ => frReadBits_onlyRaises _ _ _

theorem litRawRleSize_onlyRaises (src : Source) (fr : Fr) (sf mb : Nat) : OnlyRaises (litRawRleSize src fr sf mb) := by
  refine onlyRaises_bind (litSizeBits_onlyRaises _ _ _) fun a _ => ?_
  exact onlyRaises_ite (fun _ => onlyRaises_raise (by decide)) fun _ => onlyRaises_pure _

theorem litRaw_ok {size : Nat} {s t : State} (h : litRaw size s = .ok t) :
    ∃ a fr, frReadBytes s.dp.fr size = .ok (a, fr) ∧
      t = putLits (putFr s fr) (sourceBytes (source s) s.dp.fr.space a size) := by
  obtain ⟨⟨a, fr⟩, h1, h2⟩ := bind_ok h
  injection h2 with h2
  exact ⟨a, fr, h1, h2.symm⟩

theorem litRaw_onlyRaises (size : Nat) (s : State) : OnlyRaises (litRaw size s) :=
  onlyRaises_bind (frReadBytes_onlyRaises _ _) fun _ _ => onlyRaises_pure _

theorem litRle_ok {size : Nat} {s t : State} (h : litRle size s = .ok t) :
    ∃ v fr, frReadLe (source s) s.dp.fr 1 = .ok (v, fr) ∧
      t = putLits (putFr s fr) (List.replicate size (BitVec.ofNat 8 v)) := by
  obtain ⟨⟨v, fr⟩, h1, h2⟩ := bind_ok h
  injection h2 with h2
  exact ⟨v, fr, h1, h2.symm⟩

theorem litRle_onlyRaises (size : Nat) (s : State) : OnlyRaises (litRle size s) :=
  onlyRaises_bind (frReadLe_onlyRaises _ _ _) fun _ _ => onlyRaises_pure _

theorem litRaw_writes {size : Nat} {s t : State} (h : litRaw size s = .ok t) : LitsWrite s t := by
  obtain ⟨a, fr, -, rfl⟩ := litRaw_ok h
  exact (litsWrite_putFr _ _).trans (litsWrite_putLits _ _)

theorem litRle_writes {size : Nat} {s t : State} (h : litRle size s = .ok t) : LitsWrite s t := by
  obtain ⟨a, fr, -, rfl⟩ := litRle_ok h
  exact (litsWrite_putFr _ _).trans (litsWrite_putLits _ _)

theorem litPreviousTable_onlyRaises (s : State) : OnlyRaises (litPreviousTable s) := by
  unfold litPreviousTable; split
  · exact onlyRaises_raise (by decide)
  · exact onlyRaises_ok _

theorem litOneStream_onlyRaises (src : Source) (t : HufTable) (sub : Fr) (n : Nat) : OnlyRaises (litOneStream src t sub n) :=
  onlyRaises_bind (frRestBackward_onlyRaises _ _) fun _ _ => hufStream_onlyRaises _ _ _ _ _

theorem litFourStreams_onlyRaises (src : Source) (t : HufTable) (sub : Fr) (n : Nat) :
    OnlyRaises (litFourStreams src t sub n) :=
  onlyRaises_bind (frReadLe_onlyRaises _ _ _) fun _ _ => onlyRaises_bind (frReadLe_onlyRaises _ _ _) fun _ _ =>
    onlyRaises_bind (frReadLe_onlyRaises _ _ _) fun _ _ => onlyRaises_bind (frSubBackward_onlyRaises _ _ _) fun _ _ =>
      onlyRaises_bind (frSubBackward_onlyRaises _ _ _) fun _ _ => onlyRaises_bind (frSubBackward_onlyRaises _ _ _) fun _ _ =>
        onlyRaises_bind (frRestBackward_onlyRaises _ _) fun _ _ => onlyRaises_bind (hufStream_onlyRaises _ _ _ _ _) fun _ _ =>
          onlyRaises_bind (hufStream_onlyRaises _ _ _ _ _) fun _ _ =>
            onlyRaises_bind (hufStream_onlyRaises _ _ _ _ _) fun _ _ => hufStream_onlyRaises _ _ _ _ _

theorem litDecodeStreams_onlyRaises (src : Source) (four : Bool) (t : HufTable) (sub : Fr) (n : Nat) :
    OnlyRaises (litDecodeStreams src four t sub n) :=
  onlyRaises_ite (fun _ => litFourStreams_onlyRaises _ _ _ _) fun _ => litOneStream_onlyRaises _ _ _ _

theorem litStreams_onlyRaises (four : Bool) (t : HufTable) (sub : Fr) (n : Nat) (s : State) :
    OnlyRaises (litStreams four t sub n s) := by
  refine onlyRaises_bind (litDecodeStreams_onlyRaises _ _ _ _ _) fun _ _ => ?_
  exact onlyRaises_ite (fun _ => onlyRaises_raise (by decide)) fun _ => onlyRaises_pure _

/-- The streams of a section with a result: how many literals there are, and where they stand. -/
theorem litStreams_ok {four : Bool} {tab : HufTable} {sub : Fr} {n : Nat} {s t : State}
    (h : litStreams four tab sub n s = .ok t) :
    ∃ e : HufStream, litDecodeStreams (source s) four tab sub n = .ok e ∧
      e.lits.length = n ∧
      t = { s with dp := { s.dp with lb := e.lits.reverse, sHuf := e.sHuf, br := e.br, tLit := some tab } } := by
  obtain ⟨e, h1, h2⟩ := bind_ok h
  refine ⟨e, h1, ?_⟩
  by_cases g : e.lits.length = n
  · simp only [g, ne_eq, not_true_eq_false, if_false] at h2
    injection h2 with h2
    exact ⟨g, h2.symm⟩
  · simp only [ne_eq, g, not_false_eq_true, if_true] at h2
    cases h2

theorem litStreams_writes {four : Bool} {tab : HufTable} {sub : Fr} {n : Nat} {s t : State}
    (h : litStreams four tab sub n s = .ok t) : LitsWrite s t := by
  obtain ⟨e, -, -, rfl⟩ := litStreams_ok h
  exact ⟨_, _, rfl⟩

theorem litHuffmanBody_onlyRaises (fresh four : Bool) (regen csize : Nat) (s : State) :
    OnlyRaises (litHuffmanBody fresh four regen csize s) := by
  refine onlyRaises_ite (fun _ => onlyRaises_raise (by decide)) fun _ => onlyRaises_bind (frSubForward_onlyRaises _ _) fun _ _ => ?_
  exact onlyRaises_ite
    (fun _ => onlyRaises_bind (hufReadTable_onlyRaises _ _) fun _ _ => litStreams_onlyRaises _ _ _ _ _)
    fun _ => onlyRaises_bind (litPreviousTable_onlyRaises _) fun _ _ => litStreams_onlyRaises _ _ _ _ _

/-- A Huffman section with a result: the sizes fit, the table was read or kept, the streams gave `regen` literals
(43_literals.md rule R555). -/
theorem litHuffmanBody_ok {fresh four : Bool} {regen csize : Nat} {s t : State}
    (h : litHuffmanBody fresh four regen csize s = .ok t) :
    regen ≤ s.params.maxBlock ∧ ∃ sub fr, frSubForward s.dp.fr csize = .ok (sub, fr) ∧
      ((fresh = true ∧ ∃ r, hufReadTable (source s) sub = .ok r ∧
          litStreams four r.table r.weights.fr regen { putHufRead (putFr s fr) r with prevHuf := some r.table } = .ok t) ∨
       (fresh = false ∧ ∃ tab, s.prevHuf = some tab ∧ litStreams four tab sub regen (putFr s fr) = .ok t)) := by
  simp only [litHuffmanBody] at h
  by_cases g : s.params.maxBlock < regen
  · rw [if_pos g] at h; cases h
  · rw [if_neg g] at h
    obtain ⟨⟨sub, fr⟩, h1, h2⟩ := bind_ok h
    refine ⟨by omega, sub, fr, h1, ?_⟩
    cases fresh with
    | true =>
      obtain ⟨r, h3, h4⟩ := bind_ok h2
      exact .inl ⟨rfl, r, by simpa using h3, h4⟩
    | false =>
      obtain ⟨tab, h3, h4⟩ := bind_ok h2
      refine .inr ⟨rfl, tab, ?_, h4⟩
      unfold litPreviousTable at h3
      split at h3
      · cases h3
      · rename_i g; cases h3; exact g

theorem litHuffmanBody_writes {fresh four : Bool} {regen csize : Nat} {s t : State}
    (h : litHuffmanBody fresh four regen csize s = .ok t) : LitsWrite s t := by
  obtain ⟨-, sub, fr, -, ⟨-, r, -, h⟩ | ⟨-, tab, -, h⟩⟩ := litHuffmanBody_ok h
  · obtain ⟨dp, ph, rfl⟩ := litStreams_writes h
    obtain ⟨dp', ph', e⟩ := (litsWrite_putFr s fr).trans (litsWrite_putHufRead _ r)
    rw [e]
    exact ⟨dp, ph, rfl⟩
  · exact (litsWrite_putFr s fr).trans (litStreams_writes h)

theorem litSection_onlyRaises (s : State) : OnlyRaises (litSection s) := by
  refine onlyRaises_bind (frReadBits_onlyRaises _ _ _) fun _ _ => onlyRaises_bind (frReadBits_onlyRaises _ _ _) fun _ _ => ?_
  refine onlyRaises_ite (fun _ => onlyRaises_bind (litRawRleSize_onlyRaises _ _ _ _) fun _ _ => ?_) fun _ => ?_
  · exact onlyRaises_ite (fun _ => litRaw_onlyRaises _ _) fun _ => litRle_onlyRaises _ _
  · exact onlyRaises_bind (frReadBits_onlyRaises _ _ _) fun _ _ => onlyRaises_bind (frReadBits_onlyRaises _ _ _) fun _ _ =>
      litHuffmanBody_onlyRaises _ _ _ _ _

/-- Decoding literals writes the command-internal registers and PREV_HUF only. -/
theorem litSection_writes {s t : State} (h : litSection s = .ok t) : LitsWrite s t := by
  obtain ⟨⟨ltype, fr1⟩, -, h⟩ := bind_ok h
  obtain ⟨⟨sf, fr2⟩, -, h⟩ := bind_ok h
  by_cases g : ltype = 0 ∨ ltype = 1
  · simp only [g, if_true] at h
    obtain ⟨⟨size, fr3⟩, -, h⟩ := bind_ok h
    by_cases g2 : ltype = 0
    · simp only [g2, if_true] at h
      exact (litsWrite_putFr _ _).trans (litRaw_writes h)
    · simp only [g2, if_false] at h
      exact (litsWrite_putFr _ _).trans (litRle_writes h)
  · simp only [g, if_false] at h
    obtain ⟨⟨regen, fr3⟩, -, h⟩ := bind_ok h
    obtain ⟨⟨csize, fr4⟩, -, h⟩ := bind_ok h
    exact (litsWrite_putFr _ _).trans (litHuffmanBody_writes h)

/-! ## Sequences -/

theorem seqCount_onlyRaises (src : Source) (fr : Fr) : OnlyRaises (seqCount src fr) := by
  refine onlyRaises_bind (frReadLe_onlyRaises _ _ _) fun _ _ => onlyRaises_ite (fun _ => onlyRaises_pure _) fun _ => ?_
  exact onlyRaises_ite (fun _ => onlyRaises_bind (frReadLe_onlyRaises _ _ _) fun _ _ => onlyRaises_pure _) fun _ =>
    onlyRaises_bind (frReadLe_onlyRaises _ _ _) fun _ _ => onlyRaises_pure _

theorem seqEmptyEnd_onlyRaises (s : State) : OnlyRaises (seqEmptyEnd s) :=
  onlyRaises_bind (frRemaining_onlyRaises _) fun _ _ => onlyRaises_ite (fun _ => onlyRaises_raise (by decide)) fun _ => onlyRaises_pure _

/-- A section without sequences ends where the block ends (44_sequences.md rule R602). -/
theorem seqEmptyEnd_ok {s t : State} (h : seqEmptyEnd s = .ok t) :
    s.dp.fr.pos % 8 = 0 ∧ s.dp.fr.len ≤ s.dp.fr.pos / 8 ∧ t = s := by
  obtain ⟨n, h1, h2⟩ := bind_ok h
  obtain ⟨g1, rfl⟩ := frRemaining_ok h1
  by_cases g : s.dp.fr.len - s.dp.fr.pos / 8 = 0
  · simp only [g, ne_eq, not_true_eq_false, if_false] at h2
    injection h2 with h2
    exact ⟨g1, by omega, h2.symm⟩
  · simp only [ne_eq, g, not_false_eq_true, if_true] at h2
    cases h2

theorem seqTable_onlyRaises (f : SeqField) (m : Nat) (s : State) : OnlyRaises (seqTable f m s) := by
  unfold seqTable
  split
  · exact onlyRaises_ok _
  · exact onlyRaises_bind (frReadLe_onlyRaises _ _ _) fun _ _ => onlyRaises_pure _
  · exact onlyRaises_bind (fseReadHeader_onlyRaises _ _ _) fun _ _ => onlyRaises_pure _
  · unfold seqTableRepeat; split
    · exact onlyRaises_raise (by decide)
    · exact onlyRaises_ok _

/-- A configured table is the field's table and its previous table, with the reader moved (44_sequences.md rule R604). -/
theorem seqTable_ok {f : SeqField} {m : Nat} {s t : State} {tab : FseTable} (h : seqTable f m s = .ok (tab, t)) :
    ∃ fr, t = putTable f tab (putFr s fr) := by
  unfold seqTable at h
  split at h
  · cases h; exact ⟨s.dp.fr, rfl⟩
  · obtain ⟨⟨v, fr⟩, -, h⟩ := bind_ok h
    cases h; exact ⟨fr, rfl⟩
  · obtain ⟨⟨v, fr⟩, -, h⟩ := bind_ok h
    cases h; exact ⟨fr, rfl⟩
  · unfold seqTableRepeat at h; split at h
    · cases h
    · cases h; exact ⟨s.dp.fr, rfl⟩

theorem seqTable_writes {f : SeqField} {m : Nat} {s t : State} {tab : FseTable} (h : seqTable f m s = .ok (tab, t)) :
    SeqsWrite s t := by
  obtain ⟨fr, rfl⟩ := seqTable_ok h
  exact (seqsWrite_putFr _ _).trans (seqsWrite_putTable _ _ _)

theorem seqDecodeOne_onlyRaises (src : Source) (t : SeqTables) (st : SeqStates) : OnlyRaises (seqDecodeOne src t st) := by
  refine onlyRaises_ite (fun _ => onlyRaises_raise (by decide)) fun _ => onlyRaises_ite (fun _ => onlyRaises_raise (by decide)) fun _ => ?_
  exact onlyRaises_bind (brRead_onlyRaises _ _ _ _) fun _ _ => onlyRaises_bind (brRead_onlyRaises _ _ _ _) fun _ _ =>
    onlyRaises_bind (brRead_onlyRaises _ _ _ _) fun _ _ => onlyRaises_pure _

theorem seqDecodeLoop_onlyRaises (src : Source) (t : SeqTables) (k : Nat) (st : SeqStates) (acc : List SeqEntry) :
    OnlyRaises (seqDecodeLoop src t k st acc) := by
  induction k generalizing st acc with
  | zero => exact onlyRaises_ok _
  | succ k ih =>
    refine onlyRaises_bind (seqDecodeOne_onlyRaises _ _ _) fun _ _ => onlyRaises_ite (fun _ => onlyRaises_pure _) fun _ => ?_
    refine onlyRaises_bind ?_ fun _ _ => ih _ _
    exact onlyRaises_bind (fseUpdate_onlyRaises _ _ _ _) fun _ _ => onlyRaises_bind (fseUpdate_onlyRaises _ _ _ _) fun _ _ =>
      onlyRaises_bind (fseUpdate_onlyRaises _ _ _ _) fun _ _ => onlyRaises_pure _

theorem seqDecodeAll_onlyRaises (src : Source) (t : SeqTables) (br : Br) (n : Nat) : OnlyRaises (seqDecodeAll src t br n) := by
  refine onlyRaises_bind ?_ fun _ _ => onlyRaises_bind (seqDecodeLoop_onlyRaises _ _ _ _ _) fun _ _ =>
    onlyRaises_ite (fun _ => onlyRaises_raise (by decide)) fun _ => onlyRaises_pure _
  exact onlyRaises_bind (fseInit_onlyRaises _ _ _) fun _ _ => onlyRaises_bind (fseInit_onlyRaises _ _ _) fun _ _ =>
    onlyRaises_bind (fseInit_onlyRaises _ _ _) fun _ _ => onlyRaises_pure _

theorem seqBody_onlyRaises (s : State) : OnlyRaises (seqBody s) := by
  refine onlyRaises_bind (frReadLe_onlyRaises _ _ _) fun _ _ => onlyRaises_ite (fun _ => onlyRaises_raise (by decide)) fun _ => ?_
  refine onlyRaises_bind (seqTable_onlyRaises _ _ _) fun _ _ => onlyRaises_bind (seqTable_onlyRaises _ _ _) fun _ _ => ?_
  refine onlyRaises_bind (seqTable_onlyRaises _ _ _) fun _ _ => onlyRaises_bind (frRestBackward_onlyRaises _ _) fun _ _ => ?_
  exact onlyRaises_bind (seqDecodeAll_onlyRaises _ _ _ _) fun _ _ => onlyRaises_pure _

theorem seqSection_onlyRaises (s : State) : OnlyRaises (seqSection s) :=
  onlyRaises_bind (seqCount_onlyRaises _ _) fun _ _ => onlyRaises_ite (fun _ => seqEmptyEnd_onlyRaises _) fun _ => seqBody_onlyRaises _

theorem seqBody_writes {s t : State} (h : seqBody s = .ok t) : SeqsWrite s t := by
  obtain ⟨⟨modes, fr⟩, -, h⟩ := bind_ok h
  by_cases g : modes % 4 = 0
  · simp only [g, ne_eq, not_true_eq_false, if_false] at h
    obtain ⟨⟨t1, s1⟩, h1, h⟩ := bind_ok h
    obtain ⟨⟨t2, s2⟩, h2, h⟩ := bind_ok h
    obtain ⟨⟨t3, s3⟩, h3, h⟩ := bind_ok h
    obtain ⟨⟨br, fr'⟩, -, h⟩ := bind_ok h
    obtain ⟨⟨sb, st⟩, -, h⟩ := bind_ok h
    have e := ((seqsWrite_putFr s fr).trans (seqTable_writes h1)).trans ((seqTable_writes h2).trans (seqTable_writes h3))
    injection h with h
    obtain ⟨dp, pf, rfl⟩ := e
    exact ⟨_, _, h.symm⟩
  · simp only [ne_eq, g, not_false_eq_true, if_true] at h
    cases h

/-- Decoding sequences writes the command-internal registers and PREV_FSE only. -/
theorem seqSection_writes {s t : State} (h : seqSection s = .ok t) : SeqsWrite s t := by
  obtain ⟨⟨n, fr⟩, -, h⟩ := bind_ok h
  by_cases g : n = 0
  · simp only [g, if_true] at h
    obtain ⟨-, -, rfl⟩ := seqEmptyEnd_ok h
    exact seqsWrite_putCount _ _ _
  · simp only [g, if_false] at h
    exact (seqsWrite_putCount _ _ _).trans (seqBody_writes h)

/-! ## The decode phase (45_window.md rule R655) -/

theorem decodePhase_onlyRaises (size : Nat) (s : State) : OnlyRaises (decodePhase size s) :=
  onlyRaises_bind (litSection_onlyRaises _) fun _ _ => seqSection_onlyRaises _

theorem decodePhase_writes {size : Nat} {s t : State} (h : decodePhase size s = .ok t) : DecodeWrites s t := by
  obtain ⟨u, h1, h2⟩ := bind_ok h
  refine DecodeWrites.trans ?_ (seqSection_writes h2).decode
  obtain ⟨dp, ph, rfl⟩ := litSection_writes h1
  exact ⟨dp, ph, s.prevFse, rfl⟩

end Sys2Proof.Machine
end

