-- ==== Sys2Proof/Laws/Window.lean ====
section
/-! SUPPORT. What materializing a block can do to the arena (45_window.md): the bytes it writes, the bytes it leaves, and how
many there are. -/

namespace Sys2Proof.Machine

/-! ## Writing a run of the arena -/

/-- The arena `m'` is `m` with every byte of `[a, a + n)` written, and no other. -/
structure RunWritten (a n : Nat) (m m' : Memory) : Prop where
  wf : Memory.wf m = true → Memory.wf m' = true
  outside : Memory.wf m = true → ∀ x, x < a ∨ a + n ≤ x → Memory.get m' x = Memory.get m x
  inside : Memory.wf m = true → ∀ x, a ≤ x → x < a + n → (Memory.get m' x).isSome

theorem runWritten_refl (a : Nat) (m : Memory) : RunWritten a 0 m m where
  wf h := h
  outside _ _ _ := rfl
  inside _ x h1 h2 := by omega

theorem RunWritten.trans {a n k : Nat} {m m' m'' : Memory} (h : RunWritten a n m m') (g : RunWritten (a + n) k m' m'') :
    RunWritten a (n + k) m m'' where
  wf w := g.wf (h.wf w)
  outside w x hx := by rw [g.outside (h.wf w) x (by omega), h.outside w x (by omega)]
  inside w x h1 h2 := by
    by_cases hx : x < a + n
    · rw [g.outside (h.wf w) x (.inl hx)]; exact h.inside w x h1 hx
    · exact g.inside (h.wf w) x (by omega) (by omega)

theorem runWritten_setMany (m : Memory) (a : Nat) (vs : List Byte) : RunWritten a vs.length m (Memory.setMany m a vs) where
  wf h := Memory.wf_setMany m a vs h
  outside _ x hx := by rw [Memory.get_setMany, if_neg (by omega)]
  inside _ x h1 h2 := by
    rw [Memory.get_setMany, if_pos ⟨h1, h2⟩, List.getElem?_eq_getElem (by omega)]
    rfl

theorem runWritten_set (m : Memory) (a : Nat) (v : Byte) : RunWritten a 1 m (Memory.set m a v) where
  wf h := Memory.wf_set m a v h
  outside h x hx := by rw [Memory.get_set m a v x h, if_neg (by omega)]
  inside h x h1 h2 := by rw [Memory.get_set m a v x h, if_pos (by omega)]; rfl

/-! ## Lengths of the bytes written -/

@[simp] theorem inBytes_length (s : State) (a n : Nat) : (inBytes s a n).length = n := by
  induction n generalizing a with
  | zero => rfl
  | succ n ih => simp [inBytes, ih]

@[simp] theorem winBytes_length (s : State) (a n : Nat) : (winBytes s a n).length = n := by
  induction n generalizing a with
  | zero => rfl
  | succ n ih => simp [winBytes, ih]

@[simp] theorem sourceBytes_length (src : Source) (sp : ReaderSpace) (a n : Nat) : (sourceBytes src sp a n).length = n := by
  induction n generalizing a with
  | zero => rfl
  | succ n ih => simp [sourceBytes, ih]

theorem inBytes_get (s : State) (a n j : Nat) (h : j < n) : (inBytes s a n)[j]? = some (inByte s (a + j)) := by
  induction n generalizing a j with
  | zero => omega
  | succ n ih =>
    cases j with
    | zero => rfl
    | succ j => rw [inBytes, List.getElem?_cons_succ, ih (a + 1) j (by omega)]; congr 2; omega

theorem sourceBytes_get (src : Source) (sp : ReaderSpace) (a n j : Nat) (h : j < n) :
    (sourceBytes src sp a n)[j]? = some (src sp (a + j)) := by
  induction n generalizing a j with
  | zero => omega
  | succ n ih =>
    cases j with
    | zero => rfl
    | succ j => rw [sourceBytes, List.getElem?_cons_succ, ih (a + 1) j (by omega), show a + 1 + j = a + (j + 1) by omega]

/-! ## Match copy -/

/-- What a match byte can be (45_window.md rule R662). -/
theorem matchByte_cases (x : Int) (dl : Nat) (s : State) :
    (∃ v, matchByte x dl s = .ok v) ∨
    (x < 0 ∧ s.params.admitDictMatch = false ∧ matchByte x dl s = .error (.refused .dictMatchNotAdmitted)) := by
  unfold matchByte
  split
  · exact .inl ⟨_, rfl⟩
  · cases h : s.params.admitDictMatch with
    | true => exact .inl ⟨_, rfl⟩
    | false => exact .inr ⟨by omega, by simp⟩

/-- A copy writes its run, from its frame position on, and nothing else. -/
theorem matchLoop_ok {off : Int} {dl n t : Nat} {s u : State} (h : matchLoop off dl n t s = .ok u) (ht : s.drained ≤ t) :
    ∃ m, u = { s with win := m } ∧ RunWritten (t - s.drained) n s.win m := by
  induction n generalizing t s with
  | zero => injection h with h; subst h; exact ⟨s.win, rfl, runWritten_refl _ _⟩
  | succ n ih =>
    obtain ⟨v, -, h⟩ := bind_ok h
    obtain ⟨m, rfl, hm⟩ := ih h (by rw [putByte_drained]; omega)
    refine ⟨m, rfl, ?_⟩
    simp only [putByte_drained, putByte_win] at hm
    rw [show t + 1 - s.drained = (t - s.drained) + 1 by omega] at hm
    rw [Nat.add_comm n 1]
    exact (runWritten_set _ _ _).trans hm

/-- A copy that has a result passed the offset checks of 45_window.md rule R661. -/
theorem matchCopy_ok {off : Word64} {ml t : Nat} {s u : State} (h : matchCopy off ml t s = .ok u) :
    1 ≤ off.toInt ∧ (t ≤ s.w → off.toInt ≤ ((t + dictLen s : Nat) : Int)) ∧ (s.w < t → off.toInt ≤ (s.w : Int)) ∧
      matchLoop off.toInt (dictLen s) ml t s = .ok u := by
  simp only [matchCopy] at h
  split at h
  · cases h
  · split at h
    · split at h
      · cases h
      · exact ⟨by omega, fun _ => by omega, fun _ => by omega, h⟩
    · split at h
      · cases h
      · exact ⟨by omega, fun _ => by omega, fun _ => by omega, h⟩

/-! ## EXECUTE -/

/-- Only the arena, the repeat offsets and the literal cursor differ. -/
def ExecWrites (s u : State) : Prop := ∃ m r lp, u = { s with win := m, rep := r, dp := { s.dp with lp := lp } }

theorem ExecWrites.trans {s t u : State} (h : ExecWrites s t) (g : ExecWrites t u) : ExecWrites s u := by
  obtain ⟨m, r, lp, rfl⟩ := h; obtain ⟨m', r', lp', rfl⟩ := g; exact ⟨m', r', lp', rfl⟩

/-- One sequence: its literals were left, and it writes a run of `ll + ml` bytes. -/
theorem executeOne_ok {e : SeqEntry} {t : Nat} {s u : State} (h : executeOne e t s = .ok u) (ht : s.drained ≤ t) :
    ExecWrites s u ∧ e.ll ≤ s.dp.lb.length - s.dp.lp ∧ u.dp.lp = s.dp.lp + e.ll ∧
      RunWritten (t - s.drained) (e.ll + e.ml) s.win u.win := by
  simp only [executeOne] at h
  split at h
  · cases h
  · rename_i g
    obtain ⟨-, -, -, h⟩ := matchCopy_ok h
    obtain ⟨m, rfl, hm⟩ := matchLoop_ok h (by rw [useLiterals_drained, writeWin_drained]; omega)
    refine ⟨⟨_, _, _, rfl⟩, by omega, rfl, ?_⟩
    simp only [useLiterals_drained, useLiterals_win, writeWin_drained, writeWin_win] at hm
    have hl : ((s.dp.lb.drop s.dp.lp).take e.ll).length = e.ll := by
      rw [List.length_take, List.length_drop]; omega
    have h1 := runWritten_setMany s.win (t - s.drained) ((s.dp.lb.drop s.dp.lp).take e.ll)
    rw [hl] at h1
    rw [show t + e.ll - s.drained = (t - s.drained) + e.ll by omega] at hm
    exact h1.trans hm

/-- The literals a list of sequences uses. -/
def litTotal (es : List SeqEntry) : Nat := (es.map SeqEntry.ll).sum

/-- The match bytes a list of sequences copies. -/
def matchTotal (es : List SeqEntry) : Nat := (es.map SeqEntry.ml).sum

/-- All sequences: they use literals that were there, and write one run. -/
theorem executeSeqs_ok {es : List SeqEntry} {t t' : Nat} {s u : State} (h : executeSeqs es t s = .ok (t', u))
    (ht : s.drained ≤ t) (hl : s.dp.lp ≤ s.dp.lb.length) :
    ExecWrites s u ∧ t' = t + litTotal es + matchTotal es ∧ u.dp.lp = s.dp.lp + litTotal es ∧
      u.dp.lp ≤ s.dp.lb.length ∧ RunWritten (t - s.drained) (litTotal es + matchTotal es) s.win u.win := by
  induction es generalizing t s with
  | nil =>
    cases h
    exact ⟨⟨_, _, _, rfl⟩, by simp [litTotal, matchTotal], by simp [litTotal], hl, by simpa [litTotal, matchTotal] using runWritten_refl _ _⟩
  | cons e es ih =>
    obtain ⟨s1, h1, h2⟩ := bind_ok h
    obtain ⟨w1, g1, g2, r1⟩ := executeOne_ok h1 ht
    have hd : s1.drained = s.drained := by obtain ⟨m, r, lp, rfl⟩ := w1; rfl
    have hb : s1.dp.lb = s.dp.lb := by obtain ⟨m, r, lp, rfl⟩ := w1; rfl
    obtain ⟨w2, g3, g4, g5, r2⟩ := ih h2 (by omega) (by rw [hb]; omega)
    refine ⟨w1.trans w2, ?_, ?_, by rw [hb] at g5; exact g5, ?_⟩
    · rw [g3]; simp [litTotal, matchTotal]; omega
    · rw [g4, g2]; simp [litTotal]; omega
    · rw [hd, show t + e.ll + e.ml - s.drained = (t - s.drained) + (e.ll + e.ml) by omega] at r2
      have := r1.trans r2
      have he : litTotal (e :: es) + matchTotal (e :: es) = e.ll + e.ml + (litTotal es + matchTotal es) := by
        simp [litTotal, matchTotal]; omega
      rw [he]
      exact this

/-- EXECUTE with a result: its output is the literals and the match bytes, at most a block, appended at W_END
(45_window.md rules R656, R658 and R665). -/
theorem execute_ok {s u : State} {n : Nat} (h : execute s = .ok (n, u)) :
    ExecWrites s u ∧ n = s.dp.lb.length + matchTotal s.dp.sb ∧ n ≤ s.params.maxBlock ∧ RunWritten s.wEnd n s.win u.win := by
  simp only [execute] at h
  split at h
  · cases h
  · rename_i g
    obtain ⟨⟨t, s1⟩, h1, h2⟩ := bind_ok h
    obtain ⟨w1, g1, g2, g3, r1⟩ := executeSeqs_ok h1 (by simp [framePos]) (by simp)
    have hd : s1.drained = s.drained := by obtain ⟨m, r, lp, rfl⟩ := w1; rfl
    have hb : s1.dp.lb = s.dp.lb := by obtain ⟨m, r, lp, rfl⟩ := w1; rfl
    cases h2
    simp only [framePos] at g1 g2 g3 r1 ⊢
    simp only [Nat.zero_add] at g2
    have htot : matchTotal s.dp.sb = (s.dp.sb.map SeqEntry.ml).sum := rfl
    have hlen : (s1.dp.lb.drop s1.dp.lp).length = s.dp.lb.length - litTotal s.dp.sb := by rw [List.length_drop, hb, g2]
    have hlt : litTotal s.dp.sb ≤ s.dp.lb.length := by omega
    have hn : t + (s1.dp.lb.drop s1.dp.lp).length - (s.drained + s.wEnd) = s.dp.lb.length + matchTotal s.dp.sb := by
      rw [hlen, g1]; omega
    refine ⟨?_, hn, by omega, ?_⟩
    · obtain ⟨m, r, lp, rfl⟩ := w1
      exact ⟨_, _, _, rfl⟩
    · have h2 := runWritten_setMany s1.win (t - s1.drained) (s1.dp.lb.drop s1.dp.lp)
      rw [hd, hlen, g1, show s.drained + s.wEnd + litTotal s.dp.sb + matchTotal s.dp.sb - s.drained =
        s.wEnd + (litTotal s.dp.sb + matchTotal s.dp.sb) by omega] at h2
      rw [show s.drained + s.wEnd - s.drained = s.wEnd by omega] at r1
      have h3 := r1.trans h2
      rw [hn, show s.dp.lb.length + matchTotal s.dp.sb =
        litTotal s.dp.sb + matchTotal s.dp.sb + (s.dp.lb.length - litTotal s.dp.sb) by omega]
      have e : t - s1.drained = s.wEnd + (litTotal s.dp.sb + matchTotal s.dp.sb) := by rw [hd, g1]; omega
      rw [e, writeWin_win]
      exact h3

/-- Materializing a compressed block with a result. -/
theorem materializeCompressed_ok {size n : Nat} {s u : State} (h : materializeCompressed size s = .ok (n, u)) :
    n ≤ s.params.maxBlock ∧ (∃ m r ph pf dp, u = { s with win := m, rep := r, prevHuf := ph, prevFse := pf, dp := dp }) ∧
      RunWritten s.wEnd n s.win u.win := by
  obtain ⟨t, h1, h2⟩ := bind_ok h
  obtain ⟨dp, ph, pf, rfl⟩ := decodePhase_writes h1
  obtain ⟨⟨m, r, lp, rfl⟩, -, g, w⟩ := execute_ok h2
  exact ⟨g, ⟨_, _, _, _, _, rfl⟩, w⟩

/-! ## Which errors -/

/-- An operation that can refuse only a dictionary match that is not admitted. -/
def RaisesOrRefusesMatch {α : Type} (admits : Bool) (m : Micro α) : Prop :=
  ∀ e, m = .error e → (∃ site, site ≠ Site.none ∧ e = .raised site) ∨ (e = .refused .dictMatchNotAdmitted ∧ admits = false)

theorem matchLoop_errors (off : Int) (dl n t : Nat) (s : State) :
    RaisesOrRefusesMatch s.params.admitDictMatch (matchLoop off dl n t s) := by
  induction n generalizing t s with
  | zero => intro e h; cases h
  | succ n ih =>
    intro e h
    rcases bind_error h with h | ⟨v, -, h⟩
    · rcases matchByte_cases ((t : Int) - off) dl s with ⟨v, g⟩ | ⟨-, g1, g2⟩
      · rw [g] at h; cases h
      · rw [g2] at h; injection h with h; exact .inr ⟨h.symm, g1⟩
    · have g := ih _ _ e h; exact g

theorem matchCopy_errors (off : Word64) (ml t : Nat) (s : State) :
    RaisesOrRefusesMatch s.params.admitDictMatch (matchCopy off ml t s) := by
  intro e h
  simp only [matchCopy] at h
  split at h
  · injection h with h; exact .inl ⟨_, by decide, h.symm⟩
  · split at h
    · split at h
      · injection h with h; exact .inl ⟨_, by decide, h.symm⟩
      · exact matchLoop_errors _ _ _ _ _ e h
    · split at h
      · injection h with h; exact .inl ⟨_, by decide, h.symm⟩
      · exact matchLoop_errors _ _ _ _ _ e h

theorem executeOne_errors (e : SeqEntry) (t : Nat) (s : State) :
    RaisesOrRefusesMatch s.params.admitDictMatch (executeOne e t s) := by
  intro x h
  simp only [executeOne] at h
  split at h
  · injection h with h; exact .inl ⟨_, by decide, h.symm⟩
  · have g := matchCopy_errors _ _ _ _ x h; exact g

theorem executeSeqs_errors (es : List SeqEntry) (t : Nat) (s : State) (ht : s.drained ≤ t) :
    RaisesOrRefusesMatch s.params.admitDictMatch (executeSeqs es t s) := by
  induction es generalizing t s with
  | nil => intro e h; cases h
  | cons e es ih =>
    intro x h
    rcases bind_error h with h | ⟨s1, h1, h⟩
    · exact executeOne_errors _ _ _ x h
    · obtain ⟨⟨m, r, lp, rfl⟩, -, -, -⟩ := executeOne_ok h1 ht
      have g := ih _ _ (by simp only; omega) x h; exact g

theorem execute_errors (s : State) : RaisesOrRefusesMatch s.params.admitDictMatch (execute s) := by
  intro x h
  simp only [execute] at h
  split at h
  · injection h with h; exact .inl ⟨_, by decide, h.symm⟩
  · rcases bind_error h with h | ⟨a, -, h⟩
    · exact executeSeqs_errors _ _ { s with dp := { s.dp with lp := 0 } } (by simp [framePos]) x h
    · cases h

theorem materializeCompressed_errors (size : Nat) (s : State) :
    RaisesOrRefusesMatch s.params.admitDictMatch (materializeCompressed size s) := by
  intro x h
  rcases bind_error h with h | ⟨t, h1, h⟩
  · exact .inl (decodePhase_onlyRaises _ _ x h)
  · obtain ⟨dp, ph, pf, rfl⟩ := decodePhase_writes h1
    have g := execute_errors _ x h; exact g

end Sys2Proof.Machine
end

