-- ==== Sys2Proof/Laws/Exec.lean ====
section
/-! SUPPORT. What each instruction can do: for every family, the cases of a next state, said once. -/

namespace Sys2Proof.Machine

/-! ## Selector rows -/

theorem extendSize_ok {low width more n : Nat} {s t : State} (h : extendSize low width more s = .ok (n, t)) :
    ∃ v fr, frReadBits (source s) s.dp.fr more = .ok (v, fr) ∧ n = low + 2 ^ width * v ∧ t = putFr s fr := by
  obtain ⟨⟨v, fr⟩, h1, h2⟩ := bind_ok h
  cases h2
  exact ⟨v, fr, h1, rfl, rfl⟩

theorem extendSize_onlyRaises (low width more : Nat) (s : State) : OnlyRaises (extendSize low width more s) :=
  onlyRaises_bind (frReadBits_onlyRaises _ _ _) fun _ _ => onlyRaises_pure _

theorem litRawSized_onlyRaises (size : Nat) (s : State) : OnlyRaises (litRawSized size s) :=
  onlyRaises_ite (fun _ => onlyRaises_raise (by decide)) fun _ => litRaw_onlyRaises _ _

theorem litRleSized_onlyRaises (size : Nat) (s : State) : OnlyRaises (litRleSized size s) :=
  onlyRaises_ite (fun _ => onlyRaises_raise (by decide)) fun _ => litRle_onlyRaises _ _

theorem litRawSized_ok {size : Nat} {s t : State} (h : litRawSized size s = .ok t) :
    size ≤ s.params.maxBlock ∧ litRaw size s = .ok t := by
  unfold litRawSized at h; split at h
  · cases h
  · exact ⟨by omega, h⟩

theorem litRleSized_ok {size : Nat} {s t : State} (h : litRleSized size s = .ok t) :
    size ≤ s.params.maxBlock ∧ litRle size s = .ok t := by
  unfold litRleSized at h; split at h
  · cases h
  · exact ⟨by omega, h⟩

theorem litHuffmanFrom_onlyRaises (fresh four : Bool) (w low : Nat) (s : State) :
    OnlyRaises (litHuffmanFrom fresh four w low s) :=
  onlyRaises_bind (extendSize_onlyRaises _ _ _ _) fun _ _ => onlyRaises_bind (frReadBits_onlyRaises _ _ _) fun _ _ =>
    litHuffmanBody_onlyRaises _ _ _ _ _

theorem litHuffmanFrom_writes {fresh four : Bool} {w low : Nat} {s t : State}
    (h : litHuffmanFrom fresh four w low s = .ok t) : LitsWrite s t := by
  obtain ⟨⟨n, s1⟩, h1, h⟩ := bind_ok h
  obtain ⟨v, fr, -, -, rfl⟩ := extendSize_ok h1
  obtain ⟨⟨c, fr2⟩, -, h⟩ := bind_ok h
  exact ((litsWrite_putFr _ _).trans (litsWrite_putFr _ _)).trans (litHuffmanBody_writes h)

theorem hufDescription_onlyRaises (hdr : Nat) (s : State) : OnlyRaises (hufDescription hdr s) :=
  onlyRaises_bind (hufTableAfterHeader_onlyRaises _ _ _) fun _ _ => onlyRaises_pure _

theorem hufDescription_writes {hdr : Nat} {s t : State} (h : hufDescription hdr s = .ok t) : LitsWrite s t := by
  obtain ⟨r, -, h⟩ := bind_ok h
  injection h with h
  subst h
  exact (litsWrite_putHufRead _ _).trans (litsWrite_putFr _ _)

theorem finishCount_onlyRaises (n : Nat) (fr : Fr) (s : State) : OnlyRaises (finishCount n fr s) :=
  onlyRaises_ite (fun _ => seqEmptyEnd_onlyRaises _) fun _ => onlyRaises_ok _

theorem finishCount_writes {n : Nat} {fr : Fr} {s t : State} (h : finishCount n fr s = .ok t) : SeqsWrite s t := by
  unfold finishCount at h; split at h
  · obtain ⟨-, -, rfl⟩ := seqEmptyEnd_ok h; exact seqsWrite_putCount _ _ _
  · cases h; exact seqsWrite_putCount _ _ _

theorem configured_onlyRaises {m : Micro (FseTable × State)} (h : OnlyRaises m) : OnlyRaises (configured m) :=
  onlyRaises_bind h fun _ _ => onlyRaises_pure _

theorem configured_ok {m : Micro (FseTable × State)} {t : State} (h : configured m = .ok t) : ∃ tab, m = .ok (tab, t) := by
  obtain ⟨⟨tab, s⟩, h1, h2⟩ := bind_ok h
  cases h2
  exact ⟨tab, h1⟩

/-- What a selector row is: an operation of its own, which only raises and writes what decoding writes. -/
theorem selector_settles {i : Instr} (h : isSelector i = true) (s : State) :
    ∃ m : Micro State, exec i s = settle s m ∧ OnlyRaises m ∧ ∀ t, m = .ok t → DecodeWrites s t := by
  have raw : ∀ {n}, ∃ m : Micro State, settle s (litRawSized n s) = settle s m ∧ OnlyRaises m ∧ ∀ t, m = .ok t → DecodeWrites s t :=
    fun {n} => ⟨_, rfl, litRawSized_onlyRaises _ _, fun t ht => (litRaw_writes (litRawSized_ok ht).2).decode⟩
  have rle : ∀ {n}, ∃ m : Micro State, settle s (litRleSized n s) = settle s m ∧ OnlyRaises m ∧ ∀ t, m = .ok t → DecodeWrites s t :=
    fun {n} => ⟨_, rfl, litRleSized_onlyRaises _ _, fun t ht => (litRle_writes (litRleSized_ok ht).2).decode⟩
  have huf : ∀ {a b c d}, ∃ m : Micro State, settle s (litHuffmanFrom a b c d s) = settle s m ∧ OnlyRaises m ∧
      ∀ t, m = .ok t → DecodeWrites s t :=
    fun {a b c d} => ⟨_, rfl, litHuffmanFrom_onlyRaises _ _ _ _ _, fun t ht => (litHuffmanFrom_writes ht).decode⟩
  have tab : ∀ {f n}, ∃ m : Micro State, settle s (configured (seqTable f n s)) = settle s m ∧ OnlyRaises m ∧
      ∀ t, m = .ok t → DecodeWrites s t :=
    fun {f n} => ⟨_, rfl, configured_onlyRaises (seqTable_onlyRaises _ _ _), fun t ht => by
      obtain ⟨tb, ht⟩ := configured_ok ht; exact (seqTable_writes ht).decode⟩
  have desc : ∀ {n}, ∃ m : Micro State, settle s (hufDescription n s) = settle s m ∧ OnlyRaises m ∧
      ∀ t, m = .ok t → DecodeWrites s t :=
    fun {n} => ⟨_, rfl, hufDescription_onlyRaises _ _, fun t ht => (hufDescription_writes ht).decode⟩
  have ext : ∀ (f : Nat → State → Micro State) (low width more : Nat), (∀ n t, OnlyRaises (f n t)) →
      (∀ n t u, f n t = .ok u → LitsWrite t u) →
      ∃ m : Micro State, settle s (do let (size, t) ← extendSize low width more s; f size t) = settle s m ∧ OnlyRaises m ∧
        ∀ t, m = .ok t → DecodeWrites s t := by
    intro f low width more h1 h2
    refine ⟨_, rfl, onlyRaises_bind (extendSize_onlyRaises _ _ _ _) fun _ _ => h1 _ _, fun t ht => ?_⟩
    obtain ⟨⟨n, s1⟩, g1, g2⟩ := bind_ok ht
    obtain ⟨v, fr, -, -, rfl⟩ := extendSize_ok g1
    exact ((litsWrite_putFr _ _).trans (h2 _ _ _ g2)).decode
  have rawx : ∀ low width more, ∃ m : Micro State,
      settle s (do let (size, t) ← extendSize low width more s; litRawSized size t) = settle s m ∧ OnlyRaises m ∧
        ∀ t, m = .ok t → DecodeWrites s t := fun low width more =>
    ext litRawSized low width more litRawSized_onlyRaises fun n t u hu => litRaw_writes (litRawSized_ok hu).2
  have rlex : ∀ low width more, ∃ m : Micro State,
      settle s (do let (size, t) ← extendSize low width more s; litRleSized size t) = settle s m ∧ OnlyRaises m ∧
        ∀ t, m = .ok t → DecodeWrites s t := fun low width more =>
    ext litRleSized low width more litRleSized_onlyRaises fun n t u hu => litRle_writes (litRleSized_ok hu).2
  cases i with
  | reset _ => cases h
  | frameBegin _ _ _ _ => cases h
  | inputCommit _ _ _ _ => cases h
  | outputCommit _ _ _ _ => cases h
  | consume _ _ _ _ => cases h
  | block _ _ _ _ => cases h
  | reservedOpcode _ _ _ _ _ => cases h
  | blkRaw _ _ => cases h
  | blkRle _ _ => cases h
  | blkCompressed _ _ => cases h
  | blkReserved _ _ => cases h
  | litRawSf02 _ => exact raw
  | litRawSf1 _ => exact rawx _ _ _
  | litRawSf3 _ => exact rawx _ _ _
  | litRleSf02 _ => exact rle
  | litRleSf1 _ => exact rlex _ _ _
  | litRleSf3 _ => exact rlex _ _ _
  | litCompressedSf0 _ => exact huf
  | litCompressedSf1 _ => exact huf
  | litCompressedSf2 _ => exact huf
  | litCompressedSf3 _ => exact huf
  | litTreelessSf0 _ => exact huf
  | litTreelessSf1 _ => exact huf
  | litTreelessSf2 _ => exact huf
  | litTreelessSf3 _ => exact huf
  | hufDirect _ => exact desc
  | hufFse _ => exact desc
  | seqCountZero =>
    exact ⟨_, rfl, seqEmptyEnd_onlyRaises _, fun t ht => by
      obtain ⟨-, -, rfl⟩ := seqEmptyEnd_ok ht; exact (seqsWrite_putCount _ _ _).decode⟩
  | seqCountShort c =>
    exact ⟨.ok (putCount s c.toNat s.dp.fr), rfl, onlyRaises_ok _, fun t ht => by
      cases ht; exact (seqsWrite_putCount _ _ _).decode⟩
  | seqCountMedium c =>
    refine ⟨_, rfl, onlyRaises_bind (onlyRaises_bind (frReadLe_onlyRaises _ _ _) fun _ _ => onlyRaises_pure _) fun _ _ =>
      finishCount_onlyRaises _ _ _, fun t ht => ?_⟩
    obtain ⟨a, -, ht⟩ := bind_ok ht
    exact (finishCount_writes ht).decode
  | seqCountLong =>
    refine ⟨_, rfl, onlyRaises_bind (onlyRaises_bind (frReadLe_onlyRaises _ _ _) fun _ _ => onlyRaises_pure _) fun _ _ =>
      finishCount_onlyRaises _ _ _, fun t ht => ?_⟩
    obtain ⟨a, -, ht⟩ := bind_ok ht
    exact (finishCount_writes ht).decode
  | seqModeLlPredefined _ => exact tab (f := .ll) (n := 0)
  | seqModeLlRle _ => exact tab (f := .ll) (n := 1)
  | seqModeLlFse _ => exact tab (f := .ll) (n := 2)
  | seqModeLlRepeat _ => exact tab (f := .ll) (n := 3)
  | seqModeOfPredefined _ => exact tab (f := .oft) (n := 0)
  | seqModeOfRle _ => exact tab (f := .oft) (n := 1)
  | seqModeOfFse _ => exact tab (f := .oft) (n := 2)
  | seqModeOfRepeat _ => exact tab (f := .oft) (n := 3)
  | seqModeMlPredefined _ => exact tab (f := .ml) (n := 0)
  | seqModeMlRle _ => exact tab (f := .ml) (n := 1)
  | seqModeMlFse _ => exact tab (f := .ml) (n := 2)
  | seqModeMlRepeat _ => exact tab (f := .ml) (n := 3)
  | seqModesReserved _ _ =>
    exact ⟨raise .seqModes, rfl, onlyRaises_raise (by decide), fun t ht => by cases ht⟩

/-- A selector row ends in a next state: an error of the spec, or what decoding writes. -/
theorem selector_next {i : Instr} (h : isSelector i = true) (s : State) :
    ∃ t, exec i s = .next t ∧ ((∃ e, e ≠ Site.none ∧ t = errorEntry e s) ∨ DecodeWrites s t) := by
  obtain ⟨m, h1, h2, h3⟩ := selector_settles h s
  rw [h1]
  cases hm : m with
  | error e =>
    obtain ⟨site, g, rfl⟩ := h2 e hm
    exact ⟨_, rfl, .inl ⟨site, g, rfl⟩⟩
  | ok t => exact ⟨t, rfl, .inr (h3 t hm)⟩

/-! ## Commands -/

theorem frameBegin_cases (a : Nat) (f : Bool) (s : State) :
    (∃ e, e ≠ Site.none ∧ frameBegin a f s = .error (.raised e)) ∨
    (f = true ∧ (∃ d, s.params.dict = some d ∧ dictInDomain d = false) ∧
      frameBegin a f s = .error (.refused .dictOutsideDomain)) ∨
    (a ≤ windowSizeMax ∧ a + s.params.maxBlock ≤ s.params.winCap ∧
      ∃ d, (f = false ∧ d = none ∨ f = true ∧ d = s.params.dict ∧ ∃ x, d = some x ∧ dictInDomain x = true) ∧
        frameBegin a f s = .ok (frameStart a d s)) := by
  unfold frameBegin
  split
  · exact .inl ⟨_, by decide, rfl⟩
  · split
    · exact .inl ⟨_, by decide, rfl⟩
    · cases f with
      | false => exact .inr (.inr ⟨by omega, by omega, none, .inl ⟨rfl, rfl⟩, rfl⟩)
      | true =>
        rw [if_pos rfl]
        cases hd : s.params.dict with
        | none => exact .inl ⟨_, by decide, rfl⟩
        | some d =>
          cases hx : dictInDomain d with
          | false => exact .inr (.inl ⟨rfl, ⟨d, rfl, hx⟩, by simp [hx]⟩)
          | true => exact .inr (.inr ⟨by omega, by omega, some d, .inr ⟨rfl, rfl, d, rfl, hx⟩, by simp [hx]⟩)

theorem inputCommit_cases (n : Nat) (s : State) :
    inputCommit n s = .error (.raised .inCommit) ∨
    (n ≤ s.params.inCap - s.iEnd ∧ inputCommit n s = .ok { s with iEnd := s.iEnd + n, result := .ok }) := by
  unfold inputCommit; split
  · exact .inl rfl
  · exact .inr ⟨by omega, rfl⟩

theorem outputCommit_cases (n : Nat) (s : State) :
    outputCommit n s = .error (.raised .outCommit) ∨
    (n ≤ s.wEnd - s.wStart ∧ outputCommit n s = .ok { s with wStart := s.wStart + n, result := .ok }) := by
  unfold outputCommit; split
  · exact .inl rfl
  · exact .inr ⟨by omega, rfl⟩

theorem consumeInput_cases (n : Nat) (s : State) :
    consumeInput n s = .error (.raised .consume) ∨
    (n ≤ s.iEnd ∧ consumeInput n s = .ok { consumeIn n s with result := .ok }) := by
  unfold consumeInput; split
  · exact .inl rfl
  · exact .inr ⟨by omega, rfl⟩

/-- What materializing a block of any kind does, if it has a result, under a block bound `mb` (45_window.md rules R654 and
R656). -/
def MaterializesWithin (mb needOut : Nat) (mat : State → Micro (Nat × State)) : Prop :=
  ∀ s o u, s.params.maxBlock = mb → mat s = .ok (o, u) → o ≤ needOut ∧
    (∃ m r ph pf dp, u = { s with win := m, rep := r, prevHuf := ph, prevFse := pf, dp := dp }) ∧
    RunWritten s.wEnd o s.win u.win

theorem materializeRaw_within (mb size : Nat) :
    MaterializesWithin mb size fun t => .ok (size, materializeRaw size t) := by
  intro s o u _ h
  cases h
  refine ⟨Nat.le_refl _, ⟨_, _, _, _, _, rfl⟩, ?_⟩
  have := runWritten_setMany s.win s.wEnd (inBytes s 0 size)
  rwa [inBytes_length] at this

theorem materializeRle_within (mb size : Nat) :
    MaterializesWithin mb size fun t => .ok (size, materializeRle size t) := by
  intro s o u _ h
  cases h
  refine ⟨Nat.le_refl _, ⟨_, _, _, _, _, rfl⟩, ?_⟩
  have := runWritten_setMany s.win s.wEnd (List.replicate size (inByte s 0))
  rwa [List.length_replicate] at this

theorem materializeCompressed_within (mb size : Nat) : MaterializesWithin mb mb (materializeCompressed size) := by
  intro s o u hb h
  obtain ⟨g1, g2, g3⟩ := materializeCompressed_ok h
  exact ⟨hb ▸ g1, g2, g3⟩

/-- The steps of one kind of block after the operand and kind checks. -/
inductive BlockKind where
  | raw
  | rle
  | compressed

/-- The steps of a block by its kind. -/
def blockOf (k : BlockKind) (last : Bool) (size : Nat) (s : State) : Answer :=
  match k with
  | .raw => blockRaw last size s
  | .rle => blockRle last size s
  | .compressed => blockCompressed last size s

/-- BLOCK in ACTIVE: an error of the header, or the steps of a block (46_commands.md rule R720). -/
theorem blockForm_cases (a : Word32) (s : State) :
    (∃ e, e ≠ Site.none ∧ blockForm a s = .next (errorEntry e s)) ∨
    ∃ k last size, blockForm a s = blockOf k last size s := by
  unfold blockForm
  split
  · exact .inl ⟨_, by decide, rfl⟩
  · simp only
    split
    · exact .inr ⟨.raw, _, _, rfl⟩
    · exact .inr ⟨.rle, _, _, rfl⟩
    · exact .inr ⟨.compressed, _, _, rfl⟩
    · exact .inl ⟨_, by decide, rfl⟩

/-- What the steps of a block can do: an error entered from the state before TRYFLUSH, a wait, an error entered from the state
after TRYFLUSH, or the commit of a run appended at W_END. -/
theorem blockOf_next {k : BlockKind} {last : Bool} {size : Nat} {s t : State} (h : blockOf k last size s = .next t) :
    t = errorEntry .blkSize s ∨
    t = awaitInput s ∨
    (∃ needOut, needOut ≤ s.params.maxBlock ∧ tryFlush needOut s = none ∧ t = awaitDrain s) ∨
    (∃ needOut u, needOut ≤ s.params.maxBlock ∧ tryFlush needOut s = some u ∧
      ((∃ e, e ≠ Site.none ∧ t = errorEntry e u) ∨
       (∃ o needIn m r ph pf dp, o ≤ needOut ∧ RunWritten u.wEnd o u.win m ∧
         t = commit o needIn last { u with win := m, rep := r, prevHuf := ph, prevFse := pf, dp := dp }))) := by
  have key : ∀ {needIn needOut : Nat} {mat : State → Micro (Nat × State)},
      MaterializesWithin s.params.maxBlock needOut mat → (∀ u e, mat u = .error (.raised e) → e ≠ Site.none) →
      (size ≤ s.params.maxBlock → needOut ≤ s.params.maxBlock) → blockSteps size needIn needOut last mat s = .next t →
      (t = errorEntry .blkSize s ∨ t = awaitInput s ∨
        (∃ needOut, needOut ≤ s.params.maxBlock ∧ tryFlush needOut s = none ∧ t = awaitDrain s) ∨
        (∃ needOut u, needOut ≤ s.params.maxBlock ∧ tryFlush needOut s = some u ∧
          ((∃ e, e ≠ Site.none ∧ t = errorEntry e u) ∨
           (∃ o needIn m r ph pf dp, o ≤ needOut ∧ RunWritten u.wEnd o u.win m ∧
             t = commit o needIn last { u with win := m, rep := r, prevHuf := ph, prevFse := pf, dp := dp })))) := by
    intro needIn needOut mat hmat herr hno hb
    rcases blockSteps_next hb with ⟨-, h⟩ | ⟨-, -, h⟩ | ⟨g, -, h1, h⟩ | ⟨u, g, -, h1, h⟩
    · exact .inl h
    · exact .inr (.inl h)
    · exact .inr (.inr (.inl ⟨needOut, hno g, h1, h⟩))
    · refine .inr (.inr (.inr ⟨needOut, u, hno g, h1, ?_⟩))
      rcases h with ⟨e, h2, h⟩ | ⟨o, v, h2, h⟩
      · exact .inl ⟨e, herr u e h2, h⟩
      · have hp : u.params.maxBlock = s.params.maxBlock := by obtain ⟨m, a, b, d, rfl⟩ := tryFlush_shape h1; rfl
        obtain ⟨g1, ⟨m, r, ph, pf, dp, rfl⟩, g3⟩ := hmat u o v hp h2
        exact .inr ⟨o, needIn, m, r, ph, pf, dp, g1, g3, h⟩
  cases k with
  | raw => exact key (materializeRaw_within _ size) (fun u e h => by cases h) id h
  | rle => exact key (materializeRle_within _ size) (fun u e h => by cases h) id h
  | compressed =>
    refine key (materializeCompressed_within _ size) ?_ (fun _ => Nat.le_refl _) h
    intro u e he
    rcases materializeCompressed_errors size u _ he with ⟨site, g, h⟩ | ⟨h, -⟩
    · cases h; exact g
    · cases h

/-- No block faults, and a block refuses only a dictionary match that is not admitted. -/
theorem blockOf_refuses {k : BlockKind} {last : Bool} {size : Nat} {s : State} {r : Refusal}
    (h : blockOf k last size s = .refused r) : r = .dictMatchNotAdmitted ∧ s.params.admitDictMatch = false := by
  have key : ∀ {needIn needOut : Nat} {mat : State → Micro (Nat × State)},
      (∀ u x, mat u = .error (.refused x) → x = .dictMatchNotAdmitted ∧ u.params.admitDictMatch = false) →
      blockSteps size needIn needOut last mat s = .refused r → r = .dictMatchNotAdmitted ∧ s.params.admitDictMatch = false := by
    intro needIn needOut mat hmat hb
    unfold blockSteps at hb
    split at hb
    · cases hb
    · split at hb
      · cases hb
      · split at hb
        · cases hb
        · rename_i u hu
          obtain ⟨m, a, b, d, rfl⟩ := tryFlush_shape hu
          rcases bind_error (settle_refuses hb) with h | ⟨a, -, h⟩
          · have g := hmat _ _ h; exact g
          · cases h
  cases k with
  | raw => exact key (fun u x h => by cases h) h
  | rle => exact key (fun u x h => by cases h) h
  | compressed =>
    refine key (fun u x hx => ?_) h
    rcases materializeCompressed_errors size u _ hx with ⟨site, g, h⟩ | ⟨h, g⟩
    · cases h
    · cases h; exact ⟨rfl, g⟩

theorem blockOf_fault {k : BlockKind} {last : Bool} {size : Nat} {s : State} (f : Fault) : blockOf k last size s ≠ .fault f := by
  have key : ∀ {needIn needOut : Nat} {mat : State → Micro (Nat × State)},
      blockSteps size needIn needOut last mat s ≠ .fault f := by
    intro needIn needOut mat hb
    unfold blockSteps at hb
    split at hb
    · cases hb
    · split at hb
      · cases hb
      · split at hb
        · cases hb
        · exact settle_fault _ _ _ hb
  cases k with
  | raw => exact key
  | rle => exact key
  | compressed => exact key

end Sys2Proof.Machine
end

