-- ==== Sys2Proof/Laws/Commit.lean ====
section
/-! SUPPORT. How a block ends when its room and its result are there: what TRYFLUSH leaves, told by `slideFor`, and what COMMIT
makes of a block that materialized. -/

namespace Sys2Proof.Machine

/-- With room, TRYFLUSH moves the cursors and the bytes below W_END down by `slideFor`, and nothing else (45_window.md rule
R651). -/
theorem tryFlush_slideFor {need : Nat} {s : State} (h : hasRoom need s) :
    ∃ m, tryFlush need s = some { s with
        win := m, wStart := s.wStart - slideFor need s, wEnd := s.wEnd - slideFor need s,
        drained := s.drained + slideFor need s } ∧
      (∀ a, a < s.wEnd - slideFor need s → Memory.get m a = Memory.get s.win (a + slideFor need s)) ∧
      (slideFor need s = 0 → m = s.win) ∧ (Memory.wf s.win = true → Memory.wf m = true) := by
  unfold tryFlush
  by_cases g : s.wEnd + need ≤ s.params.winCap
  · have e : slideFor need s = 0 := by simp [slideFor, g]
    rw [if_pos g]
    refine ⟨s.win, ?_, ?_, fun _ => rfl, id⟩ <;> simp [e]
  · have e : slideFor need s = slideAmount s := by simp [slideFor, g, slideAmount]
    rw [if_neg g]
    have h' := h
    unfold hasRoom at h'
    rw [e] at h'
    simp only
    rw [if_neg (by omega)]
    refine ⟨Memory.slide s.win (slideAmount s) s.wEnd, by rw [e], ?_, ?_, Memory.wf_slide _ _ _⟩
    · intro a ha
      rw [e] at ha ⊢
      rw [Memory.get_slide, if_pos (by omega), Nat.add_comm]
    · intro h0
      rw [e] at h0
      omega

/-- Without room, TRYFLUSH reports `not_yet` (45_window.md rule R651). -/
theorem tryFlush_eq_none {need : Nat} {s : State} (h : ¬ hasRoom need s) : tryFlush need s = none := by
  unfold tryFlush
  unfold hasRoom slideFor at h
  split at h
  · omega
  · rename_i g
    have : s.params.winCap < s.wEnd - slideAmount s + need := by unfold slideAmount; omega
    rw [if_neg g]
    simp only
    rw [if_pos this]

/-- After the compaction, byte `a` of the input left is the former byte `a + k` (20_memory.md rule R206). -/
theorem inByte_consume (s t : State) (k : Nat) (h1 : t.inp = Memory.slide s.inp k s.iEnd) (h2 : t.inBase = s.inBase + k)
    (a : Nat) (ha : a < s.iEnd - k) : inByte t a = inByte s (a + k) := by
  unfold inByte
  rw [h1, h2, Memory.get_slide, if_pos (by omega), Nat.add_comm a k, Nat.add_assoc]

/-- A block whose materialization gives `outLen` bytes, and writes nothing of the arena but them, commits them (45_window.md rule
R667). -/
theorem blockSteps_commits {size needIn room outLen : Nat} {last : Bool} {mat : State → Micro (Nat × State)} {s : State}
    (out : Nat → Byte) (h1 : size ≤ s.params.maxBlock) (h2 : needIn ≤ s.iEnd) (h3 : hasRoom room s)
    (h4 : s.needInput = false) (h5 : s.needDrain = false)
    (hm : ∀ u, tryFlush room s = some u → ∃ v m r ph pf dp, mat u = .ok (outLen, v) ∧
      v = { u with win := m, rep := r, prevHuf := ph, prevFse := pf, dp := dp } ∧
      (∀ j, j < outLen → Memory.get m (u.wEnd + j) = some (out j)) ∧
      (∀ a, a < u.wEnd ∨ u.wEnd + outLen ≤ a → Memory.get m a = Memory.get u.win a)) :
    ∃ u v t, tryFlush room s = some u ∧ mat u = .ok (outLen, v) ∧ blockSteps size needIn room last mat s = .next t ∧
      Commits room needIn outLen last out s t ∧ t.rep = v.rep ∧ t.prevHuf = v.prevHuf ∧ t.prevFse = v.prevFse := by
  obtain ⟨m, hf, hk, h0, -⟩ := tryFlush_slideFor h3
  obtain ⟨v, m', r, ph, pf, dp, hv, rfl, hw, ho⟩ := hm _ hf
  refine ⟨_, _, commit outLen needIn last { s with
    win := m', wStart := s.wStart - slideFor room s, wEnd := s.wEnd - slideFor room s,
    drained := s.drained + slideFor room s, rep := r, prevHuf := ph, prevFse := pf, dp := dp }, hf, hv, ?_, ?_, rfl, rfl, rfl⟩
  · unfold blockSteps
    rw [if_neg (by omega), if_neg (by omega), hf]
    simp only [hv]
    rfl
  · constructor
    · simp [commit, consumeIn, h4, h5]
    · intro a ha
      show Memory.get m' a = _
      rw [ho a (.inl ha), hk a ha]
    · exact hw
    · intro e a ha
      show Memory.get m' a = _
      rw [ho a (.inr (by simpa [e] using ha)), h0 e]
    · intro a ha
      exact inByte_consume s _ needIn rfl rfl a ha

end Sys2Proof.Machine
end

