-- ==== Sys2Proof/Laws/PerInstr.lean ====
section
/-! SUPPORT. The per-instruction family RowBits: the word of a well-formed instruction has its row's bits as
spec/opcode_table.json gives them (mask and match, or mask and range), and no bit above the row's format. One lemma per
constructor. -/

namespace Sys2Proof.Laws.RowBits

/-- The row's bits, written out from spec/opcode_table.json: `w` is a word of the row of `i`. -/
def rowAdmits (i : Instr) (w : Nat) : Bool :=
  match i with
  | .reset _ => w &&& 0xff == 0x0
  | .frameBegin _ _ _ _ => w &&& 0xffff00000000feff == 0x1
  | .inputCommit _ _ _ _ => w &&& 0xffff00000000ffff == 0x2
  | .outputCommit _ _ _ _ => w &&& 0xffff00000000ffff == 0x3
  | .consume _ _ _ _ => w &&& 0xffff00000000ffff == 0x4
  | .block _ _ _ _ => w &&& 0xffff00000000ffff == 0x5
  | .reservedOpcode _ _ _ _ _ => decide (6 ≤ w &&& 0xff)
  | .blkRaw _ _ => w &&& 0x6 == 0x0
  | .blkRle _ _ => w &&& 0x6 == 0x2
  | .blkCompressed _ _ => w &&& 0x6 == 0x4
  | .blkReserved _ _ => w &&& 0x6 == 0x6
  | .litRawSf02 _ => w &&& 0x7 == 0x0
  | .litRawSf1 _ => w &&& 0xf == 0x4
  | .litRawSf3 _ => w &&& 0xf == 0xc
  | .litRleSf02 _ => w &&& 0x7 == 0x1
  | .litRleSf1 _ => w &&& 0xf == 0x5
  | .litRleSf3 _ => w &&& 0xf == 0xd
  | .litCompressedSf0 _ => w &&& 0xf == 0x2
  | .litCompressedSf1 _ => w &&& 0xf == 0x6
  | .litCompressedSf2 _ => w &&& 0xf == 0xa
  | .litCompressedSf3 _ => w &&& 0xf == 0xe
  | .litTreelessSf0 _ => w &&& 0xf == 0x3
  | .litTreelessSf1 _ => w &&& 0xf == 0x7
  | .litTreelessSf2 _ => w &&& 0xf == 0xb
  | .litTreelessSf3 _ => w &&& 0xf == 0xf
  | .hufDirect _ => w &&& 0x80 == 0x80
  | .hufFse _ => w &&& 0x80 == 0x0
  | .seqCountZero => w &&& 0xff == 0x0
  | .seqCountShort _ => decide (0x01 ≤ w) && decide (w ≤ 0x7F) && w &&& 0x80 == 0
  | .seqCountMedium _ => decide (0x80 ≤ w) && decide (w ≤ 0xFE) && w &&& 0x80 == 0x80
  | .seqCountLong => w &&& 0xff == 0xff
  | .seqModeLlPredefined _ => w &&& 0xc3 == 0x0
  | .seqModeLlRle _ => w &&& 0xc3 == 0x40
  | .seqModeLlFse _ => w &&& 0xc3 == 0x80
  | .seqModeLlRepeat _ => w &&& 0xc3 == 0xc0
  | .seqModeOfPredefined _ => w &&& 0x33 == 0x0
  | .seqModeOfRle _ => w &&& 0x33 == 0x10
  | .seqModeOfFse _ => w &&& 0x33 == 0x20
  | .seqModeOfRepeat _ => w &&& 0x33 == 0x30
  | .seqModeMlPredefined _ => w &&& 0xf == 0x0
  | .seqModeMlRle _ => w &&& 0xf == 0x4
  | .seqModeMlFse _ => w &&& 0xf == 0x8
  | .seqModeMlRepeat _ => w &&& 0xf == 0xc
  | .seqModesReserved _ _ => w &&& 0x3 != 0

/-- A well-formed instruction's word is a word of its row. -/
def Statement (i : Instr) : Prop :=
  i.wf = true → rowAdmits i (encodeWord i) = true ∧ encodeWord i < 2 ^ (8 * formatBytes (formatOf i))

/-- The masked bits of a command word with clear reserved bits are its opcode. -/
theorem cmdWord_mask (op : Byte) (f : Bool) (a : Word32) (m : Word64)
    (h : m = 0xffff00000000ffff#64 ∧ f = false ∨ m = 0xffff00000000feff#64) :
    cmdWord op f 0 a 0 &&& m = op.setWidth 64 := by
  apply BitVec.eq_of_getLsbD_eq
  intro j hj
  rcases h with ⟨rfl, rfl⟩ | rfl <;>
    (simp only [cmdWord, BitVec.getLsbD_and, BitVec.getLsbD_append, BitVec.getLsbD_setWidth]
     interval_cases j <;> simp)

/-- The same of the word as a number. -/
theorem cmdWord_masked (op : Byte) (f : Bool) (a : Word32) (m : Word64)
    (h : m = 0xffff00000000ffff#64 ∧ f = false ∨ m = 0xffff00000000feff#64) :
    (cmdWord op f 0 a 0).toNat &&& m.toNat = op.toNat := by
  have := congrArg BitVec.toNat (cmdWord_mask op f a m h)
  rw [BitVec.toNat_and, BitVec.toNat_setWidth] at this
  omega

/-- A command word's opcode bits. -/
theorem cmdWord_opcode (op : Byte) (f : Bool) (r : BitVec 7) (a : Word32) (q : BitVec 16) :
    (cmdWord op f r a q).toNat &&& 0xff = op.toNat := by
  have h : cmdWord op f r a q &&& 0xff#64 = op.setWidth 64 := by
    apply BitVec.eq_of_getLsbD_eq
    intro j hj
    simp only [cmdWord, BitVec.getLsbD_and, BitVec.getLsbD_append, BitVec.getLsbD_setWidth]
    interval_cases j <;> simp
  have := congrArg BitVec.toNat h
  rw [BitVec.toNat_and, BitVec.toNat_setWidth, Nat.mod_eq_of_lt (by omega)] at this
  simpa using this

/-- A block header's kind bits. -/
theorem hdrWord_kind (last : Bool) (kind : BitVec 2) (size : BitVec 21) :
    (hdrWord last kind size).toNat &&& 0x6 = 2 * kind.toNat := by
  have h : hdrWord last kind size &&& 0x6#24 = (kind ++ 0#1).setWidth 24 := by
    apply BitVec.eq_of_getLsbD_eq
    intro j hj
    simp only [hdrWord, BitVec.getLsbD_and, BitVec.getLsbD_append, BitVec.getLsbD_setWidth]
    interval_cases j <;> simp
  have := congrArg BitVec.toNat h
  rw [BitVec.toNat_and, BitVec.toNat_setWidth, BitVec.toNat_append] at this
  have g := kind.isLt
  simp [Nat.shiftLeft_eq] at this
  omega

theorem reset (ignored : BitVec 56) : Statement (.reset ignored) := by
  refine fun _ => ⟨?_, BitVec.isLt _⟩
  have h : (ignored ++ (0x00#8)) &&& 0xff#64 = 0#64 := by
    apply BitVec.eq_of_getLsbD_eq
    intro j hj
    simp only [BitVec.getLsbD_and, BitVec.getLsbD_append]
    interval_cases j <;> simp
  have := congrArg BitVec.toNat h
  rw [BitVec.toNat_and] at this
  simpa [rowAdmits, encodeWord] using this

theorem frameBegin (f : Bool) (rsv0 : BitVec 7) (a : Word32) (rsv1 : BitVec 16) : Statement (.frameBegin f rsv0 a rsv1) := by
  intro h
  obtain ⟨rfl, rfl⟩ : rsv0 = 0 ∧ rsv1 = 0 := by simpa [Instr.wf] using h
  exact ⟨by simpa [rowAdmits, encodeWord] using cmdWord_masked 0x01#8 f a _ (.inr rfl), BitVec.isLt _⟩

theorem inputCommit (f : Bool) (rsv0 : BitVec 7) (n : Word32) (rsv1 : BitVec 16) : Statement (.inputCommit f rsv0 n rsv1) := by
  intro h
  obtain ⟨⟨rfl, rfl⟩, rfl⟩ : (f = false ∧ rsv0 = 0) ∧ rsv1 = 0 := by simpa [Instr.wf, reservedBitsClear] using h
  exact ⟨by simpa [rowAdmits, encodeWord] using cmdWord_masked 0x02#8 false n _ (.inl ⟨rfl, rfl⟩), BitVec.isLt _⟩

theorem outputCommit (f : Bool) (rsv0 : BitVec 7) (n : Word32) (rsv1 : BitVec 16) : Statement (.outputCommit f rsv0 n rsv1) := by
  intro h
  obtain ⟨⟨rfl, rfl⟩, rfl⟩ : (f = false ∧ rsv0 = 0) ∧ rsv1 = 0 := by simpa [Instr.wf, reservedBitsClear] using h
  exact ⟨by simpa [rowAdmits, encodeWord] using cmdWord_masked 0x03#8 false n _ (.inl ⟨rfl, rfl⟩), BitVec.isLt _⟩

theorem consume (f : Bool) (rsv0 : BitVec 7) (n : Word32) (rsv1 : BitVec 16) : Statement (.consume f rsv0 n rsv1) := by
  intro h
  obtain ⟨⟨rfl, rfl⟩, rfl⟩ : (f = false ∧ rsv0 = 0) ∧ rsv1 = 0 := by simpa [Instr.wf, reservedBitsClear] using h
  exact ⟨by simpa [rowAdmits, encodeWord] using cmdWord_masked 0x04#8 false n _ (.inl ⟨rfl, rfl⟩), BitVec.isLt _⟩

theorem block (f : Bool) (rsv0 : BitVec 7) (a : Word32) (rsv1 : BitVec 16) : Statement (.block f rsv0 a rsv1) := by
  intro h
  obtain ⟨⟨rfl, rfl⟩, rfl⟩ : (f = false ∧ rsv0 = 0) ∧ rsv1 = 0 := by simpa [Instr.wf, reservedBitsClear] using h
  exact ⟨by simpa [rowAdmits, encodeWord] using cmdWord_masked 0x05#8 false a _ (.inl ⟨rfl, rfl⟩), BitVec.isLt _⟩

theorem reservedOpcode (op : Byte) (f : Bool) (rsv0 : BitVec 7) (a : Word32) (rsv1 : BitVec 16) : Statement (.reservedOpcode op f rsv0 a rsv1) := by
  intro h
  have h : 6 ≤ op.toNat := by simpa [Instr.wf] using h
  exact ⟨by simpa [rowAdmits, encodeWord, cmdWord_opcode] using h, BitVec.isLt _⟩

theorem blkRaw (last : Bool) (size : BitVec 21) : Statement (.blkRaw last size) := by
  exact fun _ => ⟨by simp [rowAdmits, encodeWord, hdrWord_kind], BitVec.isLt _⟩

theorem blkRle (last : Bool) (size : BitVec 21) : Statement (.blkRle last size) := by
  exact fun _ => ⟨by simp [rowAdmits, encodeWord, hdrWord_kind], BitVec.isLt _⟩

theorem blkCompressed (last : Bool) (size : BitVec 21) : Statement (.blkCompressed last size) := by
  exact fun _ => ⟨by simp [rowAdmits, encodeWord, hdrWord_kind], BitVec.isLt _⟩

theorem blkReserved (last : Bool) (size : BitVec 21) : Statement (.blkReserved last size) := by
  exact fun _ => ⟨by simp [rowAdmits, encodeWord, hdrWord_kind], BitVec.isLt _⟩

theorem litRawSf02 (s : BitVec 5) : Statement (.litRawSf02 s) := by
  unfold Statement; revert s; decide +kernel

theorem litRawSf1 (s : BitVec 4) : Statement (.litRawSf1 s) := by
  unfold Statement; revert s; decide +kernel

theorem litRawSf3 (s : BitVec 4) : Statement (.litRawSf3 s) := by
  unfold Statement; revert s; decide +kernel

theorem litRleSf02 (s : BitVec 5) : Statement (.litRleSf02 s) := by
  unfold Statement; revert s; decide +kernel

theorem litRleSf1 (s : BitVec 4) : Statement (.litRleSf1 s) := by
  unfold Statement; revert s; decide +kernel

theorem litRleSf3 (s : BitVec 4) : Statement (.litRleSf3 s) := by
  unfold Statement; revert s; decide +kernel

theorem litCompressedSf0 (s : BitVec 4) : Statement (.litCompressedSf0 s) := by
  unfold Statement; revert s; decide +kernel

theorem litCompressedSf1 (s : BitVec 4) : Statement (.litCompressedSf1 s) := by
  unfold Statement; revert s; decide +kernel

theorem litCompressedSf2 (s : BitVec 4) : Statement (.litCompressedSf2 s) := by
  unfold Statement; revert s; decide +kernel

theorem litCompressedSf3 (s : BitVec 4) : Statement (.litCompressedSf3 s) := by
  unfold Statement; revert s; decide +kernel

theorem litTreelessSf0 (s : BitVec 4) : Statement (.litTreelessSf0 s) := by
  unfold Statement; revert s; decide +kernel

theorem litTreelessSf1 (s : BitVec 4) : Statement (.litTreelessSf1 s) := by
  unfold Statement; revert s; decide +kernel

theorem litTreelessSf2 (s : BitVec 4) : Statement (.litTreelessSf2 s) := by
  unfold Statement; revert s; decide +kernel

theorem litTreelessSf3 (s : BitVec 4) : Statement (.litTreelessSf3 s) := by
  unfold Statement; revert s; decide +kernel

theorem hufDirect (n : BitVec 7) : Statement (.hufDirect n) := by
  unfold Statement; revert n; decide +kernel

theorem hufFse (h : BitVec 7) : Statement (.hufFse h) := by
  unfold Statement; revert h; decide +kernel

theorem seqCountZero : Statement (.seqCountZero) := by
  unfold Statement; decide +kernel

theorem seqCountShort (c : BitVec 7) : Statement (.seqCountShort c) := by
  unfold Statement; revert c; decide +kernel

theorem seqCountMedium (c : BitVec 7) : Statement (.seqCountMedium c) := by
  unfold Statement; revert c; decide +kernel

theorem seqCountLong : Statement (.seqCountLong) := by
  unfold Statement; decide +kernel

theorem seqModeLlPredefined (x : BitVec 4) : Statement (.seqModeLlPredefined x) := by
  unfold Statement; revert x; decide +kernel

theorem seqModeLlRle (x : BitVec 4) : Statement (.seqModeLlRle x) := by
  unfold Statement; revert x; decide +kernel

theorem seqModeLlFse (x : BitVec 4) : Statement (.seqModeLlFse x) := by
  unfold Statement; revert x; decide +kernel

theorem seqModeLlRepeat (x : BitVec 4) : Statement (.seqModeLlRepeat x) := by
  unfold Statement; revert x; decide +kernel

theorem seqModeOfPredefined (x : BitVec 4) : Statement (.seqModeOfPredefined x) := by
  unfold Statement; revert x; decide +kernel

theorem seqModeOfRle (x : BitVec 4) : Statement (.seqModeOfRle x) := by
  unfold Statement; revert x; decide +kernel

theorem seqModeOfFse (x : BitVec 4) : Statement (.seqModeOfFse x) := by
  unfold Statement; revert x; decide +kernel

theorem seqModeOfRepeat (x : BitVec 4) : Statement (.seqModeOfRepeat x) := by
  unfold Statement; revert x; decide +kernel

theorem seqModeMlPredefined (x : BitVec 4) : Statement (.seqModeMlPredefined x) := by
  unfold Statement; revert x; decide +kernel

theorem seqModeMlRle (x : BitVec 4) : Statement (.seqModeMlRle x) := by
  unfold Statement; revert x; decide +kernel

theorem seqModeMlFse (x : BitVec 4) : Statement (.seqModeMlFse x) := by
  unfold Statement; revert x; decide +kernel

theorem seqModeMlRepeat (x : BitVec 4) : Statement (.seqModeMlRepeat x) := by
  unfold Statement; revert x; decide +kernel

theorem seqModesReserved (r : BitVec 2) (x : BitVec 6) : Statement (.seqModesReserved r x) := by
  unfold Statement; revert r x; decide +kernel

end Sys2Proof.Laws.RowBits
end

