-- ==== Sys2Proof/Tests/Slice0.lean ====
section
/-! SUPPORT. Tests of the model: ill-formed instructions refused, a word of every row decoded, vectors of 95_test_vectors.md, and
for every statement with hypotheses a state and operands that meet them. Expected results are the spec's; each test names its
source. -/

namespace Sys2Proof.Tests

-- one theorem at a time: the kernel evaluations of this file, all started at once, take a thread and its stack each
set_option Elab.async false

open Sys2Proof Sys2Proof.Machine

/-! ## Small states -/

def bytesOf (l : List Nat) : List Byte := l.map (BitVec.ofNat 8)

/-- A small instance: blocks of at most 32 bytes, 48 bytes of window buffer, 40 bytes of input. -/
def small : Params := { maxBlock := 32, winCap := 48, inCap := 40, dict := none, admitDictMatch := true }

/-- A frame with W = 8 has begun, and the bytes are committed input. -/
def framed (bytes : List Nat) : State :=
  { State.resetWith small with fsm := .active, w := 8, inp := cellsFrom 0 (bytesOf bytes), iEnd := bytes.length }

/-- The forward reader stands at the first of the bytes. -/
def standing (bytes : List Nat) : State :=
  { framed bytes with dp := { Dp.idle with fr := frMake .inp 0 bytes.length } }

/-- What the readers see of the bytes. -/
def sourceOf (bytes : List Nat) : Source := source (framed bytes)

def failedState : State := { framed [] with fsm := .failed, result := .error, errKind := .corruption, errSite := .frOverrun }

/-- Output of 16 bytes in a window buffer of 16, W = 8, the first `w0` of them drained (95_test_vectors.md section 2.7). -/
def full (w0 : Nat) : State :=
  { State.resetWith { maxBlock := 8, winCap := 16, inCap := 16, dict := none, admitDictMatch := true } with
    fsm := .active, w := 8, win := cellsFrom 0 (bytesOf (List.range 16)), wStart := w0, wEnd := 16 }

/-- The dictionary of program P8 (95_test_vectors.md section 5). -/
def dictP8 : Dictionary :=
  { id := 7, content := bytesOf [0x78, 0x79, 0x7a], huf := none, fseLL := none, fseOF := none, fseML := none, rep := none }

def withDict (s : State) : State := { s with params := { s.params with dict := some dictP8 }, dictActive := true }

/-- The error an answer ends in, if it is a next state in FAILED. -/
def errorOf : Answer → Option Site
  | .next t => if t.fsm = .failed then some t.errSite else none
  | _ => none

/-- A function of the state an answer ends in, if it is a next state without an error. -/
def okOf {α : Type} (f : State → α) : Answer → Option α
  | .next t => if t.result = .ok then some (f t) else none
  | _ => none

def isNext : Answer → Bool
  | .next _ => true
  | _ => false

def windowOf (t : State) : List Nat := (winBytes t 0 t.wEnd).map BitVec.toNat
def literalsOf (t : State) : List Nat × Nat := (t.dp.lb.map BitVec.toNat, t.dp.fr.pos)

def okMicro {α : Type} : Micro α → Option α
  | .ok a => some a
  | .error _ => none

/-! ## Well-formedness: every check refuses an ill-formed instruction -/

theorem test_wf_refuses_reserved_bits :
    (Instr.frameBegin true 1 0 0).wf = false ∧ (Instr.frameBegin true 0 0 1).wf = false ∧
    (Instr.inputCommit true 0 0 0).wf = false ∧ (Instr.inputCommit false 64 0 0).wf = false ∧
    (Instr.outputCommit false 0 0 0x8000).wf = false ∧ (Instr.consume true 0 0 0).wf = false ∧
    (Instr.block false 1 0 0).wf = false := by decide

theorem test_wf_refuses_other_rows_words :
    (Instr.reservedOpcode 5 false 0 0 0).wf = false ∧ (Instr.seqCountShort 0).wf = false ∧
    (Instr.seqCountMedium 127).wf = false ∧ (Instr.seqModesReserved 0 5).wf = false := by decide

theorem test_wf_accepts :
    (Instr.frameBegin true 0 1024 0).wf = true ∧ (Instr.inputCommit false 0 11 0).wf = true ∧
    (Instr.reservedOpcode 6 true 127 0 1).wf = true ∧ (Instr.seqCountShort 1).wf = true ∧
    (Instr.seqCountMedium 126).wf = true ∧ (Instr.seqModesReserved 3 5).wf = true := by decide

/-! ## Decoding: a word of every row, from 30_encoding.md -/

/-- 30_encoding.md rules R301 to R303. -/
theorem test_decode_commands :
    decodeCmd 0xFFFF000000000100#64 = .reset 0xFFFF0000000001#56 ∧
    decodeCmd 0x0000000004000101#64 = .frameBegin true 0 1024 0 ∧
    decodeCmd 0x00000000000B0002#64 = .inputCommit false 0 11 0 ∧
    decodeCmd 0x0000000000080003#64 = .outputCommit false 0 8 0 ∧
    decodeCmd 0x0000000000060004#64 = .consume false 0 6 0 ∧
    decodeCmd 0x00000000004D0005#64 = .block false 0 0x4D 0 ∧
    decodeCmd 0x8001FFFF00010306#64 = .reservedOpcode 6 true 1 0xFFFF0001 0x8001 := by decide +kernel

/-- 30_encoding.md rules R310 and R311: 0x4D is a compressed block of 9 bytes, the last; 0x2B an RLE of 5, the last; 0x11 a Raw
of 2, the last. -/
theorem test_decode_block_headers :
    decode .blockHeader24 (bytesOf [0x11, 0, 0]) = .ok (.blkRaw true 2, []) ∧
    decode .blockHeader24 (bytesOf [0x2B, 0, 0]) = .ok (.blkRle true 5, []) ∧
    decode .blockHeader24 (bytesOf [0x4D, 0, 0]) = .ok (.blkCompressed true 9, []) ∧
    decode .blockHeader24 (bytesOf [0x06, 0, 0x80]) = .ok (.blkReserved false 0x100000, []) := by decide +kernel

/-- 30_encoding.md rules R320 to R322; the first bytes of 95_test_vectors.md section 2.5 among them. -/
theorem test_decode_literals :
    decodeSelector .literals 0x18 = .litRawSf02 3 ∧ decodeSelector .literals 0x08 = .litRawSf02 1 ∧
    decodeSelector .literals 0x14 = .litRawSf1 1 ∧ decodeSelector .literals 0xFC = .litRawSf3 15 ∧
    decodeSelector .literals 0x29 = .litRleSf02 5 ∧ decodeSelector .literals 0x15 = .litRleSf1 1 ∧
    decodeSelector .literals 0x0d = .litRleSf3 0 ∧ decodeSelector .literals 0x42 = .litCompressedSf0 4 ∧
    decodeSelector .literals 0x46 = .litCompressedSf1 4 ∧ decodeSelector .literals 0x4A = .litCompressedSf2 4 ∧
    decodeSelector .literals 0x4E = .litCompressedSf3 4 ∧ decodeSelector .literals 0x43 = .litTreelessSf0 4 ∧
    decodeSelector .literals 0x47 = .litTreelessSf1 4 ∧ decodeSelector .literals 0x4B = .litTreelessSf2 4 ∧
    decodeSelector .literals 0x4F = .litTreelessSf3 4 := by decide +kernel

/-- 30_encoding.md rules R323 and R331. -/
theorem test_decode_huffman_and_counts :
    decodeSelector .huffman 0x81 = .hufDirect 1 ∧ decodeSelector .huffman 0x04 = .hufFse 4 ∧
    decodeSelector .seqCount 0x00 = .seqCountZero ∧ decodeSelector .seqCount 0x7f = .seqCountShort 127 ∧
    decodeSelector .seqCount 0x80 = .seqCountMedium 0 ∧ decodeSelector .seqCount 0xfe = .seqCountMedium 126 ∧
    decodeSelector .seqCount 0xff = .seqCountLong := by decide +kernel

/-- 30_encoding.md rule R332: 0x54 is RLE in all three fields, 0xE4 has LL 3, OF 2, ML 1. -/
theorem test_decode_modes :
    decodeSelector (.seqModes .ll) 0x14 = .seqModeLlPredefined 0b0101 ∧
    decodeSelector (.seqModes .ll) 0x54 = .seqModeLlRle 0b0101 ∧
    decodeSelector (.seqModes .ll) 0x80 = .seqModeLlFse 0 ∧
    decodeSelector (.seqModes .ll) 0xE4 = .seqModeLlRepeat 0b1001 ∧
    decodeSelector (.seqModes .oft) 0x44 = .seqModeOfPredefined 0b0101 ∧
    decodeSelector (.seqModes .oft) 0x54 = .seqModeOfRle 0b0101 ∧
    decodeSelector (.seqModes .oft) 0xE4 = .seqModeOfFse 0b1101 ∧
    decodeSelector (.seqModes .oft) 0xF0 = .seqModeOfRepeat 0b1100 ∧
    decodeSelector (.seqModes .ml) 0x50 = .seqModeMlPredefined 0b0101 ∧
    decodeSelector (.seqModes .ml) 0xE4 = .seqModeMlRle 0b1110 ∧
    decodeSelector (.seqModes .ml) 0x08 = .seqModeMlFse 0 ∧
    decodeSelector (.seqModes .ml) 0xFC = .seqModeMlRepeat 0b1111 ∧
    decodeSelector (.seqModes .oft) 0x55 = .seqModesReserved 1 0b010101 := by decide +kernel

/-- The encoder lays the bytes out as 30_encoding.md rules R301 and R310 do. -/
theorem test_encode_bytes :
    encode (.block false 0 0x4D 0) = bytesOf [0x05, 0, 0x4D, 0, 0, 0, 0, 0] ∧
    encode (.blkCompressed true 9) = bytesOf [0x4D, 0, 0] ∧ encode (.litRleSf02 5) = bytesOf [0x29] ∧
    encode (.seqModeOfFse 0b1101) = bytesOf [0xE4] := by decide +kernel

/-! ## Bit readers (95_test_vectors.md sections 2.1, 2.2 and 1.5) -/

theorem test_forward_reads :
    (do
      let (a, fr) ← frReadBits (sourceOf [0xb4, 0x01]) (frMake .inp 0 2) 3
      let (b, fr) ← frReadBits (sourceOf [0xb4, 0x01]) fr 5
      let (c, fr) ← frReadBits (sourceOf [0xb4, 0x01]) fr 4
      return (a, b, c, fr.pos) : Micro _) = .ok (4, 22, 1, 12) ∧
    (frReadBits (sourceOf [0xb4, 0x01]) { frMake .inp 0 2 with pos := 12 } 5) = raise .frOverrun ∧
    frRewind { frMake .inp 0 2 with pos := 0 } 1 = raise .frRewind ∧
    frAlign { frMake .inp 0 1 with pos := 1 } = raise .frAlign ∧
    (frAlign { frMake .inp 0 2 with pos := 8 }).map Fr.pos = .ok 8 ∧
    (frReadLe (sourceOf [1, 2, 3, 4]) (frMake .inp 0 4) 4).map Prod.fst = .ok 0x04030201 := by decide +kernel

theorem test_backward_reads :
    brMake (sourceOf [0xe5, 0x05]) 0 2 = .ok { base := 0, len := 2, pos := 10 } ∧
    (do
      let (a, br) ← brReadNarrow (sourceOf [0xe5, 0x05]) { base := 0, len := 2, pos := 10 } 3
      let (b, br) ← brReadNarrow (sourceOf [0xe5, 0x05]) br 4
      let (c, br) ← brReadNarrow (sourceOf [0xe5, 0x05]) br 4
      let (d, br) ← brReadNarrow (sourceOf [0xe5, 0x05]) br 3
      return (a, b, c, d, br.pos) : Micro _) = .ok (3, 12, 10, 0, -4) ∧
    (brReadWide (sourceOf [0xff, 0xff, 0xff, 0x01]) { base := 0, len := 4, pos := 24 } 17).map Prod.fst = .ok 131071 ∧
    brReadNarrow (sourceOf [0xff, 0xff, 0xff, 0x01]) { base := 0, len := 4, pos := 24 } 17 = raise .brWidth ∧
    brMake (sourceOf [0xff, 0x00]) 0 2 = raise .brNoMarker := by decide +kernel

/-! ## Range-coded tables (95_test_vectors.md section 3) -/

/-- Section 3.1: the header `10 b3 65 00`, and entries of its table. -/
theorem test_fse_header :
    (fseReadDistribution (sourceOf [0x10, 0xb3, 0x65, 0x00]) (frMake .inp 0 4) 9).map (fun r => (r.1, r.2.1, r.2.2.pos)) =
      .ok ([16, 8, 4, 0, 0, 3, -1], 5, 24) ∧
    (fseReadHeader (sourceOf [0x10, 0xb3, 0x65, 0x00]) (frMake .inp 0 4) 9).map
        (fun r => [0, 3, 4, 9, 18, 23, 31].map (fseCell r.1)) =
      .ok [⟨0, 1, 0⟩, ⟨1, 2, 0⟩, ⟨2, 3, 0⟩, ⟨5, 4, 16⟩, ⟨5, 3, 0⟩, ⟨0, 1, 22⟩, ⟨6, 5, 0⟩] := by decide +kernel

/-- Section 3.2: two sentinels, a long run of zeros, entries of the table. -/
theorem test_fse_header_sentinels :
    (fseReadHeader (sourceOf [0xb0, 0xe2, 0x3a, 0x00, 0x25]) (frMake .inp 0 5) 9).map
        (fun r => ([0, 2, 18, 19, 25, 30, 31].map (fseCell r.1), r.2.pos)) =
      .ok ([⟨0, 2, 8⟩, ⟨6, 1, 8⟩, ⟨6, 0, 0⟩, ⟨0, 1, 0⟩, ⟨6, 0, 4⟩, ⟨8, 5, 0⟩, ⟨7, 5, 0⟩], 32) := by decide +kernel

/-- Sections 1.3 and 2.3: distributions that do not build, and headers that are not read. -/
theorem test_fse_errors :
    fseBuild [16, 8] 5 = raise .fseSum ∧ fseBuild (List.replicate 257 1) 5 = raise .fseNsym ∧
    fseBuild [1, 1] 16 = raise .fseAcc ∧
    fseReadHeader (sourceOf [0x10, 0xb3, 0x65]) (frMake .inp 0 3) 9 = raise .frOverrun ∧
    fseReadHeader (sourceOf [0x01, 0, 0, 0]) (frMake .inp 0 4) 5 = raise .fseHdrAcc := by decide +kernel

/-! Section 3.4: the predefined tables. -/

theorem test_predefined_ll :
    fsePredef .ll = { acc := 6, cells :=
      [⟨0, 4, 0⟩, ⟨0, 4, 16⟩, ⟨1, 5, 32⟩, ⟨3, 5, 0⟩, ⟨4, 5, 0⟩, ⟨6, 5, 0⟩, ⟨7, 5, 0⟩, ⟨9, 5, 0⟩] ++
      [⟨10, 5, 0⟩, ⟨12, 5, 0⟩, ⟨14, 6, 0⟩, ⟨16, 5, 0⟩, ⟨18, 5, 0⟩, ⟨19, 5, 0⟩, ⟨21, 5, 0⟩, ⟨22, 5, 0⟩] ++
      [⟨24, 5, 0⟩, ⟨25, 5, 32⟩, ⟨26, 5, 0⟩, ⟨27, 6, 0⟩, ⟨29, 6, 0⟩, ⟨31, 6, 0⟩, ⟨0, 4, 32⟩, ⟨1, 4, 0⟩] ++
      [⟨2, 5, 0⟩, ⟨4, 5, 32⟩, ⟨5, 5, 0⟩, ⟨7, 5, 32⟩, ⟨8, 5, 0⟩, ⟨10, 5, 32⟩, ⟨11, 5, 0⟩, ⟨13, 6, 0⟩] ++
      [⟨16, 5, 32⟩, ⟨17, 5, 0⟩, ⟨19, 5, 32⟩, ⟨20, 5, 0⟩, ⟨22, 5, 32⟩, ⟨23, 5, 0⟩, ⟨25, 4, 0⟩, ⟨25, 4, 16⟩] ++
      [⟨26, 5, 32⟩, ⟨28, 6, 0⟩, ⟨30, 6, 0⟩, ⟨0, 4, 48⟩, ⟨1, 4, 16⟩, ⟨2, 5, 32⟩, ⟨3, 5, 32⟩, ⟨5, 5, 32⟩] ++
      [⟨6, 5, 32⟩, ⟨8, 5, 32⟩, ⟨9, 5, 32⟩, ⟨11, 5, 32⟩, ⟨12, 5, 32⟩, ⟨15, 6, 0⟩, ⟨17, 5, 32⟩, ⟨18, 5, 32⟩] ++
      [⟨20, 5, 32⟩, ⟨21, 5, 32⟩, ⟨23, 5, 32⟩, ⟨24, 5, 32⟩, ⟨35, 6, 0⟩, ⟨34, 6, 0⟩, ⟨33, 6, 0⟩, ⟨32, 6, 0⟩] } := by decide +kernel

theorem test_predefined_oft :
    fsePredef .oft = { acc := 5, cells :=
      [⟨0, 5, 0⟩, ⟨6, 4, 0⟩, ⟨9, 5, 0⟩, ⟨15, 5, 0⟩, ⟨21, 5, 0⟩, ⟨3, 5, 0⟩, ⟨7, 4, 0⟩, ⟨12, 5, 0⟩] ++
      [⟨18, 5, 0⟩, ⟨23, 5, 0⟩, ⟨5, 5, 0⟩, ⟨8, 4, 0⟩, ⟨14, 5, 0⟩, ⟨20, 5, 0⟩, ⟨2, 5, 0⟩, ⟨7, 4, 16⟩] ++
      [⟨11, 5, 0⟩, ⟨17, 5, 0⟩, ⟨22, 5, 0⟩, ⟨4, 5, 0⟩, ⟨8, 4, 16⟩, ⟨13, 5, 0⟩, ⟨19, 5, 0⟩, ⟨1, 5, 0⟩] ++
      [⟨6, 4, 16⟩, ⟨10, 5, 0⟩, ⟨16, 5, 0⟩, ⟨28, 5, 0⟩, ⟨27, 5, 0⟩, ⟨26, 5, 0⟩, ⟨25, 5, 0⟩, ⟨24, 5, 0⟩] } := by decide +kernel

theorem test_predefined_ml :
    fsePredef .ml = { acc := 6, cells :=
      [⟨0, 6, 0⟩, ⟨1, 4, 0⟩, ⟨2, 5, 32⟩, ⟨3, 5, 0⟩, ⟨5, 5, 0⟩, ⟨6, 5, 0⟩, ⟨8, 5, 0⟩, ⟨10, 6, 0⟩] ++
      [⟨13, 6, 0⟩, ⟨16, 6, 0⟩, ⟨19, 6, 0⟩, ⟨22, 6, 0⟩, ⟨25, 6, 0⟩, ⟨28, 6, 0⟩, ⟨31, 6, 0⟩, ⟨33, 6, 0⟩] ++
      [⟨35, 6, 0⟩, ⟨37, 6, 0⟩, ⟨39, 6, 0⟩, ⟨41, 6, 0⟩, ⟨43, 6, 0⟩, ⟨45, 6, 0⟩, ⟨1, 4, 16⟩, ⟨2, 4, 0⟩] ++
      [⟨3, 5, 32⟩, ⟨4, 5, 0⟩, ⟨6, 5, 32⟩, ⟨7, 5, 0⟩, ⟨9, 6, 0⟩, ⟨12, 6, 0⟩, ⟨15, 6, 0⟩, ⟨18, 6, 0⟩] ++
      [⟨21, 6, 0⟩, ⟨24, 6, 0⟩, ⟨27, 6, 0⟩, ⟨30, 6, 0⟩, ⟨32, 6, 0⟩, ⟨34, 6, 0⟩, ⟨36, 6, 0⟩, ⟨38, 6, 0⟩] ++
      [⟨40, 6, 0⟩, ⟨42, 6, 0⟩, ⟨44, 6, 0⟩, ⟨1, 4, 32⟩, ⟨1, 4, 48⟩, ⟨2, 4, 16⟩, ⟨4, 5, 32⟩, ⟨5, 5, 32⟩] ++
      [⟨7, 5, 32⟩, ⟨8, 5, 32⟩, ⟨11, 6, 0⟩, ⟨14, 6, 0⟩, ⟨17, 6, 0⟩, ⟨20, 6, 0⟩, ⟨23, 6, 0⟩, ⟨26, 6, 0⟩] ++
      [⟨29, 6, 0⟩, ⟨52, 6, 0⟩, ⟨51, 6, 0⟩, ⟨50, 6, 0⟩, ⟨49, 6, 0⟩, ⟨48, 6, 0⟩, ⟨47, 6, 0⟩, ⟨46, 6, 0⟩] } := by decide +kernel

/-! ## Prefix codes, literals, sequences (95_test_vectors.md sections 2.4 to 2.6) -/

theorem test_huf_build :
    (hufBuild [2, 1]).map (fun r => (r.1, r.2.maxl, r.2.cells)) = .ok ([2, 1, 1], 2, [⟨1, 2⟩, ⟨2, 2⟩, ⟨0, 1⟩, ⟨0, 1⟩]) ∧
    (hufBuild [3, 1, 1]).map (fun r => (r.2.maxl, r.2.cells.map HufCell.sym, r.2.cells.map HufCell.nb)) =
      .ok (3, [1, 2, 3, 3, 0, 0, 0, 0], [3, 3, 2, 2, 1, 1, 1, 1]) ∧
    (hufBuild [2, 0]).map (fun r => r.2.cells) = .ok [⟨0, 1⟩, ⟨2, 1⟩] := by decide +kernel

theorem test_huf_errors :
    hufBuild [0, 0] = raise .hufNoweight ∧ hufBuild [17] = raise .hufWeight ∧
    hufBuild (List.replicate 256 1) = raise .hufNweights ∧ hufBuild [2, 2, 1] = raise .hufLeftover ∧
    hufBuild [16, 16, 16, 15, 14, 13, 12, 11, 10, 9, 8, 7, 6, 5, 4, 3, 2, 1] = raise .hufMaxlen := by decide +kernel

/-- The stream `63` with the table of `81 21`, and its errors. -/
theorem test_huf_stream :
    let t : HufTable := { maxl := 2, cells := [⟨1, 2⟩, ⟨2, 2⟩, ⟨0, 1⟩, ⟨0, 1⟩] }
    let run := fun b cap => do
      let br ← brMake (sourceOf [b]) 0 1
      hufStream (sourceOf [b]) t br cap []
    (run 0x63 100).map (fun r => (r.lits.reverse.map BitVec.toNat, r.br.pos)) = .ok ([0, 1, 2, 0], -2) ∧
    (run 0x01 100).map (fun r => r.lits) = .ok [] ∧
    run 0x02 100 = raise .hufEnd ∧ run 0x63 3 = raise .litCount := by decide +kernel

theorem test_lit_raw_rows :
    okOf literalsOf (exec (.litRawSf02 3) (standing [0x61, 0x62, 0x63])) = some ([0x61, 0x62, 0x63], 24) ∧
    okOf literalsOf (exec (.litRawSf1 1) (standing [0x00, 0x41])) = some ([0x41], 16) ∧
    okOf literalsOf (exec (.litRawSf3 1) (standing [0, 0, 0x41])) = some ([0x41], 24) ∧
    errorOf (exec (.litRawSf02 3) (standing [0x61])) = some .frOverrun ∧
    errorOf (exec (.litRawSf3 0) (standing [0x00, 0x01])) = some .litSize := by decide +kernel

theorem test_lit_rle_rows :
    okOf literalsOf (exec (.litRleSf02 5) (standing [0x7a])) = some ([0x7a, 0x7a, 0x7a, 0x7a, 0x7a], 8) ∧
    okOf literalsOf (exec (.litRleSf1 1) (standing [0x01, 0x7a])) = some (List.replicate 17 0x7a, 16) ∧
    okOf literalsOf (exec (.litRleSf3 0) (standing [0x00, 0x00, 0x7a])) = some ([], 24) := by decide +kernel

theorem test_lit_compressed_rows :
    okOf literalsOf (exec (.litCompressedSf0 4) (standing [0xc0, 0x00, 0x81, 0x21, 0x63])) = some ([0, 1, 2, 0], 40) ∧
    okOf literalsOf (exec (.litCompressedSf0 4) (standing [0x80, 0x01, 0x04, 0x90, 0xee, 0x03, 0xff, 0x63])) =
      some ([0, 1, 2, 0], 64) ∧
    okOf literalsOf (exec (.litCompressedSf1 4) (standing [0x00, 0x03, 0x81, 0x21, 1, 0, 1, 0, 1, 0, 3, 3, 3, 3])) =
      some ([0, 0, 0, 0], 112) ∧
    errorOf (exec (.litCompressedSf1 4) (standing [0x00, 0x03, 0x81, 0x21, 5, 0, 1, 0, 1, 0, 3, 3, 3, 3])) = some .frOverrun ∧
    errorOf (exec (.litCompressedSf0 5) (standing [0xc0, 0x00, 0x81, 0x21, 0x63])) = some .litCount ∧
    errorOf (exec (.litCompressedSf0 4) (standing [0xc0, 0x00, 0x81, 0x21, 0x62])) = some .hufEnd := by decide +kernel

/-- The sections of the 14-bit and 18-bit forms, laid out by 30_encoding.md rule R322: regenerated size 4, compressed size 12. -/
theorem test_lit_compressed_wide_rows :
    okOf literalsOf (exec (.litCompressedSf2 4) (standing [0x00, 0x30, 0x00, 0x81, 0x21, 1, 0, 1, 0, 1, 0, 3, 3, 3, 3])) =
      some ([0, 0, 0, 0], 120) ∧
    okOf literalsOf (exec (.litCompressedSf3 4) (standing [0x00, 0x00, 0x03, 0x00, 0x81, 0x21, 1, 0, 1, 0, 1, 0, 3, 3, 3, 3])) =
      some ([0, 0, 0, 0], 128) := by decide +kernel

def withPrevHuf (s : State) : State :=
  { s with prevHuf := some { maxl := 2, cells := [⟨1, 2⟩, ⟨2, 2⟩, ⟨0, 1⟩, ⟨0, 1⟩] } }

theorem test_lit_treeless_rows :
    okOf literalsOf (exec (.litTreelessSf0 4) (withPrevHuf (standing [0x40, 0x00, 0x63]))) = some ([0, 1, 2, 0], 24) ∧
    errorOf (exec (.litTreelessSf0 4) (standing [0x40, 0x00, 0x63])) = some .litNoTable ∧
    okOf literalsOf (exec (.litTreelessSf1 4) (withPrevHuf (standing [0x80, 0x02, 1, 0, 1, 0, 1, 0, 3, 3, 3, 3]))) =
      some ([0, 0, 0, 0], 96) ∧
    okOf literalsOf (exec (.litTreelessSf2 4) (withPrevHuf (standing [0x00, 0x28, 0x00, 1, 0, 1, 0, 1, 0, 3, 3, 3, 3]))) =
      some ([0, 0, 0, 0], 104) ∧
    okOf literalsOf (exec (.litTreelessSf3 4) (withPrevHuf (standing [0x00, 0x80, 0x02, 0x00, 1, 0, 1, 0, 1, 0, 3, 3, 3, 3]))) =
      some ([0, 0, 0, 0], 112) := by decide +kernel

theorem test_huffman_rows :
    okOf (fun t => (t.dp.hw, t.dp.nW, t.dp.fr.pos)) (exec (.hufDirect 1) (standing [0x21])) = some ([2, 1, 1], 2, 8) ∧
    okOf (fun t => (t.dp.hw, t.dp.nW, t.dp.fr.pos)) (exec (.hufFse 4) (standing [0x90, 0xee, 0x03, 0xff])) =
      some ([2, 1, 1], 2, 32) ∧
    errorOf (exec (.hufFse 4) (standing [0x90, 0xee, 0x03, 0x01])) = some .hufNoweight := by decide +kernel

theorem test_seq_count_rows :
    okOf (fun t => (t.dp.nSeq, t.dp.fr.pos)) (exec .seqCountZero (standing [])) = some (0, 0) ∧
    errorOf (exec .seqCountZero (standing [0x01])) = some .seqTrailing ∧
    okOf (fun t => (t.dp.nSeq, t.dp.fr.pos)) (exec (.seqCountShort 127) (standing [])) = some (127, 0) ∧
    okOf (fun t => (t.dp.nSeq, t.dp.fr.pos)) (exec (.seqCountMedium 1) (standing [0x05])) = some (261, 8) ∧
    okOf (fun t => (t.dp.nSeq, t.dp.fr.pos)) (exec (.seqCountMedium 126) (standing [0xff])) = some (32511, 8) ∧
    okOf (fun t => (t.dp.nSeq, t.dp.fr.pos)) (exec .seqCountLong (standing [0xff, 0xff])) = some (98047, 16) := by decide +kernel

/-- The RLE rows of all three fields; a Repeat row without a previous table; reserved bits. -/
theorem test_seq_mode_rows :
    okOf (fun t => (t.prevFse.ll, t.dp.tLL, t.dp.fr.pos)) (exec (.seqModeLlRle 0b0101) (standing [0x04])) =
      some (some (fseBuildRle 4), some (fseBuildRle 4), 8) ∧
    okOf (fun t => (t.prevFse.oft, t.dp.tOF)) (exec (.seqModeOfRle 0) (standing [0x21])) =
      some (some (fseBuildRle 33), some (fseBuildRle 33)) ∧
    okOf (fun t => (t.prevFse.ml, t.dp.tML)) (exec (.seqModeMlRle 0) (standing [0xff])) =
      some (some (fseBuildRle 255), some (fseBuildRle 255)) ∧
    errorOf (exec (.seqModeLlRepeat 0) (standing [])) = some .seqNoTable ∧
    errorOf (exec (.seqModeOfRepeat 0) (standing [])) = some .seqNoTable ∧
    errorOf (exec (.seqModeMlRepeat 0) (standing [])) = some .seqNoTable ∧
    errorOf (exec (.seqModesReserved 1 0) (standing [])) = some .seqModes := by decide +kernel

/-- The predefined rows take the field's own ROM table, the FSE rows read one: `10 b3 65 00` has accuracy 5. -/
theorem test_seq_mode_table_rows :
    okOf (fun t => t.prevFse.ll.map FseTable.acc) (exec (.seqModeLlPredefined 0) (standing [])) = some (some 6) ∧
    okOf (fun t => t.prevFse.oft.map FseTable.acc) (exec (.seqModeOfPredefined 0) (standing [])) = some (some 5) ∧
    okOf (fun t => t.prevFse.ml.map FseTable.acc) (exec (.seqModeMlPredefined 0) (standing [])) = some (some 6) ∧
    okOf (fun t => (t.prevFse.ll.map FseTable.acc, t.dp.fr.pos)) (exec (.seqModeLlFse 0) (standing [0x10, 0xb3, 0x65, 0x00])) =
      some (some 5, 24) ∧
    okOf (fun t => (t.prevFse.oft.map FseTable.acc, t.dp.fr.pos)) (exec (.seqModeOfFse 0) (standing [0x10, 0xb3, 0x65, 0x00])) =
      some (some 5, 24) ∧
    okOf (fun t => (t.prevFse.ml.map FseTable.acc, t.dp.fr.pos)) (exec (.seqModeMlFse 0) (standing [0x10, 0xb3, 0x65, 0x00])) =
      some (some 5, 24) := by decide +kernel

/-- Sections of section 2.6. -/
theorem test_seq_sections :
    okMicro ((seqSection (standing [0x02, 0x00, 0x2e, 0x08, 0x03, 0x37, 0x04])).map (fun t => t.dp.sb)) =
      some [⟨3, 4, 6⟩, ⟨1, 3, 2⟩] ∧
    okMicro ((seqSection (standing [0x01, 0x54, 0x00, 0x00, 0x01, 0x01])).map (fun t => t.dp.sb)) = some [⟨0, 4, 1⟩] ∧
    seqSection (standing [0x01, 0x00, 0x0e, 0x6e, 0x09]) = raise .seqEnd ∧
    seqSection (standing [0x01, 0x40, 0x24, 0x01]) = raise .seqLlCode ∧
    seqSection (standing [0x01, 0x04, 0x35, 0x01]) = raise .seqMlCode ∧
    seqSection (standing [0x01, 0x54, 0x00, 0x21, 0x01, 0x01]) = raise .brWidth := by decide +kernel

/-- The chain of section 2.6 from REP = [1, 4, 8], and the wrap of `REP[0] - 1` below 0 (44_sequences.md rule R622). -/
theorem test_seq_resolve :
    seqResolve 1 0 ⟨1, 4, 8⟩ = (4, ⟨4, 1, 8⟩) ∧ seqResolve 2 5 ⟨4, 1, 8⟩ = (1, ⟨1, 4, 8⟩) ∧
    seqResolve 3 5 ⟨1, 4, 8⟩ = (8, ⟨8, 1, 4⟩) ∧ seqResolve 3 0 ⟨8, 1, 4⟩ = (7, ⟨7, 8, 1⟩) ∧
    seqResolve 10 2 ⟨7, 8, 1⟩ = (7, ⟨7, 7, 8⟩) ∧ seqResolve 2 0 ⟨7, 7, 8⟩ = (8, ⟨8, 7, 7⟩) ∧
    (seqResolve 3 0 ⟨0, 4, 8⟩).1.toInt = -1 := by decide +kernel

/-! ## Blocks (95_test_vectors.md sections 2.7 and 5) -/

theorem test_block_raw_and_rle :
    okOf (fun t => (windowOf t, t.iEnd, t.fsm)) (exec (.blkRaw true 2) (framed [0x41, 0x42])) = some ([0x41, 0x42], 0, .done) ∧
    okOf (fun t => (windowOf t, t.iEnd, t.fsm)) (exec (.blkRle false 5) (framed [0x7a, 0x11])) =
      some ([0x7a, 0x7a, 0x7a, 0x7a, 0x7a], 1, .active) := by decide +kernel

/-- Program P3, program Voverlap. -/
theorem test_block_compressed :
    okOf (fun t => (windowOf t, t.rep)) (exec (.blkCompressed true 9) (framed [0x18, 0x61, 0x62, 0x63, 0x01, 0x00, 0x0e, 0x6e, 0x08])) =
      some ([0x61, 0x62, 0x63, 0x61, 0x62, 0x63, 0x61, 0x62, 0x63], ⟨3, 1, 4⟩) ∧
    okOf windowOf (exec (.blkCompressed true 7) (framed [0x08, 0x78, 0x01, 0x00, 0x6c, 0x4e, 0x08])) =
      some (List.replicate 11 0x78) := by decide +kernel

/-- Program P8 and its counterpart without a dictionary. -/
theorem test_block_dictionary :
    okOf windowOf (exec (.block false 0 0x3d 0) (withDict (framed [0x08, 0x78, 0x01, 0x00, 0x6f, 0x4e, 0x08]))) =
      some [0x78, 0x78, 0x79, 0x7a, 0x78, 0x78, 0x79, 0x7a, 0x78, 0x78, 0x79] ∧
    errorOf (exec (.block false 0 0x3d 0) (framed [0x08, 0x78, 0x01, 0x00, 0x6f, 0x4e, 0x08])) = some .offsetRange := by
  decide +kernel

theorem test_block_errors :
    errorOf (exec (.block false 0 0x07 0) (framed [])) = some .blkKind ∧
    errorOf (exec (.blkReserved true 0) (framed [])) = some .blkKind ∧
    errorOf (exec (.block false 0 0x01000001 0) (framed [])) = some .blkOperand ∧
    errorOf (exec (.block false 0 0x108 0) (framed [])) = some .blkSize ∧
    errorOf (exec (.block false 0 1 0) (State.resetWith small)) = some .illegalCmd ∧
    errorOf (exec (.blkCompressed true 10) (framed [0x18, 0x61, 0x62, 0x63, 0x01, 0x54, 0x04, 0x00, 0x01, 0x01])) =
      some .seqLitOverrun := by decide +kernel

/-- Section 2.7: TRYFLUSH with WIN_CAP = 16 and W = 8. -/
theorem test_try_flush :
    (tryFlush 4 (full 0)).isNone = true ∧ (tryFlush 4 (full 2)).isNone = true ∧
    (tryFlush 4 (full 16)).map (fun t => (t.wStart, t.wEnd, t.drained)) = some (8, 8, 8) ∧
    (tryFlush 4 (full 4)).map (fun t => (t.wStart, t.wEnd, t.drained)) = some (0, 12, 4) ∧
    (tryFlush 8 (full 10)).map (fun t => (t.wStart, t.wEnd, t.drained, windowOf t)) =
      some (2, 8, 8, [8, 9, 10, 11, 12, 13, 14, 15]) := by decide +kernel

/-! ## Commands and the host (95_test_vectors.md sections 2.8 and 2.10) -/

theorem test_frame_begin :
    okOf (fun t => (t.fsm, t.w, statusImage t)) (exec (.frameBegin false 0 1024 0) State.reset) = some (.active, 1024, 0x010) ∧
    okOf (fun t => t.w) (exec (.frameBegin false 0 8388608 0) State.reset) = some 8388608 ∧
    errorOf (exec (.frameBegin false 0 8388609 0) State.reset) = some .fbWindow ∧
    errorOf (exec (.frameBegin false 0 17 0) (State.resetWith small)) = some .fbCap ∧
    errorOf (exec (.frameBegin true 0 1024 0) State.reset) = some .fbNoDict := by decide +kernel

theorem test_buffer_commands :
    errorOf (exec (.inputCommit false 0 131081 0) State.reset) = some .inCommit ∧
    okOf (fun t => t.iEnd) (exec (.inputCommit false 0 131080 0) State.reset) = some 131080 ∧
    errorOf (exec (.outputCommit false 0 1 0) State.reset) = some .outCommit ∧
    okOf (fun t => (t.wStart, t.wEnd)) (exec (.outputCommit false 0 16 0) (full 0)) = some (16, 16) ∧
    errorOf (exec (.consume false 0 1 0) State.reset) = some .consume ∧
    okOf (fun t => (t.iEnd, (inByte t 0).toNat)) (exec (.consume false 0 2 0) (framed [1, 2, 3])) = some (1, 3) := by decide +kernel

/-- Reserved bits, the FAILED gate, RESET whatever its other bits. -/
theorem test_dispatch_rules :
    errorOf (exec (decodeCmd 0x0000000000000202) State.reset) = some .cmdReserved ∧
    errorOf (exec (decodeCmd 0x0001000000000002) State.reset) = some .cmdReserved ∧
    errorOf (exec (decodeCmd 0x0000000000000006) State.reset) = some .illegalCmd ∧
    errorOf (exec (decodeCmd 0x0000000000010005) failedState) = some .frOverrun ∧
    errorOf (exec (decodeCmd 0x0000000000000006) failedState) = some .frOverrun ∧
    okOf (fun t => (t.fsm, statusImage t, errImage t)) (exec (decodeCmd 0xFFFF000000000100) failedState) = some (.idle, 0, 0) := by
  decide +kernel

/-- Section 2.8: ERR 0x6702 after a reserved bit; 10_state.md rule R118 for the parameters. -/
theorem test_csr_reads :
    okOf (fun t => csrBytes t 0x0C 4) (exec (decodeCmd 0x0000000004000001) State.reset) = some (bytesOf [0, 0, 0, 0]) ∧
    (match exec (decodeCmd 0x202) State.reset with | .next t => csrBytes t 0x0C 4 | _ => []) = bytesOf [0x02, 0x67, 0, 0] ∧
    csrBytes State.reset 0x50 4 = bytesOf [0x00, 0x00, 0x82, 0x00] ∧ csrBytes State.reset 0x40 8 = bytesOf [4, 0, 0, 0, 0, 0, 0, 0] := by
  decide +kernel

/-- Steps: a command word, a block header of program P1 and a selector byte, each placed for the next step. -/
theorem test_steps :
    okOf (fun t => (t.fsm, t.host)) (step (State.reset.withFetchWord 64 0x04000001)) = some (.active, []) ∧
    errorOf (step (State.reset.withFetchWord 24 0x11)) = some .illegalCmd ∧
    okOf (fun t => (windowOf t, t.host)) (step ((framed [0x41, 0x42]).withFetchWord 24 0x11)) = some ([0x41, 0x42], []) ∧
    okOf (fun t => (t.prevFse.ll, t.wire)) (step (State.reset.withFetchWord 8 0x40)) = some (some (fseBuildRle 0), none) := by
  decide +kernel

/-! ## Witnesses: for each statement with hypotheses, a state and operands that meet them, clause by clause -/

theorem exists_ok {α : Type} {x : Micro α} (p : α → Prop) [DecidablePred p]
    (h : (match x with | .ok a => decide (p a) | .error _ => false) = true) : ∃ a, x = .ok a ∧ p a := by
  cases x with
  | ok a => exact ⟨a, rfl, by simpa using h⟩
  | error e => simp at h

theorem exists_next {x : Answer} (p : State → Prop) [DecidablePred p]
    (h : (match x with | .next t => decide (p t) | _ => false) = true) : ∃ t, x = .next t ∧ p t := by
  cases x with
  | next t => exact ⟨t, rfl, by simpa using h⟩
  | fault f => simp at h
  | refused r => simp at h

theorem exists_ok₂ {α β : Type} {x : Micro α} {f : α → Micro β} (p : α → β → Prop) [∀ a, DecidablePred (p a)]
    (h : (match x with
      | .ok a => (match f a with | .ok b => decide (p a b) | .error _ => false)
      | .error _ => false) = true) :
    ∃ a b, x = .ok a ∧ f a = .ok b ∧ p a b := by
  cases x with
  | ok a =>
    dsimp only at h
    cases hf : f a with
    | ok b => exact ⟨a, b, rfl, hf, by simpa [hf] using h⟩
    | error e => simp [hf] at h
  | error e => simp at h

theorem witness_reset_inv : State.reset.Inv := by
  constructor
  case winListed => intro a; simp [State.reset, State.resetWith]
  case dict => intro h; exact absurd h (by decide)
  all_goals decide

theorem witness_framed_inv : (framed [0x10, 0x41, 0x42, 0x00, 0x7a]).Inv := by
  constructor
  case winListed => intro a; simp [framed, State.resetWith]
  case dict => intro h; exact absurd h (by decide)
  all_goals decide

/-- A full window buffer, drained up to `w0`. -/
theorem witness_full_inv (w0 : Nat) (h : w0 ≤ 16) : (full w0).Inv := by
  constructor
  case winListed =>
    intro a
    have hc : ∀ (l : List Byte) (b : Nat), (Memory.get (cellsFrom b l) a).isSome = true ↔ b ≤ a ∧ a < b + l.length := by
      intro l
      induction l with
      | nil => intro b; simp [cellsFrom]
      | cons v l ih =>
        intro b
        simp only [cellsFrom, Memory.get, List.length_cons]
        split
        · simp only [Option.isSome_some, true_iff]; omega
        · rw [ih]; omega
    have := hc (bytesOf (List.range 16)) 0
    simpa [full, bytesOf] using this
  case dict => intro h'; exact absurd h' (by simp [full, State.resetWith])
  case outOrder => exact h
  case retained => simp [full, State.resetWith]
  all_goals first | decide | (simp [full, State.resetWith] <;> decide)

/-- EncodingRoundTrips: well-formed instructions at the ends of their ranges; words of each length; short bytes. -/
theorem witness_EncodingRoundTrips :
    (Instr.seqCountMedium 126).wf = true ∧ (Instr.reservedOpcode 255 true 127 0 0xFFFF).wf = true ∧
    (Instr.seqModesReserved 3 63).wf = true ∧ (bytesOf [0, 0, 0xFF]).length = formatBytes .blockHeader24 ∧
    (bytesOf [0xFF]).length = formatBytes (.selector .huffman) ∧ ([] : List Byte).length < formatBytes (.selector .literals) ∧
    (bytesOf [1, 2, 3, 4, 5, 6, 7]).length < formatBytes .cmd64 := by decide

/-- CommandFieldsAtTheirBits: an opcode of each clause, at the ends of the reserved ones. -/
theorem witness_CommandFieldsAtTheirBits :
    (0xFFFFFFFFFFFFFF00#64).toNat % 2 ^ 8 = 0 ∧ (0x101#64).toNat % 2 ^ 8 = 1 ∧ (0x2#64).toNat % 2 ^ 8 = 2 ∧
    (0x3#64).toNat % 2 ^ 8 = 3 ∧ (0x4#64).toNat % 2 ^ 8 = 4 ∧ (0x5#64).toNat % 2 ^ 8 = 5 ∧ 6 ≤ (0x6#64).toNat % 2 ^ 8 ∧
    6 ≤ (0xFF#64).toNat % 2 ^ 8 := by decide

/-- BlockHeaderFields: a header of each kind, sizes 0 and 2^21 - 1. -/
theorem witness_BlockHeaderFields :
    let h := fun (a b c : Byte) => a.toNat + b.toNat * 2 ^ 8 + c.toNat * 2 ^ 16
    h 1 0 0 / 2 % 4 = 0 ∧ h 2 0 0 / 2 % 4 = 1 ∧ h 0xFD 0xFF 0xFF / 2 % 4 = 2 ∧ h 0xFF 0xFF 0xFF / 2 % 4 = 3 := by decide

def atCommand (v : Word64) : State := { State.reset with host := [.csrWrite 0 8 v] }
def atSelector (k : Selector) (bytes : List Nat) (pos : Nat) : State :=
  { standing bytes with wire := some k, dp := { Dp.idle with fr := { frMake .inp 0 bytes.length with pos := pos } } }

/-- StepRunsTheDecodedInstruction: a command; a selector byte that is the last of its range; none left, and unaligned. -/
theorem witness_StepRunsTheDecodedInstruction :
    ((atCommand 1).wire = none ∧ (atCommand 1).host = [.csrWrite 0 8 1] ∧
      decode .cmd64 (leBytes 8 (1#64).toNat) = .ok (.frameBegin false 0 0 0, [])) ∧
    ((atSelector .huffman [0, 0x81] 8).wire = some .huffman ∧ hasBytes (atSelector .huffman [0, 0x81] 8) 1 ∧
      decode (.selector .huffman) [nextByte (atSelector .huffman [0, 0x81] 8) 0] = .ok (.hufDirect 1, [])) ∧
    ¬ hasBytes (atSelector .huffman [0, 0x81] 16) 1 ∧ ¬ hasBytes (atSelector .huffman [0, 0x81] 4) 1 := by
  refine ⟨⟨rfl, rfl, rfl⟩, ⟨rfl, ⟨by decide, by decide⟩, rfl⟩, ?_, ?_⟩ <;> simp [hasBytes] <;> decide

theorem witness_EngineHoldsItsStateBetweenCommands : State.reset.wire = none ∧ State.reset.host = [] := by decide

/-- HostAccessesHaveNoSideEffect: the last CSR, a CMD write of half its width, a write that fills IN, a read to the end of WIN. -/
theorem witness_HostAccessesHaveNoSideEffect :
    (255 < 256 ∧ csrAligned 255 1 = true) ∧ (0 < 256 ∧ csrAligned 0 4 = true ∧ ¬(0 = 0 ∧ 4 = 8)) ∧
    ((framed []).iEnd ≤ 0 ∧ 0 + (List.replicate 40 (0#8)).length ≤ (framed []).params.inCap ∧
      Memory.wf (framed []).inp = true) ∧
    16 + 32 ≤ (framed []).params.winCap := by decide

/-- HostViolationsAreRefused: each clause at its first value. -/
theorem witness_HostViolationsAreRefused :
    csrAligned 4 8 = false ∧ csrAligned 0 3 = false ∧ (framed [1]).params.inCap < 40 + ([0#8]).length ∧
    (0 + ([0#8]).length ≤ (framed [1]).params.inCap ∧ 0 < (framed [1]).iEnd ∧ [0#8] ≠ []) ∧
    (framed []).params.inCap < 0 + 41 ∧ 0 + 40 ≤ (framed []).params.inCap ∧ (framed []).params.winCap < 48 + 1 ∧
    (framed []).params.winCap < 47 + (List.replicate 2 (0#8)).length ∧
    47 + ([0#8]).length ≤ (framed []).params.winCap := by decide

/-- CsrReadsGiveTheRegisters: the first and the last byte of each gap. -/
theorem witness_CsrReadsGiveTheRegisters :
    ∀ a ∈ [0, 7, 0x1C, 0x1F, 0x34, 0x37, 0x5C, 0xFF],
      a < 0x08 ∨ (0x1C ≤ a ∧ a < 0x20) ∨ (0x34 ≤ a ∧ a < 0x38) ∨ 0x5C ≤ a := by decide

theorem witness_ResetLeavesTheResetValues : ∃ u ignored s, exec (.reset ignored) u = .next s :=
  ⟨failedState, 0, resetState failedState, rfl⟩

/-- FrameBeginStartsFrame: the largest window that fits, the first that does not, the first above the maximum. -/
theorem witness_FrameBeginStartsFrame :
    ((8388608#32).toNat ≤ 8388608 ∧ (8388608#32).toNat + State.reset.params.maxBlock ≤ State.reset.params.winCap) ∧
    ((16#32).toNat + small.maxBlock ≤ small.winCap ∧ (withDict (framed [])).params.dict = some dictP8 ∧
      dictInDomain dictP8 = true) ∧
    8388608 < (8388609#32).toNat ∧ ((17#32).toNat ≤ 8388608 ∧ small.winCap < (17#32).toNat + small.maxBlock) ∧
    small.dict = none := by decide +kernel

/-- BufferCommitsMoveTheirCursor and ConsumeMovesInputToTheFront: the largest count, and one more. -/
theorem witness_BufferCommitsMoveTheirCursor :
    ((framed [1, 2]).iEnd ≤ small.inCap ∧ (38#32).toNat ≤ small.inCap - (framed [1, 2]).iEnd) ∧
    small.inCap - (framed [1, 2]).iEnd < (39#32).toNat ∧
    ((full 4).wStart ≤ (full 4).wEnd ∧ (12#32).toNat ≤ (full 4).wEnd - (full 4).wStart) ∧
    (full 4).wEnd - (full 4).wStart < (13#32).toNat := by decide

theorem witness_ConsumeMovesInputToTheFront :
    (2#32).toNat ≤ (framed [1, 2]).iEnd ∧ (framed [1, 2]).iEnd < (3#32).toNat := by decide

/-- ReservedCommandBitsRaise: each reserved bit field, in FAILED for a command that runs there. -/
theorem witness_ReservedCommandBitsRaise :
    (cmdOp 0x8000000000000006 ≠ 0#8 ∧ (framed []).fsm ≠ .failed ∧ (0x8000000000000006#64).extractLsb' 48 16 ≠ 0) ∧
    (failedState.fsm = .failed ∧ cmdOp 0x202 = 2#8 ∧ (0x202#64).extractLsb' 9 7 ≠ 0) ∧
    ((0x105#64).getLsbD 8 = true ∧ cmdOp 0x105 ≠ 1#8 ∧ cmdOp 0x105 ≠ 0#8) := by decide

theorem witness_FailedGateAndReservedOpcodes :
    (failedState.fsm = .failed ∧ 5 ≤ (cmdOp 5).toNat ∧ 5 ≤ (cmdOp 0x3FF).toNat) ∧ State.reset.fsm ≠ .failed ∧
    6 ≤ (6#8).toNat := by decide

theorem witness_CommandsEndWithOneResult :
    (∃ t, exec (decodeCmd 0x110005) (framed [0x41]) = .next t ∧ t.result = .notYet) ∧
    (∃ t, exec (decodeCmd 0x90005) (framed [0x41]) = .next t ∧ t.result = .ok) ∧
    ∃ t, exec (decodeCmd 0x70005) (framed [0x41]) = .next t ∧ t.result = .error :=
  ⟨exists_next _ (by decide +kernel), exists_next _ (by decide +kernel), exists_next _ (by decide +kernel)⟩

theorem witness_FrameStateWriters :
    (∃ t, exec (decodeCmd 0x90005) (framed [0x41]) = .next t ∧ cmdOp 0x90005 = 5#8 ∧ t.result = .ok ∧
      (0x90005#64).getLsbD 16 = true) ∧
    (∃ t, exec (decodeCmd 0x20001) (framed [0x41]) = .next t ∧ cmdOp 0x20001 = 1#8 ∧ t.result = .ok ∧ t.w ≠ (framed [0x41]).w) ∧
    (∃ t, exec (decodeCmd 0) failedState = .next t ∧ cmdOp 0 = 0#8) ∧
    ∃ t, exec (decodeCmd 0xFF) (framed [0x41]) = .next t ∧ t.result = .error ∧ t.fsm ≠ (framed [0x41]).fsm :=
  ⟨exists_next _ (by decide +kernel), exists_next _ (by decide +kernel), exists_next _ (by decide +kernel),
    exists_next _ (by decide +kernel)⟩

theorem witness_BlockRunsItsHeader : (0xFFFFFF#32).toNat < 2 ^ 24 := by decide

/-- BlockHeaderErrors: each clause in a state of its own; 33 is the first size above MAX_BLOCK_SIZE. -/
theorem witness_BlockHeaderErrors :
    State.reset.fsm = .idle ∧ (framed []).fsm = .active ∧ 2 ^ 24 ≤ (0x01000000#32).toNat ∧
    ((6#32).toNat < 2 ^ 24 ∧ (6#32).toNat / 2 % 4 = 3) ∧
    ((0x108#32).toNat < 2 ^ 24 ∧ (0x108#32).toNat / 2 % 4 ≠ 3 ∧ small.maxBlock < (0x108#32).toNat / 8) := by decide

/-- BlockWaitsForInputThenRoom: input one byte short, and room four bytes short. -/
theorem witness_BlockWaitsForInputThenRoom :
    ((framed [1, 2]).fsm = .active ∧ (3#21).toNat ≤ small.maxBlock ∧ (framed [1, 2]).iEnd < (3#21).toNat) ∧
    ((full 0).fsm = .active ∧ (0#21).toNat ≤ (full 0).params.maxBlock ∧ (0#21).toNat ≤ (full 0).iEnd ∧
      ¬ hasRoom (full 0).params.maxBlock (full 0)) := by
  refine ⟨by decide, rfl, by decide, by decide, ?_⟩
  unfold hasRoom; decide

/-- RawAndRleBlocksCommit: a block of the largest size without a slide, and one of 0 bytes that needs none. -/
theorem witness_RawAndRleBlocksCommit :
    (framed [0x10, 0x41, 0x42, 0x00, 0x7a]).Inv ∧ (framed [0x10, 0x41, 0x42, 0x00, 0x7a]).fsm = .active ∧
    (32#21).toNat ≤ small.maxBlock ∧ hasRoom (32#21).toNat (framed [0x10, 0x41, 0x42, 0x00, 0x7a]) ∧
    (5#21).toNat ≤ (framed [0x10, 0x41, 0x42, 0x00, 0x7a]).iEnd ∧ 1 ≤ (framed [0x10, 0x41, 0x42, 0x00, 0x7a]).iEnd := by
  refine ⟨witness_framed_inv, rfl, by decide, ?_, by decide, by decide⟩
  unfold hasRoom; decide

/-- CompressedBlockCommitsItsPhases and LiteralsOnlyBlockProducesThem: the section `10 41 42` and the count `00`. -/
theorem witness_CompressedBlockCommitsItsPhases :
    (framed [0x10, 0x41, 0x42, 0x00, 0x7a]).Inv ∧ (framed [0x10, 0x41, 0x42, 0x00, 0x7a]).fsm = .active ∧
    tryFlush small.maxBlock (clearHints (framed [0x10, 0x41, 0x42, 0x00, 0x7a])) =
      some (clearHints (framed [0x10, 0x41, 0x42, 0x00, 0x7a])) ∧
    ∃ r, materializeCompressed (4#21).toNat (clearHints (framed [0x10, 0x41, 0x42, 0x00, 0x7a])) = .ok r ∧ r.1 = 2 :=
  ⟨witness_framed_inv, rfl, if_pos (by decide), exists_ok _ (by decide +kernel)⟩

theorem witness_LiteralsOnlyBlockProducesThem :
    let s := framed [0x10, 0x41, 0x42, 0x00, 0x7a]
    s.Inv ∧ s.fsm = .active ∧ 2 + 2 ≤ s.params.maxBlock ∧ 2 + 2 ≤ s.iEnd ∧ hasRoom s.params.maxBlock s ∧
      inByte s 0 = BitVec.ofNat 8 (8 * 2) ∧ inByte s (2 + 1) = 0 := by
  refine ⟨witness_framed_inv, rfl, by decide, by decide, ?_, by decide, by decide⟩
  unfold hasRoom; decide

/-- FailedBlockCommitsNothing: an error before TRYFLUSH, and one after a slide. -/
theorem witness_FailedBlockCommitsNothing :
    (∃ t, exec (.blkReserved true 0) (framed []) = .next t ∧ t.result = .error) ∧
    ∃ t, exec (.blkCompressed true 0) (full 16) = .next t ∧ t.result = .error ∧ t.wEnd = 8 :=
  ⟨exists_next _ (by decide +kernel), exists_next _ (by decide +kernel)⟩

/-- SlideKeepsFrameBytes: a slide, and a frame byte that stays. -/
theorem witness_SlideKeepsFrameBytes :
    (full 10).Inv ∧ ∃ t, tryFlush 8 (full 10) = some t ∧ t.drained = 8 ∧ t.drained ≠ (full 10).drained ∧
      t.drained ≤ 15 ∧ 15 < (full 10).drained + (full 10).wEnd := by
  refine ⟨witness_full_inv 10 (by decide), ?_⟩
  rw [show tryFlush 8 (full 10) = some _ from rfl]
  exact ⟨_, rfl, by decide +kernel⟩

/-- DrainingCuresNotYet: nothing drained, and 9 bytes undrained, one more than fit. -/
theorem witness_DrainingCuresNotYet :
    (full 7).Inv ∧ (full 7).params.winCap - (full 7).params.maxBlock < (full 7).wEnd - (full 7).wStart ∧
    4 ≤ (full 0).params.maxBlock ∧ tryFlush 4 (full 0) = none :=
  ⟨witness_full_inv 7 (by decide), by decide, by decide, by decide +kernel⟩

/-- MatchRepeatsTheBytesBefore: the longest offset W, in a frame longer than W. -/
theorem witness_MatchRepeatsTheBytesBefore :
    Memory.wf (full 0).win = true ∧ (8#64).toInt = ((8 : Nat) : Int) ∧ 1 ≤ 8 ∧ (full 0).drained + 8 ≤ 16 ∧
    ((full 0).w < 16 → 8 ≤ (full 0).w) := by decide

/-- MatchOffsetErrors: offset 0; with the dictionary of 3 bytes, offset 12 at position 8; beyond W after it. -/
theorem witness_MatchOffsetErrors :
    ((withDict (framed [])).dictActive = true ∧ (withDict (framed [])).params.dict = some dictP8 ∧ 3 = dictP8.content.length) ∧
    (framed []).dictActive = false ∧ (0#64).toInt < 1 ∧
    (1 ≤ (12#64).toInt ∧ 8 ≤ (framed []).w ∧ ((8 + 3 : Nat) : Int) < (12#64).toInt) ∧
    (1 ≤ (9#64).toInt ∧ (framed []).w < 9 ∧ ((framed []).w : Int) < (9#64).toInt) := by decide

/-- MatchByteComesFromFrameOrDictionary: the first frame byte, the first and the last byte of the dictionary. -/
theorem witness_MatchByteComesFromFrameOrDictionary :
    ((framed []).drained : Int) ≤ 0 ∧ (-1 : Int) < 0 ∧ -((3 : Nat) : Int) ≤ -1 ∧ -((3 : Nat) : Int) ≤ -3 ∧
    (withDict (framed [])).params.dict = some dictP8 ∧ dictP8.content.length = 3 ∧
    (withDict (framed [])).params.admitDictMatch = true ∧
    ({ small with admitDictMatch := false } : Params).admitDictMatch = false := by decide

/-- Literals `78` and the sequence (1, 10, 4) of program Voverlap, and sequences that do not fit. -/
def executing (lits : List Nat) (sb : List SeqEntry) : State :=
  { framed [] with dp := { Dp.idle with lb := bytesOf lits, sb := sb } }

theorem witness_ExecuteStaysInItsBounds :
    small.maxBlock < (executing [0x78] [⟨1, 32, 4⟩]).dp.lb.length + ([⟨1, 32, 4⟩].map SeqEntry.ml).sum ∧
    ((executing [0x78] []).dp.lp ≤ (executing [0x78] []).dp.lb.length ∧
      (executing [0x78] []).dp.lb.length - (executing [0x78] []).dp.lp < (⟨2, 3, 4⟩ : SeqEntry).ll) ∧
    (Memory.wf (executing [0x78] [⟨1, 10, 4⟩]).win = true ∧
      ∃ r, execute (executing [0x78] [⟨1, 10, 4⟩]) = .ok r ∧ r.1 = 11) :=
  ⟨by decide, by decide, by decide, exists_ok _ (by decide +kernel)⟩

/-- RepeatOffsetsResolve: each clause at the ends of its range. -/
theorem witness_RepeatOffsetsResolve :
    (1 ≤ 4 ∧ 4 < 2 ^ 33 ∧ 3 < 4) ∧ 3 < 2 ^ 33 - 1 ∧ (1 = 1 ∧ 1 ≠ 0) ∧ (2 = 2 ∧ 5 ≠ 0) ∧ (1 = 1 ∧ 0 = 0) ∧ (3 = 3 ∧ 5 ≠ 0) ∧
    (2 = 2 ∧ 0 = 0) ∧ -(2 ^ 63 : Int) < (⟨0, 4, 8⟩ : RepOffsets).r0.toInt := by decide

/-- ForwardReadsGiveTheStreamBits: each clause at a boundary of its range. -/
theorem witness_ForwardReadsGiveTheStreamBits :
    let fr : Fr := { frMake .inp 0 5 with pos := 8 }
    32 < 33 ∧ (1 ≤ 32 ∧ 32 ≤ 32 ∧ fr.pos + 32 ≤ 8 * fr.len) ∧ 8 * (frMake .inp 0 1).len < (frMake .inp 0 1).pos + 9 ∧
    { fr with pos := 3 }.pos % 8 ≠ 0 ∧ (fr.pos % 8 = 0 ∧ fr.pos / 8 + 4 ≤ fr.len) ∧ fr.len < fr.pos / 8 + 5 := by decide

theorem witness_MixedWidthReadsAgree :
    (3 + 5 ≤ 32 ∧ frReadBits (sourceOf [0xb4, 0x01]) (frMake .inp 0 2) 3 = .ok (4, ⟨.inp, 0, 2, 3⟩) ∧
      frReadBits (sourceOf [0xb4, 0x01]) ⟨.inp, 0, 2, 3⟩ 5 = .ok (22, ⟨.inp, 0, 2, 8⟩)) ∧
    (7 + 4 ≤ 16 ∧ brRead (sourceOf [0xe5, 0x05]) ⟨0, 2, 10⟩ 7 16 = .ok (60, ⟨0, 2, 3⟩) ∧
      brRead (sourceOf [0xe5, 0x05]) ⟨0, 2, 3⟩ 4 16 = .ok (10, ⟨0, 2, -1⟩)) := by decide +kernel

/-- BackwardReadsGiveTheStreamBits: the marker at bit 0 and at bit 7, an empty range, a last byte 0; widths 1 and 16. -/
theorem witness_BackwardReadsGiveTheStreamBits :
    sourceOf [0x00] .inp (0 + 1 - 1) = 0 ∧
    ((sourceOf [0x01] .inp (0 + 1 - 1)).getLsbD 0 = true ∧ ∀ j, j < 8 → 0 < j → (sourceOf [0x01] .inp 0).getLsbD j = false) ∧
    ((sourceOf [0xFF] .inp (0 + 1 - 1)).getLsbD 7 = true) ∧ (1 ≤ 16 ∧ 16 ≤ 16) ∧ 16 < 17 := by decide

/-! The tables of 95_test_vectors.md sections 3.1, 3.3 and 4. -/

theorem witness_FseTableRanges :
    (∀ p ∈ ([8, 16, 8] : List Int), -1 ≤ p) ∧ (∃ t, fseBuild [8, 16, 8] 5 = .ok t ∧ t.acc = 5) ∧
    ∃ t, fseBuild [1, -1] 1 = .ok t ∧ t.acc = 1 :=
  ⟨by decide, exists_ok _ (by decide +kernel), exists_ok _ (by decide +kernel)⟩

/-- The smallest accuracy, with a sentinel; a distribution of sentinels only; the largest accuracy. -/
theorem witness_FseSpreadReturnsToZero :
    normSum [16, 8, 4, 0, 0, 3, -1] = (2 ^ 5 : Nat) ∧ (∀ p ∈ ([16, 8, 4, 0, 0, 3, -1] : List Int), -1 ≤ p) ∧
    normSum (List.replicate 256 (-1)) = (2 ^ 8 : Nat) ∧ (List.replicate 256 (-1 : Int)).length ≤ 256 ∧
    normSum [32768] = (2 ^ 15 : Nat) := by decide +kernel

theorem witness_FseHeaderSpendsItsBudget :
    fseField (sourceOf [0x10, 0xb3, 0x65, 0x00]) ⟨.inp, 0, 4, 20⟩ 4 = .ok (4, ⟨.inp, 0, 4, 23⟩) ∧
    fseReadDistribution (sourceOf [0x10, 0xb3, 0x65, 0x00]) (frMake .inp 0 4) 9 =
      .ok ([16, 8, 4, 0, 0, 3, -1], 5, ⟨.inp, 0, 4, 24⟩) := by decide +kernel

theorem witness_WeightCountIsBounded :
    (∃ r, hufReadWeights (sourceOf [0x21]) (frMake .inp 0 1) 0x81 = .ok r ∧ r.hw = [2, 1]) ∧
    (∃ r, hufReadWeights (sourceOf [0x90, 0xee, 0x03, 0xff]) (frMake .inp 0 4) 4 = .ok r ∧ r.hw = [2, 1]) ∧
    (∃ r, hufBuild [2, 1] = .ok r ∧ r.1 = [2, 1, 1]) ∧
    ∃ t, hufDescription 0x81 (standing [0x21]) = .ok t ∧ t.dp.nW = 2 :=
  ⟨exists_ok _ (by decide +kernel), exists_ok _ (by decide +kernel), exists_ok _ (by decide +kernel),
    exists_ok _ (by decide +kernel)⟩

/-- HuffmanTableIsFilled and HuffmanCodesAreCanonical: a table with a symbol without a code. -/
theorem witness_HuffmanTables : ∃ r, hufBuild [3, 0, 1, 1] = .ok r ∧ r.1 = [3, 0, 1, 1, 2] ∧
    (hufCell r.2 2).sym = 4 ∧ r.1.getD 1 0 = 0 ∧ 1 ≤ r.1.getD 4 0 := exists_ok _ (by decide +kernel)

def tableOf8121 : HufTable := { maxl := 2, cells := [⟨1, 2⟩, ⟨2, 2⟩, ⟨0, 1⟩, ⟨0, 1⟩] }

theorem witness_LiteralStreamEndsAtItsMark :
    ([] : List Byte).length ≤ 4 ∧ ∃ r, hufStream (sourceOf [0x63]) tableOf8121 ⟨0, 1, 6⟩ 4 [] = .ok r ∧ r.br.pos = -2 :=
  ⟨by decide, exists_ok _ (by decide +kernel)⟩

/-- RawAndRleLiterals and LiteralSizesAreBounded: sizes 0 and MAX_BLOCK_SIZE, one more, and bytes that are missing. -/
theorem witness_RawAndRleLiterals :
    (hasBytes (standing []) 0 ∧ (0#5).toNat ≤ small.maxBlock ∧ hasBytes (standing []) (0 + 0)) ∧
    (hasBytes (standing [2, 0, 7]) 2 ∧ (0#4).toNat + 16 * nextLe (standing [2, 0, 7]) 2 = small.maxBlock ∧
      hasBytes (standing [2, 0, 7]) (2 + 1) ∧ ¬ hasBytes (standing [2, 0, 7]) (2 + 32)) := by
  simp only [hasBytes]; decide +kernel

theorem witness_LiteralSizesAreBounded :
    (hasBytes (standing [2]) 1 ∧ small.maxBlock < (1#4).toNat + 16 * nextLe (standing [2]) 1) ∧
    (hasBytes (standing [2, 0]) (sizeBytes 10) ∧ small.maxBlock < regenSize (standing [2, 0]) 10 1) ∧
    (Instr.litCompressedSf0 1, false, 10) ∈ compressedRows 1 ++ treelessRows 1 := by
  simp only [hasBytes]; decide +kernel

/-- FreshTableLiterals: the section `42 c0 00 81 21 63`, past its first byte, and the same with regenerated size 5. -/
theorem witness_FreshTableLiterals :
    let s := standing [0xc0, 0x00, 0x81, 0x21, 0x63]
    (Instr.litCompressedSf0 4, false, 10) ∈ compressedRows 4 ∧ hasBytes s (sizeBytes 10 + compressedSize s 10) ∧
    regenSize s 10 4 ≤ s.params.maxBlock ∧
    (∃ r e, hufReadTable (source s) (frSub s (sizeBytes 10) (compressedSize s 10)) = .ok r ∧
      litDecodeStreams (source s) false r.table r.weights.fr (regenSize s 10 4) = .ok e ∧ e.lits.length = regenSize s 10 4) ∧
    ∃ r e, hufReadTable (source s) (frSub s (sizeBytes 10) (compressedSize s 10)) = .ok r ∧
      litDecodeStreams (source s) false r.table r.weights.fr (regenSize s 10 5) = .ok e ∧ e.lits.length ≠ regenSize s 10 5 := by
  refine ⟨by decide, ?_, by decide +kernel, exists_ok₂ _ (by decide +kernel), exists_ok₂ _ (by decide +kernel)⟩
  unfold hasBytes; decide +kernel

theorem witness_TreelessLiterals :
    let s := withPrevHuf (standing [0x40, 0x00, 0x63])
    (Instr.litTreelessSf0 4, false, 10) ∈ treelessRows 4 ∧ hasBytes s (sizeBytes 10 + compressedSize s 10) ∧
    regenSize s 10 4 ≤ s.params.maxBlock ∧ s.prevHuf = some tableOf8121 ∧
    (∃ e, litDecodeStreams (source s) false tableOf8121 (frSub s (sizeBytes 10) (compressedSize s 10)) (regenSize s 10 4) = .ok e ∧
      e.lits.length = regenSize s 10 4) ∧ (standing [0x40, 0x00, 0x63]).prevHuf = none := by
  refine ⟨by decide, ?_, by decide +kernel, rfl, exists_ok _ (by decide +kernel), rfl⟩
  unfold hasBytes; decide +kernel

/-- HuffmanDescriptionsBuildTheirTable: `81 21`, a direct form that does not build, and `04 90 ee 03 ff`. -/
theorem witness_HuffmanDescriptionsBuildTheirTable :
    (hasBytes (standing [0x21]) ((1 + 2) / 2) ∧ nextByte (standing [0x21]) 0 = 0x21 ∧
      ∃ r, hufBuild [2, 1] = .ok r ∧ r.1 = [2, 1, 1]) ∧
    hufBuild [0, 0] = .error (.raised .hufNoweight) ∧
    let s := standing [0x90, 0xee, 0x03, 0xff]
    hasBytes s 4 ∧
    (∃ h b, fseReadHeader (source s) (frSub s 0 4) 7 = .ok h ∧ frRestBackward (source s) h.2 = .ok b ∧
      ((fseDecode2 (source s) h.1 b.1 255).map fun d => d.hw) = .ok [2, 1]) := by
  refine ⟨⟨?_, by decide, exists_ok _ (by decide +kernel)⟩, by decide, ?_, exists_ok₂ _ (by decide +kernel)⟩ <;>
    unfold hasBytes <;> decide

/-- SequenceCountForms: counts that are not 0, a 0 at the end and before more bytes, bytes that are missing. -/
theorem witness_SequenceCountForms :
    (1#7 ≠ 0 ∧ hasBytes (standing [5]) 1 ∧ (1#7).toNat * 256 + nextLe (standing [5]) 1 = 261) ∧
    (hasBytes (standing []) 0 ∧ (standing []).dp.fr.pos / 8 + 0 = (standing []).dp.fr.len) ∧
    (hasBytes (standing [0, 9]) (1 + 1) ∧ (0#7).toNat * 256 + nextLe (standing [0, 9]) 1 = 0) ∧
    (1 ≤ 2 ∧ (standing [0]).dp.fr.pos % 8 = 0 ∧ ¬ hasBytes (standing [0]) 2) := by
  simp only [hasBytes]; decide +kernel

theorem witness_PredefinedAndRleTables :
    hasBytes (standing [0xff]) 1 ∧ (standing []).dp.fr.pos % 8 = 0 ∧ ¬ hasBytes (standing []) 1 := by
  simp only [hasBytes]; decide

/-- StreamTablesUnderTheirCap: a header that is read, one that is not, one above each cap. -/
theorem witness_StreamTablesUnderTheirCap :
    (∃ r, fseReadHeader (source (standing [0x10, 0xb3, 0x65, 0x00])) (standing [0x10, 0xb3, 0x65, 0x00]).dp.fr 8 = .ok r ∧
      r.1.acc = 5) ∧
    fseReadHeader (source (standing [0x10])) (standing [0x10]).dp.fr 9 = .error (.raised .frOverrun) ∧
    (hasBytes (standing [0x05]) 1 ∧ 9 < 5 + (nextByte (standing [0x05]) 0).toNat % 16) ∧
    (hasBytes (standing [0x04]) 1 ∧ 8 < 5 + (nextByte (standing [0x04]) 0).toNat % 16) ∧
    (1 ≤ (1#7).toNat ∧ hasBytes (standing [0x03]) (1#7).toNat ∧ 7 < 5 + (nextByte (standing [0x03]) 0).toNat % 16) := by
  simp only [hasBytes]
  exact ⟨exists_ok _ (by decide +kernel), by decide +kernel, by decide +kernel, by decide +kernel, by decide +kernel⟩

theorem witness_RepeatTablesAndReservedModes :
    prevTable { standing [] with prevFse := ⟨some (fseBuildRle 4), none, none⟩ } .ll = some (fseBuildRle 4) ∧
    prevTable (standing []) .ml = none ∧ hasBytes (standing [0x01]) 1 ∧ (nextByte (standing [0x01]) 0).toNat % 4 ≠ 0 := by
  simp only [hasBytes]; decide +kernel

/-- LiteralsSectionIsItsRow and DescriptionsCountsAndModesAreTheirRows. -/
theorem witness_RowsOfTheBlock : hasBytes (standing [0x18]) 1 ∧ (nextByte (standing [0x18]) 0).toNat % 4 = 0 := by
  simp only [hasBytes]; decide +kernel

/-- DecodedSequencesInRange and SequenceStreamMustBeExhausted: the section `01 00 0e 6e 08`, and the stream `0e 6e 09`. -/
theorem witness_DecodedSequences :
    let t : SeqTables := ⟨fsePredef .ll, fsePredef .oft, fsePredef .ml⟩
    (∃ st e, seqInit (sourceOf [0x0e, 0x6e, 0x08]) t ⟨0, 3, 19⟩ = .ok st ∧
      seqDecodeOne (sourceOf [0x0e, 0x6e, 0x08]) t st = .ok e ∧ e.1 = ⟨3, 6, 6⟩) ∧
    (∃ r, seqDecodeAll (sourceOf [0x0e, 0x6e, 0x08]) t ⟨0, 3, 19⟩ 1 = .ok r ∧ r.1 = [⟨3, 6, 6⟩]) ∧
    (∃ st r, seqInit (sourceOf [0x0e, 0x6e, 0x08]) t ⟨0, 3, 19⟩ = .ok st ∧
      seqDecodeLoop (sourceOf [0x0e, 0x6e, 0x08]) t 1 st [] = .ok r ∧ r.2.br.pos = 0) ∧
    ∃ st r, seqInit (sourceOf [0x0e, 0x6e, 0x09]) t ⟨0, 3, 19⟩ = .ok st ∧
      seqDecodeLoop (sourceOf [0x0e, 0x6e, 0x09]) t 1 st [] = .ok r ∧ r.2.br.pos ≠ 0 :=
  ⟨exists_ok₂ _ (by decide +kernel), exists_ok _ (by decide +kernel), exists_ok₂ _ (by decide +kernel),
    exists_ok₂ _ (by decide +kernel)⟩

theorem witness_EveryStepKeepsTheInvariants :
    (framed [0x10, 0x41, 0x42, 0x00, 0x7a]).Inv ∧
    ∃ t, step { framed [0x10, 0x41, 0x42, 0x00, 0x7a] with host := [.csrWrite 0 8 0x90005] } = .next t ∧ t.wEnd = 1 :=
  ⟨witness_framed_inv, exists_next _ (by decide +kernel)⟩

theorem refused_of {x : Answer} {r : Refusal} (h : (match x with | .refused q => decide (q = r) | _ => false) = true) :
    x = .refused r := by
  cases x <;> simp_all

/-- EveryInstructionEndsInANextState: parameters that meet the hypotheses; both refusals. -/
theorem witness_EveryInstructionEndsInANextState :
    (withDict (framed [])).params.admitDictMatch = true ∧ dictInDomain dictP8 = true ∧
    (exec (.frameBegin true 0 8 0) { framed [] with params := { small with dict := some { dictP8 with rep := some ⟨1#64 <<< 63, 4, 8⟩ } } } =
      .refused .dictOutsideDomain) ∧
    (exec (.blkCompressed true 7) { withDict (framed [0x08, 0x78, 0x01, 0x00, 0x6f, 0x4e, 0x08]) with
      params := { small with dict := some dictP8, admitDictMatch := false } } = .refused .dictMatchNotAdmitted) := by
  exact ⟨rfl, by decide +kernel, refused_of (by decide +kernel), refused_of (by decide +kernel)⟩

theorem witness_SelectorRowsWriteOnlyDecodeState :
    isSelector (.litCompressedSf0 4) = true ∧
    (∃ t, exec (.litCompressedSf0 4) (standing [0xc0, 0x00, 0x81, 0x21, 0x63]) = .next t ∧ t.prevHuf ≠ none) ∧
    ∃ t, exec (.seqModeLlRle 0) (standing [1]) = .next t ∧ t.prevFse ≠ (standing [1]).prevFse :=
  ⟨rfl, exists_next _ (by decide +kernel), exists_next _ (by decide +kernel)⟩

/-- BlocksReadOnlyTheirPayload: IN that differs at the first byte above the payload. -/
theorem witness_BlocksReadOnlyTheirPayload :
    let s := framed [0x10, 0x41, 0x42, 0x00, 0x7a]
    (∀ a, a < (4#21).toNat → inByte { s with inp := cellsFrom 0 (bytesOf [0x10, 0x41, 0x42, 0x00, 0x11]) } a = inByte s a) ∧
    ∃ t, exec (.blkCompressed true 4) s = .next t ∧ t.wEnd = 2 :=
  ⟨by decide +kernel, exists_next _ (by decide +kernel)⟩

theorem witness_CommandsReadNoInternalRegister :
    ∃ t, exec (decodeCmd 0x250005) (framed [0x10, 0x41, 0x42, 0x00, 0x7a]) = .next t ∧ t.wEnd = 2 :=
  exists_next _ (by decide +kernel)

end Sys2Proof.Tests
end

section
/-! SUPPORT. What a command word does, said once: its opcode fixes the instruction, and an answered command leaves one of the
states that `CommandEnds` lists. The writers of FSM (10_state.md rule R103) and the step lemma of the invariants both read off
that list. -/

namespace Sys2Proof.Machine

/-! ## The instruction of a command word -/

/-- The opcode map of 30_encoding.md rule R302, as the cases of an opcode. -/
theorem decodeCmd_cases (w : Word64) :
    (cmdOp w = 0#8 ∧ decodeCmd w = .reset (w.extractLsb' 8 56)) ∨
    (cmdOp w = 1#8 ∧ decodeCmd w = .frameBegin (cmdF w) (cmdRsv0 w) (cmdA w) (cmdRsv1 w)) ∨
    (cmdOp w = 2#8 ∧ decodeCmd w = .inputCommit (cmdF w) (cmdRsv0 w) (cmdA w) (cmdRsv1 w)) ∨
    (cmdOp w = 3#8 ∧ decodeCmd w = .outputCommit (cmdF w) (cmdRsv0 w) (cmdA w) (cmdRsv1 w)) ∨
    (cmdOp w = 4#8 ∧ decodeCmd w = .consume (cmdF w) (cmdRsv0 w) (cmdA w) (cmdRsv1 w)) ∨
    (cmdOp w = 5#8 ∧ decodeCmd w = .block (cmdF w) (cmdRsv0 w) (cmdA w) (cmdRsv1 w)) ∨
    (6 ≤ (cmdOp w).toNat ∧ decodeCmd w = .reservedOpcode (cmdOp w) (cmdF w) (cmdRsv0 w) (cmdA w) (cmdRsv1 w)) := by
  have opcode : ∀ k : Nat, (cmdOp w).toNat = k → cmdOp w = BitVec.ofNat 8 k := fun k h => by simp [← h]
  unfold decodeCmd
  split
  next h => exact .inl ⟨opcode 0 h, rfl⟩
  next h => exact .inr (.inl ⟨opcode 1 h, rfl⟩)
  next h => exact .inr (.inr (.inl ⟨opcode 2 h, rfl⟩))
  next h => exact .inr (.inr (.inr (.inl ⟨opcode 3 h, rfl⟩)))
  next h => exact .inr (.inr (.inr (.inr (.inl ⟨opcode 4 h, rfl⟩))))
  next h => exact .inr (.inr (.inr (.inr (.inr (.inl ⟨opcode 5 h, rfl⟩)))))
  next =>
    have op : 6 ≤ (cmdOp w).toNat := by simp only [imp_false] at *; omega
    exact .inr (.inr (.inr (.inr (.inr (.inr ⟨op, rfl⟩)))))

/-- The `last` bit of the header that a BLOCK's operand holds is bit 16 of its word (30_encoding.md rules R301 and R310). -/
theorem hdrLast_operandHeader (w : Word64) : hdrLast (operandHeader (cmdA w)) = w.getLsbD 16 := by
  simp [hdrLast, operandHeader, cmdA]

/-- BLOCK in ACTIVE: an error of the header, or the steps of a block with the header's `last` bit. -/
theorem blockForm_last (a : Word32) (s : State) :
    (∃ e, e ≠ Site.none ∧ blockForm a s = .next (errorEntry e s)) ∨
    ∃ k size, blockForm a s = blockOf k (hdrLast (operandHeader a)) size s := by
  unfold blockForm
  split
  · exact .inl ⟨_, by decide, rfl⟩
  · simp only
    split
    · exact .inr ⟨.raw, _, rfl⟩
    · exact .inr ⟨.rle, _, rfl⟩
    · exact .inr ⟨.compressed, _, rfl⟩
    · exact .inl ⟨_, by decide, rfl⟩

/-! ## How a command ends -/

/-- The dictionary a frame uses: none, or the configured one, in the parameter's domain (46_commands.md rule R711; log 9). -/
def FrameDict (p : Params) (d : Option Dictionary) : Prop :=
  ∀ x, d = some x → p.dict = some x ∧ dictInDomain x = true

/-- The states in which a command with word `w`, started in `s`, can end (46_commands.md rules R702 to R723). Every command but
RESET first clears the hints. -/
inductive CommandEnds (w : Word64) (s : State) : State → Prop where
  | reset (op : cmdOp w = 0#8) : CommandEnds w s (resetState s)
  /-- The FAILED gate. -/
  | gated (op : cmdOp w ≠ 0#8) (failed : s.fsm = .failed) : CommandEnds w s (gateFailed (clearHints s))
  | raises (op : cmdOp w ≠ 0#8) (e : Site) (site : e ≠ .none) : CommandEnds w s (errorEntry e (clearHints s))
  | beginsFrame (op : cmdOp w = 1#8) (a : Nat) (d : Option Dictionary) (window : a ≤ windowSizeMax)
      (room : a + s.params.maxBlock ≤ s.params.winCap) (dict : FrameDict s.params d) :
      CommandEnds w s (frameStart a d (clearHints s))
  | commitsInput (op : cmdOp w = 2#8) (n : Nat) (fits : n ≤ s.params.inCap - s.iEnd) :
      CommandEnds w s { clearHints s with iEnd := s.iEnd + n, result := .ok }
  | commitsOutput (op : cmdOp w = 3#8) (n : Nat) (there : n ≤ s.wEnd - s.wStart) :
      CommandEnds w s { clearHints s with wStart := s.wStart + n, result := .ok }
  | consumes (op : cmdOp w = 4#8) (n : Nat) : CommandEnds w s { consumeIn n (clearHints s) with result := .ok }
  | awaitsInput (op : cmdOp w = 5#8) (active : s.fsm = .active) : CommandEnds w s (awaitInput (clearHints s))
  | awaitsRoom (op : cmdOp w = 5#8) (active : s.fsm = .active) : CommandEnds w s (awaitDrain (clearHints s))
  /-- An error of the materialization: the slide of TRYFLUSH stays (45_window.md rule R668). -/
  | raisesInBlock (op : cmdOp w = 5#8) (need : Nat) (u : State) (flush : tryFlush need (clearHints s) = some u) (e : Site)
      (site : e ≠ .none) : CommandEnds w s (errorEntry e u)
  | commitsBlock (op : cmdOp w = 5#8) (active : s.fsm = .active) (need : Nat) (u : State)
      (flush : tryFlush need (clearHints s) = some u) (outLen needIn : Nat) (m : Memory) (r : RepOffsets)
      (ph : Option HufTable) (pf : PrevFse) (dp : Dp) (fits : outLen ≤ need) (run : RunWritten u.wEnd outLen u.win m) :
      CommandEnds w s (commit outLen needIn (w.getLsbD 16)
        { u with win := m, rep := r, prevHuf := ph, prevFse := pf, dp := dp })

section
variable {w : Word64} {s t : State}

/-- The common steps: a command that is not RESET is gated, raises, or ends as its own rule does. -/
theorem commandEnds_of_dispatch {rf rc : Bool} {body : State → Answer} (op : cmdOp w ≠ 0#8)
    (h : dispatchCommand rf rc body s = .next t) (own : body (clearHints s) = .next t → CommandEnds w s t) :
    CommandEnds w s t := by
  rcases dispatchCommand_next h with ⟨failed, -, rfl⟩ | ⟨-, rfl⟩ | ⟨-, -, h⟩
  · exact .gated op failed
  · exact .raises op _ (by decide)
  · exact own h

theorem execFrameBegin_ends {f : Bool} {rsv0 : BitVec 7} {a : Word32} {rsv1 : BitVec 16} (op : cmdOp w = 1#8)
    (h : execFrameBegin f rsv0 a rsv1 s = .next t) : CommandEnds w s t := by
  have op0 : cmdOp w ≠ 0#8 := by rw [op]; decide
  refine commandEnds_of_dispatch op0 h fun h => ?_
  rcases frameBegin_cases a.toNat f (clearHints s) with ⟨e, site, g⟩ | ⟨-, -, g⟩ | ⟨window, room, d, dict, g⟩ <;>
    rw [g] at h <;> cases h
  · exact .raises op0 e site
  · refine .beginsFrame op _ d window room ?_
    rintro x rfl
    rcases dict with ⟨-, dict⟩ | ⟨-, dict, y, hy, domain⟩
    · cases dict
    · cases hy; exact ⟨dict.symm, domain⟩

theorem execInputCommit_ends {f : Bool} {rsv0 : BitVec 7} {n : Word32} {rsv1 : BitVec 16} (op : cmdOp w = 2#8)
    (h : execInputCommit f rsv0 n rsv1 s = .next t) : CommandEnds w s t := by
  have op0 : cmdOp w ≠ 0#8 := by rw [op]; decide
  refine commandEnds_of_dispatch op0 h fun h => ?_
  rcases inputCommit_cases n.toNat (clearHints s) with g | ⟨fits, g⟩ <;> rw [g] at h <;> cases h
  · exact .raises op0 _ (by decide)
  · exact .commitsInput op _ fits

theorem execOutputCommit_ends {f : Bool} {rsv0 : BitVec 7} {n : Word32} {rsv1 : BitVec 16} (op : cmdOp w = 3#8)
    (h : execOutputCommit f rsv0 n rsv1 s = .next t) : CommandEnds w s t := by
  have op0 : cmdOp w ≠ 0#8 := by rw [op]; decide
  refine commandEnds_of_dispatch op0 h fun h => ?_
  rcases outputCommit_cases n.toNat (clearHints s) with g | ⟨there, g⟩ <;> rw [g] at h <;> cases h
  · exact .raises op0 _ (by decide)
  · exact .commitsOutput op _ there

theorem execConsume_ends {f : Bool} {rsv0 : BitVec 7} {n : Word32} {rsv1 : BitVec 16} (op : cmdOp w = 4#8)
    (h : execConsume f rsv0 n rsv1 s = .next t) : CommandEnds w s t := by
  have op0 : cmdOp w ≠ 0#8 := by rw [op]; decide
  refine commandEnds_of_dispatch op0 h fun h => ?_
  rcases consumeInput_cases n.toNat (clearHints s) with g | ⟨-, g⟩ <;> rw [g] at h <;> cases h
  · exact .raises op0 _ (by decide)
  · exact .consumes op _

theorem execBlock_ends {f : Bool} {rsv0 : BitVec 7} {rsv1 : BitVec 16} (op : cmdOp w = 5#8)
    (h : execBlock f rsv0 (cmdA w) rsv1 s = .next t) : CommandEnds w s t := by
  have op0 : cmdOp w ≠ 0#8 := by rw [op]; decide
  refine commandEnds_of_dispatch op0 h fun h => ?_
  rcases inActive_next h with ⟨active, h⟩ | ⟨-, rfl⟩
  · rcases blockForm_last (cmdA w) (clearHints s) with ⟨e, site, g⟩ | ⟨k, size, g⟩ <;> rw [g] at h
    · cases h; exact .raises op0 e site
    · rw [hdrLast_operandHeader] at h
      rcases blockOf_next h with rfl | rfl | ⟨-, -, -, rfl⟩ |
        ⟨need, u, -, flush, ⟨e, site, rfl⟩ | ⟨o, needIn, m, r, ph, pf, dp, fits, run, rfl⟩⟩
      · exact .raises op0 _ (by decide)
      · exact .awaitsInput op active
      · exact .awaitsRoom op active
      · exact .raisesInBlock op need u flush e site
      · exact .commitsBlock (s := s) op active need u flush o needIn m r ph pf dp fits run
  · exact .raises op0 _ (by decide)

theorem execReservedOpcode_ends (o : Byte) {f : Bool} {rsv0 : BitVec 7} (a : Word32) {rsv1 : BitVec 16}
    (op : cmdOp w ≠ 0#8) (h : execReservedOpcode o f rsv0 a rsv1 s = .next t) : CommandEnds w s t := by
  refine commandEnds_of_dispatch op h fun h => ?_
  cases h
  exact .raises op _ (by decide)

/-- A command that is answered ends in one of the listed states. -/
theorem command_ends (h : exec (decodeCmd w) s = .next t) : CommandEnds w s t := by
  rcases decodeCmd_cases w with ⟨op, g⟩ | ⟨op, g⟩ | ⟨op, g⟩ | ⟨op, g⟩ | ⟨op, g⟩ | ⟨op, g⟩ | ⟨op, g⟩ <;> rw [g] at h
  · cases h; exact .reset op
  · exact execFrameBegin_ends op h
  · exact execInputCommit_ends op h
  · exact execOutputCommit_ends op h
  · exact execConsume_ends op h
  · exact execBlock_ends op h
  · exact execReservedOpcode_ends (cmdOp w) (cmdA w) (fun e => by simp [e] at op) h

end

end Sys2Proof.Machine
end

section
/-! SUPPORT. Who writes FSM, W and DICT_ACTIVE (10_state.md rules R103 to R105), and what RESET leaves (rule R141). -/

namespace Sys2Proof.Machine

/-! ## FSM -/

/-- No command writes the parameters, the host's accesses and data, or the wire structure to fetch. -/
theorem CommandEnds.sameHostSide {w : Word64} {s t : State} (ends : CommandEnds w s t) :
    t.params = s.params ∧ t.host = s.host ∧ t.hostData = s.hostData ∧ t.wire = s.wire := by
  cases ends with
  | reset | gated | raises | commitsInput | commitsOutput | consumes | awaitsInput | awaitsRoom => exact ⟨rfl, rfl, rfl, rfl⟩
  | beginsFrame => simp
  | raisesInBlock _ _ _ flush | commitsBlock _ _ _ _ flush =>
    obtain ⟨_, _, _, _, rfl⟩ := tryFlush_shape flush
    exact ⟨rfl, rfl, rfl, rfl⟩

/-- Only RESET and FRAME_BEGIN write W and DICT_ACTIVE. -/
theorem CommandEnds.sameWindow {w : Word64} {s t : State} (ends : CommandEnds w s t) (reset : cmdOp w ≠ 0#8)
    (frame : cmdOp w ≠ 1#8) : t.w = s.w ∧ t.dictActive = s.dictActive := by
  cases ends with
  | reset op => exact absurd op reset
  | beginsFrame op => exact absurd op frame
  | gated | raises | commitsInput | commitsOutput | consumes | awaitsInput | awaitsRoom => exact ⟨rfl, rfl⟩
  | raisesInBlock _ _ _ flush | commitsBlock _ _ _ _ flush =>
    obtain ⟨_, _, _, _, rfl⟩ := tryFlush_shape flush
    exact ⟨rfl, rfl⟩

/-- What each way to end does to FSM. -/
theorem CommandEnds.fsm_cases {w : Word64} {s t : State} (ends : CommandEnds w s t) :
    (cmdOp w = 0#8 ∧ t.fsm = .idle ∧ t.result = .ok) ∨ (cmdOp w = 1#8 ∧ t.fsm = .active ∧ t.result = .ok) ∨
    (cmdOp w = 5#8 ∧ s.fsm = .active ∧ t.fsm = (if w.getLsbD 16 then .done else .active) ∧ t.result = .ok) ∨
    (cmdOp w ≠ 0#8 ∧ t.fsm = .failed ∧ t.result = .error ∧ (t.errSite ≠ .none ∨ s.fsm = .failed)) ∨
    (cmdOp w = 5#8 ∧ t.fsm = s.fsm ∧ t.result = .notYet) ∨
    (cmdOp w ≠ 0#8 ∧ cmdOp w ≠ 1#8 ∧ cmdOp w ≠ 5#8 ∧ t.fsm = s.fsm ∧ t.result = .ok) := by
  cases ends with
  | reset op => exact .inl ⟨op, rfl, rfl⟩
  | beginsFrame op => exact .inr (.inl ⟨op, by simp, by simp⟩)
  | gated op failed => exact .inr (.inr (.inr (.inl ⟨op, failed, rfl, .inr failed⟩)))
  | raises op e site => exact .inr (.inr (.inr (.inl ⟨op, rfl, rfl, .inl site⟩)))
  | raisesInBlock op _ _ _ e site =>
    exact .inr (.inr (.inr (.inl ⟨by rw [op]; decide, rfl, rfl, .inl site⟩)))
  | awaitsInput op | awaitsRoom op => exact .inr (.inr (.inr (.inr (.inl ⟨op, rfl, rfl⟩))))
  | commitsInput op | commitsOutput op | consumes op =>
    exact .inr (.inr (.inr (.inr (.inr ⟨by rw [op]; decide, by rw [op]; decide, by rw [op]; decide, rfl, rfl⟩))))
  | commitsBlock op active _ _ flush =>
    obtain ⟨_, _, _, _, rfl⟩ := tryFlush_shape flush
    exact .inr (.inr (.inl ⟨op, active, by rw [commit_fsm]; simp [active], rfl⟩))

/-- Settles O17, from the ways a command can end. -/
theorem frameStateWriters : Obligations.FrameStateWriters := by
  refine ⟨⟨rfl, rfl, rfl, rfl⟩, fun s t w next => ?_⟩
  have ends := command_ends next
  have window : t.w ≠ s.w ∨ t.dictActive ≠ s.dictActive → cmdOp w = 0#8 ∨ cmdOp w = 1#8 := by
    intro changed
    by_contra op
    obtain ⟨hw, hd⟩ := ends.sameWindow (fun e => op (.inl e)) (fun e => op (.inr e))
    rcases changed with e | e
    · exact e hw
    · exact e hd
  have side := ends.sameHostSide
  rcases ends.fsm_cases with ⟨op, fsm, res⟩ | ⟨op, fsm, res⟩ | ⟨op, active, fsm, res⟩ | ⟨op, fsm, res, site⟩ | ⟨op, fsm, res⟩ |
    ⟨op0, op1, op5, fsm, res⟩
  · exact ⟨.inr (.inl ⟨op, fsm⟩), fun _ => fsm, by simp [op], by simp [op], by simp [res], window, side⟩
  · exact ⟨.inr (.inr (.inl ⟨op, fsm⟩)), by simp [op], fun _ _ => fsm, by simp [op], by simp [res], window, side⟩
  · refine ⟨?_, by simp [op], by simp [op], fun _ _ last => by rw [fsm, if_pos last], by simp [res], window, side⟩
    cases last : w.getLsbD 16 with
    | false => exact .inl (by rw [fsm, last, active]; rfl)
    | true => exact .inr (.inr (.inr (.inl ⟨op, active, by simp [fsm, last], rfl⟩)))
  · refine ⟨?_, fun e => absurd e op, by simp [res], by simp [res], fun _ => fsm, window, side⟩
    rcases site with site | failed
    · exact .inr (.inr (.inr (.inr ⟨fsm, res, site⟩)))
    · exact .inl (fsm.trans failed.symm)
  · exact ⟨.inl fsm, by simp [op], by simp [res], by simp [res], by simp [res], window, side⟩
  · exact ⟨.inl fsm, fun e => absurd e op0, fun e => absurd e op1, fun e => absurd e op5, by simp [res], window, side⟩

/-! ## RESET -/

/-- Settles O10: power-on and RESET leave `State.resetWith`, but for the configuration and the host's side. -/
theorem resetLeavesTheResetValues : Obligations.ResetLeavesTheResetValues := by
  constructor
  · rintro s (rfl | ⟨u, ignored, next⟩)
    · exact ⟨rfl, rfl, rfl, rfl, rfl, rfl, rfl, rfl, rfl, rfl, rfl, rfl, rfl, rfl, rfl⟩
    · cases next
      exact ⟨rfl, rfl, rfl, rfl, rfl, rfl, rfl, rfl, rfl, rfl, rfl, rfl, rfl, rfl, rfl⟩
  · exact fun s _ => ⟨resetState s, rfl, rfl, rfl, rfl, rfl⟩

end Sys2Proof.Machine
end

section
/-! SUPPORT. The invariants of the engine (10_state.md rules R103, R104, R111 and R114): the reset values have them, a command
whose hints are clear runs in a state that is `Ready`, and each state a step can end in keeps them. -/

namespace Sys2Proof.Machine

/-! ## Registers the invariants do not read -/

/-- Decoding writes only registers of which the invariants say nothing. -/
theorem DecodeWrites.inv {s t : State} (writes : DecodeWrites s t) (h : s.Inv) : t.Inv := by
  obtain ⟨dp, ph, pf, rfl⟩ := writes
  exact { h with }

/-! ## Reset -/

theorem params_ok_iff (p : Params) : p.ok = true ↔
    1 ≤ p.maxBlock ∧ p.maxBlock ≤ 131072 ∧ p.maxBlock + 1 ≤ p.winCap ∧ p.maxBlock + 7 ≤ p.inCap ∧ p.winCap < 2 ^ 32 ∧
      p.inCap < 2 ^ 32 := by
  simp [Params.ok, and_assoc]

/-- The reset values have the invariants, whatever the wire structure to fetch. -/
theorem resetWith_inv {p : Params} (hp : p.ok = true) (wire : Option Selector) :
    State.Inv { State.resetWith p with wire := wire } where
  params := hp
  window := Nat.zero_le _
  room := by have := (params_ok_iff p).1 hp; simp [State.resetWith]; omega
  inEnd := Nat.zero_le _
  inWf := Memory.wf_nil
  inFits := by simp [State.resetWith]
  outOrder := Nat.le_refl _
  outEnd := Nat.zero_le _
  winWf := Memory.wf_nil
  winListed := by simp [State.resetWith]
  retained := by simp [State.resetWith]
  idle := by simp [State.resetWith]
  dict := by simp [State.resetWith]
  oneHint := by simp [State.resetWith]
  notYet := by simp [State.resetWith]
  notYetActive := by simp [State.resetWith]
  errorKind := rfl
  failed := by simp [State.resetWith]
  wireHints := by simp [State.resetWith]

/-- Settles O56: the default parameters are in their domain. -/
theorem resetHasTheInvariants : Obligations.ResetHasTheInvariants :=
  resetWith_inv (by decide) none

theorem resetState_inv {s : State} (h : s.Inv) : (resetState s).Inv :=
  { resetWith_inv h.params s.wire with }

/-! ## A command's own rule -/

/-- Every invariant but those of RESULT, with both hints clear: a state in which a command's own rule runs, RESULT still being
the last command's (46_commands.md rules R702 and R703). -/
def State.Ready (s : State) : Prop := State.Inv { s with result := .ok }

namespace State.Ready
variable {s : State}

theorem hints (h : s.Ready) : s.needInput = false ∧ s.needDrain = false := by
  have := h.notYet
  simpa using this

/-- RESULT is free but for NOT_YET. -/
theorem inv (h : s.Ready) {r : CmdResult} (hr : r ≠ .notYet) : State.Inv { s with result := r } :=
  { h with
    notYet := by simpa [hr] using h.hints
    notYetActive := fun e => absurd e hr }

end State.Ready

theorem ready_of_hints_clear {s : State} (h : s.Inv) (hi : s.needInput = false) (hd : s.needDrain = false) : s.Ready :=
  { h with
    notYet := by simp [hi, hd]
    notYetActive := fun e => by cases e }

theorem clearHints_ready {s : State} (h : s.Inv) : (clearHints s).Ready :=
  { h with
    oneHint := by simp
    notYet := by simp
    notYetActive := fun e => by cases e
    wireHints := fun _ => ⟨rfl, rfl⟩ }

/-! ## What a command ends in -/

section
variable {s : State} (h : s.Ready)
include h

theorem gateFailed_inv : (gateFailed s).Inv := h.inv (by decide)

theorem errorEntry_inv {e : Site} (site : e ≠ .none) : (errorEntry e s).Inv :=
  { h.inv (r := .error) (by decide) with
    idle := by simp
    notYetActive := by simp
    errorKind := rfl
    failed := by simp [site] }

theorem awaitInput_inv (active : s.fsm = .active) (wire : s.wire = none) : (awaitInput s).Inv :=
  { h with
    oneHint := by simp [h.hints]
    notYet := by simp
    notYetActive := fun _ => active
    wireHints := fun e => absurd wire e }

theorem awaitDrain_inv (active : s.fsm = .active) (wire : s.wire = none) : (awaitDrain s).Inv :=
  { h with
    oneHint := by simp [h.hints]
    notYet := by simp
    notYetActive := fun _ => active
    wireHints := fun e => absurd wire e }

theorem frameStart_inv {a : Nat} {d : Option Dictionary} (window : a ≤ windowSizeMax)
    (room : a + s.params.maxBlock ≤ s.params.winCap) (dict : FrameDict s.params d) : (frameStart a d s).Inv where
  params := by simpa using h.params
  window := by simpa using window
  room := by simpa using room
  inEnd := by simpa using h.inEnd
  inWf := by simpa using h.inWf
  inFits := by simpa using h.inFits
  outOrder := by simp
  outEnd := by simp
  winWf := by simpa using Memory.wf_nil
  winListed := by simp
  retained := by simp
  idle := by simp
  dict := by
    intro active
    obtain ⟨x, rfl⟩ : ∃ x, d = some x := Option.isSome_iff_exists.1 (by simpa using active)
    exact ⟨x, by simpa using dict x rfl⟩
  oneHint := by simp [h.hints]
  notYet := by simp [h.hints]
  notYetActive := by simp
  errorKind := by simp [siteKind]
  failed := by simp
  wireHints := by simp [h.hints]

theorem inputCommit_inv {n : Nat} (fits : n ≤ s.params.inCap - s.iEnd) :
    State.Inv { s with iEnd := s.iEnd + n, result := .ok } :=
  { h with
    inEnd := by have : s.iEnd ≤ s.params.inCap := h.inEnd; show s.iEnd + n ≤ s.params.inCap; omega }

theorem outputCommit_inv {n : Nat} (there : n ≤ s.wEnd - s.wStart) :
    State.Inv { s with wStart := s.wStart + n, result := .ok } :=
  { h with
    outOrder := by have : s.wStart ≤ s.wEnd := h.outOrder; show s.wStart + n ≤ s.wEnd; omega }

/-- The compaction keeps IN canonical and inside its buffer (20_memory.md rule R206). -/
theorem consumeIn_ready (k : Nat) : (consumeIn k s).Ready :=
  { h with
    inEnd := Nat.le_trans (Nat.sub_le _ _) h.inEnd
    inWf := Memory.wf_slide _ _ _ h.inWf
    inFits := fun c hc => by
      have fits : c.1 + k < s.params.inCap := h.inFits _ (Memory.mem_slide hc).1
      show c.1 < s.params.inCap
      omega }

/-- A slide drops only bytes that the window does not need (45_window.md rule R651). -/
theorem tryFlush_ready {need : Nat} {u : State} (flush : tryFlush need s = some u) : u.Ready := by
  rcases tryFlush_some flush with ⟨-, rfl⟩ | ⟨-, -, rfl⟩
  · exact h
  · obtain ⟨drained, behind⟩ := slideAmount_le s
    have order : s.wStart ≤ s.wEnd := h.outOrder
    have cap : s.wEnd ≤ s.params.winCap := h.outEnd
    have retained : (s.drained : Int) ≤ max 0 ((s.drained : Int) + s.wEnd - s.w) := h.retained
    exact { h with
      outOrder := by show s.wStart - slideAmount s ≤ s.wEnd - slideAmount s; omega
      outEnd := by show s.wEnd - slideAmount s ≤ s.params.winCap; omega
      winWf := Memory.wf_slide _ _ _ h.winWf
      winListed := fun a => by
        have listed : (Memory.get s.win (slideAmount s + a)).isSome = true ↔ slideAmount s + a < s.wEnd := h.winListed _
        show (Memory.get (Memory.slide s.win (slideAmount s) s.wEnd) a).isSome = true ↔ a < s.wEnd - slideAmount s
        rw [Memory.get_slide]
        split
        · rw [listed]; omega
        · simp; omega
      retained := by
        show ((s.drained + slideAmount s : Nat) : Int) ≤
          max 0 (((s.drained + slideAmount s : Nat) : Int) + (s.wEnd - slideAmount s : Nat) - s.w)
        omega
      idle := fun e => by
        obtain ⟨w, wEnd, drained, dict⟩ : s.w = 0 ∧ s.wEnd = 0 ∧ s.drained = 0 ∧ s.dictActive = false := h.idle e
        exact ⟨w, by show s.wEnd - slideAmount s = 0; omega, by show s.drained + slideAmount s = 0; omega, dict⟩ }

/-- A run appended at W_END is all that becomes defined (45_window.md rule R667). -/
theorem commit_inv (active : s.fsm = .active) {outLen : Nat} (room : s.wEnd + outLen ≤ s.params.winCap) {m : Memory}
    (run : RunWritten s.wEnd outLen s.win m) (needIn : Nat) (last : Bool) (r : RepOffsets) (ph : Option HufTable)
    (pf : PrevFse) (dp : Dp) :
    (commit outLen needIn last { s with win := m, rep := r, prevHuf := ph, prevFse := pf, dp := dp }).Inv := by
  have order : s.wStart ≤ s.wEnd := h.outOrder
  have retained : (s.drained : Int) ≤ max 0 ((s.drained : Int) + s.wEnd - s.w) := h.retained
  have noError : ¬ s.errSite ≠ .none := fun e => by have := h.failed.2 e; simp [active] at this
  have fsm : (if last then Fsm.done else s.fsm) = .active ∨ (if last then Fsm.done else s.fsm) = .done := by
    cases last <;> simp [active]
  exact { consumeIn_ready h needIn with
    outOrder := Nat.le_trans order (Nat.le_add_right _ _)
    outEnd := room
    winWf := run.wf h.winWf
    winListed := fun a => by
      have listed : (Memory.get s.win a).isSome = true ↔ a < s.wEnd := h.winListed _
      show (Memory.get m a).isSome = true ↔ a < s.wEnd + outLen
      by_cases inside : s.wEnd ≤ a ∧ a < s.wEnd + outLen
      · simp [run.inside h.winWf a inside.1 inside.2, inside.2]
      · rw [run.outside h.winWf a (by omega), listed]; omega
    retained := by
      show (s.drained : Int) ≤ max 0 ((s.drained : Int) + (s.wEnd + outLen : Nat) - s.w)
      omega
    idle := fun e => by rw [commit_fsm] at e; rcases fsm with g | g <;> rw [g] at e <;> cases e
    notYetActive := by simp
    failed := by
      rw [commit_fsm]
      exact ⟨fun e => (by rcases fsm with g | g <;> rw [g] at e <;> cases e), fun e => absurd e noError⟩ }

end

/-- A command keeps the invariants. -/
theorem command_inv {w : Word64} {s t : State} (h : s.Inv) (wire : s.wire = none) (ends : CommandEnds w s t) : t.Inv := by
  have ready := clearHints_ready h
  cases ends with
  | reset => exact resetState_inv h
  | gated => exact gateFailed_inv ready
  | raises _ e site => exact errorEntry_inv ready site
  | beginsFrame _ a d window room dict => exact frameStart_inv ready window room dict
  | commitsInput _ n fits => exact inputCommit_inv ready fits
  | commitsOutput _ n there => exact outputCommit_inv ready there
  | consumes _ n => exact (consumeIn_ready ready n).inv (by decide)
  | awaitsInput _ active => exact awaitInput_inv ready active wire
  | awaitsRoom _ active => exact awaitDrain_inv ready active wire
  | raisesInBlock _ need u flush e site => exact errorEntry_inv (tryFlush_ready ready flush) site
  | commitsBlock _ active need u flush o needIn m r ph pf dp fits run =>
    have active : u.fsm = .active := by obtain ⟨_, _, _, _, rfl⟩ := tryFlush_shape flush; exact active
    have room : u.wEnd + need ≤ u.params.winCap := by
      rcases tryFlush_some flush with ⟨room, rfl⟩ | ⟨-, room, rfl⟩ <;> exact room
    exact commit_inv (tryFlush_ready ready flush) active (by omega) run needIn _ r ph pf dp

/-! ## A step -/

/-- A selector row keeps the invariants: it ends in an error, or writes registers they do not read. -/
theorem selector_inv {i : Instr} {s t : State} (h : s.Inv) (ready : s.Ready) (sel : isSelector i = true)
    (next : exec i s = .next t) : t.Inv := by
  obtain ⟨u, eq, ends⟩ := selector_next sel s
  rw [next] at eq
  cases eq
  rcases ends with ⟨e, site, rfl⟩ | writes
  · exact errorEntry_inv ready site
  · exact writes.inv h

/-- Every selector byte is a selector row. -/
theorem decodeSelector_isSelector (k : Selector) (b : Byte) : isSelector (decodeSelector k b) = true := by
  cases k with
  | literals => simp only [decodeSelector, decodeLiteralsByte]; split <;> rfl
  | huffman => simp only [decodeSelector, decodeHuffmanByte]; split <;> rfl
  | seqCount => simp only [decodeSelector, decodeSeqCountByte]; split_ifs <;> rfl
  | seqModes f =>
    simp only [decodeSelector, decodeSeqModesByte]
    split
    · split <;> rfl
    · rfl

theorem fetchSelector_inv {k : Selector} {s t : State} (h : s.Inv) (wire : s.wire = some k)
    (next : fetchSelector exec k s = .next t) : t.Inv := by
  obtain ⟨hi, hd⟩ := h.wireHints (by simp [wire])
  have inv : State.Inv { s with wire := none } := { h with wireHints := fun e => absurd rfl e }
  unfold fetchSelector at next
  split at next
  next b fr read =>
    have fetched := (litsWrite_putFr _ fr).decode.inv inv
    exact selector_inv fetched (ready_of_hints_clear fetched hi hd) (decodeSelector_isSelector k _) next
  next x read =>
    obtain ⟨e, site, rfl⟩ := frReadLe_onlyRaises _ _ _ x read
    cases next
    exact errorEntry_inv (ready_of_hints_clear inv hi hd) site

theorem hostAccess_inv {acc : HostAccess} {s t : State} (h : s.Inv) (wire : s.wire = none)
    (next : hostAccess exec acc s = .next t) : t.Inv := by
  cases acc with
  | csrWrite off width value =>
    simp only [hostAccess] at next
    split_ifs at next
    · exact command_inv h wire (command_ends next)
    · cases next; exact h
  | csrRead off width =>
    simp only [hostAccess] at next
    split_ifs at next
    cases next; exact { h with }
  | inWrite off bytes =>
    simp only [hostAccess] at next
    split_ifs at next with outside
    cases next
    exact { h with
      inWf := Memory.wf_setMany _ _ _ h.inWf
      inFits := fun c hc => by
        rcases Memory.mem_setMany hc with old | ⟨-, below⟩
        · exact h.inFits c old
        · show c.1 < s.params.inCap; omega }
  | inRead off len => simp only [hostAccess] at next; split_ifs at next
  | winRead off len =>
    simp only [hostAccess] at next
    split_ifs at next
    cases next; exact { h with }
  | winWrite off bytes => simp only [hostAccess] at next; split_ifs at next

/-- Settles O55: a step is a selector row, a command, or another access of the host, and each keeps the invariants. -/
theorem everyStepKeepsTheInvariants : Obligations.EveryStepKeepsTheInvariants := by
  intro s t h next
  unfold step stepWith at next
  split at next
  next k wire => exact fetchSelector_inv h wire next
  next wire =>
    split at next
    next => cases next; exact h
    next acc rest _ => exact hostAccess_inv (s := { s with host := rest }) { h with } wire next

end Sys2Proof.Machine
end

section
/-! SUPPORT. Commands and the command-internal registers (10_state.md rule R128; log 4): started in two states that differ only
there, an operation either never looks at them or carries them along, so the two answers differ only there. -/

namespace Sys2Proof.Machine

/-- `s` with the command-internal registers `d`; reducible, so that every other register of it is visibly that of `s`. -/
@[reducible] def withDp (d : Dp) (s : State) : State := { s with dp := d }

theorem settle_withDp (d : Dp) (s : State) (m : Micro State) : settle (withDp d s) m = settle s m := by
  rcases m with (e | r) | t <;> rfl

/-! ## Answers alike but for the registers -/

/-- If the first answer is a next state, so is the second, and the two states differ in the command-internal registers only. -/
def AlikeButDp (x y : Answer) : Prop := ∀ t, x = .next t → ∃ t', y = .next t' ∧ t = withDp t.dp t'

theorem alikeButDp_refl (x : Answer) : AlikeButDp x x := fun t h => ⟨t, h, rfl⟩

theorem alikeButDp_next (d : Dp) (s : State) : AlikeButDp (.next s) (.next (withDp d s)) := by
  intro t h; cases h; exact ⟨_, rfl, rfl⟩

theorem alikeButDp_ite {c : Prop} {i j : Decidable c} {x y x' y' : Answer} (hx : c → AlikeButDp x x')
    (hy : ¬c → AlikeButDp y y') : AlikeButDp (@ite _ c i x y) (@ite _ c j x' y') := by
  by_cases h : c
  · rw [if_pos h, if_pos h]; exact hx h
  · rw [if_neg h, if_neg h]; exact hy h

/-- What the registers hold at the start makes no difference to the answer but for them. -/
def IgnoresDp (body : State → Answer) : Prop := ∀ d s, AlikeButDp (body s) (body (withDp d s))

/-- An operation that carries the registers along. -/
def CarriesDp (f : State → Micro State) : Prop := ∀ d s, f (withDp d s) = (f s).map (withDp d)

theorem CarriesDp.ignoresDp {f : State → Micro State} (carries : CarriesDp f) : IgnoresDp fun s => settle s (f s) := by
  intro d s
  simp only [settle_withDp, carries d s]
  rcases f s with (e | r) | t
  · exact alikeButDp_refl _
  · exact alikeButDp_refl _
  · exact alikeButDp_next d t

/-- The common steps look at FSM and the word only. -/
theorem IgnoresDp.dispatch {body : State → Answer} (own : IgnoresDp body) (rf rc : Bool) :
    IgnoresDp (dispatchCommand rf rc body) := by
  intro d s
  refine alikeButDp_ite (fun _ => alikeButDp_next d (gateFailed (clearHints s))) fun _ => ?_
  exact alikeButDp_ite (fun _ => alikeButDp_refl _) fun _ => own d (clearHints s)

/-! ## FRAME_BEGIN and the buffer commits -/

theorem frameBegin_carriesDp (a : Nat) (f : Bool) : CarriesDp (frameBegin a f) := by
  intro d s
  simp only [frameBegin]
  split_ifs
  · rfl
  · rfl
  · split
    · rfl
    · split <;> rfl
  · rfl

theorem inputCommit_carriesDp (n : Nat) : CarriesDp (inputCommit n) := by
  intro d s
  simp only [inputCommit]
  split <;> rfl

theorem outputCommit_carriesDp (n : Nat) : CarriesDp (outputCommit n) := by
  intro d s
  simp only [outputCommit]
  split <;> rfl

theorem consumeInput_carriesDp (n : Nat) : CarriesDp (consumeInput n) := by
  intro d s
  simp only [consumeInput]
  split <;> rfl

/-! ## BLOCK -/

theorem tryFlush_withDp (need : Nat) (d : Dp) (s : State) : tryFlush need (withDp d s) = (tryFlush need s).map (withDp d) := by
  simp only [tryFlush, apply_ite (Option.map (withDp d))]
  exact ite_congr rfl (fun _ => rfl) fun _ => ite_congr rfl (fun _ => rfl) fun _ => rfl

/-- A materialization that reads no register it has not written: what COMMIT, which forgets the registers, makes of it is the
same whatever they held. -/
def StartsAfresh (mat : State → Micro (Nat × State)) : Prop :=
  ∀ (needIn : Nat) (last : Bool) (d : Dp) (s : State),
    (do let (o, v) ← mat (withDp d s); return commit o needIn last v : Micro State) =
      do let (o, v) ← mat s; return commit o needIn last v

theorem StartsAfresh.ignoresDp {mat : State → Micro (Nat × State)} (afresh : StartsAfresh mat) (size needIn needOut : Nat)
    (last : Bool) : IgnoresDp (blockSteps size needIn needOut last mat) := by
  intro d s
  refine alikeButDp_ite (fun _ => alikeButDp_refl _) fun _ => ?_
  refine alikeButDp_ite (fun _ => alikeButDp_next d (awaitInput s)) fun _ => ?_
  rw [tryFlush_withDp needOut d s]
  cases tryFlush needOut s with
  | none => exact alikeButDp_next d (awaitDrain s)
  | some u =>
    simp only [Option.map_some, settle_withDp, afresh needIn last d u]
    exact alikeButDp_refl _

theorem inBytes_withDp (d : Dp) (s : State) (a n : Nat) : inBytes (withDp d s) a n = inBytes s a n := by
  induction n generalizing a with
  | zero => rfl
  | succ n ih => exact congrArg (inByte s a :: ·) (ih (a + 1))

theorem materializeRaw_withDp (size : Nat) (d : Dp) (s : State) :
    materializeRaw size (withDp d s) = withDp d (materializeRaw size s) := by
  unfold materializeRaw
  rw [inBytes_withDp]
  rfl

/-- The decode phase of a compressed block sets every register before it starts (45_window.md rule R655); Raw and RLE blocks use
none. -/
theorem blockOf_ignoresDp (k : BlockKind) (last : Bool) (size : Nat) : IgnoresDp (blockOf k last size) := by
  have raw : StartsAfresh fun t => .ok (size, materializeRaw size t) := by
    intro _ _ d s; simp only [materializeRaw_withDp]; rfl
  have rle : StartsAfresh fun t => .ok (size, materializeRle size t) := by intro _ _ _ _; rfl
  have compressed : StartsAfresh (materializeCompressed size) := by intro _ _ _ _; rfl
  intro d s
  cases k with
  | raw => exact raw.ignoresDp size size size last d s
  | rle => exact rle.ignoresDp size 1 size last d s
  | compressed => exact compressed.ignoresDp size size s.params.maxBlock last d s

/-- The checks of the header look at the operand only. -/
theorem blockForm_ignoresDp (a : Word32) : IgnoresDp (blockForm a) := by
  intro d s
  unfold blockForm
  split
  · exact alikeButDp_refl _
  · simp only
    split
    · exact blockOf_ignoresDp .raw _ _ d s
    · exact blockOf_ignoresDp .rle _ _ d s
    · exact blockOf_ignoresDp .compressed _ _ d s
    · exact alikeButDp_refl _

theorem IgnoresDp.whenActive {body : State → Answer} (own : IgnoresDp body) : IgnoresDp (inActive body) := by
  intro d s
  exact alikeButDp_ite (fun _ => own d s) fun _ => alikeButDp_refl _

/-! ## The commands -/

/-- No command looks at a command-internal register before writing it. -/
theorem command_ignoresDp (w : Word64) : IgnoresDp (exec (decodeCmd w)) := by
  rcases decodeCmd_cases w with ⟨-, g⟩ | ⟨-, g⟩ | ⟨-, g⟩ | ⟨-, g⟩ | ⟨-, g⟩ | ⟨-, g⟩ | ⟨-, g⟩ <;> rw [g]
  · exact fun _ _ => alikeButDp_refl _
  · exact (frameBegin_carriesDp _ _).ignoresDp.dispatch _ _
  · exact (inputCommit_carriesDp _).ignoresDp.dispatch _ _
  · exact (outputCommit_carriesDp _).ignoresDp.dispatch _ _
  · exact (consumeInput_carriesDp _).ignoresDp.dispatch _ _
  · exact (blockForm_ignoresDp _).whenActive.dispatch _ _
  · have raises : IgnoresDp fun t => .next (errorEntry .illegalCmd t) := fun _ _ => alikeButDp_refl _
    exact raises.dispatch _ _

/-- Settles O60: every command ignores the registers it finds. -/
theorem commandsReadNoInternalRegister : Obligations.CommandsReadNoInternalRegister :=
  fun s t d w next => command_ignoresDp w d s t next

end Sys2Proof.Machine
end

section
/-! SUPPORT. Reads of the CSR space (10_state.md rules R118, R119 and R121): the registers stand at rising offsets without
overlap, so each byte of the space belongs to at most one, and reading a register's bytes gives its little-endian image. -/

namespace Sys2Proof.Machine

/-- The registers stand at rising offsets, each past the end of the one before. -/
theorem csrImages_disjoint (s : State) : (csrImages s).Pairwise fun r q => r.1 + r.2.1 ≤ q.1 := by
  simp [csrImages]

/-- In a list of registers without overlap, the one found at an offset is the one that covers it. -/
theorem find?_covering {l : List (Nat × Nat × Nat)} (disjoint : l.Pairwise fun r q => r.1 + r.2.1 ≤ q.1)
    {r : Nat × Nat × Nat} (mem : r ∈ l) {a : Nat} (lo : r.1 ≤ a) (hi : a < r.1 + r.2.1) :
    l.find? (fun q => decide (q.1 ≤ a) && decide (a < q.1 + q.2.1)) = some r := by
  induction l with
  | nil => cases mem
  | cons q l ih =>
    obtain ⟨past, disjoint⟩ := List.pairwise_cons.1 disjoint
    rcases List.mem_cons.1 mem with rfl | mem
    · simp [lo, hi]
    · have := past r mem
      rw [List.find?_cons_of_neg (by simp; omega)]
      exact ih disjoint mem

/-- Byte `j` of a register. -/
theorem csrByte_register {s : State} {off width v j : Nat} (reg : (off, width, v) ∈ csrImages s) (hj : j < width) :
    csrByte s (off + j) = BitVec.ofNat 8 (v >>> (8 * j)) := by
  have := find?_covering (csrImages_disjoint s) reg (a := off + j) (by simp) (by simp only; omega)
  simp [csrByte, this]

/-- Bytes read one after the other are the little-endian bytes of a number, if each is that byte of it. -/
theorem csrBytes_eq_leBytes (s : State) (n : Nat) {a v : Nat}
    (byte : ∀ j, j < n → csrByte s (a + j) = BitVec.ofNat 8 (v >>> (8 * j))) : csrBytes s a n = leBytes n v := by
  induction n generalizing a v with
  | zero => rfl
  | succ n ih =>
    have first : csrByte s a = BitVec.ofNat 8 v := byte 0 (by omega)
    have rest : csrBytes s (a + 1) n = leBytes n (v / 256) := ih fun j hj => by
      rw [show a + 1 + j = a + (j + 1) by omega, byte (j + 1) (by omega), Nat.mul_add, Nat.add_comm, Nat.shiftRight_add,
        Nat.shiftRight_eq_div_pow v]
    rw [csrBytes, leBytes, first, rest]

/-- A register's bytes read as its little-endian image (20_memory.md rule R208). -/
theorem csrBytes_register {s : State} {off width v : Nat} (reg : (off, width, v) ∈ csrImages s) :
    csrBytes s off width = leBytes width v :=
  csrBytes_eq_leBytes s width fun _ => csrByte_register reg

/-- An offset that no register covers reads 0 (10_state.md rule R121). -/
theorem csrByte_gap {s : State} {a : Nat} (gap : ∀ r ∈ csrImages s, a < r.1 ∨ r.1 + r.2.1 ≤ a) : csrByte s a = 0 := by
  have : (csrImages s).find? (fun r => decide (r.1 ≤ a) && decide (a < r.1 + r.2.1)) = none := by
    rw [List.find?_eq_none]
    intro r mem
    have := gap r mem
    simp
    omega
  simp [csrByte, this]

/-- Settles O9: every register of rule R118 is one of `csrImages`, and the gaps lie between them. -/
theorem csrReadsGiveTheRegisters : Obligations.CsrReadsGiveTheRegisters := by
  intro s
  have status : (0x08, 4, statusImage s) ∈ csrImages s := by simp [csrImages]
  refine ⟨csrBytes_register status, ?_, ?_, ?_, ?_, ?_, ?_, ?_, ?_, ?_, ?_, ?_, ?_, ?_, ?_, fun a outside => csrByte_gap ?_⟩
  case refine_15 => simp [csrImages]; omega
  all_goals exact csrBytes_register (by simp [csrImages, errImage])

end Sys2Proof.Machine
end

section
/-! SUPPORT. The host's accesses (20_memory.md section 1): with no selector byte to fetch, a step is the next access of the
host, whose address is checked first, then the host's right to make it. -/

namespace Sys2Proof.Machine

/-! ## One access -/

/-- A step takes the next access of the host, which is then gone. -/
theorem step_hostAccess {s : State} {acc : HostAccess} {rest : List HostAccess} (wire : s.wire = none)
    (next : s.host = acc :: rest) : step s = hostAccess exec acc { s with host := rest } := by
  simp only [step, stepWith, wire, next]

/-- The registers do not show which accesses are still to come. -/
theorem csrBytes_host (s : State) (rest : List HostAccess) (off n : Nat) :
    csrBytes { s with host := rest } off n = csrBytes s off n := by
  induction n generalizing off with
  | zero => rfl
  | succ n ih => exact congrArg (csrByte s off :: ·) (ih (off + 1))

/-- Bytes of WIN read one after the other are the bytes at the offsets from `a` on. -/
theorem winBytes_eq_map (s : State) (a n : Nat) : winBytes s a n = (List.range n).map fun j => winByte s (a + j) := by
  refine List.ext_getElem (by simp) fun j hj hj' => ?_
  induction n generalizing a j with
  | zero => simp at hj
  | succ n ih =>
    cases j with
    | zero => simp [winBytes]
    | succ j =>
      have rest := ih (a + 1) j (by simpa using hj) (by simpa using hj')
      simpa [winBytes, Nat.add_assoc, Nat.add_comm 1] using rest

/-- Settles O7: each access that passes its checks runs its one command, or changes what it is said to change. -/
theorem hostAccessesHaveNoSideEffect : Obligations.HostAccessesHaveNoSideEffect := by
  intro s rest wire
  refine ⟨fun v next => ?command, fun off width next below aligned => ?csrRead,
    fun off width v next below aligned other => ?csrWrite, fun off bytes next fill fits _ => ?inWrite,
    fun off len next fits => ?winRead⟩ <;> rw [step_hostAccess wire next]
  case command => rfl
  case csrRead => simp [hostAccess, aligned, Nat.not_le.2 below, csrBytes_host]
  case csrWrite => simp [hostAccess, aligned, Nat.not_le.2 below, other]
  case inWrite =>
    exact ⟨Memory.setMany s.inp off bytes, by simp [hostAccess, Nat.not_lt.2 fits, Nat.not_lt.2 fill],
      Memory.get_setMany s.inp off bytes⟩
  case winRead =>
    simp only [hostAccess, if_neg (Nat.not_lt.2 fits), winBytes_eq_map]
    rfl

/-- Settles O8: an address outside the space is found first, then the host's violation. -/
theorem hostViolationsAreRefused : Obligations.HostViolationsAreRefused := by
  intro s rest wire
  refine ⟨fun off width v next => ?csr, fun off bytes next => ?inWrite, fun off len next => ?inRead,
    fun off len next outside => ?winRead, fun off bytes next => ?winWrite⟩
  case csr =>
    rcases next with next | next <;> rw [step_hostAccess wire next] <;>
      exact ⟨fun outside => if_pos outside, fun below misaligned => by
        simp [hostAccess, Nat.not_le.2 below, misaligned]⟩
  all_goals rw [step_hostAccess wire next]
  case inWrite =>
    exact ⟨fun outside => if_pos outside, fun fits committed nonempty => by
      simp [hostAccess, Nat.not_lt.2 fits, committed, nonempty]⟩
  case inRead => exact ⟨fun outside => if_pos outside, fun fits => if_neg (Nat.not_lt.2 fits)⟩
  case winRead => exact if_pos outside
  case winWrite => exact ⟨fun outside => if_pos outside, fun fits => if_neg (Nat.not_lt.2 fits)⟩

end Sys2Proof.Machine
end

section
/-! SUPPORT. Reading a field in two parts (20_memory.md rule R210). The bits of a longer run are those of its first part, and
above them those of the rest; the forward reader meets the low part first, the backward reader the high part. -/

namespace Sys2Proof.Machine

/-! ## Forward -/

/-- A run of `n + m` bits is the first `n`, and above them the `m` that follow. -/
theorem forwardBits_add (src : Source) (sp : ReaderSpace) (base p n m : Nat) :
    forwardBits src sp base p (n + m) = forwardBits src sp base p n + 2 ^ n * forwardBits src sp base (p + n) m := by
  induction n generalizing p with
  | zero => simp [forwardBits]
  | succ n ih =>
    rw [Nat.add_right_comm n 1 m, forwardBits, forwardBits, ih, Nat.add_right_comm p 1 n, ← Nat.add_assoc p n 1, Nat.pow_succ]
    ring

/-- A read that fits its width and the reader's range has a result. -/
theorem frReadBits_fits (src : Source) {fr : Fr} {n : Nat} (width : n ≤ 32) (fits : n = 0 ∨ fr.pos + n ≤ 8 * fr.len) :
    frReadBits src fr n = .ok (forwardBits src fr.space fr.base fr.pos n, { fr with pos := fr.pos + n }) := by
  rcases Nat.eq_zero_or_pos n with rfl | pos
  · rfl
  · rw [frReadBits, if_neg (by omega), if_neg (by omega), if_neg (by omega)]

theorem frReadBits_split {src : Source} {fr fr1 fr2 : Fr} {n m x y : Nat} (width : n + m ≤ 32)
    (first : frReadBits src fr n = .ok (x, fr1)) (second : frReadBits src fr1 m = .ok (y, fr2)) :
    frReadBits src fr (n + m) = .ok (x + 2 ^ n * y, fr2) := by
  obtain ⟨-, fits1, rfl, rfl⟩ := frReadBits_ok first
  obtain ⟨-, fits2, rfl, rfl⟩ := frReadBits_ok second
  rw [frReadBits_fits src width (by simp only at fits2; omega), forwardBits_add, Nat.add_assoc]

/-! ## Backward -/

/-- A run of `n + m` bits is the first `n`, and above them the `m` that follow. -/
theorem backwardBits_add (src : Source) (base : Nat) (old i : Int) (n m : Nat) :
    backwardBits src base old i (n + m) =
      backwardBits src base old i n + 2 ^ n * backwardBits src base old (i + n) m := by
  induction n generalizing i with
  | zero => simp [backwardBits]
  | succ n ih =>
    rw [Nat.add_right_comm n 1 m, backwardBits, backwardBits, ih, Nat.cast_succ, add_right_comm i 1, ← add_assoc i, Nat.pow_succ]
    ring

/-- Where a run ends below both positions, it does not matter from which of them it is read. -/
theorem backwardBits_below (src : Source) (base : Nat) {old old' i : Int} {n : Nat} (h : i + n ≤ old) (h' : i + n ≤ old') :
    backwardBits src base old i n = backwardBits src base old' i n := by
  induction n generalizing i with
  | zero => rfl
  | succ n ih =>
    have bit : (0 ≤ i ∧ i < old) = (0 ≤ i ∧ i < old') := by simp only [eq_iff_iff]; omega
    simp only [backwardBits, bit, ih (i := i + 1) (by omega) (by omega)]

/-- A read that fits its width has a result, also where the stream has run out. -/
theorem brRead_fits (src : Source) (br : Br) {n maxn : Nat} (width : n ≤ maxn) :
    brRead src br n maxn = .ok (backwardBits src br.base br.pos (br.pos - n) n, { br with pos := br.pos - n }) := by
  rcases Nat.eq_zero_or_pos n with rfl | pos
  · simp [brRead, backwardBits]
  · rw [brRead, if_neg (by omega), if_neg (by omega)]

theorem brRead_split {src : Source} {br br1 br2 : Br} {n m x y maxn : Nat} (width : n + m ≤ maxn)
    (first : brRead src br n maxn = .ok (x, br1)) (second : brRead src br1 m maxn = .ok (y, br2)) :
    brRead src br (n + m) maxn = .ok (2 ^ m * x + y, br2) := by
  obtain ⟨-, rfl, rfl⟩ := brRead_ok first
  obtain ⟨-, rfl, rfl⟩ := brRead_ok second
  have low : br.pos - (m + n : Nat) = br.pos - n - m := by omega
  have high : br.pos - n - m + m = br.pos - n := by omega
  rw [Nat.add_comm n m, brRead_fits src br (by omega), backwardBits_add, low, high,
    backwardBits_below src br.base (old' := br.pos - n) (by omega) (by omega), Nat.add_comm]

/-- Settles O33: each reader's run splits where the first read ends. -/
theorem mixedWidthReadsAgree : Obligations.MixedWidthReadsAgree :=
  ⟨fun _ _ _ _ _ _ _ _ => frReadBits_split, fun _ _ _ _ _ _ _ _ _ => brRead_split⟩

end Sys2Proof.Machine
end

section
/-! SUPPORT. Two runs of an operation of the engine, compared (20_memory.md rule R202): either both have a result and the results
are related, or both end without one in the same way. The rules follow the ways an operation is built. -/

namespace Sys2Proof.Machine

/-- A relation holds between two choices made by one condition, if it holds between the parts chosen. -/
theorem related_ite {α : Type} {R : α → α → Prop} {c : Prop} {i j : Decidable c} {x y x' y' : α} (pos : c → R x x')
    (neg : ¬c → R y y') : R (@ite _ c i x y) (@ite _ c j x' y') := by
  by_cases h : c
  · rw [if_pos h, if_pos h]; exact pos h
  · rw [if_neg h, if_neg h]; exact neg h

/-- Both operations have a result, related by `R`, or both end alike without one. -/
inductive Alike {α : Type} (R : α → α → Prop) : Micro α → Micro α → Prop
  | ok {a b : α} (related : R a b) : Alike R (.ok a) (.ok b)
  | error (e : Halt) : Alike R (.error e) (.error e)

/-- The two results are one, and it has the property. -/
def Same {α : Type} (P : α → Prop) (a b : α) : Prop := a = b ∧ P a

/-- The two results have one value beside parts related by `R`. -/
def SameFst {α β : Type} (R : β → β → Prop) (a b : α × β) : Prop := a.1 = b.1 ∧ R a.2 b.2

section
variable {α β γ : Type} {R : α → α → Prop} {S : β → β → Prop} {P : α → Prop} {x y : Micro α} {f g : α → Micro β}

theorem alike_raise (site : Site) : Alike R (raise site) (raise site) := .error _

theorem alike_pure {a b : α} (related : R a b) : Alike R (pure a) (pure b) := .ok related

theorem Alike.bind (first : Alike R x y) (rest : ∀ a b, R a b → Alike S (f a) (g b)) : Alike S (x >>= f) (y >>= g) := by
  cases first with
  | ok related => exact rest _ _ related
  | error e => exact .error e

/-- After a part with one result in both runs, the rest is compared from that result. -/
theorem Alike.bindSame (first : Alike (Same P) x y) (rest : ∀ a, P a → Alike S (f a) (g a)) :
    Alike S (x >>= f) (y >>= g) := first.bind fun a _ ⟨e, h⟩ => e ▸ rest a h

/-- After a part with one value beside related parts, the rest is compared from that value. -/
theorem Alike.bindFst {x y : Micro (γ × α)} {f g : γ × α → Micro β} (first : Alike (SameFst R) x y)
    (rest : ∀ v a b, R a b → Alike S (f (v, a)) (g (v, b))) : Alike S (x >>= f) (y >>= g) := by
  refine first.bind ?_
  rintro ⟨v, a⟩ ⟨_, b⟩ ⟨rfl, related⟩
  exact rest v a b related

/-- An operation that does not differ between the runs is alike in what its results have. -/
theorem alike_same (post : ∀ a, x = .ok a → P a) : Alike (Same P) x x := by
  rcases x with e | a
  · exact .error e
  · exact .ok ⟨rfl, post a rfl⟩

theorem alike_refl (x : Micro α) : Alike (Same fun _ => True) x x := alike_same fun _ _ => trivial

end

end Sys2Proof.Machine
end

section
/-! SUPPORT. What the readers read (20_memory.md rule R202, 40_bit_readers.md): a reader whose range ends below `n` reads bytes
below `n` only, and the readers made from it are such readers too; so two sources that agree below `n` give each operation on
readers one result. -/

namespace Sys2Proof.Machine

/-- The two sources give the same bytes below `n`. -/
def AgreeBelow (n : Nat) (src src' : Source) : Prop := ∀ sp a, a < n → src sp a = src' sp a

/-- The reader's range ends at `n` at the latest. -/
def Fr.Within (n : Nat) (fr : Fr) : Prop := fr.base + fr.len ≤ n

/-- The bits left to the reader lie below byte `n`. -/
def Br.Within (n : Nat) (br : Br) : Prop := 8 * (br.base : Int) + br.pos ≤ 8 * n

/-! ## Operations that read nothing -/

section
variable {n : Nat} {fr : Fr} (within : fr.Within n)
include within

theorem frRewind_alike (k : Nat) : Alike (Same fun r => r.Within n) (frRewind fr k) (frRewind fr k) :=
  alike_same fun r h => by obtain ⟨-, rfl⟩ := frRewind_ok h; exact within

theorem frAlign_alike : Alike (Same fun r => r.Within n) (frAlign fr) (frAlign fr) :=
  alike_same fun r h => by obtain ⟨-, rfl⟩ := frAlign_ok h; exact within

/-- The range read ends below `n`, and so does the range of the reader past it. -/
theorem frReadBytes_alike (k : Nat) :
    Alike (Same fun r => r.1 + k ≤ n ∧ r.2.Within n) (frReadBytes fr k) (frReadBytes fr k) :=
  alike_same fun r h => by
    obtain ⟨-, fits, start, past⟩ := frReadBytes_ok h
    rw [start, past]
    unfold Fr.Within at *
    exact ⟨by omega, within⟩

theorem frSubForward_alike (k : Nat) :
    Alike (Same fun r => r.1.Within n ∧ r.2.Within n) (frSubForward fr k) (frSubForward fr k) :=
  (frReadBytes_alike within k).bindSame fun _ ⟨range, past⟩ => alike_pure ⟨rfl, range, past⟩

end

/-! ## Bits and bytes -/

section
variable {n : Nat} {src src' : Source} (agree : AgreeBelow n src src')
include agree

theorem bitAt_agree (sp : ReaderSpace) {base i : Nat} (below : base + i / 8 < n) :
    bitAt src sp base i = bitAt src' sp base i := by rw [bitAt, bitAt, agree sp _ below]

theorem forwardBits_agree (sp : ReaderSpace) {base p k : Nat} (below : 8 * base + p + k ≤ 8 * n) :
    forwardBits src sp base p k = forwardBits src' sp base p k := by
  induction k generalizing p with
  | zero => rfl
  | succ k ih => rw [forwardBits, forwardBits, bitAt_agree agree sp (by omega), ih (by omega)]

theorem memRead_agree (sp : ReaderSpace) {a k : Nat} (below : a + k ≤ n) : memRead src sp a k = memRead src' sp a k := by
  induction k generalizing a with
  | zero => rfl
  | succ k ih => rw [memRead, memRead, agree sp a (by omega), ih (by omega)]

theorem sourceBytes_agree (sp : ReaderSpace) {a k : Nat} (below : a + k ≤ n) :
    sourceBytes src sp a k = sourceBytes src' sp a k := by
  induction k generalizing a with
  | zero => rfl
  | succ k ih => rw [sourceBytes, sourceBytes, agree sp a (by omega), ih (by omega)]

theorem directWeights_agree (sp : ReaderSpace) {a k : Nat} (below : a + (k + 1) / 2 ≤ n) :
    directWeights src sp a k = directWeights src' sp a k := by
  induction a, k using directWeights.induct with
  | case1 => rfl
  | case2 a => rw [directWeights, directWeights, agree sp a (by omega)]
  | case3 a k ih => rw [directWeights, directWeights, agree sp a (by omega), ih (by omega)]

/-- The bits of a backward run at or above `old` are not read. -/
theorem backwardBits_agree {base : Nat} {old : Int} (below : 8 * (base : Int) + old ≤ 8 * n) (i : Int) (k : Nat) :
    backwardBits src base old i k = backwardBits src' base old i k := by
  induction k generalizing i with
  | zero => rfl
  | succ k ih =>
    rw [backwardBits, backwardBits, ih]
    congr 1
    exact ite_congr rfl (fun range => bitAt_agree agree .inp (by omega)) fun _ => rfl

/-! ## Forward reader -/

section
variable {fr : Fr} (within : fr.Within n)
include within

theorem frReadBits_alike (k : Nat) :
    Alike (Same fun r => r.2.Within n) (frReadBits src fr k) (frReadBits src' fr k) := by
  refine related_ite (fun _ => alike_raise _) fun _ => related_ite (fun _ => .ok ⟨rfl, within⟩) fun _ => ?_
  refine related_ite (fun _ => alike_raise _) fun fits => .ok ⟨?_, within⟩
  unfold Fr.Within at within
  rw [forwardBits_agree agree fr.space (by omega)]

theorem frReadLe_alike (k : Nat) : Alike (Same fun r => r.2.Within n) (frReadLe src fr k) (frReadLe src' fr k) := by
  refine related_ite (fun _ => alike_raise _) fun _ => related_ite (fun _ => alike_raise _) fun fits => .ok ⟨?_, within⟩
  unfold Fr.Within at within
  rw [memRead_agree agree fr.space (by omega)]

end

/-! ## Backward reader -/

/-- The reader starts below the marker bit of the range's last byte. -/
theorem brMake_alike {base len : Nat} (within : base + len ≤ n) :
    Alike (Same fun r => r.Within n) (brMake src base len) (brMake src' base len) := by
  refine related_ite (fun _ => alike_raise _) fun nonempty => ?_
  rw [← agree .inp (base + len - 1) (by omega)]
  refine related_ite (fun _ => alike_raise _) fun marker => .ok ⟨rfl, ?_⟩
  have := (Nat.log2_lt marker).2 (src .inp (base + len - 1)).isLt
  simp only [Br.Within, hsb]
  omega

theorem brRead_alike {br : Br} (within : br.Within n) (k maxn : Nat) :
    Alike (Same fun r => r.2.Within n) (brRead src br k maxn) (brRead src' br k maxn) := by
  unfold Br.Within at within
  refine related_ite (fun _ => alike_raise _) fun _ => related_ite (fun _ => .ok ⟨rfl, within⟩) fun _ => .ok ⟨?_, ?_⟩
  · rw [backwardBits_agree agree within]
  · simp only [Br.Within]; omega

theorem frSubBackward_alike {fr : Fr} (within : fr.Within n) (k : Nat) :
    Alike (Same fun r => r.1.Within n ∧ r.2.Within n) (frSubBackward src fr k) (frSubBackward src' fr k) :=
  (frReadBytes_alike within k).bindSame fun _ ⟨range, past⟩ =>
    (brMake_alike agree range).bindSame fun _ made => alike_pure ⟨rfl, made, past⟩

theorem frRestBackward_alike {fr : Fr} (within : fr.Within n) :
    Alike (Same fun r => r.1.Within n ∧ r.2.Within n) (frRestBackward src fr) (frRestBackward src' fr) :=
  (alike_refl _).bindSame fun k _ => frSubBackward_alike agree within k

end

end Sys2Proof.Machine
end

section
/-! SUPPORT. What reading tables and streams reads (20_memory.md rule R202, 41_fse.md, 42_huffman.md, 44_sequences.md): the
operations over readers whose ranges end below `n`, from two sources that agree there. -/

namespace Sys2Proof.Machine

section
variable {n : Nat} {src src' : Source} (agree : AgreeBelow n src src')
include agree

/-! ## FSE -/

theorem fseRepeats_alike (fuel : Nat) {fr : Fr} (within : fr.Within n) (norm : List Int) :
    Alike (Same fun r => r.1.Within n) (fseRepeats src fuel fr norm) (fseRepeats src' fuel fr norm) := by
  induction fuel generalizing fr norm with
  | zero => exact alike_raise _
  | succ fuel ih =>
    refine (frReadBits_alike agree within 2).bindSame fun _ within => related_ite (fun _ => alike_raise _) fun _ => ?_
    exact related_ite (fun _ => ih within _) fun _ => alike_pure ⟨rfl, within⟩

theorem fseField_alike {fr : Fr} (within : fr.Within n) (remaining : Nat) :
    Alike (Same fun r => r.2.Within n) (fseField src fr remaining) (fseField src' fr remaining) := by
  refine (frReadBits_alike agree within _).bindSame fun _ within => related_ite (fun _ => ?_) fun _ => ?_
  · exact (frRewind_alike within 1).bindSame fun _ within => alike_pure ⟨rfl, within⟩
  · exact related_ite (fun _ => alike_pure ⟨rfl, within⟩) fun _ => alike_pure ⟨rfl, within⟩

theorem fseFields_alike (fuel : Nat) {fr : Fr} (within : fr.Within n) (remaining : Int) (norm : List Int) :
    Alike (Same fun r => r.1.Within n) (fseFields src fuel fr remaining norm) (fseFields src' fuel fr remaining norm) := by
  induction fuel generalizing fr remaining norm with
  | zero => exact alike_raise _
  | succ fuel ih =>
    refine related_ite (fun _ => .ok ⟨rfl, within⟩) fun _ => related_ite (fun _ => alike_raise _) fun _ => ?_
    refine (fseField_alike agree within _).bindSame fun _ within => related_ite (fun _ => ?_) fun _ => ih within _ _
    exact (fseRepeats_alike agree _ within _).bindSame fun _ within => ih within _ _

theorem fseReadDistribution_alike {fr : Fr} (within : fr.Within n) (maxacc : Nat) :
    Alike (Same fun r => r.2.2.Within n) (fseReadDistribution src fr maxacc) (fseReadDistribution src' fr maxacc) := by
  refine (frReadBits_alike agree within 4).bindSame fun _ within => related_ite (fun _ => alike_raise _) fun _ => ?_
  refine (fseFields_alike agree _ within _ _).bindSame fun _ within => (frAlign_alike within).bindSame fun _ within => ?_
  exact related_ite (fun _ => alike_raise _) fun _ => alike_pure ⟨rfl, within⟩

theorem fseReadHeader_alike {fr : Fr} (within : fr.Within n) (maxacc : Nat) :
    Alike (Same fun r => r.2.Within n) (fseReadHeader src fr maxacc) (fseReadHeader src' fr maxacc) :=
  (fseReadDistribution_alike agree within maxacc).bindSame fun _ within =>
    (alike_refl _).bindSame fun _ _ => alike_pure ⟨rfl, within⟩

theorem fseInit_alike (t : FseTable) {br : Br} (within : br.Within n) :
    Alike (Same fun r => r.2.Within n) (fseInit src t br) (fseInit src' t br) := brRead_alike agree within _ _

theorem fseUpdate_alike (t : FseTable) (s : Nat) {br : Br} (within : br.Within n) :
    Alike (Same fun r => r.2.Within n) (fseUpdate src t s br) (fseUpdate src' t s br) :=
  (brRead_alike agree within _ _).bindSame fun _ within => alike_pure ⟨rfl, within⟩

theorem fseDecode2Loop_alike (t : FseTable) (cap fuel s1 s2 : Nat) {br : Br} (within : br.Within n) (acc : List Nat) :
    Alike (Same fun _ => True) (fseDecode2Loop src t cap fuel s1 s2 br acc)
      (fseDecode2Loop src' t cap fuel s1 s2 br acc) := by
  induction fuel generalizing s1 s2 br acc with
  | zero => exact alike_raise _
  | succ fuel ih =>
    refine (alike_refl _).bindSame fun _ _ => (fseUpdate_alike agree t s1 within).bindSame fun _ within => ?_
    refine related_ite (fun _ => alike_refl _) fun _ => ?_
    refine (alike_refl _).bindSame fun _ _ => (fseUpdate_alike agree t s2 within).bindSame fun _ within => ?_
    exact related_ite (fun _ => alike_refl _) fun _ => ih _ _ within _

theorem fseDecode2_alike (t : FseTable) {br : Br} (within : br.Within n) (cap : Nat) :
    Alike (Same fun _ => True) (fseDecode2 src t br cap) (fseDecode2 src' t br cap) :=
  (fseInit_alike agree t within).bindSame fun _ within => (fseInit_alike agree t within).bindSame fun _ within =>
    fseDecode2Loop_alike agree t _ _ _ _ within _

/-! ## Huffman -/

theorem hufReadWeights_alike {fr : Fr} (within : fr.Within n) (hdr : Nat) :
    Alike (Same fun w => w.fr.Within n) (hufReadWeights src fr hdr) (hufReadWeights src' fr hdr) := by
  refine related_ite (fun _ => ?direct) fun _ => ?coded
  case direct =>
    refine (frReadBytes_alike within _).bindSame fun _ ⟨range, past⟩ => alike_pure ⟨?_, past⟩
    rw [directWeights_agree agree fr.space range]
  case coded =>
    refine (frSubForward_alike within hdr).bindSame fun _ ⟨sub, past⟩ => ?_
    refine (fseReadHeader_alike agree sub _).bindSame fun _ sub => (frRestBackward_alike agree sub).bindSame fun _ ⟨br, _⟩ => ?_
    exact (fseDecode2_alike agree _ br _).bindSame fun _ _ => alike_pure ⟨rfl, past⟩

theorem hufTableAfterHeader_alike {fr : Fr} (within : fr.Within n) (hdr : Nat) :
    Alike (Same fun r => r.weights.fr.Within n) (hufTableAfterHeader src fr hdr) (hufTableAfterHeader src' fr hdr) :=
  (hufReadWeights_alike agree within hdr).bindSame fun _ past => (alike_refl _).bindSame fun _ _ => alike_pure ⟨rfl, past⟩

theorem hufReadTable_alike {fr : Fr} (within : fr.Within n) :
    Alike (Same fun r => r.weights.fr.Within n) (hufReadTable src fr) (hufReadTable src' fr) :=
  (frReadLe_alike agree within 1).bindSame fun _ within => hufTableAfterHeader_alike agree within _

theorem hufUpdate_alike (t : HufTable) (s : Nat) {br : Br} (within : br.Within n) :
    Alike (Same fun r => r.2.Within n) (hufUpdate src t s br) (hufUpdate src' t s br) :=
  (brRead_alike agree within _ _).bindSame fun _ within => alike_pure ⟨rfl, within⟩

theorem hufStreamLoop_alike (t : HufTable) (room s : Nat) {br : Br} (within : br.Within n) (lits : List Byte) :
    Alike (Same fun _ => True) (hufStreamLoop src t room s br lits) (hufStreamLoop src' t room s br lits) := by
  induction room generalizing s br lits with
  | zero => unfold hufStreamLoop; exact alike_refl _
  | succ room ih =>
    unfold hufStreamLoop
    refine related_ite (fun _ => alike_refl _) fun _ => ?_
    exact (hufUpdate_alike agree t s within).bindSame fun _ within => ih _ within _

theorem hufStream_alike (t : HufTable) {br : Br} (within : br.Within n) (cap : Nat) (lits : List Byte) :
    Alike (Same fun _ => True) (hufStream src t br cap lits) (hufStream src' t br cap lits) :=
  (brRead_alike agree within _ _).bindSame fun _ within => hufStreamLoop_alike agree t _ _ within _

/-! ## The streams of a literals section -/

theorem litOneStream_alike (t : HufTable) {sub : Fr} (within : sub.Within n) (regen : Nat) :
    Alike (Same fun _ => True) (litOneStream src t sub regen) (litOneStream src' t sub regen) :=
  (frRestBackward_alike agree within).bindSame fun _ ⟨br, _⟩ => hufStream_alike agree t br _ _

theorem litFourStreams_alike (t : HufTable) {sub : Fr} (within : sub.Within n) (regen : Nat) :
    Alike (Same fun _ => True) (litFourStreams src t sub regen) (litFourStreams src' t sub regen) := by
  refine (frReadLe_alike agree within 2).bindSame fun _ within => (frReadLe_alike agree within 2).bindSame fun _ within => ?_
  refine (frReadLe_alike agree within 2).bindSame fun _ within => ?_
  refine (frSubBackward_alike agree within _).bindSame fun _ ⟨b1, within⟩ => ?_
  refine (frSubBackward_alike agree within _).bindSame fun _ ⟨b2, within⟩ => ?_
  refine (frSubBackward_alike agree within _).bindSame fun _ ⟨b3, within⟩ => ?_
  refine (frRestBackward_alike agree within).bindSame fun _ ⟨b4, _⟩ => ?_
  refine (hufStream_alike agree t b1 _ _).bindSame fun _ _ => (hufStream_alike agree t b2 _ _).bindSame fun _ _ => ?_
  exact (hufStream_alike agree t b3 _ _).bindSame fun _ _ => hufStream_alike agree t b4 _ _

theorem litDecodeStreams_alike (four : Bool) (t : HufTable) {sub : Fr} (within : sub.Within n) (regen : Nat) :
    Alike (Same fun _ => True) (litDecodeStreams src four t sub regen) (litDecodeStreams src' four t sub regen) :=
  related_ite (fun _ => litFourStreams_alike agree t within regen) fun _ => litOneStream_alike agree t within regen

theorem litRawRleSize_alike {fr : Fr} (within : fr.Within n) (sf maxBlock : Nat) :
    Alike (Same fun r => r.2.Within n) (litRawRleSize src fr sf maxBlock) (litRawRleSize src' fr sf maxBlock) := by
  have bits : Alike (Same fun r => r.2.Within n) (litSizeBits src fr sf) (litSizeBits src' fr sf) := by
    refine related_ite (fun _ => (frRewind_alike within 1).bindSame fun _ within => frReadBits_alike agree within 5) fun _ => ?_
    exact related_ite (fun _ => frReadBits_alike agree within 12) fun _ => frReadBits_alike agree within 20
  exact bits.bindSame fun _ within => related_ite (fun _ => alike_raise _) fun _ => alike_pure ⟨rfl, within⟩

/-! ## Sequences -/

theorem seqCount_alike {fr : Fr} (within : fr.Within n) :
    Alike (Same fun r => r.2.Within n) (seqCount src fr) (seqCount src' fr) := by
  refine (frReadLe_alike agree within 1).bindSame fun _ within => related_ite (fun _ => alike_pure ⟨rfl, within⟩) fun _ => ?_
  refine related_ite (fun _ => ?_) fun _ => ?_
  · exact (frReadLe_alike agree within 1).bindSame fun _ within => alike_pure ⟨rfl, within⟩
  · exact (frReadLe_alike agree within 2).bindSame fun _ within => alike_pure ⟨rfl, within⟩

theorem seqDecodeOne_alike (t : SeqTables) {st : SeqStates} (within : st.br.Within n) :
    Alike (Same fun r => r.2.Within n) (seqDecodeOne src t st) (seqDecodeOne src' t st) := by
  refine related_ite (fun _ => alike_raise _) fun _ => related_ite (fun _ => alike_raise _) fun _ => ?_
  refine (brRead_alike agree within _ 32).bindSame fun _ within => (brRead_alike agree within _ 32).bindSame fun _ within => ?_
  exact (brRead_alike agree within _ 32).bindSame fun _ within => alike_pure ⟨rfl, within⟩

theorem seqUpdate_alike (t : SeqTables) {st : SeqStates} (within : st.br.Within n) :
    Alike (Same fun r => r.br.Within n) (seqUpdate src t st) (seqUpdate src' t st) :=
  (fseUpdate_alike agree t.ll st.ll within).bindSame fun _ within =>
    (fseUpdate_alike agree t.ml st.ml within).bindSame fun _ within =>
      (fseUpdate_alike agree t.oft st.oft within).bindSame fun _ within => alike_pure ⟨rfl, within⟩

theorem seqInit_alike (t : SeqTables) {br : Br} (within : br.Within n) :
    Alike (Same fun r => r.br.Within n) (seqInit src t br) (seqInit src' t br) :=
  (fseInit_alike agree t.ll within).bindSame fun _ within => (fseInit_alike agree t.oft within).bindSame fun _ within =>
    (fseInit_alike agree t.ml within).bindSame fun _ within => alike_pure ⟨rfl, within⟩

theorem seqDecodeLoop_alike (t : SeqTables) (k : Nat) {st : SeqStates} (within : st.br.Within n) (acc : List SeqEntry) :
    Alike (Same fun _ => True) (seqDecodeLoop src t k st acc) (seqDecodeLoop src' t k st acc) := by
  induction k generalizing st acc with
  | zero => exact alike_refl _
  | succ k ih =>
    refine (seqDecodeOne_alike agree t within).bindSame fun _ within => related_ite (fun _ => alike_refl _) fun _ => ?_
    exact (seqUpdate_alike agree t within).bindSame fun _ within => ih within _

theorem seqDecodeAll_alike (t : SeqTables) {br : Br} (within : br.Within n) (count : Nat) :
    Alike (Same fun _ => True) (seqDecodeAll src t br count) (seqDecodeAll src' t br count) :=
  (seqInit_alike agree t within).bindSame fun _ within =>
    (seqDecodeLoop_alike agree t count within []).bindSame fun _ _ => alike_refl _

end

end Sys2Proof.Machine
end

section
/-! SUPPORT. A block and the bytes of IN (20_memory.md rule R202): started in two states that differ in the bytes of IN only, and
there only at or above its input need, a block decodes, executes and commits alike, and the states stay such. -/

namespace Sys2Proof.Machine

/-- `s` with other bytes in IN; reducible, so that every other register of it is visibly that of `s`. -/
@[reducible] def withInp (m : Memory) (s : State) : State := { s with inp := m }

/-- The two states differ in the bytes of IN only. -/
def SameButInp (s s' : State) : Prop := ∃ m, s' = withInp m s

/-- The two states differ in the bytes of IN only, and there not below `n`. -/
def AgreeInp (n : Nat) (s s' : State) : Prop := ∃ m, s' = withInp m s ∧ ∀ a, a < n → inByte s' a = inByte s a

/-- The two states agree in IN below `n`, and the range of their forward reader ends at `n` at the latest. -/
def DecodeAlike (n : Nat) (s s' : State) : Prop := AgreeInp n s s' ∧ s.dp.fr.Within n

theorem source_withInp {n : Nat} {m : Memory} {s : State} (bytes : ∀ a, a < n → inByte (withInp m s) a = inByte s a) :
    AgreeBelow n (source s) (source (withInp m s))
  | .inp, a, below => (bytes a below).symm
  | .lb, _, _ => rfl

/-! ## The decode phase (45_window.md rule R655) -/

section
variable {n : Nat} {s s' : State} (alike : DecodeAlike n s s')
include alike

theorem DecodeAlike.putFr {fr : Fr} (within : fr.Within n) : DecodeAlike n (putFr s fr) (putFr s' fr) := by
  obtain ⟨⟨m, rfl, bytes⟩, -⟩ := alike
  exact ⟨⟨m, rfl, bytes⟩, within⟩

theorem DecodeAlike.putCount (count : Nat) {fr : Fr} (within : fr.Within n) :
    DecodeAlike n (putCount s count fr) (putCount s' count fr) := by
  obtain ⟨⟨m, rfl, bytes⟩, -⟩ := alike
  exact ⟨⟨m, rfl, bytes⟩, within⟩

theorem DecodeAlike.putFreshTable (r : HufRead) :
    DecodeAlike n { putHufRead s r with prevHuf := some r.table } { putHufRead s' r with prevHuf := some r.table } := by
  obtain ⟨⟨m, rfl, bytes⟩, within⟩ := alike
  unfold Machine.putHufRead
  split <;> exact ⟨⟨m, rfl, bytes⟩, within⟩

theorem DecodeAlike.putTable (f : SeqField) (t : FseTable) : DecodeAlike n (putTable f t s) (putTable f t s') := by
  obtain ⟨⟨m, rfl, bytes⟩, within⟩ := alike
  cases f <;> exact ⟨⟨m, rfl, bytes⟩, within⟩

theorem litRaw_alike (size : Nat) : Alike (DecodeAlike n) (litRaw size s) (litRaw size s') := by
  obtain ⟨⟨m, rfl, bytes⟩, within⟩ := alike
  refine (frReadBytes_alike within size).bindSame fun _ ⟨range, past⟩ => alike_pure ?_
  rw [sourceBytes_agree (source_withInp bytes) s.dp.fr.space range]
  exact ⟨⟨m, rfl, bytes⟩, past⟩

theorem litRle_alike (size : Nat) : Alike (DecodeAlike n) (litRle size s) (litRle size s') := by
  obtain ⟨⟨m, rfl, bytes⟩, within⟩ := alike
  exact (frReadLe_alike (source_withInp bytes) within 1).bindSame fun _ past => alike_pure ⟨⟨m, rfl, bytes⟩, past⟩

theorem litStreams_alike (four : Bool) (t : HufTable) {sub : Fr} (range : sub.Within n) (regen : Nat) :
    Alike (DecodeAlike n) (litStreams four t sub regen s) (litStreams four t sub regen s') := by
  obtain ⟨⟨m, rfl, bytes⟩, within⟩ := alike
  refine (litDecodeStreams_alike (source_withInp bytes) four t range regen).bindSame fun _ _ => ?_
  exact related_ite (fun _ => alike_raise _) fun _ => alike_pure ⟨⟨m, rfl, bytes⟩, within⟩

theorem litHuffmanBody_alike (fresh four : Bool) (regen csize : Nat) :
    Alike (DecodeAlike n) (litHuffmanBody fresh four regen csize s) (litHuffmanBody fresh four regen csize s') := by
  obtain ⟨⟨m, rfl, bytes⟩, within⟩ := alike
  refine related_ite (fun _ => alike_raise _) fun _ => (frSubForward_alike within csize).bindSame fun _ ⟨sub, past⟩ => ?_
  have moved := DecodeAlike.putFr ⟨⟨m, rfl, bytes⟩, within⟩ past
  refine related_ite (fun _ => ?fresh) fun _ => ?kept
  case fresh =>
    refine (hufReadTable_alike (source_withInp bytes) sub).bindSame fun r range => ?_
    exact litStreams_alike (moved.putFreshTable r) four r.table range regen
  case kept => exact (alike_refl (litPreviousTable s)).bindSame fun t _ => litStreams_alike moved four t sub regen

theorem litSection_alike : Alike (DecodeAlike n) (litSection s) (litSection s') := by
  obtain ⟨⟨m, rfl, bytes⟩, within⟩ := alike
  have agree := source_withInp bytes
  have moved : ∀ {fr : Fr}, fr.Within n → DecodeAlike n (Machine.putFr s fr) (Machine.putFr (withInp m s) fr) :=
    DecodeAlike.putFr ⟨⟨m, rfl, bytes⟩, within⟩
  refine (frReadBits_alike agree within 2).bindSame fun _ within => (frReadBits_alike agree within 2).bindSame fun _ within => ?_
  refine related_ite (fun _ => ?plain) fun _ => ?huffman
  case plain =>
    refine (litRawRleSize_alike agree within _ _).bindSame fun _ within => ?_
    exact related_ite (fun _ => litRaw_alike (moved within) _) fun _ => litRle_alike (moved within) _
  case huffman =>
    refine (frReadBits_alike agree within _).bindSame fun _ within => (frReadBits_alike agree within _).bindSame fun _ within => ?_
    exact litHuffmanBody_alike (moved within) _ _ _ _

theorem seqEmptyEnd_alike : Alike (DecodeAlike n) (seqEmptyEnd s) (seqEmptyEnd s') := by
  obtain ⟨⟨m, rfl, bytes⟩, within⟩ := alike
  exact (alike_refl (frRemaining s.dp.fr)).bindSame fun _ _ =>
    related_ite (fun _ => alike_raise _) fun _ => alike_pure ⟨⟨m, rfl, bytes⟩, within⟩

theorem seqTable_alike (f : SeqField) (mode : Nat) :
    Alike (SameFst (DecodeAlike n)) (seqTable f mode s) (seqTable f mode s') := by
  have configured := alike.putTable f
  obtain ⟨⟨m, rfl, bytes⟩, within⟩ := alike
  have moved : ∀ {fr : Fr}, fr.Within n → DecodeAlike n (Machine.putFr s fr) (Machine.putFr (withInp m s) fr) :=
    DecodeAlike.putFr ⟨⟨m, rfl, bytes⟩, within⟩
  unfold seqTable
  split
  · exact .ok ⟨rfl, configured _⟩
  · exact (frReadLe_alike (source_withInp bytes) within 1).bindSame fun _ past => alike_pure ⟨rfl, (moved past).putTable f _⟩
  · exact (fseReadHeader_alike (source_withInp bytes) within _).bindSame fun _ past =>
      alike_pure ⟨rfl, (moved past).putTable f _⟩
  · have previous : prevTable (withInp m s) f = prevTable s f := by cases f <;> rfl
    rw [seqTableRepeat, seqTableRepeat, previous]
    split
    · exact alike_raise _
    · exact .ok ⟨rfl, configured _⟩

theorem seqBody_alike : Alike (DecodeAlike n) (seqBody s) (seqBody s') := by
  obtain ⟨⟨m, rfl, bytes⟩, within⟩ := alike
  refine (frReadLe_alike (source_withInp bytes) within 1).bindSame fun _ past => related_ite (fun _ => alike_raise _) fun _ => ?_
  refine (seqTable_alike (DecodeAlike.putFr ⟨⟨m, rfl, bytes⟩, within⟩ past) .ll _).bindFst fun tll _ _ alike => ?_
  refine (seqTable_alike alike .oft _).bindFst fun tof _ _ alike => ?_
  refine (seqTable_alike alike .ml _).bindFst fun tml _ _ alike => ?_
  obtain ⟨⟨m, rfl, bytes⟩, within⟩ := alike
  refine (frRestBackward_alike (source_withInp bytes) within).bindSame fun _ ⟨br, past⟩ => ?_
  exact (seqDecodeAll_alike (source_withInp bytes) _ br _).bindSame fun _ _ => alike_pure ⟨⟨m, rfl, bytes⟩, past⟩

theorem seqSection_alike : Alike (DecodeAlike n) (seqSection s) (seqSection s') := by
  have counted := fun count {fr : Fr} => alike.putCount (fr := fr) count
  obtain ⟨⟨m, rfl, bytes⟩, within⟩ := alike
  exact (seqCount_alike (source_withInp bytes) within).bindSame fun _ past =>
    related_ite (fun _ => seqEmptyEnd_alike (counted _ past)) fun _ => seqBody_alike (counted _ past)

end

/-- The payload is the range of the decode phase's reader. -/
theorem decodePhase_alike {size : Nat} {s s' : State} (agree : AgreeInp size s s') :
    Alike (DecodeAlike size) (decodePhase size s) (decodePhase size s') := by
  obtain ⟨m, rfl, bytes⟩ := agree
  have start : DecodeAlike size { s with dp := { Dp.idle with fr := frMake .inp 0 size } }
      { withInp m s with dp := { Dp.idle with fr := frMake .inp 0 size } } :=
    ⟨⟨m, rfl, bytes⟩, by simp [Fr.Within, frMake]⟩
  exact (litSection_alike start).bind fun _ _ => seqSection_alike

/-! ## EXECUTE reads no byte of IN (45_window.md rule R656) -/

section
variable {s s' : State} (same : SameButInp s s')
include same

theorem matchLoop_alike (off : Int) (dl k t : Nat) :
    Alike SameButInp (matchLoop off dl k t s) (matchLoop off dl k t s') := by
  induction k generalizing t s s' with
  | zero => exact .ok same
  | succ k ih =>
    obtain ⟨m, rfl⟩ := same
    exact (alike_refl (matchByte ((t : Int) - off) dl s)).bindSame fun _ _ => ih ⟨m, rfl⟩ _

theorem matchCopy_alike (off : Word64) (ml t : Nat) : Alike SameButInp (matchCopy off ml t s) (matchCopy off ml t s') := by
  have copies := fun dl => matchLoop_alike same off.toInt dl ml t
  obtain ⟨m, rfl⟩ := same
  refine related_ite (fun _ => alike_raise _) fun _ => related_ite (fun _ => ?_) fun _ => ?_
  · exact related_ite (fun _ => alike_raise _) fun _ => copies _
  · exact related_ite (fun _ => alike_raise _) fun _ => copies _

theorem executeOne_alike (e : SeqEntry) (t : Nat) : Alike SameButInp (executeOne e t s) (executeOne e t s') := by
  obtain ⟨m, rfl⟩ := same
  exact related_ite (fun _ => alike_raise _) fun _ => matchCopy_alike ⟨m, rfl⟩ _ _ _

theorem executeSeqs_alike (es : List SeqEntry) (t : Nat) :
    Alike (SameFst SameButInp) (executeSeqs es t s) (executeSeqs es t s') := by
  induction es generalizing t s s' with
  | nil => exact .ok ⟨rfl, same⟩
  | cons e es ih => exact (executeOne_alike same e t).bind fun _ _ same => ih same _

theorem execute_alike : Alike (SameFst SameButInp) (execute s) (execute s') := by
  obtain ⟨m, rfl⟩ := same
  refine related_ite (fun _ => alike_raise _) fun _ => (executeSeqs_alike ⟨m, rfl⟩ _ _).bindFst fun _ _ _ same => ?_
  obtain ⟨m, rfl⟩ := same
  exact alike_pure ⟨rfl, m, rfl⟩

end

/-! ## The steps of a block (46_commands.md rule R720) -/

/-- A materialization that reads IN below its input need only. -/
def ReadsBelow (needIn : Nat) (mat : State → Micro (Nat × State)) : Prop :=
  ∀ s s', AgreeInp needIn s s' → Alike (SameFst SameButInp) (mat s) (mat s')

theorem inBytes_agree {s s' : State} {n a k : Nat} (bytes : ∀ x, x < n → inByte s' x = inByte s x) (below : a + k ≤ n) :
    inBytes s' a k = inBytes s a k := by
  induction k generalizing a with
  | zero => rfl
  | succ k ih => rw [inBytes, inBytes, bytes a (by omega), ih (by omega)]

theorem materializeRaw_readsBelow (size : Nat) : ReadsBelow size fun t => .ok (size, materializeRaw size t) := by
  rintro s _ ⟨m, rfl, bytes⟩
  refine .ok ⟨rfl, m, ?_⟩
  simp only [materializeRaw, inBytes_agree bytes (Nat.zero_add size).le]
  rfl

theorem materializeRle_readsBelow (size : Nat) : ReadsBelow 1 fun t => .ok (size, materializeRle size t) := by
  rintro s _ ⟨m, rfl, bytes⟩
  refine .ok ⟨rfl, m, ?_⟩
  simp only [materializeRle, bytes 0 Nat.one_pos]
  rfl

theorem materializeCompressed_readsBelow (size : Nat) : ReadsBelow size (materializeCompressed size) :=
  fun _ _ agree => (decodePhase_alike agree).bind fun _ _ ⟨⟨m, same, _⟩, _⟩ => execute_alike ⟨m, same⟩

theorem tryFlush_withInp (need : Nat) (m : Memory) (s : State) :
    tryFlush need (withInp m s) = (tryFlush need s).map (withInp m) := by
  simp only [tryFlush, apply_ite (Option.map (withInp m))]
  exact ite_congr rfl (fun _ => rfl) fun _ => ite_congr rfl (fun _ => rfl) fun _ => rfl

/-- If the first answer is a next state, so is the second, and the two states differ in the bytes of IN only. -/
def AlikeButInp (x y : Answer) : Prop := ∀ t, x = .next t → ∃ t', y = .next t' ∧ SameButInp t t'

theorem alikeButInp_next {s s' : State} (same : SameButInp s s') : AlikeButInp (.next s) (.next s') := by
  rintro _ ⟨⟩; exact ⟨s', rfl, same⟩

theorem Alike.settle {x y : Micro State} (alike : Alike SameButInp x y) (m : Memory) (s : State) :
    AlikeButInp (settle s x) (settle (withInp m s) y) := by
  rcases alike with same | site | r
  · exact alikeButInp_next same
  · exact alikeButInp_next ⟨m, rfl⟩
  · rintro _ ⟨⟩

/-- The steps of a block read IN through its materialization only. -/
theorem ReadsBelow.blockSteps {needIn : Nat} {mat : State → Micro (Nat × State)} (reads : ReadsBelow needIn mat)
    (size needOut : Nat) (last : Bool) {s s' : State} (agree : AgreeInp needIn s s') :
    AlikeButInp (blockSteps size needIn needOut last mat s) (blockSteps size needIn needOut last mat s') := by
  obtain ⟨m, rfl, bytes⟩ := agree
  refine related_ite (fun _ => alikeButInp_next ⟨m, rfl⟩) fun _ => related_ite (fun _ => alikeButInp_next ⟨m, rfl⟩) fun _ => ?_
  rw [tryFlush_withInp needOut m s]
  cases flush : tryFlush needOut s with
  | none => exact alikeButInp_next ⟨m, rfl⟩
  | some u =>
    have agree : AgreeInp needIn u (withInp m u) := by
      obtain ⟨win, wStart, wEnd, drained, rfl⟩ := tryFlush_shape flush
      exact ⟨m, rfl, bytes⟩
    refine Alike.settle ((reads _ _ agree).bindFst fun _ _ _ same => ?_) m u
    obtain ⟨m, rfl⟩ := same
    exact alike_pure ⟨_, rfl⟩

/-- The common steps of a block, and its own, end alike in two states that agree below its input need. -/
theorem AgreeInp.dispatch {n : Nat} {body : State → Answer} (own : ∀ s s', AgreeInp n s s' → AlikeButInp (body s) (body s'))
    {s s' : State} (agree : AgreeInp n s s') :
    AlikeButInp (dispatchCommand false true (inActive body) s) (dispatchCommand false true (inActive body) s') := by
  obtain ⟨m, rfl, bytes⟩ := agree
  refine related_ite (fun _ => alikeButInp_next ⟨m, rfl⟩) fun _ => related_ite (fun _ => alikeButInp_next ⟨m, rfl⟩) fun _ => ?_
  exact related_ite (fun _ => own _ _ ⟨m, rfl, bytes⟩) fun _ => alikeButInp_next ⟨m, rfl⟩

/-- Settles O59: each block row is the steps of a block whose materialization reads below the row's input need. -/
theorem blocksReadOnlyTheirPayload : Obligations.BlocksReadOnlyTheirPayload := by
  intro s t m last size i needIn row bytes next
  have agree : AgreeInp needIn s (withInp m s) := ⟨m, rfl, bytes⟩
  have alike : AlikeButInp (exec i s) (exec i (withInp m s)) := by
    simp only [List.mem_cons, Prod.mk.injEq, List.not_mem_nil, or_false] at row
    rcases row with ⟨rfl, rfl⟩ | ⟨rfl, rfl⟩ | ⟨rfl, rfl⟩
    · exact agree.dispatch fun _ _ => (materializeRaw_readsBelow _).blockSteps _ _ last
    · exact agree.dispatch fun _ _ => (materializeRle_readsBelow _).blockSteps _ _ last
    · refine agree.dispatch fun u u' agree => ?_
      have steps := (materializeCompressed_readsBelow size.toNat).blockSteps size.toNat u.params.maxBlock last agree
      obtain ⟨m, rfl, -⟩ := agree
      exact steps
  obtain ⟨t', next', m', rfl⟩ := alike t next
  exact ⟨_, next', rfl⟩

end Sys2Proof.Machine
end

section
/-! SUPPORT. Words, their bytes and their fields (30_encoding.md rules R301 and R310, 20_memory.md rule R208): a word is the word
of its fields, and the fields of a word made of fields are those. -/

namespace Sys2Proof

/-! ## Little-endian bytes -/

theorem length_leBytes (n v : Nat) : (leBytes n v).length = n := by
  induction n generalizing v with
  | zero => rfl
  | succ n ih => rw [leBytes, List.length_cons, ih]

theorem leValue_leBytes (n v : Nat) : leValue (leBytes n v) = v % 256 ^ n := by
  induction n generalizing v with
  | zero => exact (Nat.mod_one v).symm
  | succ n ih =>
    rw [leBytes, leValue, ih, BitVec.toNat_ofNat, Nat.pow_succ' (n := n), Nat.mod_mul (x := v)]

theorem leBytes_leValue (bs : List Byte) : leBytes bs.length (leValue bs) = bs := by
  induction bs with
  | nil => rfl
  | cons b bs ih =>
    have low : BitVec.ofNat 8 (b.toNat + 256 * leValue bs) = b := BitVec.eq_of_toNat_eq (by simp; omega)
    have rest : (b.toNat + 256 * leValue bs) / 256 = leValue bs := by omega
    rw [List.length_cons, leValue, leBytes, low, rest, ih]

theorem leValue_lt (bs : List Byte) : leValue bs < 256 ^ bs.length := by
  induction bs with
  | nil => exact Nat.one_pos
  | cons b bs ih => rw [leValue, List.length_cons, Nat.pow_succ]; omega

/-! ## Fields as parts of the word's value -/

theorem extractLsb'_eq_ofNat_div {n : Nat} (x : BitVec n) (start len : Nat) :
    x.extractLsb' start len = BitVec.ofNat len (x.toNat / 2 ^ start) := by
  rw [BitVec.extractLsb', Nat.shiftRight_eq_div_pow]

theorem getLsbD_eq_decide {n : Nat} (x : BitVec n) (i : Nat) : x.getLsbD i = decide (x.toNat / 2 ^ i % 2 = 1) :=
  Nat.testBit_eq_decide_div_mod_eq

/-- A bit range is known by its bits. -/
theorem extractLsb'_eq_of_bits {n start len : Nat} {x : BitVec n} {y : BitVec len}
    (bits : ∀ i, i < len → x.getLsbD (start + i) = y.getLsbD i) : x.extractLsb' start len = y :=
  BitVec.eq_of_getLsbD_eq fun i hi => by rw [BitVec.getLsbD_extractLsb', bits i hi, decide_eq_true hi, Bool.true_and]

/-! ## Command words (30_encoding.md rule R301) -/

section
variable (op : Byte) (f : Bool) (rsv0 : BitVec 7) (a : Word32) (rsv1 : BitVec 16)

@[simp] theorem cmdOp_cmdWord : cmdOp (cmdWord op f rsv0 a rsv1) = op := BitVec.extractLsb'_append_eq_right

@[simp] theorem cmdF_cmdWord : cmdF (cmdWord op f rsv0 a rsv1) = f := by
  simp only [cmdF, cmdWord, BitVec.getLsbD_append]
  simp

@[simp] theorem cmdRsv0_cmdWord : cmdRsv0 (cmdWord op f rsv0 a rsv1) = rsv0 :=
  extractLsb'_eq_of_bits fun i hi => by simp only [cmdWord, BitVec.getLsbD_append]; grind

@[simp] theorem cmdA_cmdWord : cmdA (cmdWord op f rsv0 a rsv1) = a :=
  extractLsb'_eq_of_bits fun i hi => by simp only [cmdWord, BitVec.getLsbD_append]; grind

@[simp] theorem cmdRsv1_cmdWord : cmdRsv1 (cmdWord op f rsv0 a rsv1) = rsv1 :=
  extractLsb'_eq_of_bits fun i hi => by simp only [cmdWord, BitVec.getLsbD_append]; grind

end

/-- A command word is the word of its fields. -/
theorem cmdWord_fields (w : Word64) : cmdWord (cmdOp w) (cmdF w) (cmdRsv0 w) (cmdA w) (cmdRsv1 w) = w := by
  apply BitVec.eq_of_getLsbD_eq
  intro i hi
  simp only [cmdWord, cmdOp, cmdF, cmdRsv0, cmdA, cmdRsv1, BitVec.getLsbD_append, BitVec.getLsbD_extractLsb']
  grind

/-! ## Block headers (30_encoding.md rule R310) -/

section
variable (last : Bool) (kind : BitVec 2) (size : BitVec 21)

@[simp] theorem hdrLast_hdrWord : hdrLast (hdrWord last kind size) = last := by
  simp only [hdrLast, hdrWord, BitVec.getLsbD_append]
  simp

@[simp] theorem hdrKind_hdrWord : hdrKind (hdrWord last kind size) = kind :=
  extractLsb'_eq_of_bits fun i hi => by simp only [hdrWord, BitVec.getLsbD_append]; grind

@[simp] theorem hdrSize_hdrWord : hdrSize (hdrWord last kind size) = size :=
  extractLsb'_eq_of_bits fun i hi => by simp only [hdrWord, BitVec.getLsbD_append]; grind

end

/-- A block header is the header of its fields. -/
theorem hdrWord_fields (h : BitVec 24) : hdrWord (hdrLast h) (hdrKind h) (hdrSize h) = h := by
  apply BitVec.eq_of_getLsbD_eq
  intro i hi
  simp only [hdrWord, hdrLast, hdrKind, hdrSize, BitVec.getLsbD_append, BitVec.getLsbD_extractLsb']
  grind

/-- The block kinds of 30_encoding.md rule R311, as the cases of a header. -/
theorem decodeBlockHeader_cases (h : BitVec 24) :
    (hdrKind h = 0#2 ∧ decodeBlockHeader h = .blkRaw (hdrLast h) (hdrSize h)) ∨
    (hdrKind h = 1#2 ∧ decodeBlockHeader h = .blkRle (hdrLast h) (hdrSize h)) ∨
    (hdrKind h = 2#2 ∧ decodeBlockHeader h = .blkCompressed (hdrLast h) (hdrSize h)) ∨
    (hdrKind h = 3#2 ∧ decodeBlockHeader h = .blkReserved (hdrLast h) (hdrSize h)) := by
  have kinds : ∀ k : BitVec 2, k = 0#2 ∨ k = 1#2 ∨ k = 2#2 ∨ k = 3#2 := by decide
  rcases kinds (hdrKind h) with kind | kind | kind | kind <;> simp [decodeBlockHeader, kind]

end Sys2Proof
end

section
/-! SUPPORT. Decoding and encoding agree (30_encoding.md): on the word of a well-formed instruction, and on every word of every
format. -/

namespace Sys2Proof

open Machine (decodeCmd_cases decodeSelector_isSelector isSelector)

/-! ## The words of the instructions -/

theorem decodeCmd_of_six_le {w : Word64} (op : 6 ≤ (cmdOp w).toNat) :
    decodeCmd w = .reservedOpcode (cmdOp w) (cmdF w) (cmdRsv0 w) (cmdA w) (cmdRsv1 w) := by
  unfold decodeCmd
  split
  case h_7 => rfl
  all_goals omega

/-- A well-formed instruction is read back from its word: a command and a block header by their fields, a selector row, which has
a byte's operands at most, for each of them. -/
theorem decodeWord_encodeWord {i : Instr} (wf : i.wf = true) : decodeWord (formatOf i) (encodeWord i) = i := by
  cases i with
  | reset ignored =>
    have op : cmdOp (ignored ++ 0x00#8) = 0#8 := BitVec.extractLsb'_append_eq_right
    have rest : (ignored ++ 0x00#8).extractLsb' 8 56 = ignored := BitVec.extractLsb'_append_eq_left
    simp [formatOf, encodeWord, decodeWord, decodeCmd, op, rest]
  | frameBegin | inputCommit | outputCommit | consume | block => simp [formatOf, encodeWord, decodeWord, decodeCmd]
  | reservedOpcode op f rsv0 a rsv1 =>
    have op : 6 ≤ (cmdOp (cmdWord op f rsv0 a rsv1)).toNat := by simpa [Instr.wf] using wf
    simp [formatOf, encodeWord, decodeWord, decodeCmd_of_six_le op]
  | blkRaw | blkRle | blkCompressed | blkReserved => simp [formatOf, encodeWord, decodeWord, decodeBlockHeader]
  | litRawSf02 s | litRleSf02 s | litRawSf1 s | litRawSf3 s | litRleSf1 s | litRleSf3 s | litCompressedSf0 s
  | litCompressedSf1 s | litCompressedSf2 s | litCompressedSf3 s | litTreelessSf0 s | litTreelessSf1 s | litTreelessSf2 s
  | litTreelessSf3 s => clear wf; revert s; decide +kernel
  | hufDirect n | hufFse n | seqCountShort n | seqCountMedium n => revert n; decide +kernel
  | seqCountZero | seqCountLong => rfl
  | seqModeLlPredefined x | seqModeLlRle x | seqModeLlFse x | seqModeLlRepeat x | seqModeOfPredefined x | seqModeOfRle x
  | seqModeOfFse x | seqModeOfRepeat x | seqModeMlPredefined x | seqModeMlRle x | seqModeMlFse x | seqModeMlRepeat x =>
    clear wf; revert x; decide +kernel
  | seqModesReserved r x => revert r x; decide +kernel

/-- Bits of a word above its format are not read. -/
theorem decodeWord_mod (fmt : Format) (w : Nat) : decodeWord fmt (w % 256 ^ formatBytes fmt) = decodeWord fmt w := by
  have mod : ∀ n, BitVec.ofNat n (w % 2 ^ n) = BitVec.ofNat n w := fun n => BitVec.eq_of_toNat_eq (by simp)
  cases fmt with
  | cmd64 => exact congrArg decodeCmd (mod 64)
  | blockHeader24 => exact congrArg decodeBlockHeader (mod 24)
  | selector k => exact congrArg (decodeSelector k) (mod 8)

/-! ## The instructions of the words -/

theorem encodeWord_decodeCmd (w : Word64) : encodeWord (decodeCmd w) = w.toNat := by
  have word := congrArg BitVec.toNat (cmdWord_fields w)
  rcases decodeCmd_cases w with ⟨op, g⟩ | ⟨op, g⟩ | ⟨op, g⟩ | ⟨op, g⟩ | ⟨op, g⟩ | ⟨op, g⟩ | ⟨-, g⟩ <;> rw [g, encodeWord]
  case inl =>
    have low : w.extractLsb' 0 8 = 0x00#8 := op
    rw [← low, BitVec.extractLsb'_append_extractLsb'_eq_extractLsb' (by rfl)]
    simp
  case inr.inr.inr.inr.inr.inr => exact word
  all_goals rw [op] at word; exact word

theorem encodeWord_decodeBlockHeader (h : BitVec 24) : encodeWord (decodeBlockHeader h) = h.toNat := by
  have word := congrArg BitVec.toNat (hdrWord_fields h)
  rcases decodeBlockHeader_cases h with ⟨kind, g⟩ | ⟨kind, g⟩ | ⟨kind, g⟩ | ⟨kind, g⟩ <;> rw [kind] at word <;>
    rw [g] <;> exact word

/-- Each of the 256 bytes, in each structure. -/
theorem encodeWord_decodeSelector (k : Selector) (b : Byte) : encodeWord (decodeSelector k b) = b.toNat := by
  cases k with
  | literals | huffman | seqCount => revert b; decide +kernel
  | seqModes f => cases f <;> (revert b; decide +kernel)

/-- A word of a format is read back from its instruction. -/
theorem encodeWord_decodeWord {fmt : Format} {w : Nat} (fits : w < 256 ^ formatBytes fmt) :
    encodeWord (decodeWord fmt w) = w := by
  cases fmt with
  | cmd64 => exact (encodeWord_decodeCmd _).trans (Nat.mod_eq_of_lt fits)
  | blockHeader24 => exact (encodeWord_decodeBlockHeader _).trans (Nat.mod_eq_of_lt fits)
  | selector k => exact (encodeWord_decodeSelector k _).trans (Nat.mod_eq_of_lt fits)

/-- The instruction of a word has words of the same length. -/
theorem formatBytes_decodeWord (fmt : Format) (w : Nat) : formatBytes (formatOf (decodeWord fmt w)) = formatBytes fmt := by
  cases fmt with
  | cmd64 =>
    rcases decodeCmd_cases (BitVec.ofNat 64 w) with ⟨-, g⟩ | ⟨-, g⟩ | ⟨-, g⟩ | ⟨-, g⟩ | ⟨-, g⟩ | ⟨-, g⟩ | ⟨-, g⟩ <;>
      rw [decodeWord, g] <;> rfl
  | blockHeader24 =>
    rcases decodeBlockHeader_cases (BitVec.ofNat 24 w) with ⟨-, g⟩ | ⟨-, g⟩ | ⟨-, g⟩ | ⟨-, g⟩ <;> rw [decodeWord, g] <;> rfl
  | selector k =>
    have sel := decodeSelector_isSelector k (BitVec.ofNat 8 w)
    unfold isSelector at sel
    split at sel
    next e => rw [decodeWord, e]; rfl
    next => cases sel

/-! ## Bytes -/

theorem decode_ok {fmt : Format} {bs : List Byte} (length : bs.length = formatBytes fmt) (rest : List Byte) :
    decode fmt (bs ++ rest) = .ok (decodeWord fmt (leValue bs), rest) := by
  have enough : ¬ (bs ++ rest).length < formatBytes fmt := by simp [length]
  rw [decode, if_neg enough, List.take_left' length, List.drop_left' length]

theorem decode_truncated_iff (fmt : Format) (bs : List Byte) :
    decode fmt bs = .error .truncated ↔ bs.length < formatBytes fmt := by
  unfold decode
  split
  next short => simp [short]
  next enough => simp [enough]

/-- Settles O1: the words agree (`decodeWord_encodeWord`, `encodeWord_decodeWord`), and a word is its little-endian bytes. -/
theorem encodingRoundTrips : Obligations.EncodingRoundTrips := by
  refine ⟨fun i rest wf => ?_, fun fmt bs length => ⟨decodeWord fmt (leValue bs), ?_, ?_⟩, decode_truncated_iff⟩
  · rw [encode, decode_ok (length_leBytes _ _), leValue_leBytes, decodeWord_mod, decodeWord_encodeWord wf]
  · simpa using decode_ok length []
  · have fits : leValue bs < 256 ^ formatBytes fmt := length ▸ leValue_lt bs
    rw [encode, formatBytes_decodeWord, encodeWord_decodeWord fits, ← length, leBytes_leValue]

end Sys2Proof
end

section
/-! SUPPORT. Where the fields of a command word and of a block header stand (30_encoding.md rules R301 and R310), the words of
rule R303, and BLOCK as the instruction of the header in its operand (rule R302; log 2). -/

namespace Sys2Proof

open Machine

/-! ## Command words -/

/-- Settles O2, by evaluating the decoder and the encoder at the five words. -/
theorem assembledWordsDecode : Obligations.AssembledWordsDecode :=
  ⟨rfl, rfl, rfl, rfl, rfl, rfl, rfl, rfl, rfl, rfl, rfl⟩

theorem toNat_cmdOp (w : Word64) : (cmdOp w).toNat = w.toNat % 2 ^ 8 := by
  rw [cmdOp, extractLsb'_eq_ofNat_div, BitVec.toNat_ofNat, Nat.pow_zero, Nat.div_one]

/-- Settles O3: each field is its part of the word's value, and the opcode is matched as a number. -/
theorem commandFieldsAtTheirBits : Obligations.CommandFieldsAtTheirBits := by
  intro w
  have opcode := toNat_cmdOp w
  have op : BitVec.ofNat 8 (w.toNat % 2 ^ 8) = cmdOp w := BitVec.eq_of_toNat_eq (by rw [opcode]; simp)
  simp only [← extractLsb'_eq_ofNat_div, ← getLsbD_eq_decide, op]
  rw [← opcode]
  refine ⟨?_, ?_, ?_, ?_, ?_, ?_, decodeCmd_of_six_le⟩ <;> intro h <;> rw [decodeCmd, h] <;> rfl

/-! ## Block headers -/

theorem toNat_hdrKind (h : BitVec 24) : (hdrKind h).toNat = h.toNat / 2 % 4 := by
  simp [hdrKind, extractLsb'_eq_ofNat_div]

/-- Three bytes decode as the block header whose value they form. -/
theorem decode_threeBytes (b0 b1 b2 : Byte) :
    decode .blockHeader24 [b0, b1, b2] =
      .ok (decodeBlockHeader (BitVec.ofNat 24 (b0.toNat + b1.toNat * 2 ^ 8 + b2.toNat * 2 ^ 16)), []) := by
  have value : leValue [b0, b1, b2] = b0.toNat + b1.toNat * 2 ^ 8 + b2.toNat * 2 ^ 16 := by simp only [leValue]; omega
  rw [← value]
  exact decode_ok (fmt := .blockHeader24) (bs := [b0, b1, b2]) rfl []

/-- Settles O4: each field is its part of the header's value, and the kind is matched as a number. -/
theorem blockHeaderFields : Obligations.BlockHeaderFields := by
  refine ⟨fun b0 b1 b2 => ?_, rfl, rfl, rfl, rfl, rfl, rfl⟩
  intro v last size
  have value : (BitVec.ofNat 24 v).toNat = v := Nat.mod_eq_of_lt (by simp only [v]; omega)
  have lastBit : hdrLast (BitVec.ofNat 24 v) = last := by
    rw [hdrLast, getLsbD_eq_decide, value, Nat.pow_zero, Nat.div_one]
  have sizeBits : hdrSize (BitVec.ofNat 24 v) = size := by rw [hdrSize, extractLsb'_eq_ofNat_div, value]
  rw [decode_threeBytes, decodeBlockHeader, lastBit, sizeBits, toNat_hdrKind, value]
  refine ⟨?_, ?_, ?_, ?_⟩ <;> intro kind <;> rw [kind] <;> rfl

namespace Machine

/-! ## BLOCK -/

/-- BLOCK with no bits above the header in its operand is the instruction of that header. -/
theorem exec_block_eq_header {a : Word32} (high : operandHigh a = 0) (s : State) :
    exec (.block false 0 a 0) s = exec (decodeBlockHeader (operandHeader a)) s := by
  have runs : ∀ body : State → Answer, (∀ t, blockForm a t = body t) →
      exec (.block false 0 a 0) s = dispatchCommand false true (inActive body) s := by
    intro body form
    rw [← funext form]
    rfl
  rcases decodeBlockHeader_cases (operandHeader a) with ⟨kind, g⟩ | ⟨kind, g⟩ | ⟨kind, g⟩ | ⟨kind, g⟩ <;> rw [g] <;>
    exact runs _ fun t => by simp [blockForm, high, kind]

/-- A block header placed for the next step is the host's next command: BLOCK with the header in its operand. -/
theorem step_withFetchWord_header (s : State) (h : BitVec 24) :
    step (s.withFetchWord 24 h.toNat) = exec (.block false 0 (headerOperand h) 0) { s with wire := none } := by
  have header : BitVec.ofNat 24 h.toNat = h := by simp
  have placed : s.withFetchWord 24 h.toNat = { s with
      wire := none, host := .csrWrite 0 8 (cmdWord 0x05#8 false 0 (headerOperand h) 0) :: s.host } := by
    simp [State.withFetchWord, placeTableWord, tableFormat]
  have decoded : decodeCmd (cmdWord 0x05#8 false 0 (headerOperand h) 0) = .block false 0 (headerOperand h) 0 := by
    simp [decodeCmd]
  rw [placed, step_hostAccess rfl rfl, ← decoded]
  rfl

/-- Settles O18: the operand's bits are the header alone, in both directions. -/
theorem blockRunsItsHeader : Obligations.BlockRunsItsHeader := by
  refine ⟨fun s a fits => ?_, fun s h => ?_⟩
  · have high : operandHigh a = 0 := by
      rw [operandHigh, extractLsb'_eq_ofNat_div, Nat.div_eq_of_lt fits]; rfl
    have header : operandHeader a = BitVec.ofNat 24 a.toNat := by
      rw [operandHeader, extractLsb'_eq_ofNat_div, Nat.pow_zero, Nat.div_one]
    rw [exec_block_eq_header high, header]
  · have high : operandHigh (headerOperand h) = 0 := BitVec.extractLsb'_append_eq_left
    have header : operandHeader (headerOperand h) = h := BitVec.extractLsb'_append_eq_right
    rw [step_withFetchWord_header, exec_block_eq_header high, header]

end Machine
end Sys2Proof
end

section
/-! SUPPORT. Whole bytes read as bits (20_memory.md rules R208 and R209): at a byte boundary the bits of `k` bytes are their
little-endian integer, so a header read in two parts gives the low bits of that integer and the rest. -/

namespace Sys2Proof.Machine

theorem forwardBits_lt (src : Source) (sp : ReaderSpace) (base p n : Nat) : forwardBits src sp base p n < 2 ^ n := by
  induction n generalizing p with
  | zero => exact Nat.one_pos
  | succ n ih =>
    have bit : bitAt src sp base p < 2 := Nat.mod_lt _ (by decide)
    have := ih (p + 1)
    rw [forwardBits, Nat.pow_succ]
    omega

/-- Bits that lie in one byte are a bit field of it. -/
theorem forwardBits_inByte (src : Source) (sp : ReaderSpace) (base q : Nat) {r n : Nat} (inside : r + n ≤ 8) :
    forwardBits src sp base (8 * q + r) n = (src sp (base + q)).toNat / 2 ^ r % 2 ^ n := by
  induction n generalizing r with
  | zero => rw [forwardBits, Nat.pow_zero, Nat.mod_one]
  | succ n ih =>
    have byte : (8 * q + r) / 8 = q := by omega
    have shift : (8 * q + r) % 8 = r := by omega
    rw [forwardBits, Nat.add_assoc, ih (by omega), bitAt, byte, shift, Nat.shiftRight_eq_div_pow, Nat.pow_succ' (n := n),
      Nat.mod_mul, Nat.div_div_eq_div_mul, Nat.pow_succ]

/-- At a byte boundary, the bits of `k` bytes are their little-endian integer. -/
theorem forwardBits_bytes (src : Source) (sp : ReaderSpace) (base q k : Nat) :
    forwardBits src sp base (8 * q) (8 * k) = memRead src sp (base + q) k := by
  induction k generalizing q with
  | zero => rfl
  | succ k ih =>
    have first : forwardBits src sp base (8 * q) 8 = (src sp (base + q)).toNat := by
      rw [← Nat.add_zero (8 * q), forwardBits_inByte src sp base q (by omega), Nat.pow_zero, Nat.div_one,
        Nat.mod_eq_of_lt (src sp (base + q)).isLt]
    rw [Nat.mul_succ, Nat.add_comm (8 * k), forwardBits_add, first, ← Nat.mul_succ, ih, memRead]
    rfl

/-- A little-endian integer read byte by byte is the value of the bytes. -/
theorem leValue_map_range (src : Source) (sp : ReaderSpace) (a k : Nat) :
    leValue ((List.range k).map fun j => src sp (a + j)) = memRead src sp a k := by
  induction k generalizing a with
  | zero => rfl
  | succ k ih =>
    have rest := ih (a + 1)
    simp only [Nat.add_assoc, Nat.add_comm 1] at rest
    simp [List.range_succ_eq_map, leValue, memRead, ← rest, Function.comp_def]

theorem nextLe_eq_memRead (s : State) (k : Nat) :
    nextLe s k = memRead (source s) s.dp.fr.space (s.dp.fr.base + s.dp.fr.pos / 8) k :=
  leValue_map_range _ _ _ _

/-- `n` bits and the `m` after them, together `k` bytes from a byte boundary: the low part of the integer there, and the rest. -/
theorem forwardBits_nextLe {s : State} {n m k : Nat} (aligned : s.dp.fr.pos % 8 = 0) (bytes : n + m = 8 * k) :
    forwardBits (source s) s.dp.fr.space s.dp.fr.base s.dp.fr.pos n = nextLe s k % 2 ^ n ∧
    forwardBits (source s) s.dp.fr.space s.dp.fr.base (s.dp.fr.pos + n) m = nextLe s k / 2 ^ n := by
  have whole := forwardBits_bytes (source s) s.dp.fr.space s.dp.fr.base (s.dp.fr.pos / 8) k
  have start : 8 * (s.dp.fr.pos / 8) = s.dp.fr.pos := by omega
  rw [start, ← nextLe_eq_memRead, ← bytes, forwardBits_add] at whole
  have low := forwardBits_lt (source s) s.dp.fr.space s.dp.fr.base s.dp.fr.pos n
  rw [← whole, Nat.add_mul_mod_self_left, Nat.mod_eq_of_lt low, Nat.add_mul_div_left _ _ (Nat.two_pow_pos n),
    Nat.div_eq_of_lt low, Nat.zero_add]
  exact ⟨rfl, rfl⟩

end Sys2Proof.Machine
end

section
/-! SUPPORT. The rows of a Huffman literals section (30_encoding.md rule R322, 43_literals.md rule R555): with the header there,
the two sizes are read whole; with the payload there, a sub-reader holds it; then a table, and the streams. -/

namespace Sys2Proof.Machine

@[simp] theorem ok_bind {α β : Type} (a : α) (f : α → Micro β) : ((.ok a : Micro α) >>= f) = f a := rfl

/-! ## Errors -/

theorem errorEntry_endsInError (e : Site) (s : State) : EndsInError (siteKind e) e s (errorEntry e s) :=
  ⟨rfl, rfl, rfl, rfl, rfl, rfl, rfl, rfl, rfl, rfl, rfl, rfl, rfl, rfl, rfl, rfl, rfl, rfl, rfl⟩

/-! ## The header -/

/-- The widths of the size fields of 30_encoding.md rule R322. -/
@[reducible] def IsSizeWidth (w : Nat) : Prop := w = 10 ∨ w = 14 ∨ w = 18

/-- The size bits after the first byte fill the header's other bytes. -/
theorem IsSizeWidth.bits {w : Nat} (width : IsSizeWidth w) : 4 ≤ w ∧ w ≤ 18 ∧ w - 4 + w = 8 * sizeBytes w := by
  rcases width with rfl | rfl | rfl <;> decide

theorem hasBytes_of_add {s : State} {n k : Nat} (there : hasBytes s (n + k)) : hasBytes s n :=
  ⟨there.1, Nat.le_trans (by omega) there.2⟩

/-- A Huffman section whose header is there goes on with its two sizes, past the header. -/
theorem litHuffmanFrom_eq_body {s : State} {w : Nat} (width : IsSizeWidth w) (header : hasBytes s (sizeBytes w))
    (fresh four : Bool) (x : BitVec 4) :
    litHuffmanFrom fresh four w x.toNat s =
      litHuffmanBody fresh four (regenSize s w x) (compressedSize s w) (putFr s (frPast s (sizeBytes w))) := by
  obtain ⟨aligned, there⟩ := header
  obtain ⟨-, narrow, bits⟩ := width.bits
  obtain ⟨low, high⟩ := forwardBits_nextLe aligned bits
  have first : frReadBits (source s) s.dp.fr (w - 4) =
      .ok (nextLe s (sizeBytes w) % 2 ^ (w - 4), { s.dp.fr with pos := s.dp.fr.pos + (w - 4) }) := by
    rw [frReadBits_fits _ (by omega) (by omega), low]
  have second : frReadBits (source s) { s.dp.fr with pos := s.dp.fr.pos + (w - 4) } w =
      .ok (compressedSize s w, frPast s (sizeBytes w)) := by
    rw [frReadBits_fits _ (by omega) (by dsimp only; omega), compressedSize, ← high, frPast, ← bits, ← Nat.add_assoc]
  have extended : extendSize x.toNat 4 (w - 4) s =
      .ok (regenSize s w x, putFr s { s.dp.fr with pos := s.dp.fr.pos + (w - 4) }) := by
    rw [extendSize, first]
    rfl
  rw [litHuffmanFrom, extended]
  simp only [ok_bind, source_putFr, putFr_dp, second, putFr_putFr]

/-! ## The payload -/

/-- With the payload there, the section's sub-reader holds it, and the reader is past it. -/
theorem frSubForward_frPast {s : State} {n k : Nat} (there : hasBytes s (n + k)) :
    frSubForward (frPast s n) k = .ok (frSub s n k, frPast s (n + k)) := by
  obtain ⟨aligned, there⟩ := there
  have byte : (s.dp.fr.pos + 8 * n) / 8 = s.dp.fr.pos / 8 + n := by omega
  have read : frReadBytes (frPast s n) k = .ok (s.dp.fr.base + (s.dp.fr.pos + 8 * n) / 8, frPast s (n + k)) := by
    rw [frReadBytes, frPast, if_neg (by dsimp only; omega), if_neg (by dsimp only; omega), frPast, Nat.mul_add, ← Nat.add_assoc]
  rw [frSubForward, read, byte, ← Nat.add_assoc]
  rfl

/-- A fresh section with its payload there reads its table from it, then decodes the streams. -/
theorem litHuffmanBody_fresh {s : State} {n c regen : Nat} (there : hasBytes s (n + c)) (fits : regen ≤ s.params.maxBlock)
    (four : Bool) :
    litHuffmanBody true four regen c (putFr s (frPast s n)) = (do
      let r ← hufReadTable (source s) (frSub s n c)
      litStreams four r.table r.weights.fr regen
        { putHufRead (putFr s (frPast s (n + c))) r with prevHuf := some r.table }) := by
  rw [litHuffmanBody, if_neg (by simpa using fits), putFr_dp, frSubForward_frPast there]
  simp only [ok_bind, source_putFr, putFr_putFr, if_true]

/-- A treeless section with its payload there takes the previous table, then decodes the streams. -/
theorem litHuffmanBody_treeless {s : State} {n c regen : Nat} (there : hasBytes s (n + c)) (fits : regen ≤ s.params.maxBlock)
    (four : Bool) :
    litHuffmanBody false four regen c (putFr s (frPast s n)) = (do
      let t ← litPreviousTable s
      litStreams four t (frSub s n c) regen (putFr s (frPast s (n + c)))) := by
  rw [litHuffmanBody, if_neg (by simpa using fits), putFr_dp, frSubForward_frPast there]
  rfl

/-! ## The rows -/

theorem exec_compressedRow {x : BitVec 4} {i : Instr} {four : Bool} {w : Nat} (row : (i, four, w) ∈ compressedRows x) :
    IsSizeWidth w ∧ ∀ s, exec i s = settle s (litHuffmanFrom true four w x.toNat s) := by
  simp only [compressedRows, List.mem_cons, Prod.mk.injEq, List.not_mem_nil, or_false] at row
  rcases row with ⟨rfl, rfl, rfl⟩ | ⟨rfl, rfl, rfl⟩ | ⟨rfl, rfl, rfl⟩ | ⟨rfl, rfl, rfl⟩ <;>
    exact ⟨by decide, fun _ => rfl⟩

theorem exec_treelessRow {x : BitVec 4} {i : Instr} {four : Bool} {w : Nat} (row : (i, four, w) ∈ treelessRows x) :
    IsSizeWidth w ∧ ∀ s, exec i s = settle s (litHuffmanFrom false four w x.toNat s) := by
  simp only [treelessRows, List.mem_cons, Prod.mk.injEq, List.not_mem_nil, or_false] at row
  rcases row with ⟨rfl, rfl, rfl⟩ | ⟨rfl, rfl, rfl⟩ | ⟨rfl, rfl, rfl⟩ | ⟨rfl, rfl, rfl⟩ <;>
    exact ⟨by decide, fun _ => rfl⟩

/-- The streams of a section that decode, then the count check (43_literals.md rule R561). -/
theorem litStreams_eq {four : Bool} {tab : HufTable} {sub : Fr} {n : Nat} {s : State} {e : HufStream}
    (decoded : litDecodeStreams (source s) four tab sub n = .ok e) :
    litStreams four tab sub n s = if e.lits.length ≠ n then raise .litCount else
      .ok { s with dp := { s.dp with lb := e.lits.reverse, sHuf := e.sHuf, br := e.br, tLit := some tab } } := by
  rw [litStreams, decoded]
  rfl

theorem source_putFreshTable (s : State) (r : HufRead) :
    source { putHufRead s r with prevHuf := some r.table } = source s := by
  unfold putHufRead
  split <;> exact source_congr rfl rfl

/-- Settles O43: the row reads the two sizes, the table and the streams in turn, and then only the count can fail. -/
theorem freshTableLiterals : Obligations.FreshTableLiterals := by
  intro s x i four w r e row there fits table streams
  obtain ⟨width, run⟩ := exec_compressedRow row
  rw [run, litHuffmanFrom_eq_body width (hasBytes_of_add there), litHuffmanBody_fresh there fits, table, ok_bind,
    litStreams_eq (by rwa [source_putFreshTable, source_putFr])]
  refine ⟨fun count => ?_, fun count => ?_⟩
  · rw [if_neg (not_not.2 count)]
    refine ⟨_, rfl, ?_⟩
    unfold putHufRead
    split <;> rfl
  · rw [if_pos count]
    exact ⟨_, rfl, errorEntry_endsInError .litCount s⟩

/-- Settles O44: as a fresh section, with PREV_HUF for the table that is read. -/
theorem treelessLiterals : Obligations.TreelessLiterals := by
  intro s x i four w row there fits
  obtain ⟨width, run⟩ := exec_treelessRow row
  rw [run, litHuffmanFrom_eq_body width (hasBytes_of_add there), litHuffmanBody_treeless there fits]
  refine ⟨fun t e table streams count => ?_, fun table => ?_⟩
  · have previous : litPreviousTable s = .ok t := by rw [litPreviousTable, table]
    rw [previous, ok_bind, litStreams_eq (by rwa [source_putFr]), if_neg (not_not.2 count)]
    rfl
  · have missing : litPreviousTable s = raise .litNoTable := by rw [litPreviousTable, table]
    rw [missing]
    exact ⟨_, rfl, errorEntry_endsInError .litNoTable s⟩

end Sys2Proof.Machine
end

section
/-! SUPPORT. What the readers' reads give, bit by bit (40_bit_readers.md rules R401, R404, R420 and R421). A run of bits is built
bit by bit, so `Nat.bit` carries its bits: bit 0 is the first position's, the others are those of the run after it. -/

namespace Sys2Proof.Machine

/-! ## The bits of a run -/

theorem bitAt_eq_toNat (src : Source) (sp : ReaderSpace) (base i : Nat) :
    bitAt src sp base i = ((src sp (base + i / 8)).getLsbD (i % 8)).toNat := by
  rw [bitAt, Nat.shiftRight_eq_div_pow, BitVec.getLsbD, Nat.toNat_testBit]

/-- A run from `p` is the bit at `p` and, above it, the run from the next position. -/
theorem forwardBits_succ_eq_bit (src : Source) (sp : ReaderSpace) (base p n : Nat) :
    forwardBits src sp base p (n + 1) =
      Nat.bit ((src sp (base + p / 8)).getLsbD (p % 8)) (forwardBits src sp base (p + 1) n) := by
  rw [forwardBits, bitAt_eq_toNat, Nat.bit_val, Nat.add_comm]

theorem testBit_forwardBits (src : Source) (sp : ReaderSpace) (base p : Nat) {n j : Nat} (inside : j < n) :
    (forwardBits src sp base p n).testBit j = (src sp (base + (p + j) / 8)).getLsbD ((p + j) % 8) := by
  induction n generalizing p j with
  | zero => exact absurd inside (Nat.not_lt_zero j)
  | succ n ih =>
    rw [forwardBits_succ_eq_bit]
    cases j with
    | zero => exact Nat.testBit_bit_zero _ _
    | succ j => rw [Nat.testBit_bit_succ, ih (p + 1) (by omega), Nat.add_right_comm p 1 j, Nat.add_assoc]

/-- A run from `i` that ends below the position read from is the bit at `i`, 0 below bit 0, and above it the run from the next
position. -/
theorem backwardBits_succ_eq_bit (src : Source) (base : Nat) {old i : Int} {n : Nat} (below : i + (n + 1 : Nat) ≤ old) :
    backwardBits src base old i (n + 1) =
      Nat.bit (decide (0 ≤ i) && (src .inp (base + i.toNat / 8)).getLsbD (i.toNat % 8))
        (backwardBits src base old (i + 1) n) := by
  have read : i < old := by omega
  rw [backwardBits, bitAt_eq_toNat, Nat.bit_val, Nat.add_comm]
  by_cases there : 0 ≤ i <;> simp [there, read]

theorem backwardBits_lt (src : Source) (base : Nat) {old i : Int} {n : Nat} (below : i + n ≤ old) :
    backwardBits src base old i n < 2 ^ n := by
  induction n generalizing i with
  | zero => exact Nat.one_pos
  | succ n ih =>
    rw [backwardBits_succ_eq_bit src base below]
    exact Nat.bit_lt_two_pow_succ_iff.2 (ih (by omega))

theorem testBit_backwardBits (src : Source) (base : Nat) {old i : Int} {n j : Nat} (below : i + n ≤ old) (inside : j < n) :
    (backwardBits src base old i n).testBit j =
      (decide (0 ≤ i + j) && (src .inp (base + (i + j).toNat / 8)).getLsbD ((i + j).toNat % 8)) := by
  induction n generalizing i j with
  | zero => exact absurd inside (Nat.not_lt_zero j)
  | succ n ih =>
    rw [backwardBits_succ_eq_bit src base below]
    cases j with
    | zero => rw [Nat.testBit_bit_zero, Nat.cast_zero, add_zero]
    | succ j =>
      have next : i + 1 + j = i + (j + 1 : Nat) := by omega
      rw [Nat.testBit_bit_succ, ih (by omega) (by omega), next]

/-! ## The marker -/

/-- A position at which a number has its bit set, with none set above it, is its highest set bit. -/
theorem hsb_eq_of_bits {x k : Nat} (set : x.testBit k = true) (above : ∀ j, k < j → x.testBit j = false) : hsb x = k := by
  have low : 2 ^ k ≤ x := Nat.ge_two_pow_of_testBit set
  have high : x < 2 ^ (k + 1) := Nat.lt_pow_two_of_testBit x above
  have nonzero : x ≠ 0 := by have := Nat.two_pow_pos k; omega
  exact (Nat.log2_eq_iff nonzero).2 ⟨low, high⟩

theorem brMake_noMarker (src : Source) {base len : Nat} (nonempty : len ≠ 0) (zero : src .inp (base + len - 1) = 0) :
    brMake src base len = raise .brNoMarker := by
  rw [brMake, if_neg nonempty, zero]
  rfl

/-- The reader starts at the one bit of the last byte that is set with none above it. -/
theorem brMake_marker (src : Source) {base len k : Nat} (nonempty : len ≠ 0)
    (set : (src .inp (base + len - 1)).getLsbD k = true)
    (above : ∀ j, k < j → (src .inp (base + len - 1)).getLsbD j = false) :
    brMake src base len = .ok { base := base, len := len, pos := 8 * ((len : Int) - 1) + k } := by
  have nonzero : (src .inp (base + len - 1)).toNat ≠ 0 := fun zero => by simp [BitVec.getLsbD, zero] at set
  rw [brMake, if_neg nonempty, ← hsb_eq_of_bits set above]
  exact if_neg nonzero

/-! ## The reads -/

theorem frReadLe_fits (src : Source) {fr : Fr} {n : Nat} (aligned : fr.pos % 8 = 0) (fits : fr.pos / 8 + n ≤ fr.len) :
    frReadLe src fr n = .ok (leValue ((List.range n).map fun j => src fr.space (fr.base + fr.pos / 8 + j)),
      { fr with pos := fr.pos + 8 * n }) := by
  rw [frReadLe, if_neg (not_not.2 aligned), if_neg (Nat.not_lt.2 fits), leValue_map_range]

/-- Settles O32: a read that fits gives the run at the position, whose bits are the stream's; the errors are the tests before it,
in their order. -/
theorem forwardReadsGiveTheStreamBits : Obligations.ForwardReadsGiveTheStreamBits := by
  intro src fr n
  refine ⟨fun wide => if_pos wide, ?none, ?overrun, ?bits, fun unaligned => if_pos unaligned, ?missing, frReadLe_fits src⟩
  case none => rintro rfl; rfl
  case overrun =>
    intro positive width past
    rw [frReadBits, if_neg (Nat.not_lt.2 width), if_neg (Nat.ne_of_gt positive), if_pos past]
  case bits =>
    intro _ width fits
    exact ⟨_, frReadBits_fits src width (.inr fits), forwardBits_lt src fr.space fr.base fr.pos n,
      fun _ => testBit_forwardBits src fr.space fr.base fr.pos⟩
  case missing =>
    intro aligned past
    rw [frReadLe, if_neg (not_not.2 aligned), if_pos past]

/-- Settles O34: the marker is the last byte's highest set bit, and a read that fits its width gives the run that ends below the
position. -/
theorem backwardReadsGiveTheStreamBits : Obligations.BackwardReadsGiveTheStreamBits := by
  constructor
  case left =>
    intro src base len
    exact ⟨fun empty => if_pos empty, fun nonempty => brMake_noMarker src (Nat.ne_of_gt nonempty),
      fun nonempty _ _ => brMake_marker src (Nat.ne_of_gt nonempty)⟩
  case right =>
    intro src br n maxn
    refine ⟨fun wide => if_pos wide, ?none, ?bits⟩
    case none => rintro rfl; rw [brRead, if_neg (Nat.not_lt_zero maxn), if_pos rfl]
    case bits =>
      intro _ width
      have below : br.pos - n + n ≤ br.pos := by omega
      exact ⟨_, brRead_fits src br width, backwardBits_lt src br.base below,
        fun _ => testBit_backwardBits src br.base below⟩

end Sys2Proof.Machine
end

section
/-! SUPPORT. The cells of a built table (41_fse.md rule R451): every symbol placed is one of the distribution, a running count
stays below twice the size, and such a count gives a cell whose updates are states. -/

namespace Sys2Proof.Machine

/-! ## The symbols placed -/

theorem forall_mem_set {α : Type} {P : α → Prop} {l : List α} {a : α} (i : Nat) (old : ∀ x ∈ l, P x) (new : P a) :
    ∀ x ∈ l.set i a, P x := by
  intro x mem
  rcases List.mem_or_eq_of_mem_set mem with mem | rfl
  · exact old x mem
  · exact new

theorem placeSentinels_lt {n : Nat} {norm : List Int} {s : Nat} (high : Nat) {sym : List Nat}
    (fits : s + norm.length ≤ n) (old : ∀ x ∈ sym, x < n) : ∀ x ∈ (placeSentinels norm s high sym).2, x < n := by
  induction norm generalizing s high sym with
  | nil => exact old
  | cons p ps ih =>
    rw [List.length_cons] at fits
    rw [placeSentinels]
    split
    · exact ih _ (by omega) (forall_mem_set _ old (by omega))
    · exact ih _ (by omega) old

theorem placeRun_lt {n s : Nat} (step size high : Nat) (k pos : Nat) {sym : List Nat} (new : s < n)
    (old : ∀ x ∈ sym, x < n) : ∀ x ∈ (placeRun step size high s k pos sym).2, x < n := by
  induction k generalizing pos sym with
  | zero => exact old
  | succ k ih => exact ih _ (forall_mem_set _ old new)

theorem placePositive_lt {n : Nat} (step size high : Nat) {norm : List Int} {s : Nat} (pos : Nat) {sym : List Nat}
    (fits : s + norm.length ≤ n) (old : ∀ x ∈ sym, x < n) :
    ∀ x ∈ (placePositive step size high norm s pos sym).2, x < n := by
  induction norm generalizing s pos sym with
  | nil => exact old
  | cons p ps ih =>
    rw [List.length_cons] at fits
    exact ih _ (by omega) (placeRun_lt step size high _ _ (by omega) old)

/-- The symbols of the spread are those of the distribution, which is not empty. -/
theorem spreadSymbols_lt {norm : List Int} (nonempty : norm ≠ []) (step size high : Nat) :
    ∀ x ∈ (placePositive step size high norm 0 0 (placeSentinels norm 0 size (List.replicate size 0)).2).2,
      x < norm.length := by
  have all : 0 + norm.length ≤ norm.length := (Nat.zero_add _).le
  refine placePositive_lt step size high 0 all (placeSentinels_lt size all fun x mem => ?_)
  rw [List.eq_of_mem_replicate mem]
  exact List.length_pos_iff.2 nonempty

/-! ## The running counts -/

theorem normWeight_nonneg {p : Int} (least : -1 ≤ p) : 0 ≤ normWeight p := by
  rw [normWeight]
  split <;> omega

/-- A first count is a part of the sum of the distribution. -/
theorem firstCounts_le {norm : List Int} (least : ∀ p ∈ norm, -1 ≤ p) {r : Nat} (mem : r ∈ firstCounts norm) :
    (r : Int) ≤ normSum norm := by
  obtain ⟨p, there, rfl⟩ := List.mem_map.1 mem
  have part : normWeight p ≤ normSum norm := by
    refine List.single_le_sum (fun w weight => ?_) _ (List.mem_map_of_mem there)
    obtain ⟨q, there, rfl⟩ := List.mem_map.1 weight
    exact normWeight_nonneg (least q there)
  have := normWeight_nonneg (least p there)
  omega

/-- The cell of a state whose symbol `s` stands at the count `r`. -/
def countedCell (acc s r : Nat) : FseCell := { sym := s, nb := acc - hsb r, base := r * 2 ^ (acc - hsb r) - 2 ^ acc }

/-- Each cell is that of a symbol placed and of a count, which the states before it have raised by at most their number. -/
theorem mem_assignCells {acc bound : Nat} {syms next : List Nat} {c : FseCell} (counts : ∀ r ∈ next, r ≤ bound)
    (mem : c ∈ assignCells acc syms next) :
    ∃ s ∈ syms, ∃ r, r < bound + syms.length ∧ c = countedCell acc s r := by
  induction syms generalizing next bound with
  | nil => cases mem
  | cons s syms ih =>
    have count : next.getD s 0 ≤ bound := by
      rw [List.getD_eq_getElem?_getD]
      cases found : next[s]? with
      | none => exact Nat.zero_le bound
      | some r => exact counts r (List.mem_of_getElem? found)
    rcases List.mem_cons.1 mem with rfl | mem
    · exact ⟨s, List.mem_cons_self, _, by rw [List.length_cons]; omega, rfl⟩
    · have raised : ∀ r ∈ next.set s (next.getD s 0 + 1), r ≤ bound + 1 :=
        forall_mem_set _ (fun r there => Nat.le_succ_of_le (counts r there)) (Nat.succ_le_succ count)
      obtain ⟨x, there, r, below, cell⟩ := ih raised mem
      exact ⟨x, List.mem_cons_of_mem s there, r, by rw [List.length_cons]; omega, cell⟩

/-- A count below twice the size gives a cell whose updates are all states (41_fse.md rule R451). -/
theorem countedCell_updates {acc r : Nat} (s : Nat) (below : r < 2 ^ (acc + 1)) :
    (countedCell acc s r).base + 2 ^ (countedCell acc s r).nb ≤ 2 ^ acc := by
  simp only [countedCell, hsb]
  rcases Nat.eq_zero_or_pos r with rfl | positive
  · simp
  · have nonzero : r ≠ 0 := Nat.ne_of_gt positive
    have level : r.log2 ≤ acc := Nat.lt_succ_iff.1 ((Nat.log2_lt nonzero).2 below)
    have low : 2 ^ acc ≤ r * 2 ^ (acc - r.log2) := by
      calc 2 ^ acc = 2 ^ r.log2 * 2 ^ (acc - r.log2) := by rw [← Nat.pow_add, Nat.add_sub_cancel' level]
        _ ≤ r * 2 ^ (acc - r.log2) := Nat.mul_le_mul_right _ (Nat.log2_self_le nonzero)
    have high : (r + 1) * 2 ^ (acc - r.log2) ≤ 2 * 2 ^ acc := by
      calc (r + 1) * 2 ^ (acc - r.log2) ≤ 2 ^ (r.log2 + 1) * 2 ^ (acc - r.log2) := Nat.mul_le_mul_right _ Nat.lt_log2_self
        _ = 2 * 2 ^ acc := by rw [← Nat.pow_add, ← Nat.pow_succ']; congr 1; omega
    rw [Nat.succ_mul] at high
    omega

/-- Settles O35: each cell is the one of a symbol placed and of a count below twice the size. -/
theorem fseTableRanges : Obligations.FseTableRanges := by
  intro norm acc t least built
  obtain ⟨positive, cap, -, sum, low, placed, rfl, rfl, -, rfl⟩ := fseBuild_ok built
  refine ⟨rfl, positive, cap, (fseBuild_cells built).2, fun c mem => ?_⟩
  have counts : ∀ r ∈ firstCounts norm, r ≤ 2 ^ acc := fun r there => by
    have := firstCounts_le least there
    omega
  have nonempty : norm ≠ [] := by
    rintro rfl
    exact Nat.cast_ne_zero.2 (Nat.two_pow_pos acc).ne' sum.symm
  obtain ⟨s, there, r, below, rfl⟩ := mem_assignCells counts mem
  rw [placePositive_length, placeSentinels_length, List.length_replicate, ← Nat.two_mul, ← Nat.pow_succ'] at below
  have updates := countedCell_updates s below
  have := Nat.two_pow_pos (countedCell acc s r).nb
  exact ⟨Nat.sub_le acc _, by omega, fun v width => by omega, spreadSymbols_lt nonempty _ _ _ s there⟩

end Sys2Proof.Machine
end

section
/-! SUPPORT. The spread of a distribution over the table (41_fse.md rule R452). The raw positions `i * step mod size` visit every
cell once, for an odd step and a size that is a power of two; the placement takes those below the threshold in their order, so
after as many symbols as there are such cells it stands at raw position `size`, which is cell 0. -/

namespace Sys2Proof.Machine

/-! ## The threshold -/

theorem placeSentinels_high (norm : List Int) (s high : Nat) (sym : List Nat) :
    (placeSentinels norm s high sym).1 = high - norm.count (-1) := by
  induction norm generalizing s high sym with
  | nil => rfl
  | cons p ps ih =>
    rw [placeSentinels, List.count_cons]
    split
    case isTrue sentinel =>
      rw [ih, sentinel, beq_self_eq_true, if_pos rfl]
      omega
    case isFalse other => rw [ih, beq_false_of_ne other, if_neg Bool.false_ne_true, Nat.add_zero]

/-- How many cells the symbols of positive probability take. -/
def positiveCells (norm : List Int) : Nat := (norm.map Int.toNat).sum

/-- The sum of a distribution is its sentinels and the cells of its other symbols. -/
theorem normSum_eq {norm : List Int} (least : ∀ p ∈ norm, -1 ≤ p) :
    normSum norm = (norm.count (-1) + positiveCells norm : Nat) := by
  induction norm with
  | nil => rfl
  | cons p ps ih =>
    obtain ⟨head, tail⟩ := List.forall_mem_cons.1 least
    have rest := ih tail
    simp only [normSum, positiveCells, List.map_cons, List.sum_cons, List.count_cons] at rest ⊢
    rw [rest, normWeight]
    by_cases sentinel : p = -1 <;> simp only [sentinel, beq_iff_eq, if_true, if_false] <;> omega

/-! ## The placement as an iteration -/

/-- The position after one symbol is placed. -/
def nextPosition (step size high pos : Nat) : Nat := skipHigh step size high size ((pos + step) % size)

theorem placeRun_position (step size high s k pos : Nat) (sym : List Nat) :
    (placeRun step size high s k pos sym).1 = (nextPosition step size high)^[k] pos := by
  induction k generalizing pos sym with
  | zero => rfl
  | succ k ih => rw [placeRun, ih, Function.iterate_succ_apply, nextPosition]

theorem placePositive_position (step size high : Nat) (norm : List Int) (s pos : Nat) (sym : List Nat) :
    (placePositive step size high norm s pos sym).1 = (nextPosition step size high)^[positiveCells norm] pos := by
  induction norm generalizing s pos sym with
  | nil => rfl
  | cons p ps ih =>
    rw [placePositive, ih, placeRun_position, ← Function.iterate_add_apply, Nat.add_comm, positiveCells, positiveCells,
      List.map_cons, List.sum_cons]

/-! ## The raw positions -/

/-- The raw position `i` lies below the threshold. -/
@[reducible] def IsFree (step size high i : Nat) : Prop := i * step % size < high

/-- The first free raw position from `k` on. -/
noncomputable def firstFree (step size high k : Nat) : Nat :=
  Nat.nth (IsFree step size high) (Nat.count (IsFree step size high) k)

theorem firstFree_self {step size high k : Nat} (free : IsFree step size high k) : firstFree step size high k = k :=
  Nat.nth_count free

theorem firstFree_succ {step size high k : Nat} (taken : ¬ IsFree step size high k) :
    firstFree step size high (k + 1) = firstFree step size high k := by
  rw [firstFree, Nat.count_succ, if_neg taken, Nat.add_zero, firstFree]

section
variable {step size high : Nat} (odd : step.Coprime size)
include odd

theorem rawPosition_injOn : Set.InjOn (fun i => i * step % size) (Finset.range size) := by
  intro i hi j hj same
  rw [Finset.mem_coe, Finset.mem_range] at hi hj
  have congruent : i ≡ j [MOD size] := Nat.ModEq.cancel_right_of_coprime (Nat.coprime_comm.1 odd) same
  rwa [Nat.ModEq, Nat.mod_eq_of_lt hi, Nat.mod_eq_of_lt hj] at congruent

/-- Below `size` the raw positions are every cell once. -/
theorem image_rawPosition : (Finset.range size).image (fun i => i * step % size) = Finset.range size := by
  refine Finset.eq_of_subset_of_card_le (fun x mem => ?_) (Finset.card_image_of_injOn (rawPosition_injOn odd)).ge
  obtain ⟨i, there, rfl⟩ := Finset.mem_image.1 mem
  exact Finset.mem_range.2 (Nat.mod_lt _ (Nat.zero_lt_of_lt (Finset.mem_range.1 there)))

/-- As many of the raw positions below `size` are free as there are cells below the threshold. -/
theorem count_isFree (room : high ≤ size) : Nat.count (IsFree step size high) size = high := by
  have free : ((Finset.range size).filter (IsFree step size high)).image (fun i => i * step % size) = Finset.range high := by
    rw [← Finset.filter_image (p := (· < high)), image_rawPosition odd]
    ext x
    rw [Finset.mem_filter, Finset.mem_range, Finset.mem_range]
    omega
  have once := (rawPosition_injOn odd).mono (Finset.coe_subset.2 (Finset.filter_subset (IsFree step size high) _))
  rw [Nat.count_eq_card_filter_range, ← Finset.card_image_of_injOn once, free, Finset.card_range]

end

section
variable {step size high : Nat} (cells : 0 < size) (positive : 0 < high)
include positive

/-- Every `size` raw positions the spread is back at cell 0. -/
theorem isFree_mul (k : Nat) : IsFree step size high (k * size) := by
  rwa [IsFree, Nat.mul_right_comm, Nat.mul_mod_left]

include cells

theorem infinite_isFree : (Set.ofPred (IsFree step size high)).Infinite :=
  Set.infinite_of_injective_forall_mem (mul_left_injective₀ cells.ne') (isFree_mul positive)

theorem le_firstFree (k : Nat) : k ≤ firstFree step size high k :=
  Nat.le_nth_count (infinite_isFree cells positive) k

/-- From any raw position a free one is at most `size` on. -/
theorem firstFree_le (k : Nat) : firstFree step size high k ≤ k + size := by
  have parts := Nat.div_add_mod k size
  have short := Nat.mod_lt k cells
  have start : k ≤ (k / size + 1) * size ∧ (k / size + 1) * size ≤ k + size := by
    rw [Nat.succ_mul, Nat.mul_comm]
    omega
  calc firstFree step size high k
      ≤ firstFree step size high ((k / size + 1) * size) :=
        (Nat.nth_le_nth (infinite_isFree cells positive)).2 (Nat.count_monotone _ start.1)
    _ = (k / size + 1) * size := firstFree_self (isFree_mul positive _)
    _ ≤ k + size := start.2

/-- Skipping from the raw position `k`, with fuel for the way, ends at the first free one. -/
theorem skipHigh_eq_firstFree {fuel k : Nat} (enough : firstFree step size high k ≤ k + fuel) :
    skipHigh step size high fuel (k * step % size) = firstFree step size high k * step % size := by
  induction fuel generalizing k with
  | zero => rw [skipHigh, Nat.le_antisymm enough (le_firstFree cells positive k), Nat.add_zero]
  | succ fuel ih =>
    rw [skipHigh]
    split
    case isTrue taken =>
      have same := firstFree_succ (Nat.not_lt.2 taken)
      rw [Nat.mod_add_mod, ← Nat.add_one_mul, ih (by omega), same]
    case isFalse free => rw [firstFree_self (Nat.not_le.1 free)]

/-- After `m` symbols the placement stands at the free raw position number `m`. -/
theorem iterate_nextPosition (m : Nat) :
    (nextPosition step size high)^[m] 0 = Nat.nth (IsFree step size high) m * step % size := by
  induction m with
  | zero =>
    have start : IsFree step size high 0 := by
      rw [← Nat.zero_mul size]
      exact isFree_mul positive 0
    have first : Nat.nth (IsFree step size high) 0 = 0 := by simpa using Nat.nth_count start
    rw [first, Nat.zero_mul, Nat.zero_mod, Function.iterate_zero_apply]
  | succ m ih =>
    rw [Function.iterate_succ_apply', ih, nextPosition, Nat.mod_add_mod, ← Nat.succ_mul,
      skipHigh_eq_firstFree cells positive (firstFree_le cells positive _), firstFree,
      Nat.count_nth_succ_of_infinite (infinite_isFree cells positive)]

end

/-- After as many symbols as there are cells below the threshold the placement is back at cell 0 (41_fse.md rule R452). -/
theorem iterate_nextPosition_eq_zero {step size high : Nat} (odd : step.Coprime size) (room : high ≤ size) :
    (nextPosition step size high)^[high] 0 = 0 := by
  rcases Nat.eq_zero_or_pos high with rfl | positive
  · rfl
  · have whole : Nat.nth (IsFree step size high) high = size := by
      have back := Nat.nth_count (isFree_mul (step := step) (size := size) positive 1)
      rwa [Nat.one_mul, count_isFree odd room] at back
    rw [iterate_nextPosition (positive.trans_le room) positive, whole, Nat.mul_mod_right]

/-! ## The step -/

/-- From accuracy 4 on the step is odd. -/
theorem spreadStep_coprime {acc : Nat} (least : 4 ≤ acc) : (spreadStep (2 ^ acc)).Coprime (2 ^ acc) := by
  have size : 2 ^ acc = 16 * 2 ^ (acc - 4) := by
    rw [show acc = 4 + (acc - 4) by omega, Nat.pow_add, Nat.add_sub_cancel_left]
  have odd : spreadStep (2 ^ acc) % 2 = 1 := by
    rw [spreadStep]
    omega
  exact Nat.Coprime.pow_right acc (Nat.coprime_two_right.2 (Nat.odd_iff.2 odd))

/-- Settles O36: the symbols of positive probability take exactly the cells below the threshold. -/
theorem fseSpreadReturnsToZero : Obligations.FseSpreadReturnsToZero := by
  intro norm acc small large symbols least sum
  have parts : norm.count (-1) + positiveCells norm = 2 ^ acc := by
    rw [normSum_eq least] at sum
    exact Int.ofNat.inj sum
  have threshold : 2 ^ acc - norm.count (-1) = positiveCells norm := by omega
  have back : (placePositive (spreadStep (2 ^ acc)) (2 ^ acc) (placeSentinels norm 0 (2 ^ acc) (List.replicate (2 ^ acc) 0)).1
      norm 0 0 (placeSentinels norm 0 (2 ^ acc) (List.replicate (2 ^ acc) 0)).2).1 = 0 := by
    rw [placePositive_position, placeSentinels_high, threshold,
      iterate_nextPosition_eq_zero (spreadStep_coprime (by omega)) (by omega)]
  rw [fseBuild, fseMaxAccuracy, fseMaxSymbols, if_neg (by omega), if_neg (by omega)]
  exact ⟨_, (if_neg (not_not.2 sum)).trans (if_neg (not_not.2 back))⟩

end Sys2Proof.Machine
end

section
/-! SUPPORT. Reading a distribution header (41_fse.md rules R458 and R460): a field is at most the budget plus 1, so the budget
stays at or above 0, and with what the distribution so far takes it is always the table's size. -/

namespace Sys2Proof.Machine

/-- An operation with a result passed its check. -/
theorem check_ok {α : Type} {c : Prop} [Decidable c] {site : Site} {m : Micro α} {a : α}
    (h : (if c then raise site else m) = .ok a) : ¬c ∧ m = .ok a := by
  split at h
  · cases h
  · exact ⟨‹_›, h⟩

/-! ## One field -/

/-- A field's value is at most the budget plus 1, by the three branches of its coding (41_fse.md rule R460). -/
theorem fseField_le {src : Source} {fr fr' : Fr} {remaining v : Nat} (read : fseField src fr remaining = .ok (v, fr')) :
    v ≤ remaining + 1 := by
  obtain ⟨⟨val, next⟩, bits, branch⟩ := bind_ok read
  obtain ⟨-, -, rfl, -⟩ := frReadBits_ok bits
  have width := forwardBits_lt src fr.space fr.base fr.pos (hsb (remaining + 1) + 1)
  generalize forwardBits src fr.space fr.base fr.pos (hsb (remaining + 1) + 1) = val at width branch
  have low : 2 ^ hsb (remaining + 1) ≤ remaining + 1 := Nat.log2_self_le (Nat.succ_ne_zero _)
  rw [Nat.pow_succ] at width
  simp only [Nat.add_sub_cancel, Nat.pow_succ] at branch
  split at branch
  case isTrue small =>
    obtain ⟨_, -, value⟩ := bind_ok branch
    cases value
    omega
  case isFalse large =>
    split at branch
    case isTrue high => cases branch; omega
    case isFalse kept => cases branch; omega

/-! ## The distribution so far -/

/-- `norm` is a part of a distribution that leaves `remaining` of the budget `total`. -/
structure Spends (total remaining : Int) (norm : List Int) : Prop where
  left : 0 ≤ remaining
  symbols : norm.length ≤ 256
  least : ∀ p ∈ norm, -1 ≤ p
  sum : normSum norm + remaining = total

theorem normSum_cons (p : Int) (norm : List Int) : normSum (p :: norm) = normWeight p + normSum norm := rfl

/-- One more symbol, with a probability that the budget has. -/
theorem Spends.cons {total remaining p : Int} {norm : List Int} (spent : Spends total remaining norm)
    (symbol : norm.length < 256) (least : -1 ≤ p) (afford : normWeight p ≤ remaining) :
    Spends total (remaining - normWeight p) (p :: norm) where
  left := by omega
  symbols := symbol
  least := List.forall_mem_cons.2 ⟨least, spent.least⟩
  sum := by
    have := spent.sum
    rw [normSum_cons]
    omega

/-- Zeros take nothing of the budget. -/
theorem Spends.zeros {total remaining : Int} {norm : List Int} (spent : Spends total remaining norm) {k : Nat}
    (symbols : norm.length + k ≤ 256) : Spends total remaining (List.replicate k 0 ++ norm) := by
  induction k with
  | zero => exact spent
  | succ k ih =>
    have more := (ih (by omega)).cons (p := 0) (by simp; omega) (by decide) (by simpa [normWeight] using spent.left)
    simpa [normWeight, List.replicate_succ] using more

/-- The order of the symbols does not matter. -/
theorem Spends.reverse {total remaining : Int} {norm : List Int} (spent : Spends total remaining norm) :
    Spends total remaining norm.reverse where
  left := spent.left
  symbols := by simpa using spent.symbols
  least := by simpa using spent.least
  sum := by simpa [normSum] using spent.sum

theorem fseRepeats_spends {src : Source} {fuel : Nat} {fr fr' : Fr} {total remaining : Int} {norm norm' : List Int}
    (spent : Spends total remaining norm) (read : fseRepeats src fuel fr norm = .ok (fr', norm')) :
    Spends total remaining norm' := by
  induction fuel generalizing fr norm with
  | zero => cases read
  | succ fuel ih =>
    obtain ⟨⟨rep, next⟩, -, read⟩ := bind_ok read
    obtain ⟨room, read⟩ := check_ok read
    have zeros := spent.zeros (Nat.not_lt.1 room)
    by_cases extended : rep = 3
    · exact ih zeros (by rwa [if_pos extended] at read)
    · rw [if_neg extended] at read
      cases read
      exact zeros

/-- The fields end with the whole budget spent. -/
theorem fseFields_spends {src : Source} {fuel : Nat} {fr fr' : Fr} {total remaining left : Int} {norm norm' : List Int}
    (spent : Spends total remaining norm) (read : fseFields src fuel fr remaining norm = .ok (fr', norm', left)) :
    left = 0 ∧ Spends total 0 norm' := by
  induction fuel generalizing fr remaining norm with
  | zero => cases read
  | succ fuel ih =>
    rw [fseFields, fseMaxSymbols] at read
    split at read
    case isTrue done =>
      cases read
      have zero : left = 0 := Int.le_antisymm done spent.left
      exact ⟨zero, zero ▸ spent⟩
    case isFalse more =>
      obtain ⟨symbol, read⟩ := check_ok read
      obtain ⟨⟨val, next⟩, field, read⟩ := bind_ok read
      have bound := fseField_le field
      have added : Spends total (remaining - normWeight ((val : Int) - 1)) (((val : Int) - 1) :: norm) :=
        spent.cons (by omega) (by omega) (by rw [normWeight]; split <;> omega)
      dsimp only at read
      split at read
      case isTrue zero =>
        obtain ⟨⟨after, longer⟩, repeats, read⟩ := bind_ok read
        exact ih (fseRepeats_spends added repeats) read
      case isFalse => exact ih added read

theorem spends_nil {total : Nat} : Spends total total [] :=
  ⟨Int.natCast_nonneg total, Nat.zero_le _, fun _ mem => (List.not_mem_nil mem).elim, Int.zero_add _⟩

/-- A distribution that is read: its accuracy under the cap, and its symbols with the whole table spent. -/
theorem fseReadDistribution_spends {src : Source} {fr fr' : Fr} {maxacc acc : Nat} {norm : List Int}
    (read : fseReadDistribution src fr maxacc = .ok (norm, acc, fr')) :
    5 ≤ acc ∧ acc ≤ maxacc ∧ Spends (2 ^ acc : Nat) 0 norm := by
  obtain ⟨⟨e, fr1⟩, -, read⟩ := bind_ok read
  obtain ⟨cap, read⟩ := check_ok read
  obtain ⟨⟨fr2, symbols, left⟩, fields, read⟩ := bind_ok read
  obtain ⟨rfl, spent⟩ := fseFields_spends spends_nil fields
  obtain ⟨fr3, -, read⟩ := bind_ok read
  cases read
  exact ⟨by omega, by omega, spent.reverse⟩

/-! ## The errors -/

/-- The operation does not raise FSE_HDR_SUM. -/
def NeverHdrSum {α : Type} (m : Micro α) : Prop := m ≠ .error (.raised .fseHdrSum)

theorem neverHdrSum_ok {α : Type} (a : α) : NeverHdrSum (.ok a : Micro α) := nofun

theorem neverHdrSum_raise {α : Type} {site : Site} (other : site ≠ .fseHdrSum) : NeverHdrSum (raise site : Micro α) := by
  rintro ⟨⟩
  exact other rfl

theorem neverHdrSum_bind {α β : Type} {m : Micro α} {f : α → Micro β} (first : NeverHdrSum m)
    (rest : ∀ a, m = .ok a → NeverHdrSum (f a)) : NeverHdrSum (m >>= f) := fun raised => by
  rcases bind_error raised with raised | ⟨a, done, raised⟩
  · exact first raised
  · exact rest a done raised

theorem neverHdrSum_ite {α : Type} {c : Prop} [Decidable c] {x y : Micro α} (yes : c → NeverHdrSum x)
    (no : ¬c → NeverHdrSum y) : NeverHdrSum (if c then x else y) := by
  split
  · exact yes ‹_›
  · exact no ‹_›

theorem frReadBits_neverHdrSum (src : Source) (fr : Fr) (n : Nat) : NeverHdrSum (frReadBits src fr n) :=
  neverHdrSum_ite (fun _ => neverHdrSum_raise (by decide)) fun _ => neverHdrSum_ite (fun _ => neverHdrSum_ok _) fun _ =>
    neverHdrSum_ite (fun _ => neverHdrSum_raise (by decide)) fun _ => neverHdrSum_ok _

theorem frRewind_neverHdrSum (fr : Fr) (n : Nat) : NeverHdrSum (frRewind fr n) :=
  neverHdrSum_ite (fun _ => neverHdrSum_raise (by decide)) fun _ => neverHdrSum_ok _

theorem frAlign_neverHdrSum (fr : Fr) : NeverHdrSum (frAlign fr) :=
  neverHdrSum_ite (fun _ => neverHdrSum_raise (by decide)) fun _ => neverHdrSum_ok _

theorem fseRepeats_neverHdrSum (src : Source) (fuel : Nat) (fr : Fr) (norm : List Int) :
    NeverHdrSum (fseRepeats src fuel fr norm) := by
  induction fuel generalizing fr norm with
  | zero => exact neverHdrSum_raise (by decide)
  | succ fuel ih =>
    refine neverHdrSum_bind (frReadBits_neverHdrSum src fr 2) fun _ _ => ?_
    exact neverHdrSum_ite (fun _ => neverHdrSum_raise (by decide)) fun _ =>
      neverHdrSum_ite (fun _ => ih _ _) fun _ => neverHdrSum_ok _

theorem fseField_neverHdrSum (src : Source) (fr : Fr) (remaining : Nat) : NeverHdrSum (fseField src fr remaining) := by
  refine neverHdrSum_bind (frReadBits_neverHdrSum src fr _) fun _ _ => neverHdrSum_ite (fun _ => ?_) fun _ => ?_
  · exact neverHdrSum_bind (frRewind_neverHdrSum _ _) fun _ _ => neverHdrSum_ok _
  · exact neverHdrSum_ite (fun _ => neverHdrSum_ok _) fun _ => neverHdrSum_ok _

theorem fseFields_neverHdrSum (src : Source) (fuel : Nat) (fr : Fr) (remaining : Int) (norm : List Int) :
    NeverHdrSum (fseFields src fuel fr remaining norm) := by
  induction fuel generalizing fr remaining norm with
  | zero => exact neverHdrSum_raise (by decide)
  | succ fuel ih =>
    refine neverHdrSum_ite (fun _ => neverHdrSum_ok _) fun _ =>
      neverHdrSum_ite (fun _ => neverHdrSum_raise (by decide)) fun _ => ?_
    refine neverHdrSum_bind (fseField_neverHdrSum src fr _) fun _ _ => neverHdrSum_ite (fun _ => ?_) fun _ => ih _ _ _
    exact neverHdrSum_bind (fseRepeats_neverHdrSum _ _ _ _) fun _ _ => ih _ _ _

/-- The fields end only with the budget spent, so the check after them never fails. -/
theorem fseReadDistribution_neverHdrSum (src : Source) (fr : Fr) (maxacc : Nat) :
    NeverHdrSum (fseReadDistribution src fr maxacc) := by
  refine neverHdrSum_bind (frReadBits_neverHdrSum src fr 4) fun _ _ =>
    neverHdrSum_ite (fun _ => neverHdrSum_raise (by decide)) fun _ => ?_
  refine neverHdrSum_bind (fseFields_neverHdrSum _ _ _ _ _) fun ⟨_, _, _⟩ fields =>
    neverHdrSum_bind (frAlign_neverHdrSum _) fun _ _ => ?_
  exact neverHdrSum_ite (fun left => absurd (fseFields_spends spends_nil fields).1 left) fun _ => neverHdrSum_ok _

/-- Settles O37: the budget and the sum of the distribution so far are the table's size throughout. -/
theorem fseHeaderSpendsItsBudget : Obligations.FseHeaderSpendsItsBudget := by
  refine ⟨fun _ _ _ _ _ _ => fseField_le, fun src fr fr' maxacc acc norm read => ?_, fseReadDistribution_neverHdrSum⟩
  obtain ⟨least, cap, spent⟩ := fseReadDistribution_spends read
  have sum := spent.sum
  rw [Int.add_zero] at sum
  exact ⟨least, cap, spent.symbols, spent.least, sum⟩

end Sys2Proof.Machine
end

section
/-! SUPPORT. The rows that configure a table (44_sequences.md rule R604; 41_fse.md rules R454, R455 and R459): each is SEQ.TABLE
with its mode, and what SEQ.TABLE puts in place is a configuration. -/

namespace Sys2Proof.Machine

/-! ## Configurations -/

theorem exec_modeRow (f : SeqField) (m : Fin 4) (x : BitVec 4) (s : State) :
    exec (modeRow f m x) s = settle s (configured (seqTable f m s)) := by
  cases f <;> fin_cases m <;> rfl

/-- Putting a table in place, with the reader moved, is a configuration. -/
theorem putTable_configures (f : SeqField) (tab : FseTable) (fr : Fr) (s : State) :
    Configures f tab fr s (putTable f tab (putFr s fr)) where
  frame := by cases f <;> rfl
  previous g := by cases f <;> cases g <;> rfl
  current g := by cases f <;> cases g <;> rfl

/-- A row whose SEQ.TABLE raises an error ends in it. -/
theorem settle_endsInError {s : State} {m : Micro State} {e : Site} (raised : m = .error (.raised e)) :
    ∃ t, settle s m = .next t ∧ EndsInError (siteKind e) e s t :=
  ⟨_, by rw [raised, settle_raised], errorEntry_endsInError e s⟩

/-! ## Predefined and RLE rows -/

/-- The ROM table of a field is the one FSE.BUILD makes of its distribution (41_fse.md rule R455). -/
theorem fseBuild_predef (f : SeqField) : fseBuild (predefDist f) (predefAcc f) = .ok (fsePredef f) := by
  have facts : 5 ≤ predefAcc f ∧ predefAcc f ≤ 15 ∧ (predefDist f).length ≤ 256 ∧ (∀ p ∈ predefDist f, -1 ≤ p) ∧
      normSum (predefDist f) = (2 ^ predefAcc f : Nat) := by cases f <;> decide
  obtain ⟨small, large, symbols, least, sum⟩ := facts
  obtain ⟨t, built⟩ := fseSpreadReturnsToZero _ _ small large symbols least sum
  rw [fsePredef, built]

/-- With its byte there, mode 1 puts the one-state table of the byte in place. -/
theorem seqTableRle_there (f : SeqField) {s : State} (there : hasBytes s 1) :
    seqTableRle f s = .ok (fseBuildRle (nextByte s 0).toNat,
      putTable f (fseBuildRle (nextByte s 0).toNat) (putFr s (frPast s 1))) := by
  rw [seqTableRle, frReadLe_fits _ there.1 there.2]
  rfl

theorem seqTableRle_missing (f : SeqField) {s : State} (aligned : s.dp.fr.pos % 8 = 0) (missing : ¬ hasBytes s 1) :
    seqTableRle f s = raise .frOverrun := by
  have past : s.dp.fr.len < s.dp.fr.pos / 8 + 1 := Nat.not_le.1 fun there => missing ⟨aligned, there⟩
  rw [seqTableRle, frReadLe, if_neg (not_not.2 aligned), if_pos past]
  rfl

/-- Settles O48: both rows put their table in place, the ROM one by O36. -/
theorem predefinedAndRleTables : Obligations.PredefinedAndRleTables := by
  intro s f x
  rw [exec_modeRow, exec_modeRow]
  refine ⟨⟨_, _, fseBuild_predef f, rfl, putTable_configures f _ s.dp.fr s⟩, fun there => ?_, fun aligned missing => ?_⟩
  · exact ⟨_, congrArg (settle s <| configured ·) (seqTableRle_there f there), putTable_configures f _ _ s⟩
  · exact settle_endsInError (congrArg configured (seqTableRle_missing f aligned missing))

/-! ## FSE rows -/

/-- A header whose first byte codes an accuracy above the cap is not read. -/
theorem fseReadHeader_aboveCap {src : Source} {fr : Fr} {maxacc : Nat} (aligned : fr.pos % 8 = 0)
    (there : fr.pos / 8 + 1 ≤ fr.len) (above : maxacc < 5 + (src fr.space (fr.base + fr.pos / 8)).toNat % 16) :
    fseReadHeader src fr maxacc = raise .fseHdrAcc := by
  have bits : forwardBits src fr.space fr.base fr.pos 4 = (src fr.space (fr.base + fr.pos / 8)).toNat % 16 := by
    have byte := forwardBits_inByte src fr.space fr.base (fr.pos / 8) (r := 0) (n := 4) (by decide)
    rwa [Nat.add_zero, Nat.mul_div_cancel' (Nat.dvd_of_mod_eq_zero aligned), Nat.pow_zero, Nat.div_one] at byte
  rw [fseReadHeader, fseReadDistribution, frReadBits_fits src (by decide) (.inr (by omega)), bits, ok_bind]
  dsimp only
  rw [if_pos above]
  rfl

/-- The cap of a weight table is 7. -/
theorem hufDescription_aboveCap {s : State} {n : Nat} (coded : n < 128) (nonempty : 1 ≤ n) (there : hasBytes s n)
    (above : 7 < 5 + (nextByte s 0).toNat % 16) : hufDescription n s = raise .fseHdrAcc := by
  have sub : frSubForward s.dp.fr n = .ok (frSub s 0 n, frPast s n) := by
    have whole := frSubForward_frPast (n := 0) (by rwa [Nat.zero_add])
    rwa [Nat.zero_add] at whole
  have header : fseReadHeader (source s) (frSub s 0 n) hufWeightMaxAcc = raise .fseHdrAcc :=
    fseReadHeader_aboveCap (Nat.zero_mod 8) (by simpa [frSub] using nonempty)
      (by simpa [frSub, hufWeightMaxAcc, nextByte] using above)
  rw [hufDescription, hufTableAfterHeader, hufReadWeights, if_neg (Nat.not_le.2 coded), hufFseWeights, sub, ok_bind]
  dsimp only
  rw [header]
  rfl

/-- Settles O49: a row is its header reader under the field's cap, and the accuracy is the low half of the first byte. -/
theorem streamTablesUnderTheirCap : Obligations.StreamTablesUnderTheirCap := by
  constructor
  case left =>
    intro s f x cap caps
    have field : cap = seqMaxAcc f := by
      simp only [List.mem_cons, Prod.mk.injEq, List.not_mem_nil, or_false] at caps
      rcases caps with ⟨rfl, rfl⟩ | ⟨rfl, rfl⟩ | ⟨rfl, rfl⟩ <;> rfl
    subst field
    have raises : ∀ e, fseReadHeader (source s) s.dp.fr (seqMaxAcc f) = .error (.raised e) →
        configured (seqTable f 2 s) = .error (.raised e) := fun e raised => by
      rw [seqTable, seqTableFse, raised]
      rfl
    rw [exec_modeRow]
    refine ⟨fun tab fr read => ?_, fun e raised => settle_endsInError (raises e raised), fun there above => ?_⟩
    · have put : seqTable f 2 s = .ok (tab, putTable f tab (putFr s fr)) := by
        rw [seqTable, seqTableFse, read]
        rfl
      exact ⟨_, congrArg (settle s <| configured ·) put, putTable_configures f tab fr s⟩
    · exact settle_endsInError (raises .fseHdrAcc (fseReadHeader_aboveCap there.1 there.2 above))
  case right =>
    intro s h nonempty there above
    exact settle_endsInError (hufDescription_aboveCap h.isLt nonempty there above)

end Sys2Proof.Machine
end

section
/-! SUPPORT. The rows that open a table description, a sequence count or a field's mode (42_huffman.md rule R500, 44_sequences.md
rules R601 to R604): each is what the engine does with the value of its byte, and so what BLOCK does once it has read the byte. -/

namespace Sys2Proof.Machine

/-! ## The byte at the reader -/

theorem frReadLe_nextByte {s : State} (there : hasBytes s 1) :
    frReadLe (source s) s.dp.fr 1 = .ok ((nextByte s 0).toNat, frPast s 1) :=
  frReadLe_fits _ there.1 there.2

/-- How an operation ends does not depend on the reader of the state it started in: an error forgets it. -/
@[simp] theorem settle_putFr (s : State) (fr : Fr) (m : Micro State) : settle (putFr s fr) m = settle s m := by
  rcases m with (e | r) | t <;> rfl

/-- A description leaves its own reader in place of the one before it. -/
theorem putFr_putHufRead_putFr (s : State) (r : HufRead) (x y : Fr) :
    putFr (putHufRead (putFr s x) r) y = putFr (putHufRead s r) y := by
  unfold putHufRead
  split <;> rfl

/-! ## The rows of a byte -/

/-- Either Huffman row has the header byte's value for its header (30_encoding.md rule R323). -/
theorem exec_huffmanByte (b : Byte) (s : State) :
    exec (decodeSelector .huffman b) s = settle s (hufDescription b.toNat s) := by
  have low : (b.extractLsb' 0 7).toNat = b.toNat % 128 := by simp
  rw [decodeSelector, decodeHuffmanByte]
  split
  case isTrue direct =>
    have header : 128 + (b.extractLsb' 0 7).toNat = b.toNat := by omega
    rw [← header]
    rfl
  case isFalse coded =>
    have header : (b.extractLsb' 0 7).toNat = b.toNat := by omega
    rw [← header]
    rfl

/-- The rows of a sequence count read the rest of the form their byte selects, then end the section if there are none
(44_sequences.md rules R601 and R602). -/
theorem exec_seqCountByte (b : Byte) (s : State) :
    exec (decodeSelector .seqCount b) s = settle s
      ((if b.toNat < 128 then .ok (b.toNat, s.dp.fr)
        else if b.toNat < 255 then seqCountMediumRest (source s) s.dp.fr (b.toNat - 128)
        else seqCountLongRest (source s) s.dp.fr) >>= fun r => finishCount r.1 r.2 s) := by
  have low : (b.extractLsb' 0 7).toNat = b.toNat % 128 := by simp
  rw [decodeSelector, decodeSeqCountByte]
  split
  case isTrue zero =>
    rw [if_pos (by omega), ok_bind, finishCount, if_pos zero, zero]
    rfl
  case isFalse nonzero =>
    split
    case isTrue short =>
      have count : (b.extractLsb' 0 7).toNat = b.toNat := by omega
      rw [ok_bind, finishCount, if_neg nonzero, ← count]
      rfl
    case isFalse =>
      split
      case isTrue =>
        have count : (b.extractLsb' 0 7).toNat = b.toNat - 128 := by omega
        rw [← count]
        rfl
      case isFalse => rfl

/-- The modes of a modes byte, as parts of its value (30_encoding.md rule R332). -/
theorem seqModeOf_ll (b : Byte) : seqModeOf .ll b = b.toNat / 64 := by
  have byte := b.isLt
  simp only [seqModeOf, extractLsb'_eq_ofNat_div, BitVec.toNat_ofNat]
  omega

theorem seqModeOf_oft (b : Byte) : seqModeOf .oft b = b.toNat / 16 % 4 := by
  simp [seqModeOf, extractLsb'_eq_ofNat_div]

theorem seqModeOf_ml (b : Byte) : seqModeOf .ml b = b.toNat / 4 % 4 := by
  simp [seqModeOf, extractLsb'_eq_ofNat_div]

/-- A modes byte with clear reserved bits is the field's row of its mode (30_encoding.md rule R332). -/
theorem decodeSeqModesByte_eq_modeRow {f : SeqField} {b : Byte} {m : Fin 4} (mode : seqModeOf f b = m)
    (clear : b.toNat % 4 = 0) : decodeSeqModesByte f b = modeRow f m (seqModeOthers f b) := by
  have bits : b.extractLsb' 0 2 = 0 := BitVec.eq_of_toNat_eq (by simpa using clear)
  unfold decodeSeqModesByte
  rw [if_pos bits, mode]
  cases f <;> fin_cases m <;> rfl

theorem exec_modesByte (f : SeqField) {b : Byte} (clear : b.toNat % 4 = 0) (s : State) :
    exec (decodeSelector (.seqModes f) b) s = settle s (configured (seqTable f (seqModeOf f b) s)) := by
  have small : seqModeOf f b < 4 := by cases f <;> exact BitVec.isLt _
  rw [decodeSelector, decodeSeqModesByte_eq_modeRow (m := ⟨_, small⟩) rfl clear, exec_modeRow]

/-- Settles O52: BLOCK reads the byte, and goes on as the byte's row does from the reader past it. -/
theorem descriptionsCountsAndModesAreTheirRows : Obligations.DescriptionsCountsAndModesAreTheirRows := by
  intro s there
  have past : { s with dp := { s.dp with fr := frPast s 1 } } = putFr s (frPast s 1) := rfl
  rw [past]
  refine ⟨?description, ?count, fun f clear => ?mode⟩
  case description =>
    rw [exec_huffmanByte, settle_putFr, hufDescription, source_putFr, hufReadTable, frReadLe_nextByte there]
    simp only [putFr_putHufRead_putFr]
    rfl
  case count =>
    rw [exec_seqCountByte, settle_putFr, source_putFr, seqCount, frReadLe_nextByte there]
    rfl
  case mode =>
    rw [exec_modesByte f clear, settle_putFr]
    cases f with
    | ll => rw [seqModeOf_ll]; rfl
    | oft => rw [seqModeOf_oft]; rfl
    | ml => rw [seqModeOf_ml]; rfl

end Sys2Proof.Machine
end

section
/-! SUPPORT. Reading a table description (42_huffman.md rules R500 to R503): with its bytes there the direct form gives their
nibbles, the coded form what FSE.DECODE2 makes of its region; and the number of weights either form gives. -/

namespace Sys2Proof.Machine

/-! ## Direct weights (42_huffman.md rule R501) -/

@[simp] theorem directWeights_length (src : Source) (sp : ReaderSpace) (a n : Nat) : (directWeights src sp a n).length = n := by
  fun_induction directWeights with
  | case1 => rfl
  | case2 => rfl
  | case3 a n ih => simp [ih]

/-- The weights are the nibbles of the bytes, the high one first. -/
theorem directWeights_getElem? (src : Source) (sp : ReaderSpace) (a : Nat) {n i : Nat} (inside : i < n) :
    (directWeights src sp a n)[i]? = some (if i % 2 = 0 then (src sp (a + i / 2)).toNat / 16
      else (src sp (a + i / 2)).toNat % 16) := by
  fun_induction directWeights generalizing i with
  | case1 => omega
  | case2 a =>
    obtain rfl : i = 0 := by omega
    rfl
  | case3 a n ih =>
    match i with
    | 0 => rfl
    | 1 => rfl
    | i + 2 =>
      have byte : a + (i + 2) / 2 = a + 1 + i / 2 := by omega
      rw [byte, Nat.add_mod_right]
      exact ih (by omega)

/-! ## Coded weights (41_fse.md rule R464) -/

theorem emitWeight_ok {cap x : Nat} {acc acc' : List Nat} (h : emitWeight cap acc x = .ok acc') :
    acc.length < cap ∧ acc' = x :: acc := by
  obtain ⟨room, h⟩ := check_ok h
  cases h
  exact ⟨Nat.not_le.1 room, rfl⟩

theorem fseDecode2Loop_length {src : Source} {t : FseTable} {cap fuel s1 s2 : Nat} {br : Br} {acc : List Nat} {d : Decode2}
    (h : fseDecode2Loop src t cap fuel s1 s2 br acc = .ok d) : 1 ≤ d.hw.length ∧ d.hw.length ≤ cap := by
  induction fuel generalizing s1 s2 br acc with
  | zero => cases h
  | succ fuel ih =>
    obtain ⟨acc1, first, h⟩ := bind_ok h
    obtain ⟨-, rfl⟩ := emitWeight_ok first
    obtain ⟨⟨s1', br1⟩, -, h⟩ := bind_ok h
    dsimp only at h
    split at h
    case isTrue =>
      obtain ⟨acc2, last, h⟩ := bind_ok h
      obtain ⟨room, rfl⟩ := emitWeight_ok last
      cases h
      rw [List.length_reverse]
      exact ⟨Nat.succ_pos _, room⟩
    case isFalse =>
      obtain ⟨acc2, second, h⟩ := bind_ok h
      obtain ⟨-, rfl⟩ := emitWeight_ok second
      obtain ⟨⟨s2', br2⟩, -, h⟩ := bind_ok h
      dsimp only at h
      split at h
      case isTrue =>
        obtain ⟨acc3, last, h⟩ := bind_ok h
        obtain ⟨room, rfl⟩ := emitWeight_ok last
        cases h
        rw [List.length_reverse]
        exact ⟨Nat.succ_pos _, room⟩
      case isFalse => exact ih h

theorem fseDecode2_length {src : Source} {t : FseTable} {br : Br} {cap : Nat} {d : Decode2}
    (h : fseDecode2 src t br cap = .ok d) : 1 ≤ d.hw.length ∧ d.hw.length ≤ cap := by
  obtain ⟨_, -, h⟩ := bind_ok h
  obtain ⟨_, -, h⟩ := bind_ok h
  exact fseDecode2Loop_length h

/-! ## How many weights (42_huffman.md rule R503) -/

theorem hufDirectWeights_length {src : Source} {fr : Fr} {hdr : Nat} {r : HufWeights}
    (h : hufDirectWeights src fr hdr = .ok r) : r.hw.length = hdr - 127 := by
  obtain ⟨⟨a, fr'⟩, -, h⟩ := bind_ok h
  cases h
  simp only [directWeights_length]

theorem hufFseWeights_length {src : Source} {fr : Fr} {hdr : Nat} {r : HufWeights}
    (h : hufFseWeights src fr hdr = .ok r) : 1 ≤ r.hw.length ∧ r.hw.length ≤ 255 := by
  obtain ⟨_, -, h⟩ := bind_ok h
  obtain ⟨_, -, h⟩ := bind_ok h
  obtain ⟨_, -, h⟩ := bind_ok h
  obtain ⟨d, decoded, h⟩ := bind_ok h
  cases h
  exact fseDecode2_length decoded

theorem hufReadWeights_length {src : Source} {fr : Fr} {hdr : Nat} {r : HufWeights} (byte : hdr < 256)
    (h : hufReadWeights src fr hdr = .ok r) :
    1 ≤ r.hw.length ∧ r.hw.length ≤ 255 ∧ (128 ≤ hdr → r.hw.length = hdr - 127 ∧ r.hw.length ≤ 128) := by
  rw [hufReadWeights] at h
  split at h
  case isTrue direct =>
    have length := hufDirectWeights_length h
    omega
  case isFalse coded =>
    have length := hufFseWeights_length h
    omega

/-! ## The description of a state -/

theorem frReadBytes_there {s : State} {n : Nat} (there : hasBytes s n) :
    frReadBytes s.dp.fr n = .ok (s.dp.fr.base + s.dp.fr.pos / 8, frPast s n) := by
  rw [frReadBytes, if_neg (not_not.2 there.1), if_neg (Nat.not_lt.2 there.2)]
  rfl

theorem frSubForward_there {s : State} {n : Nat} (there : hasBytes s n) :
    frSubForward s.dp.fr n = .ok (frSub s 0 n, frPast s n) := by
  rw [frSubForward, frReadBytes_there there]
  rfl

/-- With its bytes there, the direct form reads their nibbles, one more than its header says. -/
theorem hufReadWeights_direct {s : State} {n : Nat} (there : hasBytes s ((n + 2) / 2)) :
    hufReadWeights (source s) s.dp.fr (128 + n) = .ok {
      fr := frPast s ((n + 2) / 2)
      hw := directWeights (source s) s.dp.fr.space (s.dp.fr.base + s.dp.fr.pos / 8) (n + 1)
      coded := none } := by
  have count : 128 + n - 127 = n + 1 := by omega
  rw [hufReadWeights, if_pos (Nat.le_add_right _ _), hufDirectWeights, count, frReadBytes_there there]
  rfl

/-- With its region there, the coded form decodes the weights from it. -/
theorem hufReadWeights_coded {s : State} {n : Nat} {tw : FseTable} {sub rest : Fr} {br : Br} {d : Decode2} (coded : n < 128)
    (there : hasBytes s n) (header : fseReadHeader (source s) (frSub s 0 n) hufWeightMaxAcc = .ok (tw, sub))
    (reader : frRestBackward (source s) sub = .ok (br, rest)) (decoded : fseDecode2 (source s) tw br hufMaxWeights = .ok d) :
    hufReadWeights (source s) s.dp.fr n = .ok { fr := frPast s n, hw := d.hw, coded := some (tw, d) } := by
  rw [hufReadWeights, if_neg (Nat.not_le.2 coded), hufFseWeights, frSubForward_there there, ok_bind]
  simp only [header, reader, decoded, ok_bind]
  rfl

/-- A description whose weights are read builds its table of them, and puts both in place. -/
theorem hufDescription_of_weights {s : State} {hdr : Nat} {w : HufWeights}
    (read : hufReadWeights (source s) s.dp.fr hdr = .ok w) :
    hufDescription hdr s =
      hufBuild w.hw >>= fun b => .ok (putFr (putHufRead s { weights := w, hw := b.1, table := b.2 }) w.fr) := by
  rw [hufDescription, hufTableAfterHeader, read, ok_bind]
  rcases hufBuild w.hw with e | b <;> rfl

/-- Settles O46: the weights each form reads are the given ones, and the row ends as HUF.BUILD does on them. -/
theorem huffmanDescriptionsBuildTheirTable : Obligations.HuffmanDescriptionsBuildTheirTable := by
  refine ⟨fun s n hw there length nibbles => ?direct, fun s h tw sub rest br d ws t there header reader decoded built => ?coded⟩
  case direct =>
    have weights : directWeights (source s) s.dp.fr.space (s.dp.fr.base + s.dp.fr.pos / 8) (n.toNat + 1) = hw :=
      List.ext_getElem?' fun i inside => by
        rw [directWeights_length, length, max_self] at inside
        rw [directWeights_getElem? _ _ _ inside, nibbles i (Nat.le_of_lt_succ inside)]
        rfl
    have row : exec (.hufDirect n) s = settle s (hufDescription (128 + n.toNat) s) := rfl
    rw [row, hufDescription_of_weights (hufReadWeights_direct there), weights]
    refine ⟨fun ws t built => ?_, fun e raised => settle_endsInError (by rw [raised]; rfl)⟩
    rw [built, ← length]
    rfl
  case coded =>
    have row : exec (.hufFse h) s = settle s (hufDescription h.toNat s) := rfl
    rw [row, hufDescription_of_weights (hufReadWeights_coded h.isLt there header reader decoded), built]
    rfl

end Sys2Proof.Machine
end

section
/-! SUPPORT. How a literal stream ends (42_huffman.md rule R515). -/

namespace Sys2Proof.Machine

/-- A stream that is accepted stopped at its mark, and each literal it appended took one of the places left. -/
theorem hufStreamLoop_ok {src : Source} {t : HufTable} {room s : Nat} {br : Br} {lits : List Byte} {r : HufStream}
    (h : hufStreamLoop src t room s br lits = .ok r) :
    r.br.pos = -(t.maxl : Int) ∧ r.lits.length ≤ lits.length + room ∧ ∃ more, r.lits = more ++ lits := by
  induction room generalizing s br lits with
  | zero =>
    unfold hufStreamLoop at h
    split at h
    case isTrue =>
      obtain ⟨mark, h⟩ := check_ok h
      cases h
      exact ⟨not_not.1 mark, Nat.le_refl _, [], rfl⟩
    case isFalse => cases h
  | succ room ih =>
    unfold hufStreamLoop at h
    split at h
    case isTrue =>
      obtain ⟨mark, h⟩ := check_ok h
      cases h
      exact ⟨not_not.1 mark, Nat.le_add_right _ _, [], rfl⟩
    case isFalse =>
      obtain ⟨_, -, h⟩ := bind_ok h
      obtain ⟨mark, count, more, after⟩ := ih h
      exact ⟨mark, by simpa [Nat.add_right_comm, Nat.add_assoc] using count, more ++ [hufPeek t s], by simp [after]⟩

/-- Settles O41: the loop starts with the places the cap leaves. -/
theorem literalStreamEndsAtItsMark : Obligations.LiteralStreamEndsAtItsMark := by
  intro src t br cap lits r under h
  obtain ⟨_, -, h⟩ := bind_ok h
  obtain ⟨mark, count, more⟩ := hufStreamLoop_ok h
  exact ⟨mark, by omega, more⟩

end Sys2Proof.Machine
end

section
/-! SUPPORT. The weights of a built Huffman table (42_huffman.md rules R503 and R504): with the implied one they fill a power
of two, and no weight is above its exponent. -/

namespace Sys2Proof.Machine

@[simp] theorem weightSpan_zero : weightSpan 0 = 0 := rfl
@[simp] theorem weightSpan_succ (w : Nat) : weightSpan (w + 1) = 2 ^ w := rfl
@[simp] theorem weightLength_zero (m : Nat) : weightLength m 0 = 0 := rfl
@[simp] theorem weightLength_succ (m w : Nat) : weightLength m (w + 1) = m - w := by simp [weightLength]

theorem weightLength_le (m w : Nat) : weightLength m w ≤ m := by
  cases w with
  | zero => exact Nat.zero_le m
  | succ w => simp

/-- A weight whose span is below `2^m` is at most `m`. -/
theorem weight_le_of_span_lt {w m : Nat} (below : weightSpan w < 2 ^ m) : w ≤ m := by
  cases w with
  | zero => exact Nat.zero_le m
  | succ w => exact (Nat.pow_lt_pow_iff_right Nat.one_lt_two).1 below

/-- `ws` are the weights `hw` with the implied one after them, and they fill `2^m`. -/
structure Completes (hw ws : List Nat) (m : Nat) : Prop where
  read : hw.length ≤ 255
  length : ws.length = hw.length + 1
  coded : ∃ w ∈ ws, 1 ≤ w
  fills : (ws.map weightSpan).sum = 2 ^ m
  bounded : ∀ w ∈ ws, w ≤ m

/-- The implied weight's span is what the others leave of the next power of two. -/
theorem hufAllWeights_ok {hw ws : List Nat} {m : Nat} (h : hufAllWeights hw = .ok (ws, m)) : Completes hw ws m := by
  obtain ⟨read, h⟩ := check_ok h
  obtain ⟨-, h⟩ := check_ok h
  obtain ⟨nonzero, h⟩ := check_ok h
  obtain ⟨leftover, h⟩ := check_ok h
  have below : (hw.map weightSpan).sum < 2 ^ (hsb (hw.map weightSpan).sum + 1) := Nat.lt_log2_self
  have span : ∀ w ∈ hw, weightSpan w ≤ (hw.map weightSpan).sum := fun w mem => List.le_sum_of_mem (List.mem_map_of_mem mem)
  cases h
  generalize hsb (hw.map weightSpan).sum + 1 = m at *
  generalize hsb (2 ^ m - (hw.map weightSpan).sum) = k at *
  have implied : weightSpan (k + 1) = 2 ^ m - (hw.map weightSpan).sum := (not_not.1 leftover).symm
  exact
    { read := Nat.not_lt.1 read
      length := by simp
      coded := ⟨k + 1, by simp, Nat.succ_pos k⟩
      fills := by
        rw [List.map_append, List.sum_append, List.map_singleton, List.sum_singleton, implied]
        exact Nat.add_sub_cancel' (Nat.le_of_lt below)
      bounded := fun w mem => weight_le_of_span_lt <| by
        rcases List.mem_append.1 mem with given | last
        · exact Nat.lt_of_le_of_lt (span w given) below
        · rw [List.mem_singleton.1 last, implied]
          omega }

end Sys2Proof.Machine
end

section
/-! SUPPORT. The entries of a Huffman table (42_huffman.md rules R504, R506 and R507): which there are, in which order, how
many, and where those of one symbol stand. -/

namespace Sys2Proof.Machine

/-! ## Which entries -/

theorem hufRankCells_mem {maxl len s : Nat} {lens : List Nat} {c : HufCell} (mem : c ∈ hufRankCells maxl len lens s) :
    c.nb = len ∧ ∃ i, c.sym = s + i ∧ lens[i]? = some len := by
  induction lens generalizing s with
  | nil => cases mem
  | cons l ls ih =>
    have later : c ∈ hufRankCells maxl len ls (s + 1) → c.nb = len ∧ ∃ i, c.sym = s + i ∧ (l :: ls)[i]? = some len :=
      fun mem => by
        obtain ⟨bits, i, symbol, code⟩ := ih mem
        exact ⟨bits, i + 1, by omega, code⟩
    rw [hufRankCells] at mem
    split at mem
    case isFalse => exact later mem
    case isTrue own =>
      rcases List.mem_append.1 mem with first | mem
      · rw [List.eq_of_mem_replicate first]
        exact ⟨rfl, 0, rfl, congrArg some own⟩
      · exact later mem

/-- An entry has the code length of its symbol. -/
theorem hufCells_mem {maxl n : Nat} {lens : List Nat} {c : HufCell} (mem : c ∈ hufCells maxl lens n) :
    1 ≤ c.nb ∧ c.nb ≤ n ∧ lens[c.sym]? = some c.nb := by
  induction n with
  | zero => cases mem
  | succ n ih =>
    rcases List.mem_append.1 mem with longest | shorter
    · obtain ⟨bits, i, symbol, code⟩ := hufRankCells_mem longest
      rw [Nat.zero_add] at symbol
      rw [bits, symbol]
      exact ⟨Nat.succ_pos n, Nat.le_refl _, code⟩
    · obtain ⟨least, most, code⟩ := ih shorter
      exact ⟨least, Nat.le_succ_of_le most, code⟩

/-! ## Their order -/

/-- `c` may come before `d`: its code is longer, or as long and its symbol no later (42_huffman.md rule R507). -/
def CanonicalOrder (c d : HufCell) : Prop := d.nb < c.nb ∨ d.nb = c.nb ∧ c.sym ≤ d.sym

theorem hufRankCells_ordered (maxl len s : Nat) (lens : List Nat) :
    (hufRankCells maxl len lens s).Pairwise CanonicalOrder := by
  induction lens generalizing s with
  | nil => exact .nil
  | cons l ls ih =>
    rw [hufRankCells]
    split
    case isFalse => exact ih (s + 1)
    case isTrue =>
      refine List.pairwise_append.2 ⟨List.pairwise_replicate.2 (.inr (.inr ⟨rfl, Nat.le_refl s⟩)), ih (s + 1), ?_⟩
      intro c first d later
      obtain ⟨bits, i, symbol, -⟩ := hufRankCells_mem later
      rw [List.eq_of_mem_replicate first]
      exact .inr ⟨bits, by dsimp only; omega⟩

theorem hufCells_ordered (maxl n : Nat) (lens : List Nat) : (hufCells maxl lens n).Pairwise CanonicalOrder := by
  induction n with
  | zero => exact .nil
  | succ n ih =>
    refine List.pairwise_append.2 ⟨hufRankCells_ordered _ _ _ _, ih, fun c longest d shorter => .inl ?_⟩
    rw [(hufRankCells_mem longest).1]
    exact Nat.lt_succ_of_le (hufCells_mem shorter).2.1

/-! ## Their number -/

/-- How many of the entries of the code lengths up to `n` a symbol of code length `l` has. -/
def codeEntries (maxl n l : Nat) : Nat := if 1 ≤ l ∧ l ≤ n then 2 ^ (maxl - l) else 0

theorem codeEntries_succ (maxl n l : Nat) :
    codeEntries maxl (n + 1) l = (if l = n + 1 then 2 ^ (maxl - (n + 1)) else 0) + codeEntries maxl n l := by
  unfold codeEntries
  by_cases longest : l = n + 1
  · subst longest
    simp
  · have same : l ≤ n + 1 ↔ l ≤ n := by omega
    simp [longest, same]

theorem hufRankCells_length (maxl len s : Nat) (lens : List Nat) :
    (hufRankCells maxl len lens s).length = (lens.map fun l => if l = len then 2 ^ (maxl - len) else 0).sum := by
  induction lens generalizing s with
  | nil => rfl
  | cons l ls ih =>
    rw [hufRankCells]
    split <;> simp_all

theorem hufCells_length (maxl n : Nat) (lens : List Nat) :
    (hufCells maxl lens n).length = (lens.map (codeEntries maxl n)).sum := by
  induction n with
  | zero =>
    have none : codeEntries maxl 0 = fun _ => 0 := funext fun l => if_neg (by omega)
    simp [none, hufCells]
  | succ n ih =>
    rw [hufCells, List.length_append, hufRankCells_length, ih, ← List.sum_map_add, funext (codeEntries_succ maxl n)]

/-- The entries of codes no longer than `len` fill whole spans of a code of length `len`. -/
theorem span_dvd_hufCells_length {maxl n len : Nat} (lens : List Nat) (short : n ≤ len) :
    2 ^ (maxl - len) ∣ (hufCells maxl lens n).length := by
  rw [hufCells_length]
  refine List.dvd_sum fun x mem => ?_
  obtain ⟨l, -, rfl⟩ := List.mem_map.1 mem
  unfold codeEntries
  split
  case isTrue range => exact Nat.pow_dvd_pow 2 (by omega)
  case isFalse => exact Nat.dvd_zero _

theorem span_dvd_hufRankCells_length (maxl len s : Nat) (lens : List Nat) :
    2 ^ (maxl - len) ∣ (hufRankCells maxl len lens s).length := by
  rw [hufRankCells_length]
  refine List.dvd_sum fun x mem => ?_
  obtain ⟨l, -, rfl⟩ := List.mem_map.1 mem
  split
  case isTrue => exact Nat.dvd_refl _
  case isFalse => exact Nat.dvd_zero _

/-! ## The entries of one symbol -/

/-- The entries of symbol `s` stand together, as many as a code of length `len` spans, and whole such spans follow them. -/
def HasCode (maxl len s : Nat) (cells : List HufCell) : Prop :=
  ∃ before after, cells = before ++ (List.replicate (2 ^ (maxl - len)) { sym := s, nb := len } ++ after) ∧
    2 ^ (maxl - len) ∣ after.length ∧ ∀ c ∈ before ++ after, c.sym ≠ s

theorem HasCode.prepend {maxl len s : Nat} {cells front : List HufCell} (code : HasCode maxl len s cells)
    (others : ∀ c ∈ front, c.sym ≠ s) : HasCode maxl len s (front ++ cells) := by
  obtain ⟨before, after, rfl, aligned, rest⟩ := code
  refine ⟨front ++ before, after, (List.append_assoc _ _ _).symm, aligned, fun c mem => ?_⟩
  rw [List.append_assoc] at mem
  exact (List.mem_append.1 mem).elim (others c) (rest c)

theorem HasCode.append {maxl len s : Nat} {cells back : List HufCell} (code : HasCode maxl len s cells)
    (spans : 2 ^ (maxl - len) ∣ back.length) (others : ∀ c ∈ back, c.sym ≠ s) : HasCode maxl len s (cells ++ back) := by
  obtain ⟨before, after, rfl, aligned, rest⟩ := code
  refine ⟨before, after ++ back, by simp only [List.append_assoc], ?_, fun c mem => ?_⟩
  · rw [List.length_append]
    exact Nat.dvd_add aligned spans
  · rw [← List.append_assoc] at mem
    exact (List.mem_append.1 mem).elim (rest c) (others c)

theorem hufRankCells_hasCode {maxl len s i : Nat} {lens : List Nat} (code : lens[i]? = some len) :
    HasCode maxl len (s + i) (hufRankCells maxl len lens s) := by
  induction lens generalizing s i with
  | nil => cases code
  | cons l ls ih =>
    have later : ∀ c ∈ hufRankCells maxl len ls (s + 1), c.sym ≠ s := fun c mem => by
      obtain ⟨-, i, symbol, -⟩ := hufRankCells_mem mem
      omega
    rw [hufRankCells]
    cases i with
    | zero =>
      rw [if_pos (Option.some.inj code)]
      exact ⟨[], _, rfl, span_dvd_hufRankCells_length _ _ _ _, later⟩
    | succ i =>
      have rest := ih (s := s + 1) (i := i) code
      rw [Nat.add_assoc, Nat.add_comm 1 i] at rest
      split
      case isTrue =>
        refine rest.prepend fun c mem => ?_
        rw [List.eq_of_mem_replicate mem]
        dsimp only
        omega
      case isFalse => exact rest

theorem hufCells_hasCode {maxl n len s : Nat} {lens : List Nat} (code : lens[s]? = some len) (range : 1 ≤ len ∧ len ≤ n) :
    HasCode maxl len s (hufCells maxl lens n) := by
  induction n with
  | zero => omega
  | succ n ih =>
    rw [hufCells]
    by_cases longest : len = n + 1
    · subst longest
      have own := hufRankCells_hasCode (maxl := maxl) (s := 0) code
      rw [Nat.zero_add] at own
      refine own.append (span_dvd_hufCells_length lens (Nat.le_succ n)) fun c mem symbol => ?_
      obtain ⟨-, shorter, same⟩ := hufCells_mem mem
      rw [symbol, code] at same
      have := Option.some.inj same
      omega
    · refine (ih (by omega)).prepend fun c mem symbol => ?_
      obtain ⟨-, i, index, same⟩ := hufRankCells_mem mem
      obtain rfl : i = s := by omega
      rw [code] at same
      exact longest (Option.some.inj same)

/-- In a full table the code of a symbol has a value: its entries are the span of that value. -/
theorem HasCode.value {maxl len s : Nat} {cells : List HufCell} (code : HasCode maxl len s cells)
    (full : cells.length = 2 ^ maxl) :
    ∃ v, ∀ (c : Nat) (inside : c < cells.length),
      cells[c].sym = s ↔ v * 2 ^ (maxl - len) ≤ c ∧ c < (v + 1) * 2 ^ (maxl - len) := by
  obtain ⟨before, after, rfl, aligned, others⟩ := code
  have spans : 2 ^ (maxl - len) ∣ before.length := by
    have whole : 2 ^ (maxl - len) ∣ 2 ^ maxl := Nat.pow_dvd_pow 2 (Nat.sub_le _ _)
    rw [← full, List.length_append, List.length_append, List.length_replicate] at whole
    exact (Nat.dvd_add_left (Nat.dvd_add (Nat.dvd_refl _) aligned)).1 whole
  obtain ⟨v, start⟩ := spans
  refine ⟨v, fun c inside => ?_⟩
  rw [Nat.add_mul, Nat.one_mul, Nat.mul_comm v, ← start]
  rcases Nat.lt_or_ge c before.length with lower | lower
  · have other : before[c].sym ≠ s := others _ (List.mem_append_left _ (List.getElem_mem lower))
    rw [List.getElem_append_left lower]
    simp [other, lower]
  · rw [List.getElem_append_right lower, List.getElem_append]
    split
    case isTrue own =>
      rw [List.length_replicate] at own
      simp
      omega
    case isFalse higher =>
      rw [List.length_replicate] at higher
      exact iff_of_false (others _ (List.mem_append_right _ (List.getElem_mem _))) (by omega)

end Sys2Proof.Machine
end

section
/-! SUPPORT. A built Huffman table (42_huffman.md rules R503, R504, R506 and R507): its longest code, its entries, and that
they are as many as the code values. -/

namespace Sys2Proof.Machine

theorem le_longest {lens : List Nat} {l : Nat} (mem : l ∈ lens) : l ≤ lens.foldl max 0 := by
  rw [List.foldl_eq_foldr]
  exact List.le_max_of_le' 0 mem (Nat.le_refl l)

theorem longest_le {lens : List Nat} {b : Nat} (bound : ∀ l ∈ lens, l ≤ b) : lens.foldl max 0 ≤ b := by
  rw [List.foldl_eq_foldr]
  exact List.max_le_of_forall_le lens b bound

/-- A symbol's entries are the part of the table that its span is of `2^m`. -/
theorem codeEntries_weightLength {maxl m w : Nat} (weight : w ≤ m) (code : weightLength m w ≤ maxl) (longest : maxl ≤ m) :
    codeEntries maxl maxl (weightLength m w) * 2 ^ (m - maxl) = weightSpan w := by
  cases w with
  | zero => simp [codeEntries]
  | succ w =>
    rw [weightLength_succ] at code ⊢
    rw [codeEntries, if_pos ⟨by omega, code⟩, weightSpan_succ, ← Nat.pow_add]
    congr 1
    omega

/-- Weights that fill a power of two fill the table. -/
theorem Completes.full {hw ws : List Nat} {m maxl : Nat} (complete : Completes hw ws m)
    (codes : ∀ w ∈ ws, weightLength m w ≤ maxl) (longest : maxl ≤ m) :
    (hufCells maxl (ws.map (weightLength m)) maxl).length = 2 ^ maxl := by
  have scaled : (hufCells maxl (ws.map (weightLength m)) maxl).length * 2 ^ (m - maxl) = 2 ^ maxl * 2 ^ (m - maxl) := by
    rw [hufCells_length, List.map_map, ← List.sum_map_mul_right, ← Nat.pow_add, Nat.add_sub_cancel' longest, ← complete.fills]
    exact congrArg List.sum (List.map_congr_left fun w mem =>
      codeEntries_weightLength (complete.bounded w mem) (codes w mem) longest)
  exact Nat.eq_of_mul_eq_mul_right (Nat.two_pow_pos _) scaled

/-- `t` is the table of the weights `ws`, which complete `hw` and fill `2^m`. -/
structure Builds (hw ws : List Nat) (m : Nat) (t : HufTable) : Prop where
  weights : Completes hw ws m
  cells : t.cells = hufCells t.maxl (ws.map (weightLength m)) t.maxl
  full : t.cells.length = 2 ^ t.maxl
  longest : t.maxl ≤ 16
  codes : ∀ w ∈ ws, weightLength m w ≤ t.maxl

theorem hufBuild_ok {hw ws : List Nat} {t : HufTable} (h : hufBuild hw = .ok (ws, t)) : ∃ m, Builds hw ws m t := by
  obtain ⟨⟨ws', m⟩, weights, h⟩ := bind_ok h
  obtain ⟨longest, h⟩ := check_ok h
  obtain ⟨full, h⟩ := check_ok h
  cases h
  exact ⟨m,
    { weights := hufAllWeights_ok weights
      cells := rfl
      full := not_not.1 full
      longest := Nat.not_lt.1 longest
      codes := fun w mem => le_longest (List.mem_map_of_mem mem) }⟩

/-! ## The number of symbols -/

theorem hufBuild_length {hw ws : List Nat} {t : HufTable} (h : hufBuild hw = .ok (ws, t)) :
    ws.length = hw.length + 1 ∧ ws.length ≤ 256 := by
  obtain ⟨m, built⟩ := hufBuild_ok h
  have length := built.weights.length
  have read := built.weights.read
  exact ⟨length, by omega⟩

theorem hufDescription_length {hdr : Nat} {s t : State} (byte : hdr < 256) (h : hufDescription hdr s = .ok t) :
    t.dp.nW ≤ 255 ∧ t.dp.hw.length = t.dp.nW + 1 := by
  obtain ⟨r, read, h⟩ := bind_ok h
  obtain ⟨w, weights, read⟩ := bind_ok read
  obtain ⟨⟨ws, table⟩, build, read⟩ := bind_ok read
  cases h
  cases read
  simp only [putFr_dp, putHufRead_nW, putHufRead_hw, HufRead.count]
  obtain ⟨-, most, -⟩ := hufReadWeights_length byte weights
  exact ⟨most, (hufBuild_length build).1⟩

/-- Settles O38: each form's own count; HUF.BUILD refuses more than 255 weights and adds one. -/
theorem weightCountIsBounded : Obligations.WeightCountIsBounded :=
  ⟨fun _ _ _ _ byte => hufReadWeights_length byte, fun _ _ _ => hufBuild_length, fun _ _ _ byte => hufDescription_length byte⟩

/-! ## HUF_RANK (42_huffman.md rule R506) -/

/-- An error that is not the check's own is raised after it. -/
theorem check_error {α : Type} {c : Prop} [Decidable c] {site : Site} {m : Micro α} {e : Halt} (other : e ≠ .raised site)
    (h : (if c then raise site else m) = .error e) : m = .error e := by
  split at h
  · exact absurd (Except.error.inj h).symm other
  · exact h

/-- The checks of the weights raise sites of their own. -/
theorem hufAllWeights_ne_hufRank (hw : List Nat) : hufAllWeights hw ≠ .error (.raised .hufRank) := fun h => by
  replace h := check_error (by decide) h
  replace h := check_error (by decide) h
  replace h := check_error (by decide) h
  replace h := check_error (by decide) h
  cases h

/-- The check before the table is made never fails: the weights fill it. -/
theorem hufBuild_ne_hufRank (hw : List Nat) : hufBuild hw ≠ .error (.raised .hufRank) := fun h => by
  rcases bind_error h with h | ⟨⟨ws, m⟩, weights, h⟩
  · exact hufAllWeights_ne_hufRank hw h
  · have complete := hufAllWeights_ok weights
    have longest : (ws.map (weightLength m)).foldl max 0 ≤ m :=
      longest_le (List.forall_mem_map.2 fun w _ => weightLength_le m w)
    have full := complete.full (fun w mem => le_longest (List.mem_map_of_mem mem)) longest
    replace h := check_error (by decide) h
    dsimp only at h
    rw [if_neg (not_not.2 full)] at h
    cases h

/-! ## The entries (42_huffman.md rules R506 and R507) -/

theorem weightLength_of_pos {m w : Nat} (coded : 1 ≤ w) (bound : w ≤ m) :
    1 ≤ weightLength m w ∧ weightLength m w + w = m + 1 := by
  rw [weightLength, if_neg (by omega)]
  omega

theorem hufCell_eq_getElem {t : HufTable} {c : Nat} (inside : c < t.cells.length) : hufCell t c = t.cells[c] :=
  List.getD_eq_getElem _ _ inside

section

variable {hw ws : List Nat} {m : Nat} {t : HufTable} (built : Builds hw ws m t)
include built

/-- An entry's length is the one the weight of its symbol says. -/
theorem Builds.entry {c : HufCell} (mem : c ∈ t.cells) :
    1 ≤ c.nb ∧ c.nb ≤ t.maxl ∧ ∃ w, ws[c.sym]? = some w ∧ weightLength m w = c.nb := by
  rw [built.cells] at mem
  obtain ⟨least, most, code⟩ := hufCells_mem mem
  rw [List.getElem?_map, Option.map_eq_some_iff] at code
  exact ⟨least, most, code⟩

theorem Builds.longest_pos : 1 ≤ t.maxl := by
  obtain ⟨w, mem, coded⟩ := built.weights.coded
  exact Nat.le_trans (weightLength_of_pos coded (built.weights.bounded w mem)).1 (built.codes w mem)

theorem Builds.symbol_lt {c : HufCell} (mem : c ∈ t.cells) : c.sym < 256 := by
  obtain ⟨-, -, w, given, -⟩ := built.entry mem
  have symbol := (List.getElem?_eq_some_iff.1 given).1
  have length := built.weights.length
  have read := built.weights.read
  omega

theorem Builds.ordered {c d : Nat} (before : c < d) (inside : d < 2 ^ t.maxl) :
    CanonicalOrder (hufCell t c) (hufCell t d) := by
  have order := hufCells_ordered t.maxl t.maxl (ws.map (weightLength m))
  rw [← built.cells] at order
  rw [← built.full] at inside
  rw [hufCell_eq_getElem inside, hufCell_eq_getElem (before.trans inside)]
  exact List.pairwise_iff_getElem.1 order c d _ _ before

theorem Builds.entry_of_symbol {c s : Nat} (inside : c < 2 ^ t.maxl) (symbol : s < ws.length) (own : (hufCell t c).sym = s) :
    1 ≤ (hufCell t c).nb ∧ weightLength m ws[s] = (hufCell t c).nb := by
  rw [← built.full] at inside
  obtain ⟨least, -, w, given, code⟩ := built.entry (List.getElem_mem inside)
  rw [← hufCell_eq_getElem inside] at least given code
  rw [own, List.getElem?_eq_getElem symbol] at given
  rw [Option.some.inj given]
  exact ⟨least, code⟩

/-- A symbol with a weight has a code value, whose span its entries are. -/
theorem Builds.value {s : Nat} (symbol : s < ws.length) (coded : 1 ≤ ws[s]) :
    ∃ v, ∀ c, c < 2 ^ t.maxl → ((hufCell t c).sym = s ↔
      v * 2 ^ (t.maxl - weightLength m ws[s]) ≤ c ∧ c < (v + 1) * 2 ^ (t.maxl - weightLength m ws[s])) := by
  have mem := List.getElem_mem symbol
  have least := (weightLength_of_pos coded (built.weights.bounded _ mem)).1
  have length : (ws.map (weightLength m))[s]? = some (weightLength m ws[s]) := by
    rw [List.getElem?_map, List.getElem?_eq_getElem symbol, Option.map_some]
  have code := hufCells_hasCode (maxl := t.maxl) length ⟨least, built.codes _ mem⟩
  rw [← built.cells] at code
  obtain ⟨v, span⟩ := code.value built.full
  refine ⟨v, fun c inside => ?_⟩
  rw [← built.full] at inside
  rw [hufCell_eq_getElem inside]
  exact span c inside

end

/-- Settles O39: the weights fill the table, and an entry's length is its symbol's code length. -/
theorem huffmanTableIsFilled : Obligations.HuffmanTableIsFilled := by
  refine ⟨fun hw ws t h => ?_, hufBuild_ne_hufRank⟩
  obtain ⟨m, built⟩ := hufBuild_ok h
  refine ⟨built.longest_pos, built.longest, built.full, fun c mem => ?_, m, built.weights.fills⟩
  obtain ⟨least, most, -⟩ := built.entry mem
  exact ⟨least, most, built.symbol_lt mem⟩

/-- Settles O40: the entries are in canonical order, and a symbol's stand together at a multiple of their number. -/
theorem huffmanCodesAreCanonical : Obligations.HuffmanCodesAreCanonical := by
  intro hw ws t h
  obtain ⟨m, built⟩ := hufBuild_ok h
  refine ⟨fun c d => built.ordered, m, built.weights.fills, fun s symbol => ?_⟩
  rw [← List.getElem_eq_getD (h := symbol)]
  refine ⟨fun zero c inside own => ?uncoded, fun coded => ?coded⟩
  case uncoded =>
    obtain ⟨least, code⟩ := built.entry_of_symbol inside symbol own
    rw [zero, weightLength_zero] at code
    omega
  case coded =>
    have mem := List.getElem_mem symbol
    obtain ⟨v, span⟩ := built.value symbol coded
    exact ⟨weightLength m ws[s], v, (weightLength_of_pos coded (built.weights.bounded _ mem)).2, built.codes _ mem,
      fun c inside => ⟨span c inside, fun own => (built.entry_of_symbol inside symbol own).2.symm⟩⟩

end Sys2Proof.Machine
end

section
/-! SUPPORT. The Raw and RLE rows (30_encoding.md rule R321, 43_literals.md rules R551, R553 and R554): with its size bytes there a
row has its size, and goes on past them under the size bound; with its data there it fills the literal buffer. -/

namespace Sys2Proof.Machine

/-! ## The rows -/

/-- The row, whether its section is RLE, how many size bytes follow its byte, and the size bits of its byte (30_encoding.md rule
R321). -/
def sizedRows (x5 : BitVec 5) (x4 : BitVec 4) : List (Instr × Bool × Nat × Nat) :=
  [(.litRawSf02 x5, false, 0, x5.toNat), (.litRawSf1 x4, false, 1, x4.toNat), (.litRawSf3 x4, false, 2, x4.toNat),
   (.litRleSf02 x5, true, 0, x5.toNat), (.litRleSf1 x4, true, 1, x4.toNat), (.litRleSf3 x4, true, 2, x4.toNat)]

/-- The size bound, then LIT.RLE or LIT.RAW (43_literals.md rules R551, R553 and R554). -/
def litSized (rle : Bool) (size : Nat) (s : State) : Micro State := if rle then litRleSized size s else litRawSized size s

theorem exec_sizedRow {x5 : BitVec 5} {x4 : BitVec 4} {i : Instr} {rle : Bool} {k low : Nat}
    (row : (i, rle, k, low) ∈ sizedRows x5 x4) :
    k ≤ 2 ∧ ∀ s, exec i s = settle s (extendSize low 4 (8 * k) s >>= fun r => litSized rle r.1 r.2) := by
  simp only [sizedRows, List.mem_cons, Prod.mk.injEq, List.not_mem_nil, or_false] at row
  rcases row with ⟨rfl, rfl, rfl, rfl⟩ | ⟨rfl, rfl, rfl, rfl⟩ | ⟨rfl, rfl, rfl, rfl⟩ | ⟨rfl, rfl, rfl, rfl⟩ |
    ⟨rfl, rfl, rfl, rfl⟩ | ⟨rfl, rfl, rfl, rfl⟩ <;> exact ⟨by decide, fun _ => rfl⟩

/-! ## The size -/

/-- Whole bytes that are there, read as bits, are their little-endian integer (20_memory.md rules R208 and R209). -/
theorem frReadBits_nextLe {s : State} {k : Nat} (there : hasBytes s k) (width : k ≤ 4) :
    frReadBits (source s) s.dp.fr (8 * k) = .ok (nextLe s k, frPast s k) := by
  obtain ⟨aligned, there⟩ := there
  have start : 8 * (s.dp.fr.pos / 8) = s.dp.fr.pos := by omega
  have bits := forwardBits_bytes (source s) s.dp.fr.space s.dp.fr.base (s.dp.fr.pos / 8) k
  rw [start, ← nextLe_eq_memRead] at bits
  rw [frReadBits_fits _ (by omega) (by omega), bits]
  rfl

/-- A row whose size bytes are there has its size, and goes on past them. -/
theorem exec_sizedRow_there {x5 : BitVec 5} {x4 : BitVec 4} {i : Instr} {rle : Bool} {k low : Nat} {s : State}
    (row : (i, rle, k, low) ∈ sizedRows x5 x4) (there : hasBytes s k) :
    exec i s = settle s (litSized rle (low + 16 * nextLe s k) (putFr s (frPast s k))) := by
  obtain ⟨short, run⟩ := exec_sizedRow row
  rw [run, extendSize, frReadBits_nextLe there (by omega)]
  rfl

theorem litSized_large {rle : Bool} {size : Nat} {s : State} (above : s.params.maxBlock < size) :
    litSized rle size s = raise .litSize := by
  cases rle <;> exact if_pos above

theorem litSized_fits {rle : Bool} {size : Nat} {s : State} (fits : size ≤ s.params.maxBlock) :
    litSized rle size s = if rle then litRle size s else litRaw size s := by
  cases rle <;> exact if_neg (Nat.not_lt.2 fits)

/-! ## The data -/

theorem litRaw_there {size : Nat} {s : State} (there : hasBytes s size) :
    litRaw size s = .ok (putLits (putFr s (frPast s size))
      (sourceBytes (source s) s.dp.fr.space (s.dp.fr.base + s.dp.fr.pos / 8) size)) := by
  rw [litRaw, frReadBytes_there there]
  rfl

theorem litRle_there {size : Nat} {s : State} (there : hasBytes s 1) :
    litRle size s = .ok (putLits (putFr s (frPast s 1)) (List.replicate size (nextByte s 0))) := by
  have byte : BitVec.ofNat 8 (nextByte s 0).toNat = nextByte s 0 := by simp
  rw [litRle, frReadLe_nextByte there, ok_bind]
  dsimp only
  rw [byte]
  rfl

theorem litRaw_missing {size : Nat} {s : State} (aligned : s.dp.fr.pos % 8 = 0) (missing : ¬ hasBytes s size) :
    litRaw size s = raise .frOverrun := by
  have past : s.dp.fr.len < s.dp.fr.pos / 8 + size := Nat.not_le.1 fun there => missing ⟨aligned, there⟩
  rw [litRaw, frReadBytes, if_neg (not_not.2 aligned), if_pos past]
  rfl

theorem litRle_missing {size : Nat} {s : State} (aligned : s.dp.fr.pos % 8 = 0) (missing : ¬ hasBytes s 1) :
    litRle size s = raise .frOverrun := by
  have past : s.dp.fr.len < s.dp.fr.pos / 8 + 1 := Nat.not_le.1 fun there => missing ⟨aligned, there⟩
  rw [litRle, frReadLe, if_neg (not_not.2 aligned), if_pos past]
  rfl

/-- With its data there, a section fills the literal buffer with it, or repeats its byte. -/
theorem litSized_there {rle : Bool} {size : Nat} {s : State} (fits : size ≤ s.params.maxBlock)
    (there : hasBytes s (if rle then 1 else size)) :
    ∃ lits, litSized rle size s = .ok (putLits (putFr s (frPast s (if rle then 1 else size))) lits) ∧
      lits.length = size ∧ ∀ j, j < size → lits[j]? = some (nextByte s (if rle then 0 else j)) := by
  rw [litSized_fits fits]
  cases rle with
  | false => exact ⟨_, litRaw_there there, sourceBytes_length _ _ _ _, sourceBytes_get _ _ _ _⟩
  | true => exact ⟨_, litRle_there there, List.length_replicate, fun _ => List.getElem?_replicate_of_lt⟩

theorem litSized_missing {rle : Bool} {size : Nat} {s : State} (fits : size ≤ s.params.maxBlock)
    (aligned : s.dp.fr.pos % 8 = 0) (missing : ¬ hasBytes s (if rle then 1 else size)) :
    litSized rle size s = raise .frOverrun := by
  rw [litSized_fits fits]
  cases rle with
  | false => exact litRaw_missing aligned missing
  | true => exact litRle_missing aligned missing

/-! ## The reader moved on by whole bytes -/

theorem hasBytes_frPast {s : State} {k n : Nat} : hasBytes (putFr s (frPast s k)) n ↔ hasBytes s (k + n) := by
  simp only [hasBytes, putFr_dp, frPast]
  omega

theorem frPast_frPast (s : State) (k n : Nat) : frPast (putFr s (frPast s k)) n = frPast s (k + n) := by
  simp only [frPast, putFr_dp, Nat.mul_add, Nat.add_assoc]

theorem nextByte_frPast (s : State) (k j : Nat) : nextByte (putFr s (frPast s k)) j = nextByte s (k + j) := by
  have byte : (s.dp.fr.pos + 8 * k) / 8 = s.dp.fr.pos / 8 + k := by omega
  simp only [nextByte, source_putFr, putFr_dp, frPast, byte, Nat.add_assoc]

/-- Settles O42: past the size bytes the row is LIT.RAW or LIT.RLE, whose one read gives the data or overruns. -/
theorem rawAndRleLiterals : Obligations.RawAndRleLiterals := by
  intro s x5 x4 i rle k size row there fits
  obtain ⟨⟨i, rle, k, low⟩, sized, same⟩ :=
    (List.mem_map (l := sizedRows x5 x4) (f := fun r => (r.1, r.2.1, r.2.2.1, r.2.2.2 + 16 * nextLe s r.2.2.1))).1 row
  cases same
  dsimp only at there fits ⊢
  rw [exec_sizedRow_there sized there]
  refine ⟨fun data => ?_, fun missing => ?_⟩
  · obtain ⟨lits, run, length, bytes⟩ := litSized_there (rle := rle) (s := putFr s (frPast s k)) fits (hasBytes_frPast.2 data)
    refine ⟨lits, ?_, length, fun j inside => by rw [bytes j inside, nextByte_frPast]⟩
    rw [run, frPast_frPast]
    rfl
  · have aligned := (hasBytes_frPast (n := 0).2 there).1
    exact settle_endsInError (litSized_missing (s := putFr s (frPast s k)) fits aligned (mt hasBytes_frPast.1 missing))

/-- Settles O45: the size bound comes first after the size bytes, in the rows of either kind. -/
theorem literalSizesAreBounded : Obligations.LiteralSizesAreBounded := by
  refine fun s x5 x4 => ⟨fun i k size row there above => ?_, fun i four w row there above => ?_⟩
  · obtain ⟨⟨i, rle, k, low⟩, sized, same⟩ :=
      (List.mem_map (l := sizedRows x5 x4) (f := fun r => (r.1, r.2.2.1, r.2.2.2 + 16 * nextLe s r.2.2.1))).1 row
    cases same
    rw [exec_sizedRow_there sized there]
    exact settle_endsInError (litSized_large (s := putFr s (frPast s k)) above)
  · have run : ∃ fresh, IsSizeWidth w ∧ ∀ s, exec i s = settle s (litHuffmanFrom fresh four w x4.toNat s) :=
      (List.mem_append.1 row).elim (fun row => ⟨_, exec_compressedRow row⟩) fun row => ⟨_, exec_treelessRow row⟩
    obtain ⟨fresh, width, run⟩ := run
    have large : litHuffmanFrom fresh four w x4.toNat s = raise .litSize := by
      rw [litHuffmanFrom_eq_body width there]
      exact if_pos above
    rw [run]
    exact settle_endsInError large

end Sys2Proof.Machine
end

section
/-! SUPPORT. A literals section is its first byte and the row of that byte (43_literals.md rule R550, 30_encoding.md rules R320 to
R322). BLOCK reads the byte's fields one by one and a size across the byte's end; a row has the byte's bits as its operand and
reads the rest. The two readings give the same bits (20_memory.md rule R210), and the same error where they end. -/

namespace Sys2Proof.Machine

/-! ## The row of a byte -/

/-- The size of a Raw or RLE section whose first byte is read, with 5 or 4 bits of that byte (43_literals.md rule R551). -/
def litSizeAfterByte (sf low5 low4 : Nat) (s : State) : Micro (Nat × State) :=
  if sf = 0 ∨ sf = 2 then .ok (low5, s) else extendSize low4 4 (if sf = 1 then 8 else 16) s

/-- A literals section whose first byte, of type `ltype` and size format `sf`, is read (43_literals.md rule R550). -/
def litAfterByte (ltype sf low5 low4 : Nat) (s : State) : Micro State :=
  if ltype = 0 ∨ ltype = 1 then litSizeAfterByte sf low5 low4 s >>= fun r => litSized (ltype == 1) r.1 r.2
  else litHuffmanFrom (ltype == 2) (sf != 0) (litSizeWidth sf) low4 s

/-- Each of the 16 selectors of a literals byte is the row of its type and its size format (30_encoding.md rule R320). -/
theorem exec_literalsByte (b : Byte) (s : State) :
    exec (decodeSelector .literals b) s =
      settle s (litAfterByte (b.toNat % 4) (b.toNat / 4 % 4) (b.toNat / 8) (b.toNat / 16) s) := by
  have byte := b.isLt
  have nibble : (b.extractLsb' 0 4).toNat = b.toNat % 16 := by simp
  have low5 : (b.extractLsb' 3 5).toNat = b.toNat / 8 := by
    simp only [extractLsb'_eq_ofNat_div, BitVec.toNat_ofNat]; omega
  have low4 : (b.extractLsb' 4 4).toNat = b.toNat / 16 := by
    simp only [extractLsb'_eq_ofNat_div, BitVec.toNat_ofNat]; omega
  have ltype : b.toNat % 4 = b.toNat % 16 % 4 := by omega
  have sf : b.toNat / 4 % 4 = b.toNat % 16 / 4 := by omega
  have selector : b.toNat % 16 < 16 := Nat.mod_lt _ (by decide)
  rw [decodeSelector, decodeLiteralsByte, nibble, ltype, sf, ← low5, ← low4]
  generalize b.toNat % 16 = n at selector
  interval_cases n <;> rfl

/-! ## Reading within the byte, and past it -/

/-- The reader moved on by `r` bits. -/
def frSkip (s : State) (r : Nat) : Fr := { s.dp.fr with pos := s.dp.fr.pos + r }

/-- Bits that lie in the byte at the reader. -/
theorem frReadBits_inNextByte {s : State} (there : hasBytes s 1) (r : Nat) {n : Nat} (inside : r + n ≤ 8) :
    frReadBits (source s) (frSkip s r) n = .ok ((nextByte s 0).toNat / 2 ^ r % 2 ^ n, frSkip s (r + n)) := by
  obtain ⟨aligned, there⟩ := there
  have bits := forwardBits_inByte (source s) s.dp.fr.space s.dp.fr.base (s.dp.fr.pos / 8) inside
  have start : 8 * (s.dp.fr.pos / 8) = s.dp.fr.pos := by omega
  rw [start] at bits
  rw [frSkip, frReadBits_fits _ (by omega) (.inr (by dsimp only; omega)), bits, Nat.add_assoc]
  rfl

theorem frReadBits_overrun (src : Source) {fr : Fr} {n : Nat} (positive : n ≠ 0) (width : n ≤ 32)
    (past : 8 * fr.len < fr.pos + n) : frReadBits src fr n = raise .frOverrun := by
  rw [frReadBits, if_neg (Nat.not_lt.2 width), if_neg positive, if_pos past]

/-- A read whose first bits are there ends as the read of the others does, with the first bits below. -/
theorem frReadBits_add {src : Source} {fr fr' : Fr} {n m low : Nat} (first : frReadBits src fr n = .ok (low, fr'))
    (positive : m ≠ 0) (width : n + m ≤ 32) :
    frReadBits src fr (n + m) = (frReadBits src fr' m >>= fun r => .ok (low + 2 ^ n * r.1, r.2)) := by
  cases second : frReadBits src fr' m with
  | ok r => exact frReadBits_split width first second
  | error e =>
    obtain ⟨-, fits, -, rfl⟩ := frReadBits_ok first
    have past : 8 * fr.len < fr.pos + n + m := by
      by_contra there
      rw [frReadBits_fits src (by omega) (.inr (Nat.not_lt.1 there))] at second
      cases second
    rw [frReadBits_overrun src positive (by omega) past] at second
    rw [frReadBits_overrun src (by omega) width (by omega), ← second]
    rfl

/-- A read from the middle of the byte at the reader: its low bits are the byte's high ones. -/
theorem frReadBits_acrossNextByte {s : State} (there : hasBytes s 1) {m : Nat} (positive : m ≠ 0) (width : 4 + m ≤ 32) :
    frReadBits (source s) (frSkip s 4) (4 + m) =
      (frReadBits (source s) (frPast s 1) m >>= fun r => .ok ((nextByte s 0).toNat / 16 + 2 ^ 4 * r.1, r.2)) := by
  have byte : (nextByte s 0).toNat / 2 ^ 4 % 2 ^ 4 = (nextByte s 0).toNat / 16 := by
    have := (nextByte s 0).isLt
    omega
  have first := frReadBits_inNextByte there 4 (n := 4) (by decide)
  rw [byte] at first
  exact frReadBits_add first positive width

/-! ## The section -/

/-- The size of a Raw or RLE section, read from the middle of its first byte (43_literals.md rule R551). -/
theorem litSizeBits_afterByte {s : State} (there : hasBytes s 1) (sf : Nat) :
    (litSizeBits (source s) (frSkip s 4) sf >>= fun r => .ok (r.1, putFr s r.2)) =
      litSizeAfterByte sf ((nextByte s 0).toNat / 8) ((nextByte s 0).toNat / 16) (putFr s (frPast s 1)) := by
  unfold litSizeBits litSizeAfterByte
  split
  case isTrue short =>
    have byte : (nextByte s 0).toNat / 2 ^ 3 % 2 ^ 5 = (nextByte s 0).toNat / 8 := by
      have := (nextByte s 0).isLt
      omega
    have rewound : frRewind (frSkip s 4) 1 = .ok (frSkip s 3) := by
      rw [frRewind, if_neg (by simp only [frSkip]; omega)]
      rfl
    rw [rewound, ok_bind, frReadBits_inNextByte there 3 (by decide), byte]
    rfl
  case isFalse =>
    have across : ∀ m, m ≠ 0 → 4 + m ≤ 32 →
        (frReadBits (source s) (frSkip s 4) (4 + m) >>= fun r => .ok (r.1, putFr s r.2)) =
          extendSize ((nextByte s 0).toNat / 16) 4 m (putFr s (frPast s 1)) := fun m positive width => by
      rw [frReadBits_acrossNextByte there positive width, extendSize, source_putFr, putFr_dp]
      rcases frReadBits (source s) (frPast s 1) m with e | r <;> rfl
    split
    · exact across 8 (by decide) (by decide)
    · exact across 16 (by decide) (by decide)

/-- A Raw or RLE section past its type and size format. -/
theorem litRawRle_afterByte {s : State} (there : hasBytes s 1) {ltype : Nat} (raw : ltype = 0 ∨ ltype = 1) (sf : Nat) :
    (litRawRleSize (source s) (frSkip s 4) sf s.params.maxBlock >>= fun r =>
        if ltype = 0 then litRaw r.1 (putFr s r.2) else litRle r.1 (putFr s r.2)) =
      (litSizeAfterByte sf ((nextByte s 0).toNat / 8) ((nextByte s 0).toNat / 16) (putFr s (frPast s 1)) >>= fun r =>
        litSized (ltype == 1) r.1 r.2) := by
  rw [← litSizeBits_afterByte there, litRawRleSize]
  rcases litSizeBits (source s) (frSkip s 4) sf with e | ⟨size, fr⟩
  · rfl
  · rw [ok_bind, ok_bind, ok_bind]
    dsimp only
    by_cases above : s.params.maxBlock < size
    · rw [if_pos above, litSized_large (s := putFr s fr) above]
      rfl
    · rw [if_neg above, litSized_fits (s := putFr s fr) (Nat.not_lt.1 above)]
      rcases raw with rfl | rfl <;> rfl

/-- A Huffman section past its type and size format (43_literals.md rule R555). -/
theorem litHuffman_afterByte {s : State} (there : hasBytes s 1) (ltype sf : Nat) :
    litHuffman ltype sf (putFr s (frSkip s 4)) =
      litHuffmanFrom (ltype == 2) (sf != 0) (litSizeWidth sf) ((nextByte s 0).toNat / 16) (putFr s (frPast s 1)) := by
  obtain ⟨m, width, positive, narrow⟩ : ∃ m, litSizeWidth sf = 4 + m ∧ m ≠ 0 ∧ 4 + m ≤ 32 := by
    unfold litSizeWidth
    split
    · exact ⟨6, by decide⟩
    · split
      · exact ⟨10, by decide⟩
      · exact ⟨14, by decide⟩
  rw [litHuffman, litHuffmanFrom, extendSize, width, Nat.add_sub_cancel_left, source_putFr, source_putFr, putFr_dp, putFr_dp,
    frReadBits_acrossNextByte there positive narrow]
  rcases frReadBits (source s) (frPast s 1) m with e | r <;> rfl

theorem litSection_eq_afterByte {s : State} (there : hasBytes s 1) :
    litSection s = litAfterByte ((nextByte s 0).toNat % 4) ((nextByte s 0).toNat / 4 % 4) ((nextByte s 0).toNat / 8)
      ((nextByte s 0).toNat / 16) (putFr s (frPast s 1)) := by
  have first : frReadBits (source s) s.dp.fr 2 = .ok ((nextByte s 0).toNat % 4, frSkip s 2) := by
    have bits := frReadBits_inNextByte there 0 (n := 2) (by decide)
    rwa [Nat.pow_zero, Nat.div_one] at bits
  have second : frReadBits (source s) (frSkip s 2) 2 = .ok ((nextByte s 0).toNat / 4 % 4, frSkip s 4) :=
    frReadBits_inNextByte there 2 (by decide)
  rw [litSection, first, ok_bind]
  dsimp only
  rw [second, ok_bind, litAfterByte]
  exact ite_congr rfl (fun raw => litRawRle_afterByte there raw _) fun _ => litHuffman_afterByte there _ _

/-- Settles O51: past its first byte, a section and the row of the byte are the same operation. -/
theorem literalsSectionIsItsRow : Obligations.LiteralsSectionIsItsRow := by
  intro s there
  have row := exec_literalsByte (nextByte s 0) (putFr s (frPast s 1))
  rw [settle_putFr, ← litSection_eq_afterByte there] at row
  exact row.symm

end Sys2Proof.Machine
end

section
/-! SUPPORT. What each selector row writes (43_literals.md rule R555, 44_sequences.md rules R600 and R604): every row is an operation
that only raises; a Compressed row with a result may set PREV_HUF, a mode row sets PREV_FSE of its own field, and nothing else
but the command-internal registers changes. -/

namespace Sys2Proof.Machine

/-! ## What a row may write -/

/-- What a selector row with a result may have changed. -/
structure RowWrites (i : Instr) (s t : State) : Prop where
  frame : t = { s with dp := t.dp, prevHuf := t.prevHuf, prevFse := t.prevFse }
  huffman : t.prevHuf ≠ s.prevHuf → ∃ x, i ∈ (compressedRows x).map fun r => r.1
  mode : t.prevFse ≠ s.prevFse → ∃ f m x, i = modeRow f m x ∧ ∀ g, g ≠ f → prevTable t g = prevTable s g

/-- Only the command-internal registers differ. -/
def DpWrites (s t : State) : Prop := ∃ dp, t = withDp dp s

theorem DpWrites.rowWrites {s t : State} (writes : DpWrites s t) (i : Instr) : RowWrites i s t := by
  obtain ⟨dp, rfl⟩ := writes
  exact ⟨rfl, fun changed => absurd rfl changed, fun changed => absurd rfl changed⟩

/-- The row is an operation that only raises, and with a result has written what it may. -/
def RowSettles (i : Instr) (s : State) : Prop :=
  ∃ m, exec i s = settle s m ∧ OnlyRaises m ∧ ∀ t, m = .ok t → RowWrites i s t

/-- A row that writes the command-internal registers only. -/
theorem rowSettles_dp {i : Instr} {s : State} {m : Micro State} (run : exec i s = settle s m) (raises : OnlyRaises m)
    (writes : ∀ t, m = .ok t → DpWrites s t) : RowSettles i s :=
  ⟨m, run, raises, fun t ok => (writes t ok).rowWrites i⟩

/-! ## Literals -/

theorem litSized_onlyRaises (rle : Bool) (size : Nat) (s : State) : OnlyRaises (litSized rle size s) :=
  onlyRaises_ite (fun _ => litRleSized_onlyRaises size s) fun _ => litRawSized_onlyRaises size s

theorem litSized_ok {rle : Bool} {size : Nat} {s t : State} (h : litSized rle size s = .ok t) :
    ∃ fr lits, t = putLits (putFr s fr) lits := by
  cases rle with
  | false =>
    obtain ⟨_, fr, -, rfl⟩ := litRaw_ok (litRawSized_ok h).2
    exact ⟨fr, _, rfl⟩
  | true =>
    obtain ⟨_, fr, -, rfl⟩ := litRle_ok (litRleSized_ok h).2
    exact ⟨fr, _, rfl⟩

theorem rowSettles_sized {x5 : BitVec 5} {x4 : BitVec 4} {i : Instr} (row : i ∈ (sizedRows x5 x4).map fun r => r.1) (s : State) :
    RowSettles i s := by
  obtain ⟨⟨i, rle, k, low⟩, member, rfl⟩ := List.mem_map.1 row
  refine rowSettles_dp ((exec_sizedRow member).2 s) ?raises fun t ok => ?writes
  case raises => exact onlyRaises_bind (extendSize_onlyRaises _ _ _ _) fun _ _ => litSized_onlyRaises _ _ _
  case writes =>
    obtain ⟨⟨size, u⟩, extended, sized⟩ := bind_ok ok
    obtain ⟨_, _, -, -, rfl⟩ := extendSize_ok extended
    obtain ⟨_, _, rfl⟩ := litSized_ok sized
    exact ⟨_, rfl⟩

theorem rowSettles_compressed {x : BitVec 4} {i : Instr} (row : i ∈ (compressedRows x).map fun r => r.1) (s : State) :
    RowSettles i s := by
  obtain ⟨⟨i, four, w⟩, member, rfl⟩ := List.mem_map.1 row
  refine ⟨_, (exec_compressedRow member).2 s, litHuffmanFrom_onlyRaises _ _ _ _ _, fun t ok => ?_⟩
  obtain ⟨_, _, rfl⟩ := litHuffmanFrom_writes ok
  exact ⟨rfl, fun _ => ⟨x, row⟩, fun changed => absurd rfl changed⟩

/-- A treeless section leaves PREV_HUF as it was (43_literals.md rule R558). -/
theorem litHuffmanFrom_treeless_writes {four : Bool} {w low : Nat} {s t : State}
    (h : litHuffmanFrom false four w low s = .ok t) : DpWrites s t := by
  obtain ⟨⟨regen, u⟩, extended, h⟩ := bind_ok h
  obtain ⟨_, _, -, -, rfl⟩ := extendSize_ok extended
  obtain ⟨⟨csize, fr⟩, -, h⟩ := bind_ok h
  obtain ⟨-, _, _, -, ⟨fresh, -⟩ | ⟨-, _, -, streams⟩⟩ := litHuffmanBody_ok h
  · cases fresh
  · obtain ⟨_, -, -, rfl⟩ := litStreams_ok streams
    exact ⟨_, rfl⟩

theorem rowSettles_treeless {x : BitVec 4} {i : Instr} (row : i ∈ (treelessRows x).map fun r => r.1) (s : State) :
    RowSettles i s := by
  obtain ⟨⟨i, four, w⟩, member, rfl⟩ := List.mem_map.1 row
  exact rowSettles_dp ((exec_treelessRow member).2 s) (litHuffmanFrom_onlyRaises _ _ _ _ _) fun _ =>
    litHuffmanFrom_treeless_writes

/-! ## Descriptions, counts and modes -/

theorem rowSettles_description {i : Instr} {s : State} {hdr : Nat} (run : exec i s = settle s (hufDescription hdr s)) :
    RowSettles i s := by
  refine rowSettles_dp run (hufDescription_onlyRaises _ _) fun t ok => ?_
  obtain ⟨r, -, done⟩ := bind_ok ok
  cases done
  unfold putHufRead
  split <;> exact ⟨_, rfl⟩

theorem finishCount_ok {n : Nat} {fr : Fr} {s t : State} (h : finishCount n fr s = .ok t) : t = putCount s n fr := by
  unfold finishCount at h
  split at h
  · exact (seqEmptyEnd_ok h).2.2
  · cases h
    rfl

/-- A count that is read, and then ends the section if it is 0. -/
theorem rowSettles_count {i : Instr} {s : State} {count : Micro (Nat × Fr)}
    (run : exec i s = settle s (count >>= fun r => finishCount r.1 r.2 s)) (raises : OnlyRaises count) : RowSettles i s := by
  refine rowSettles_dp run (onlyRaises_bind raises fun _ _ => finishCount_onlyRaises _ _ _) fun t ok => ?_
  obtain ⟨_, -, finished⟩ := bind_ok ok
  exact ⟨_, finishCount_ok finished⟩

theorem rowSettles_mode (f : SeqField) (m : Fin 4) (x : BitVec 4) (s : State) : RowSettles (modeRow f m x) s := by
  refine ⟨_, exec_modeRow f m x s, configured_onlyRaises (seqTable_onlyRaises _ _ _), fun t ok => ?_⟩
  obtain ⟨tab, table⟩ := configured_ok ok
  obtain ⟨fr, rfl⟩ := seqTable_ok table
  have puts := putTable_configures f tab fr s
  refine ⟨by cases f <;> rfl, fun changed => absurd (by cases f <;> rfl) changed, fun _ => ⟨f, m, x, rfl, fun g other => ?_⟩⟩
  rw [puts.previous, if_neg other]

/-! ## Every row -/

theorem selector_rowSettles {i : Instr} (sel : isSelector i = true) (s : State) : RowSettles i s := by
  cases i with
  | litRawSf02 x => exact rowSettles_sized (x5 := x) (x4 := 0) (by simp [sizedRows]) s
  | litRawSf1 x => exact rowSettles_sized (x5 := 0) (x4 := x) (by simp [sizedRows]) s
  | litRawSf3 x => exact rowSettles_sized (x5 := 0) (x4 := x) (by simp [sizedRows]) s
  | litRleSf02 x => exact rowSettles_sized (x5 := x) (x4 := 0) (by simp [sizedRows]) s
  | litRleSf1 x => exact rowSettles_sized (x5 := 0) (x4 := x) (by simp [sizedRows]) s
  | litRleSf3 x => exact rowSettles_sized (x5 := 0) (x4 := x) (by simp [sizedRows]) s
  | litCompressedSf0 x => exact rowSettles_compressed (x := x) (by simp [compressedRows]) s
  | litCompressedSf1 x => exact rowSettles_compressed (x := x) (by simp [compressedRows]) s
  | litCompressedSf2 x => exact rowSettles_compressed (x := x) (by simp [compressedRows]) s
  | litCompressedSf3 x => exact rowSettles_compressed (x := x) (by simp [compressedRows]) s
  | litTreelessSf0 x => exact rowSettles_treeless (x := x) (by simp [treelessRows]) s
  | litTreelessSf1 x => exact rowSettles_treeless (x := x) (by simp [treelessRows]) s
  | litTreelessSf2 x => exact rowSettles_treeless (x := x) (by simp [treelessRows]) s
  | litTreelessSf3 x => exact rowSettles_treeless (x := x) (by simp [treelessRows]) s
  | hufDirect n => exact rowSettles_description rfl
  | hufFse h => exact rowSettles_description rfl
  | seqCountZero => exact rowSettles_count (count := .ok (0, s.dp.fr)) rfl (onlyRaises_ok _)
  | seqCountShort c =>
    exact rowSettles_dp (m := .ok (putCount s c.toNat s.dp.fr)) rfl (onlyRaises_ok _) fun _ ok => ⟨_, (Except.ok.inj ok).symm⟩
  | seqCountMedium c =>
    exact rowSettles_count rfl (onlyRaises_bind (frReadLe_onlyRaises _ _ _) fun _ _ => onlyRaises_pure _)
  | seqCountLong => exact rowSettles_count rfl (onlyRaises_bind (frReadLe_onlyRaises _ _ _) fun _ _ => onlyRaises_pure _)
  | seqModeLlPredefined x => exact rowSettles_mode .ll 0 x s
  | seqModeLlRle x => exact rowSettles_mode .ll 1 x s
  | seqModeLlFse x => exact rowSettles_mode .ll 2 x s
  | seqModeLlRepeat x => exact rowSettles_mode .ll 3 x s
  | seqModeOfPredefined x => exact rowSettles_mode .oft 0 x s
  | seqModeOfRle x => exact rowSettles_mode .oft 1 x s
  | seqModeOfFse x => exact rowSettles_mode .oft 2 x s
  | seqModeOfRepeat x => exact rowSettles_mode .oft 3 x s
  | seqModeMlPredefined x => exact rowSettles_mode .ml 0 x s
  | seqModeMlRle x => exact rowSettles_mode .ml 1 x s
  | seqModeMlFse x => exact rowSettles_mode .ml 2 x s
  | seqModeMlRepeat x => exact rowSettles_mode .ml 3 x s
  | seqModesReserved r x =>
    exact rowSettles_dp (m := raise .seqModes) rfl (onlyRaises_raise (by decide)) fun _ ok => nomatch ok
  | _ => cases sel

/-- Settles O58: a row ends in an error it raised, or with a result, which is what its family writes. -/
theorem selectorRowsWriteOnlyDecodeState : Obligations.SelectorRowsWriteOnlyDecodeState := by
  intro i s t sel next
  obtain ⟨m, run, raises, writes⟩ := selector_rowSettles sel s
  rcases settle_next (run ▸ next) with ok | ⟨e, raised, rfl⟩
  · obtain ⟨frame, huffman, mode⟩ := writes t ok
    exact .inr ⟨frame, huffman, mode⟩
  · obtain ⟨site, named, same⟩ := raises _ raised
    cases same
    exact .inl ⟨e, named, errorEntry_endsInError e s⟩

end Sys2Proof.Machine
end

section
/-! SUPPORT. A compressed block of Raw literals and no sequences (43_literals.md rule R553, 44_sequences.md rule R602, 45_window.md
rule R656): the literals section fills the literal buffer, the zero count ends the payload, and EXECUTE appends the buffer. -/

namespace Sys2Proof.Machine

/-! ## The phases -/

/-- A first byte `8 * n` opens a Raw section of `n` bytes (30_encoding.md rule R321). -/
theorem litSection_raw {s : State} {n : Nat} (short : n ≤ 31) (fits : n ≤ s.params.maxBlock) (there : hasBytes s (1 + n))
    (byte : nextByte s 0 = BitVec.ofNat 8 (8 * n)) :
    ∃ lits, litSection s = .ok (putLits (putFr s (frPast s (1 + n))) lits) ∧ lits.length = n ∧
      ∀ j, j < n → lits[j]? = some (nextByte s (1 + j)) := by
  have value : (nextByte s 0).toNat = 8 * n := by rw [byte, BitVec.toNat_ofNat]; omega
  have raw : 8 * n % 4 = 0 := by omega
  have format : 8 * n / 4 % 4 = 0 ∨ 8 * n / 4 % 4 = 2 := by omega
  obtain ⟨lits, run, length, bytes⟩ := litSized_there (rle := false) (s := putFr s (frPast s 1)) fits (hasBytes_frPast.2 there)
  refine ⟨lits, ?_, length, fun j inside => by rw [bytes j inside, nextByte_frPast]; rfl⟩
  rw [litSection_eq_afterByte (hasBytes_of_add there), value, litAfterByte, raw, if_pos (.inl rfl), litSizeAfterByte,
    if_pos format, Nat.mul_div_cancel_left n (by decide), ok_bind, ← frPast_frPast]
  exact run

/-- A zero count that is the payload's last byte ends the section without sequences (44_sequences.md rule R602). -/
theorem seqSection_zero {s : State} (there : hasBytes s 1) (last : ¬ hasBytes s 2) (zero : nextByte s 0 = 0) :
    seqSection s = .ok (putCount s 0 (frPast s 1)) := by
  have count : seqCount (source s) s.dp.fr = .ok (0, frPast s 1) := by
    rw [seqCount, frReadLe_nextByte there, zero]
    rfl
  have rest : frRemaining (frPast s 1) = .ok 0 := by
    unfold hasBytes at there last
    rw [frRemaining, frPast, if_neg (by dsimp only; omega)]
    exact congrArg Except.ok (by dsimp only; omega)
  rw [seqSection, count, ok_bind]
  dsimp only
  rw [if_pos rfl, seqEmptyEnd, putCount_dp, rest]
  rfl

/-- Without sequences EXECUTE appends the literals at W_END (45_window.md rules R656 and R658). -/
theorem execute_literals {s : State} (none : s.dp.sb = []) (fits : s.dp.lb.length ≤ s.params.maxBlock) :
    execute s = .ok (s.dp.lb.length, writeWin (withDp { s.dp with lp := 0 } s) s.wEnd s.dp.lb) := by
  have position : framePos s - s.drained = s.wEnd := by simp [framePos]
  have emitted : framePos s + s.dp.lb.length - framePos s = s.dp.lb.length := Nat.add_sub_cancel_left _ _
  rw [execute, if_neg (by simpa [none] using fits)]
  dsimp only
  rw [none, executeSeqs, ok_bind]
  dsimp only
  rw [List.drop_zero, emitted, position]
  rfl

/-- The state whose forward reader stands at the start of a payload of `size` bytes, every other command-internal register idle
(45_window.md rule R655). -/
def atPayload (size : Nat) (s : State) : State := withDp { Dp.idle with fr := frMake .inp 0 size } s

theorem hasBytes_atPayload {size n : Nat} {s : State} : hasBytes (atPayload size s) n ↔ n ≤ size := by
  simp [hasBytes, atPayload, frMake]

theorem nextByte_atPayload (size : Nat) (s : State) (j : Nat) : nextByte (atPayload size s) j = inByte s j := by
  simp [nextByte, atPayload, frMake, source, inByte]

theorem nextByte_putLits {s : State} (input : s.dp.fr.space = .inp) (lits : List Byte) (j : Nat) :
    nextByte (putLits s lits) j = nextByte s j := by
  simp [nextByte, input, source]

section Payload
variable {s : State} {n : Nat}

/-- The decode phase of such a payload: the literals, no sequences, and only command-internal registers changed. -/
theorem decodePhase_rawLiterals (short : n ≤ 31) (fits : n ≤ s.params.maxBlock)
    (header : inByte s 0 = BitVec.ofNat 8 (8 * n)) (count : inByte s (n + 1) = 0) :
    ∃ dp, decodePhase (n + 2) s = .ok (withDp dp s) ∧ dp.sb = [] ∧ dp.lb.length = n ∧
      ∀ j, j < n → dp.lb[j]? = some (inByte s (1 + j)) := by
  obtain ⟨lits, literals, length, bytes⟩ := litSection_raw (s := atPayload (n + 2) s) short fits
    (hasBytes_atPayload.2 (by omega)) (by rw [nextByte_atPayload, header])
  simp only [nextByte_atPayload] at bytes
  obtain ⟨p, past⟩ : ∃ p, p = putFr (atPayload (n + 2) s) (frPast (atPayload (n + 2) s) (1 + n)) := ⟨_, rfl⟩
  rw [← past] at literals
  have left : ∀ k, hasBytes (putLits p lits) k ↔ 1 + n + k ≤ n + 2 := fun k => by
    rw [past]
    exact hasBytes_frPast.trans hasBytes_atPayload
  have zero : nextByte (putLits p lits) 0 = 0 := by
    rw [past, nextByte_putLits rfl, nextByte_frPast, nextByte_atPayload, Nat.add_zero, Nat.add_comm, count]
  have sequences := seqSection_zero ((left 1).2 (by omega)) (mt (left 2).1 (by omega)) zero
  subst past
  exact ⟨_, (congrArg (· >>= seqSection) literals).trans sequences, rfl, length, bytes⟩

/-- The two phases of such a block append its literals, and change only command-internal registers besides. -/
theorem materializeCompressed_rawLiterals (short : n ≤ 31) (fits : n ≤ s.params.maxBlock)
    (header : inByte s 0 = BitVec.ofNat 8 (8 * n)) (count : inByte s (n + 1) = 0) :
    ∃ lits dp, materializeCompressed (n + 2) s = .ok (n, withDp dp (writeWin s s.wEnd lits)) ∧ lits.length = n ∧
      ∀ j, j < n → lits[j]? = some (inByte s (1 + j)) := by
  obtain ⟨dp, decoded, none, length, bytes⟩ := decodePhase_rawLiterals short fits header count
  have executed := execute_literals (s := withDp dp s) none (by simpa [length] using fits)
  rw [length] at executed
  exact ⟨dp.lb, _, (congrArg (· >>= execute) decoded).trans executed, length, bytes⟩

end Payload

/-! ## The block -/

/-- What a block commits does not depend on the hints it found: it has cleared them (46_commands.md rule R703). -/
theorem Commits.of_clearHints {room needIn outLen : Nat} {last : Bool} {out : Nat → Byte} {s t : State}
    (commits : Commits room needIn outLen last out (clearHints s) t) : Commits room needIn outLen last out s t :=
  ⟨commits.frame, commits.kept, commits.written, commits.above, commits.input⟩

/-- A compressed block in ACTIVE is the steps of BLOCK (46_commands.md rule R720). -/
theorem exec_blkCompressed_active {s : State} (active : s.fsm = .active) (last : Bool) (size : BitVec 21) :
    exec (.blkCompressed last size) s =
      blockSteps size.toNat size.toNat s.params.maxBlock last (materializeCompressed size.toNat) (clearHints s) := by
  have runs : exec (.blkCompressed last size) s = inActive (blockCompressed last size.toNat) (clearHints s) :=
    dispatchCommand_runs fun failed => by rw [active] at failed; cases failed
  exact runs.trans (if_pos active)

/-- A run written at W_END holds its bytes, and every other address reads as before. -/
theorem get_setMany_append {m : Memory} {a n : Nat} {lits : List Byte} {out : Nat → Byte} (length : lits.length = n)
    (bytes : ∀ j, j < n → lits[j]? = some (out j)) :
    (∀ j, j < n → Memory.get (Memory.setMany m a lits) (a + j) = some (out j)) ∧
    ∀ x, x < a ∨ a + n ≤ x → Memory.get (Memory.setMany m a lits) x = Memory.get m x := by
  refine ⟨fun j inside => ?_, fun x outside => ?_⟩
  · rw [Memory.get_setMany, if_pos (by omega), Nat.add_sub_cancel_left, bytes j inside]
  · rw [Memory.get_setMany, if_neg (by omega)]

/-- Settles O23: in the state TRYFLUSH leaves, the block materializes its literals, and commits them. -/
theorem literalsOnlyBlockProducesThem : Obligations.LiteralsOnlyBlockProducesThem := by
  intro s last n _ active short fits input room header count
  have size : (BitVec.ofNat 21 (n + 2)).toNat = n + 2 := by rw [BitVec.toNat_ofNat]; omega
  have phases : ∀ u, tryFlush s.params.maxBlock (clearHints s) = some u → ∃ lits dp,
      materializeCompressed (n + 2) u = .ok (n, withDp dp (writeWin u u.wEnd lits)) ∧ lits.length = n ∧
      ∀ j, j < n → lits[j]? = some (inByte s (1 + j)) := by
    intro u flush
    obtain ⟨_, _, _, _, rfl⟩ := tryFlush_shape flush
    exact materializeCompressed_rawLiterals short (Nat.le_of_add_right_le fits) header count
  obtain ⟨u, v, t, flush, materialized, next, commits, rep, huffman, fse⟩ :=
    blockSteps_commits (size := n + 2) (last := last) (s := clearHints s) (mat := materializeCompressed (n + 2))
      (fun j => inByte s (1 + j)) fits input room rfl rfl fun u flush => by
        obtain ⟨lits, dp, run, length, bytes⟩ := phases u flush
        exact ⟨_, _, u.rep, u.prevHuf, u.prevFse, dp, run, rfl, get_setMany_append length bytes⟩
  obtain ⟨lits, dp, run, -⟩ := phases u flush
  obtain ⟨_, _, _, _, rfl⟩ := tryFlush_shape flush
  cases materialized.symm.trans run
  rw [exec_blkCompressed_active active, size]
  exact ⟨t, next, commits.of_clearHints, rep, huffman, fse⟩

end Sys2Proof.Machine
end

section
/-! SUPPORT. Decoding the sequences of a block (44_sequences.md rules R610 to R614): a read of the backward reader is below the power
of two of its width, so a code's value stays below the end of the code's span; and the loop adds one entry per sequence. -/

namespace Sys2Proof.Machine

/-! ## The code tables (44_sequences.md rule R610) -/

/-- The span of a literal-length code ends by 131072. -/
theorem llSpan_le {c : Nat} (code : c ≤ llMaxCode) : llBase.getD c 0 + 2 ^ llBits.getD c 0 ≤ 131072 := by
  have spans : ∀ c, c < llMaxCode + 1 → llBase.getD c 0 + 2 ^ llBits.getD c 0 ≤ 131072 := by decide
  exact spans c (Nat.lt_succ_of_le code)

/-- The span of a match-length code starts from 3 and ends by 131075. -/
theorem mlSpan_le {c : Nat} (code : c ≤ mlMaxCode) :
    3 ≤ mlBase.getD c 0 ∧ mlBase.getD c 0 + 2 ^ mlBits.getD c 0 ≤ 131075 := by
  have spans : ∀ c, c < mlMaxCode + 1 → 3 ≤ mlBase.getD c 0 ∧ mlBase.getD c 0 + 2 ^ mlBits.getD c 0 ≤ 131075 := by decide
  exact spans c (Nat.lt_succ_of_le code)

/-! ## One sequence -/

theorem brReadWide_lt {src : Source} {br br' : Br} {n v : Nat} (read : brReadWide src br n = .ok (v, br')) :
    n ≤ 32 ∧ v < 2 ^ n := by
  obtain ⟨width, rfl, -⟩ := brRead_ok read
  exact ⟨width, backwardBits_lt src br.base (Int.sub_add_cancel _ _).le⟩

/-- A sequence that is decoded passed both code checks, and each of its values lies in the span of its code (44_sequences.md rule
R612). -/
theorem seqDecodeOne_ok {src : Source} {t : SeqTables} {st : SeqStates} {e : SeqEntry} {br : Br}
    (decoded : seqDecodeOne src t st = .ok (e, br)) :
    fsePeek t.ll st.ll ≤ llMaxCode ∧ fsePeek t.ml st.ml ≤ mlMaxCode ∧ fsePeek t.oft st.oft ≤ 32 ∧
    ∃ x m l, x < 2 ^ fsePeek t.oft st.oft ∧ m < 2 ^ mlBits.getD (fsePeek t.ml st.ml) 0 ∧
      l < 2 ^ llBits.getD (fsePeek t.ll st.ll) 0 ∧
      e = { ll := llBase.getD (fsePeek t.ll st.ll) 0 + l, ml := mlBase.getD (fsePeek t.ml st.ml) 0 + m,
            ofv := 2 ^ fsePeek t.oft st.oft + x } := by
  obtain ⟨llCode, decoded⟩ := check_ok decoded
  obtain ⟨mlCode, decoded⟩ := check_ok decoded
  obtain ⟨⟨x, br1⟩, offset, decoded⟩ := bind_ok decoded
  obtain ⟨⟨m, br2⟩, matchLength, decoded⟩ := bind_ok decoded
  obtain ⟨⟨l, br3⟩, literalLength, decoded⟩ := bind_ok decoded
  cases decoded
  obtain ⟨width, extra⟩ := brReadWide_lt offset
  exact ⟨Nat.not_lt.1 llCode, Nat.not_lt.1 mlCode, width, x, m, l, extra, (brReadWide_lt matchLength).2,
    (brReadWide_lt literalLength).2, rfl⟩

/-! ## All sequences -/

/-- The loop appends one entry per sequence left. -/
theorem seqDecodeLoop_length {src : Source} {t : SeqTables} {k : Nat} {st st' : SeqStates} {acc sb : List SeqEntry}
    (decoded : seqDecodeLoop src t k st acc = .ok (sb, st')) : sb.length = acc.length + k := by
  induction k generalizing st acc with
  | zero =>
    cases decoded
    exact List.length_reverse
  | succ k ih =>
    obtain ⟨⟨e, br⟩, -, decoded⟩ := bind_ok decoded
    dsimp only at decoded
    split at decoded
    case isTrue last =>
      cases decoded
      rw [List.length_reverse, List.length_cons, last]
    case isFalse =>
      obtain ⟨_, -, decoded⟩ := bind_ok decoded
      rw [ih decoded, List.length_cons]
      omega

/-- Once the loop has ended, its result stands only if the bitstream is used up (44_sequences.md rule R613). -/
theorem seqDecodeAll_of_loop {src : Source} {t : SeqTables} {br : Br} {n : Nat} {st0 st : SeqStates} {sb : List SeqEntry}
    (start : seqInit src t br = .ok st0) (loop : seqDecodeLoop src t n st0 [] = .ok (sb, st)) :
    seqDecodeAll src t br n = if st.br.pos ≠ 0 then raise .seqEnd else .ok (sb, st) := by
  rw [seqDecodeAll, start, ok_bind, loop]
  rfl

/-- Settles O53: the extra bits keep each value in the span of its code, and the spans lie in the ranges. -/
theorem decodedSequencesInRange : Obligations.DecodedSequencesInRange := by
  refine ⟨by decide, by decide, fun src t st e br decoded => ?ranges, fun src t br n sb st decoded => ?whole⟩
  case ranges =>
    obtain ⟨llCode, mlCode, width, x, m, l, offset, matchLength, literalLength, rfl⟩ := seqDecodeOne_ok decoded
    have llSpan := llSpan_le llCode
    obtain ⟨least, mlSpan⟩ := mlSpan_le mlCode
    have positive := Nat.two_pow_pos (fsePeek t.oft st.oft)
    have widest : 2 ^ fsePeek t.oft st.oft ≤ 2 ^ 32 := Nat.pow_le_pow_right (by decide) width
    refine ⟨?_, ?_, ?_, ?_, ?_⟩ <;> dsimp only <;> omega
  case whole =>
    obtain ⟨st0, start, rest⟩ := bind_ok decoded
    obtain ⟨⟨sb', st'⟩, loop, rest⟩ := bind_ok rest
    obtain ⟨exhausted, done⟩ := check_ok rest
    cases done
    exact ⟨not_not.1 exhausted, (seqDecodeLoop_length loop).trans (Nat.zero_add n)⟩

/-- Settles O54: the end check is the last thing SEQ.DECODE_ALL does. -/
theorem sequenceStreamMustBeExhausted : Obligations.SequenceStreamMustBeExhausted := by
  intro src t br n st0 st sb start loop
  rw [seqDecodeAll_of_loop start loop]
  exact ⟨fun exhausted => if_neg (not_not.2 exhausted), fun left => if_pos left, rfl⟩

end Sys2Proof.Machine
end

section
/-! SUPPORT. The repeat offsets (44_sequences.md rules R621 and R622): one equation per branch of SEQ.RESOLVE, and the two
subtractions as integers, neither of which wraps. -/

namespace Sys2Proof.Machine

/-! ## The branches of SEQ.RESOLVE -/

theorem seqResolve_new {ofv : Nat} (ll : Nat) (rep : RepOffsets) (large : 3 < ofv) :
    seqResolve ofv ll rep = (BitVec.ofNat 64 (ofv - 3), { r0 := BitVec.ofNat 64 (ofv - 3), r1 := rep.r0, r2 := rep.r1 }) :=
  if_pos large

/-- What the repeat index selects from the history and how it moves the history: the entry goes to the front, and index 3 is the
first entry minus 1. -/
def resolveRepeat (rep : RepOffsets) : Nat → Word64 × RepOffsets
  | 0 => (rep.r0, rep)
  | 1 => (rep.r1, { r0 := rep.r1, r1 := rep.r0, r2 := rep.r2 })
  | 2 => (rep.r2, { r0 := rep.r2, r1 := rep.r0, r2 := rep.r1 })
  | _ => (rep.r0 - 1, { r0 := rep.r0 - 1, r1 := rep.r0, r2 := rep.r1 })

/-- With literals before the match the value 1 selects the first entry. -/
theorem seqResolve_literals {ofv ll : Nat} (rep : RepOffsets) (small : ofv ≤ 3) (literals : ll ≠ 0) :
    seqResolve ofv ll rep = resolveRepeat rep (ofv - 1) := by
  rw [seqResolve, if_neg (Nat.not_lt.2 small), if_neg literals]
  rfl

/-- Without literals the index shifts by one. -/
theorem seqResolve_noLiterals {ofv : Nat} (rep : RepOffsets) (positive : 1 ≤ ofv) (small : ofv ≤ 3) :
    seqResolve ofv 0 rep = resolveRepeat rep ofv := by
  rw [seqResolve, if_neg (Nat.not_lt.2 small), if_pos rfl, Nat.sub_add_cancel positive]
  rfl

/-! ## The subtractions as integers (44_sequences.md rule R622) -/

theorem toInt_newOffset {ofv : Nat} (large : 3 < ofv) (bound : ofv < 2 ^ 33) :
    (BitVec.ofNat 64 (ofv - 3)).toInt = (ofv : Int) - 3 := by
  have word : (BitVec.ofNat 64 (ofv - 3)).toNat = ofv - 3 := by rw [BitVec.toNat_ofNat]; omega
  rw [BitVec.toInt_eq_toNat_of_lt (by omega), word]
  omega

theorem toInt_sub_one {x : Word64} (least : -(2 ^ 63 : Int) < x.toInt) : (x - 1).toInt = x.toInt - 1 := by
  have bound := BitVec.toInt_lt (x := x)
  have one : (1 : Word64).toInt = 1 := by decide
  rw [BitVec.toInt_sub, one, Int.bmod_eq_of_le] <;> omega

/-- Settles O31: a large value is a new offset, a small one the branch of its index. -/
theorem repeatOffsetsResolve : Obligations.RepeatOffsetsResolve := by
  intro ofv ll rep positive bound
  refine ⟨fun large => ⟨_, toInt_newOffset large bound, seqResolve_new ll rep large⟩, ?first, ?second, ?third, ?decremented⟩
  case first =>
    rintro rfl literals
    exact seqResolve_literals rep (by decide) literals
  case second =>
    rintro (⟨rfl, literals⟩ | ⟨rfl, rfl⟩)
    · exact seqResolve_literals rep (by decide) literals
    · exact seqResolve_noLiterals rep positive (by decide)
  case third =>
    rintro (⟨rfl, literals⟩ | ⟨rfl, rfl⟩)
    · exact seqResolve_literals rep (by decide) literals
    · exact seqResolve_noLiterals rep positive (by decide)
  case decremented =>
    rintro rfl rfl least
    exact ⟨_, toInt_sub_one least, seqResolve_noLiterals rep positive (by decide)⟩

end Sys2Proof.Machine
end

section
/-! SUPPORT. The rows of a sequence count and the Repeat rows (44_sequences.md rules R601 to R604): a count whose bytes are there is
read whole, then ends the section if it is 0; a Repeat row looks its table up, and reserved mode bits raise before any table. -/

namespace Sys2Proof.Machine

/-! ## Whole bytes at the reader -/

theorem frReadLe_nextLe {s : State} {k : Nat} (there : hasBytes s k) :
    frReadLe (source s) s.dp.fr k = .ok (nextLe s k, frPast s k) :=
  frReadLe_fits _ there.1 there.2

theorem frReadLe_missing (src : Source) {s : State} {k : Nat} (aligned : s.dp.fr.pos % 8 = 0) (missing : ¬ hasBytes s k) :
    frReadLe src s.dp.fr k = raise .frOverrun := by
  have past : s.dp.fr.len < s.dp.fr.pos / 8 + k := Nat.not_le.1 fun there => missing ⟨aligned, there⟩
  rw [frReadLe, if_neg (not_not.2 aligned), if_pos past]

/-! ## The end of a section without sequences (44_sequences.md rule R602) -/

theorem frRemaining_frPast {s : State} {k : Nat} (there : hasBytes s k) :
    frRemaining (frPast s k) = .ok (s.dp.fr.len - (s.dp.fr.pos / 8 + k)) := by
  have bytes : (s.dp.fr.pos + 8 * k) / 8 = s.dp.fr.pos / 8 + k := by omega
  have aligned : (s.dp.fr.pos + 8 * k) % 8 = 0 := by rw [Nat.add_mul_mod_self_left, there.1]
  rw [frRemaining, frPast, if_neg (not_not.2 aligned), bytes]

theorem finishCount_ends {s : State} {k n : Nat} (there : hasBytes s k)
    (ends : n ≠ 0 ∨ s.dp.fr.pos / 8 + k = s.dp.fr.len) :
    finishCount n (frPast s k) s = .ok (putCount s n (frPast s k)) := by
  rw [finishCount]
  split
  case isTrue zero =>
    have last : s.dp.fr.pos / 8 + k = s.dp.fr.len := ends.resolve_left (not_not.2 zero)
    rw [seqEmptyEnd, putCount_dp, frRemaining_frPast there, last, Nat.sub_self]
    rfl
  case isFalse => rfl

theorem finishCount_trailing {s : State} {k : Nat} (more : hasBytes s (k + 1)) :
    finishCount 0 (frPast s k) s = raise .seqTrailing := by
  obtain ⟨aligned, room⟩ := more
  have left : s.dp.fr.len - (s.dp.fr.pos / 8 + k) ≠ 0 := by omega
  rw [finishCount, if_pos rfl, seqEmptyEnd, putCount_dp, frRemaining_frPast ⟨aligned, by omega⟩, ok_bind, if_pos left]

/-! ## The count rows (44_sequences.md rule R601) -/

/-- The rows of a count that may be 0, with the number of bytes that follow the first and the count they give. -/
def CountRow (s : State) (i : Instr) (k n : Nat) : Prop :=
  (i = .seqCountZero ∧ k = 0 ∧ n = 0) ∨ (∃ c : BitVec 7, i = .seqCountMedium c ∧ k = 1 ∧ n = c.toNat * 256 + nextLe s 1) ∨
    (i = .seqCountLong ∧ k = 2 ∧ n = nextLe s 2 + 0x7F00)

theorem CountRow.exec_there {s : State} {i : Instr} {k n : Nat} (row : CountRow s i k n) (there : hasBytes s k) :
    exec i s = settle s (finishCount n (frPast s k) s) := by
  rcases row with ⟨rfl, rfl, rfl⟩ | ⟨c, rfl, rfl, rfl⟩ | ⟨rfl, rfl, rfl⟩
  · rfl
  · rw [exec, execSeqCountMedium, seqCountMediumRest, frReadLe_nextLe there]
    rfl
  · rw [exec, execSeqCountLong, seqCountLongRest, frReadLe_nextLe there]
    rfl

theorem CountRow.exec_missing {s : State} {i : Instr} {k n : Nat} (row : CountRow s i k n) (aligned : s.dp.fr.pos % 8 = 0)
    (more : 1 ≤ k) (missing : ¬ hasBytes s k) : exec i s = settle s (raise .frOverrun) := by
  rcases row with ⟨rfl, rfl, rfl⟩ | ⟨c, rfl, rfl, rfl⟩ | ⟨rfl, rfl, rfl⟩
  · exact absurd more (by decide)
  · rw [exec, execSeqCountMedium, seqCountMediumRest, frReadLe_missing _ aligned missing]
    rfl
  · rw [exec, execSeqCountLong, seqCountLongRest, frReadLe_missing _ aligned missing]
    rfl

/-- Settles O47: a row reads its bytes, then the section goes on, ends, or finds bytes where it ends. -/
theorem sequenceCountForms : Obligations.SequenceCountForms := by
  intro s
  refine ⟨fun c _ => rfl, fun i k n (row : CountRow s i k n) => ⟨fun there ends => ?counted, fun more zero => ?trailing, ?missing⟩⟩
  case counted =>
    rw [row.exec_there there, finishCount_ends there ends]
    rfl
  case trailing =>
    subst zero
    rw [row.exec_there (hasBytes_of_add more)]
    exact settle_endsInError (finishCount_trailing more)
  case missing =>
    intro positive aligned missing
    rw [row.exec_missing aligned positive missing]
    exact settle_endsInError rfl

/-! ## The Repeat rows (44_sequences.md rules R603 and R604) -/

theorem seqTableRepeat_some {f : SeqField} {s : State} {tab : FseTable} (previous : prevTable s f = some tab) :
    seqTableRepeat f s = .ok (tab, putTable f tab s) := by
  rw [seqTableRepeat, previous]

theorem seqTableRepeat_none {f : SeqField} {s : State} (missing : prevTable s f = none) :
    seqTableRepeat f s = raise .seqNoTable := by
  rw [seqTableRepeat, missing]

/-- Reserved mode bits stop the section at its modes byte. -/
theorem seqBody_reserved {s : State} (there : hasBytes s 1) (reserved : (nextByte s 0).toNat % 4 ≠ 0) :
    seqBody s = raise .seqModes := by
  rw [seqBody, frReadLe_nextByte there, ok_bind]
  exact if_pos reserved

/-- Settles O50: a Repeat row is the lookup of the field's previous table, and the reserved bits are tested first. -/
theorem repeatTablesAndReservedModes : Obligations.RepeatTablesAndReservedModes := by
  refine ⟨fun s f x => ?repeated, fun s r x => ⟨_, rfl, errorEntry_endsInError .seqModes s⟩, fun s => seqBody_reserved⟩
  rw [exec_modeRow]
  refine ⟨fun tab previous => ?_, fun missing => ?_⟩
  · exact ⟨_, congrArg (settle s <| configured ·) (seqTableRepeat_some previous), putTable_configures f tab s.dp.fr s⟩
  · exact settle_endsInError (congrArg configured (seqTableRepeat_none missing))

end Sys2Proof.Machine
end


section
/-! SUPPORT. The match copy (45_window.md section 3): which offsets it refuses, where a source byte comes from, and the bytes a
copy leaves. A byte the copy reads stands before the run or was written by the copy itself, `off` bytes earlier. -/

namespace Sys2Proof.Machine

/-! ## The checks of the offset (45_window.md rule R661) -/

theorem dictLen_of_dict {s : State} {dl : Nat}
    (dict : s.dictActive = false ∧ dl = 0 ∨ s.dictActive = true ∧ ∃ d, s.params.dict = some d ∧ dl = d.content.length) :
    dictLen s = dl := by
  rcases dict with ⟨inactive, rfl⟩ | ⟨active, d, used, rfl⟩
  · simp [dictLen, inactive]
  · simp [dictLen, active, used]

section Checks
variable {s : State} {off : Word64} {t : Nat}

theorem matchCopy_zero (zero : off.toInt < 1) (ml : Nat) : matchCopy off ml t s = raise .offsetZero :=
  if_pos zero

/-- While the frame is no longer than the window, an offset reaches back to the dictionary's first byte. -/
theorem matchCopy_inWindow (positive : 1 ≤ off.toInt) (short : t ≤ s.w) (ml : Nat) :
    matchCopy off ml t s =
      if ((t + dictLen s : Nat) : Int) < off.toInt then raise .offsetRange else matchLoop off.toInt (dictLen s) ml t s := by
  rw [matchCopy, if_neg (Int.not_lt.2 positive), if_pos short]

/-- After that an offset reaches back W bytes. -/
theorem matchCopy_pastWindow (positive : 1 ≤ off.toInt) (long : s.w < t) (ml : Nat) :
    matchCopy off ml t s =
      if (s.w : Int) < off.toInt then raise .offsetRange else matchLoop off.toInt (dictLen s) ml t s := by
  rw [matchCopy, if_neg (Int.not_lt.2 positive), if_neg (Nat.not_le.2 long)]

/-- An offset to a byte of the frame, within the window once the frame is longer, passes the checks. -/
theorem matchCopy_inFrame {o : Nat} (offset : off.toInt = (o : Int)) (positive : 1 ≤ o) (frame : o ≤ t)
    (window : s.w < t → o ≤ s.w) (ml : Nat) : matchCopy off ml t s = matchLoop o (dictLen s) ml t s := by
  have start : 1 ≤ off.toInt := by omega
  rcases Nat.lt_or_ge s.w t with long | short
  · have := window long
    rw [matchCopy_pastWindow start long, if_neg (by omega), offset]
  · rw [matchCopy_inWindow start short, if_neg (by omega), offset]

end Checks

/-- Settles O28: the checks come in this order, and DL is the length of the dictionary in use. -/
theorem matchOffsetErrors : Obligations.MatchOffsetErrors := by
  intro s off ml t dl dict
  refine ⟨fun zero => matchCopy_zero zero ml, fun positive short beyond => ?inWindow, fun positive long beyond => ?pastWindow,
    rfl, rfl⟩
  case inWindow => rw [matchCopy_inWindow positive short, dictLen_of_dict dict, if_pos beyond]
  case pastWindow => rw [matchCopy_pastWindow positive long, if_pos beyond]

/-! ## The source byte (45_window.md rules R660 and R662) -/

theorem frameByte_inArena {s : State} {x : Nat} (arena : s.drained ≤ x) : frameByte s x = winByte s (x - s.drained) :=
  if_neg (Nat.not_lt.2 arena)

theorem matchByte_inArena {s : State} {x : Int} (arena : (s.drained : Int) ≤ x) (dl : Nat) :
    matchByte x dl s = .ok (winByte s (x.toNat - s.drained)) := by
  rw [matchByte, if_pos (by omega), frameByte_inArena (by omega)]

/-- The dictionary's content ends where the frame begins: position -1 is its last byte. -/
theorem matchByte_inDict {s : State} {x : Int} {d : Dictionary} (before : x < 0) (reached : -(d.content.length : Int) ≤ x)
    (dict : s.params.dict = some d) (admitted : s.params.admitDictMatch = true) :
    ∃ b, d.content[((d.content.length : Int) + x).toNat]? = some b ∧ matchByte x d.content.length s = .ok b := by
  have inside : ((d.content.length : Int) + x).toNat < d.content.length := by omega
  refine ⟨d.content[((d.content.length : Int) + x).toNat], List.getElem?_eq_getElem inside, ?_⟩
  rw [matchByte, if_neg (Int.not_le.2 before), if_pos admitted, dictByte, dict]
  exact congrArg Except.ok (List.getD_eq_getElem _ _ inside)

theorem matchByte_refused {s : State} {x : Int} (before : x < 0) (excluded : s.params.admitDictMatch = false) (dl : Nat) :
    matchByte x dl s = .error (.refused .dictMatchNotAdmitted) := by
  rw [matchByte, if_neg (Int.not_le.2 before), excluded]
  rfl

/-- Settles O29: one lemma per place a source byte can stand at. -/
theorem matchByteComesFromFrameOrDictionary : Obligations.MatchByteComesFromFrameOrDictionary := by
  intro s x dl
  refine ⟨fun arena => matchByte_inArena arena dl, ?dictionary, fun before excluded => matchByte_refused before excluded dl⟩
  case dictionary =>
    rintro d before reached dict rfl admitted
    exact matchByte_inDict before reached dict admitted

/-! ## The copy (45_window.md rule R664) -/

theorem winByte_putByte {s : State} (wf : Memory.wf s.win = true) (a : Nat) (v : Byte) (b : Nat) :
    winByte (putByte s a v) b = if b = a then v else winByte s b := by
  rw [winByte, putByte_win, Memory.get_set _ _ _ _ wf, apply_ite (Option.getD · _)]
  rfl

/-- Once the first byte of a copy is written, its other bytes have the sources of the copy that starts one byte later. Where the
stride wraps, that source is the byte just written, which equals the first source. -/
theorem matchSource_succ {s : State} (wf : Memory.wf s.win = true) {o t : Nat} (positive : 1 ≤ o) (arena : s.drained + o ≤ t)
    (j : Nat) :
    winByte (putByte s (t - s.drained) (winByte s (t - o - s.drained))) (t + 1 + j % o - o - s.drained) =
      winByte s (t + (j + 1) % o - o - s.drained) := by
  have below : j % o < o := Nat.mod_lt _ positive
  rw [winByte_putByte wf]
  by_cases wraps : j % o + 1 = o
  · have next : (j + 1) % o = 0 := by rw [← Nat.mod_add_mod, wraps, Nat.mod_self]
    rw [if_pos (by omega), next, Nat.add_zero]
  · have next : (j + 1) % o = j % o + 1 := by rw [← Nat.mod_add_mod, Nat.mod_eq_of_lt (by omega)]
    rw [if_neg (by omega), next, Nat.add_assoc, Nat.add_comm 1]

/-- A copy from a source in the arena succeeds, repeats the `o` bytes before it, and writes nothing else. -/
theorem matchLoop_repeats {o : Nat} (positive : 1 ≤ o) (dl n : Nat) {t : Nat} {s : State} (wf : Memory.wf s.win = true)
    (arena : s.drained + o ≤ t) :
    ∃ m, matchLoop o dl n t s = .ok { s with win := m } ∧
      (∀ j, j < n → Memory.get m (t + j - s.drained) = some (winByte s (t + j % o - o - s.drained))) ∧
      (∀ a, a < t - s.drained ∨ t - s.drained + n ≤ a → Memory.get m a = Memory.get s.win a) := by
  induction n generalizing t s with
  | zero => exact ⟨s.win, rfl, fun j inside => absurd inside (Nat.not_lt_zero j), fun _ _ => rfl⟩
  | succ n ih =>
    obtain ⟨v, byte⟩ : ∃ v, v = winByte s (t - o - s.drained) := ⟨_, rfl⟩
    obtain ⟨m, run, bytes, others⟩ := ih (t := t + 1) (s := putByte s (t - s.drained) v)
      (Memory.wf_set _ _ _ wf) (Nat.le_succ_of_le arena)
    simp only [putByte_drained, putByte_win] at bytes others
    refine ⟨m, ?result, fun j inside => ?repeated, fun a outside => ?outside⟩
    case result =>
      have source : ((t : Int) - o).toNat = t - o := by omega
      rw [matchLoop, matchByte_inArena (by omega), source, ← byte]
      exact run
    case repeated =>
      cases j with
      | zero =>
        rw [Nat.add_zero, others _ (.inl (by omega)), Memory.get_set _ _ _ _ wf, if_pos rfl, byte, Nat.zero_mod, Nat.add_zero]
      | succ j =>
        rw [Nat.add_comm j, ← Nat.add_assoc, bytes j (by omega), byte, matchSource_succ wf positive arena, Nat.add_comm 1]
    case outside => rw [others a (by omega), Memory.get_set _ _ _ _ wf, if_neg (by omega)]

/-- Settles O27: the offset passes the checks, and the copy repeats the bytes before it. -/
theorem matchRepeatsTheBytesBefore : Obligations.MatchRepeatsTheBytesBefore := by
  intro s off o ml t wf offset positive arena window
  rw [matchCopy_inFrame offset positive (by omega) window]
  exact matchLoop_repeats positive (dictLen s) ml wf arena

/-! ## EXECUTE (45_window.md rules R657 and R658) -/

theorem execute_blkOut {s : State} (large : s.params.maxBlock < s.dp.lb.length + (s.dp.sb.map SeqEntry.ml).sum) :
    execute s = raise .blkOut :=
  if_pos large

theorem executeOne_litOverrun {e : SeqEntry} {s : State} (overrun : s.dp.lb.length - s.dp.lp < e.ll) (t : Nat) :
    executeOne e t s = raise .seqLitOverrun :=
  if_pos overrun

/-- Settles O30: the two checks come first, and a result has written its run at W_END (`execute_ok`). -/
theorem executeStaysInItsBounds : Obligations.ExecuteStaysInItsBounds := by
  refine ⟨fun s => execute_blkOut, fun s e t _ overrun => executeOne_litOverrun overrun t, fun s u outLen wf result => ?_⟩
  obtain ⟨⟨m, r, lp, rfl⟩, length, bound, run⟩ := execute_ok result
  exact ⟨length, bound, rfl, run.outside wf⟩

end Sys2Proof.Machine
end

section
/-! SUPPORT. What TRYFLUSH and the blocks leave of the arena (45_window.md rules R651, R654, R666 and R668): a slide moves bytes
and cursors together, a block that fails leaves the state after its slide, and a Raw or RLE block commits the run it writes. -/

namespace Sys2Proof.Machine

/-! ## A slide and the frame's bytes (45_window.md rule R666) -/

/-- A byte of WIN that holds a defined value reads the same where a slide has moved it. -/
theorem winByte_of_moved {s t : State} {a b : Nat} (moved : Memory.get t.win b = Memory.get s.win a)
    (defined : (Memory.get s.win a).isSome) : winByte t b = winByte s a := by
  obtain ⟨v, value⟩ := Option.isSome_iff_exists.1 defined
  rw [winByte, winByte, moved, value]
  rfl

/-- TRYFLUSH has a result only when there is room, and then it is the slide. -/
theorem tryFlush_slides {need : Nat} {s t : State} (flush : tryFlush need s = some t) :
    hasRoom need s ∧
    t = { s with win := t.win, wStart := s.wStart - slideFor need s, wEnd := s.wEnd - slideFor need s,
                 drained := s.drained + slideFor need s } ∧
    ∀ a, a < s.wEnd - slideFor need s → Memory.get t.win a = Memory.get s.win (a + slideFor need s) := by
  have room : hasRoom need s := by
    by_contra full
    rw [tryFlush_eq_none full] at flush
    cases flush
  obtain ⟨m, slid, kept, -⟩ := tryFlush_slideFor room
  cases slid.symm.trans flush
  exact ⟨room, rfl, kept⟩

/-- A slide drops drained bytes only, and leaves W bytes. -/
theorem slideFor_le (need : Nat) (s : State) : slideFor need s ≤ s.wStart ∧ slideFor need s ≤ s.wEnd - s.w := by
  unfold slideFor
  split <;> omega

/-- Settles O25: place and byte move by the same amount, and every byte below W_END holds a defined value. -/
theorem slideKeepsFrameBytes : Obligations.SlideKeepsFrameBytes := by
  intro s t need inv flush
  obtain ⟨room, slid, kept⟩ := tryFlush_slides flush
  obtain ⟨drainedOnly, window⟩ := slideFor_le need s
  have order := inv.outOrder
  have wEnd : t.wEnd = s.wEnd - slideFor need s := congrArg State.wEnd slid
  have wStart : t.wStart = s.wStart - slideFor need s := congrArg State.wStart slid
  have drained : t.drained = s.drained + slideFor need s := congrArg State.drained slid
  refine ⟨by omega, by omega, wEnd ▸ room, fun _ => by omega, fun x arena below => ?_⟩
  have moved := kept (x - t.drained) (by omega)
  rw [show x - t.drained + slideFor need s = x - s.drained by omega] at moved
  rw [frameByte_inArena arena, frameByte_inArena (by omega)]
  exact winByte_of_moved moved ((inv.winListed _).2 (by omega))

/-! ## A block that fails (45_window.md rule R668) -/

/-- The states in which an error of BLOCK started in `s` can be entered: with the hints clear, before TRYFLUSH or after it. -/
def BlockFailsFrom (s u : State) : Prop :=
  u = clearHints s ∨ ∃ room, room ≤ s.params.maxBlock ∧ tryFlush room (clearHints s) = some u

theorem blockOf_fails {k : BlockKind} {last : Bool} {size : Nat} {s t : State}
    (next : blockOf k last size (clearHints s) = .next t) (error : t.result = .error) :
    ∃ e u, t = errorEntry e u ∧ BlockFailsFrom s u := by
  rcases blockOf_next next with rfl | rfl | ⟨-, -, -, rfl⟩ |
    ⟨room, u, bound, flush, ⟨e, -, rfl⟩ | ⟨_, _, _, _, _, _, _, -, -, rfl⟩⟩
  · exact ⟨_, _, rfl, .inl rfl⟩
  · cases error
  · cases error
  · exact ⟨e, u, rfl, .inr ⟨room, bound, flush⟩⟩
  · cases error

theorem blockForm_fails {a : Word32} {s t : State} (next : blockForm a (clearHints s) = .next t) (error : t.result = .error) :
    ∃ e u, t = errorEntry e u ∧ BlockFailsFrom s u := by
  rcases blockForm_cases a (clearHints s) with ⟨e, -, run⟩ | ⟨k, last, size, run⟩ <;> rw [run] at next
  · cases next; exact ⟨e, _, rfl, .inl rfl⟩
  · exact blockOf_fails next error

/-- The common steps of a BLOCK in ACTIVE: an error of the reserved bits, or the block's own rule. -/
theorem dispatchBlock_fails {rc : Bool} {body : State → Answer} {s t : State} (active : s.fsm = .active)
    (next : dispatchCommand false rc (inActive body) s = .next t)
    (own : body (clearHints s) = .next t → ∃ e u, t = errorEntry e u ∧ BlockFailsFrom s u) :
    ∃ e u, t = errorEntry e u ∧ BlockFailsFrom s u := by
  rcases dispatchCommand_next next with ⟨failed, -⟩ | ⟨-, rfl⟩ | ⟨-, -, next⟩
  · rw [active] at failed; cases failed
  · exact ⟨_, _, rfl, .inl rfl⟩
  · exact own ((if_pos active).symm.trans next)

/-- An error of a block in ACTIVE is entered from the state with the hints clear, before TRYFLUSH or after it. -/
theorem block_fails {i : Instr} {s t : State} (block : isBlock i = true) (active : s.fsm = .active)
    (next : exec i s = .next t) (error : t.result = .error) : ∃ e u, t = errorEntry e u ∧ BlockFailsFrom s u := by
  unfold isBlock at block
  split at block
  next f rsv0 a rsv1 => exact dispatchBlock_fails active next fun own => blockForm_fails own error
  next last size => exact dispatchBlock_fails active next fun own => blockOf_fails (k := .raw) own error
  next last size => exact dispatchBlock_fails active next fun own => blockOf_fails (k := .rle) own error
  next last size => exact dispatchBlock_fails active next fun own => blockOf_fails (k := .compressed) own error
  next last size =>
    refine dispatchBlock_fails active next fun own => ?_
    cases own
    exact ⟨_, _, rfl, .inl rfl⟩
  next => cases block

/-- Settles O24: entering the error keeps the arena, the cursors and the input, and only a slide came before it. -/
theorem failedBlockCommitsNothing : Obligations.FailedBlockCommitsNothing := by
  intro s t i block active next error
  obtain ⟨e, u, rfl, rfl | ⟨room, bound, flush⟩⟩ := block_fails block active next error
  · exact ⟨0, .inl rfl, rfl, fun _ _ => rfl⟩
  · obtain ⟨-, slid, kept⟩ := tryFlush_slides flush
    refine ⟨slideFor room s, .inr ⟨room, bound, rfl⟩, ?_, kept⟩
    rw [slid]
    rfl

/-! ## The operand that holds a header (30_encoding.md rule R310) -/

theorem toNat_hdrWord (last : Bool) (kind : BitVec 2) (size : BitVec 21) :
    (hdrWord last kind size).toNat = bit last + 2 * kind.toNat + 8 * size.toNat := by
  have low : (BitVec.ofBool last).toNat = bit last := by cases last <;> rfl
  have bits : bit last < 2 ^ 1 := by cases last <;> decide
  rw [hdrWord, BitVec.toNat_append, BitVec.toNat_append, low, ← Nat.shiftLeft_add_eq_or_of_lt bits,
    ← Nat.shiftLeft_add_eq_or_of_lt kind.isLt]
  omega

/-- BLOCK with the fields of a header in its operand is the instruction of that header. -/
theorem exec_block_fields (last : Bool) (kind : BitVec 2) (size : BitVec 21) (s : State) :
    exec (.block false 0 (BitVec.ofNat 32 (bit last + 2 * kind.toNat + 8 * size.toNat)) 0) s =
      exec (decodeBlockHeader (hdrWord last kind size)) s := by
  have header := (hdrWord last kind size).isLt
  rw [← toNat_hdrWord]
  have operand : (BitVec.ofNat 32 (hdrWord last kind size).toNat).toNat = (hdrWord last kind size).toNat := by
    rw [BitVec.toNat_ofNat]; omega
  rw [blockRunsItsHeader.1 s _ (by omega), operand, BitVec.ofNat_toNat, BitVec.setWidth_eq]

/-! ## Raw and RLE blocks (45_window.md rule R654) -/

/-- A block in ACTIVE whose materialization writes the run `out 0, out 1, …` at W_END, and keeps the history, commits it. -/
theorem writtenRun_commits {size needIn : Nat} {last : Bool} {bytes : State → List Byte} {s : State} (out : Nat → Byte)
    (fits : size ≤ s.params.maxBlock) (input : needIn ≤ s.iEnd) (room : hasRoom size s)
    (length : ∀ u, (bytes u).length = size)
    (values : ∀ u, inByte u = inByte s → ∀ j, j < size → (bytes u)[j]? = some (out j)) :
    ∃ t, blockSteps size needIn size last (fun u => .ok (size, writeWin u u.wEnd (bytes u))) (clearHints s) = .next t ∧
      Commits size needIn size last out s t ∧ sameHistory s t := by
  obtain ⟨u, v, t, flush, materialized, next, commits, history⟩ :=
    blockSteps_commits (size := size) (last := last) (s := clearHints s)
      (mat := fun u => .ok (size, writeWin u u.wEnd (bytes u))) out fits input room rfl rfl fun u flush => by
        have same : inByte u = inByte s := by obtain ⟨_, _, _, _, rfl⟩ := tryFlush_shape flush; rfl
        exact ⟨_, _, u.rep, u.prevHuf, u.prevFse, u.dp, rfl, rfl, get_setMany_append (length u) (values u same)⟩
  cases materialized
  obtain ⟨_, _, _, _, rfl⟩ := tryFlush_shape flush
  exact ⟨t, next, commits.of_clearHints, history⟩

/-- A header row of the table in ACTIVE runs its block with the hints clear. -/
theorem dispatchBlock_runs {s : State} (active : s.fsm = .active) (body : State → Answer) :
    dispatchCommand false true (inActive body) s = body (clearHints s) := by
  rw [dispatchCommand_runs fun failed => by rw [active] at failed; cases failed]
  exact if_pos active

section RawAndRle
variable {s : State} {last : Bool} {size : BitVec 21}

theorem blkRaw_commits (active : s.fsm = .active) (fits : size.toNat ≤ s.params.maxBlock) (room : hasRoom size.toNat s)
    (input : size.toNat ≤ s.iEnd) :
    ∃ t, exec (.blkRaw last size) s = .next t ∧ Commits size.toNat size.toNat size.toNat last (inByte s) s t ∧
      sameHistory s t := by
  rw [show exec (.blkRaw last size) s = blockRaw last size.toNat (clearHints s) from dispatchBlock_runs active _]
  exact writtenRun_commits (bytes := fun u => inBytes u 0 size.toNat) (inByte s) fits input room
    (fun u => inBytes_length u 0 _) fun u same j inside => by rw [inBytes_get _ _ _ _ inside, same, Nat.zero_add]

theorem blkRle_commits (active : s.fsm = .active) (fits : size.toNat ≤ s.params.maxBlock) (room : hasRoom size.toNat s)
    (input : 1 ≤ s.iEnd) :
    ∃ t, exec (.blkRle last size) s = .next t ∧ Commits size.toNat 1 size.toNat last (fun _ => inByte s 0) s t ∧
      sameHistory s t := by
  rw [show exec (.blkRle last size) s = blockRle last size.toNat (clearHints s) from dispatchBlock_runs active _]
  exact writtenRun_commits (bytes := fun u => List.replicate size.toNat (inByte u 0)) (fun _ => inByte s 0) fits input room
    (fun u => List.length_replicate) fun u same j inside => by rw [List.getElem?_replicate_of_lt inside, same]

end RawAndRle

/-- Settles O21: the header row commits its run, and BLOCK with the header in its operand is that row. -/
theorem rawAndRleBlocksCommit : Obligations.RawAndRleBlocksCommit := by
  intro s last size _ active fits room
  simp only [List.forall_mem_cons]
  refine ⟨fun input => ⟨?raw, ?rawOperand, by simp⟩, fun input => ⟨?rle, ?rleOperand, by simp⟩⟩
  case raw => exact blkRaw_commits active fits room input
  case rawOperand =>
    have row := exec_block_fields last 0#2 size s
    rw [show decodeBlockHeader (hdrWord last 0#2 size) = .blkRaw last size by simp [decodeBlockHeader]] at row
    exact row ▸ blkRaw_commits active fits room input
  case rle => exact blkRle_commits active fits room input
  case rleOperand =>
    have row := exec_block_fields last 1#2 size s
    rw [show decodeBlockHeader (hdrWord last 1#2 size) = .blkRle last size by simp [decodeBlockHeader]] at row
    exact row ▸ blkRle_commits active fits room input

end Sys2Proof.Machine
end

section
/-! SUPPORT. Running a command (46_commands.md rules R701 to R706): a step finds its instruction, the FAILED gate and the reserved
bits come before the command's own rule, and a command answers with one of three results. -/

namespace Sys2Proof.Machine

/-! ## A step and its instruction (46_commands.md rules R701 and R702) -/

theorem decode_cmd64 (v : Word64) : decode .cmd64 (leBytes 8 v.toNat) = .ok (decodeCmd v, []) := by
  have word : decodeWord .cmd64 (leValue (leBytes 8 v.toNat)) = decodeCmd v := by
    have fits : v.toNat < 256 ^ 8 := v.isLt
    rw [leValue_leBytes, Nat.mod_eq_of_lt fits, decodeWord, BitVec.ofNat_toNat, BitVec.setWidth_eq]
  simpa [word] using decode_ok (fmt := .cmd64) (length_leBytes 8 v.toNat) []

theorem decode_selectorByte (k : Selector) (b : Byte) : decode (.selector k) [b] = .ok (decodeSelector k b, []) := by
  have byte : decodeWord (.selector k) (leValue [b]) = decodeSelector k b := by simp [leValue, decodeWord]
  rw [← byte]
  exact decode_ok (fmt := .selector k) (bs := [b]) rfl []

/-- With a wire structure to fetch, a step fetches its selector byte. -/
theorem step_fetchSelector {s : State} {k : Selector} (wire : s.wire = some k) : step s = fetchSelector exec k s := by
  rw [step, stepWith, wire]

/-- A byte that is not there is the reader's error: past the range, or off the byte boundary. -/
theorem frReadLe_not_hasBytes (src : Source) {s : State} {k : Nat} (missing : ¬ hasBytes s k) :
    frReadLe src s.dp.fr k = raise (if s.dp.fr.pos % 8 = 0 then .frOverrun else .frUnaligned) := by
  split
  case isTrue aligned => exact frReadLe_missing src aligned missing
  case isFalse unaligned => exact if_pos unaligned

/-- Settles O5: the bytes decode to one instruction only, the one the access or the fetch runs. -/
theorem stepRunsTheDecodedInstruction : Obligations.StepRunsTheDecodedInstruction := by
  refine ⟨fun s v rest i wire access decoded => ?command, fun s k i wire there decoded => ?selector,
    fun s k wire missing => ?missing⟩
  case command =>
    cases (decode_cmd64 v).symm.trans decoded
    exact (hostAccessesHaveNoSideEffect s rest wire).1 v access
  case selector =>
    cases (decode_selectorByte k (nextByte s 0)).symm.trans decoded
    rw [step_fetchSelector wire, fetchSelector, frReadLe_nextByte there]
    simp only [BitVec.ofNat_toNat, BitVec.setWidth_eq]
    rfl
  case missing =>
    rw [step_fetchSelector wire, fetchSelector, frReadLe_not_hasBytes _ missing]
    refine ⟨_, _, rfl, ?_, rfl⟩
    split
    · exact errorEntry_endsInError .frOverrun _
    · exact errorEntry_endsInError .frUnaligned _

/-! ## The common steps (46_commands.md rules R702 to R705) -/

/-- Clearing the hints comes first, so an error of a command leaves them clear. -/
theorem errorEntry_clearHints (e : Site) (s : State) :
    EndsInError (siteKind e) e (quiet s) (errorEntry e (clearHints s)) :=
  { errorEntry_endsInError e (clearHints s) with }

/-- A command whose answer is an error ends in it. -/
theorem exists_endsInError (e : Site) {x : Answer} {s : State} (answer : x = .next (errorEntry e (clearHints s))) :
    ∃ t, x = .next t ∧ EndsInError (siteKind e) e (quiet s) t :=
  ⟨_, answer, errorEntry_clearHints e s⟩

/-- In FAILED a command that does not run there is gated, whatever its reserved bits. -/
theorem dispatchCommand_gated {s : State} (failed : s.fsm = .failed) (rc : Bool) (body : State → Answer) :
    dispatchCommand false rc body s = .next (gateFailed (clearHints s)) :=
  if_pos ⟨failed, rfl⟩

/-- A command that is not gated raises CMD_RESERVED when a reserved bit is set. -/
theorem dispatchCommand_reserved {s : State} {rf rc : Bool} (runs : s.fsm = .failed → rf = true) (reserved : rc = false)
    (body : State → Answer) : dispatchCommand rf rc body s = .next (errorEntry .cmdReserved (clearHints s)) := by
  have notGated : ¬ ((clearHints s).fsm = .failed ∧ rf = false) := fun gate => by simp [runs gate.1] at gate
  rw [dispatchCommand, if_neg notGated, if_pos reserved]

/-- FRAME_BEGIN alone may set F (46_commands.md rule R704). -/
theorem reservedClear_eq_false {frameBegin f : Bool} {rsv0 : BitVec 7} {rsv1 : BitVec 16}
    (reserved : rsv0 ≠ 0 ∨ rsv1 ≠ 0 ∨ (f = true ∧ frameBegin = false)) : reservedClear frameBegin f rsv0 rsv1 = false := by
  rw [reservedClear]
  rcases reserved with bits | bits | ⟨rfl, rfl⟩
  · rw [beq_eq_false_iff_ne.2 bits, Bool.and_false, Bool.false_and]
  · rw [beq_eq_false_iff_ne.2 bits, Bool.and_false]
  · rfl

/-- Settles O14: each command but RESET is the common steps around a rule of its own, which is not reached. -/
theorem reservedCommandBitsRaise : Obligations.ReservedCommandBitsRaise := by
  intro s w notReset runsInFailed reserved
  refine exists_endsInError .cmdReserved ?_
  have raises : ∀ {rf frameBegin : Bool} (body : State → Answer), (s.fsm = .failed → rf = true) →
      (cmdOp w ≠ 1#8 → frameBegin = false) →
      dispatchCommand rf (reservedClear frameBegin (cmdF w) (cmdRsv0 w) (cmdRsv1 w)) body s =
        .next (errorEntry .cmdReserved (clearHints s)) := fun body runs flag =>
    dispatchCommand_reserved runs (reservedClear_eq_false (reserved.imp_right (Or.imp_right (And.imp_right flag)))) body
  rcases decodeCmd_cases w with ⟨op, g⟩ | ⟨op, g⟩ | ⟨op, g⟩ | ⟨op, g⟩ | ⟨op, g⟩ | ⟨op, g⟩ | ⟨op, g⟩ <;> rw [g, exec]
  · exact absurd op notReset
  · exact raises _ (fun _ => rfl) fun other => absurd op other
  · exact raises _ (fun _ => rfl) fun _ => rfl
  · exact raises _ (fun _ => rfl) fun _ => rfl
  · exact raises _ (fun _ => rfl) fun _ => rfl
  · exact raises _ (fun failed => by simpa [op] using runsInFailed failed) fun _ => rfl
  · refine raises _ (fun failed => ?_) fun _ => rfl
    rcases runsInFailed failed with e | e | e | e <;> simp [e] at op

/-- Settles O15: the gate comes before the reserved bits, and a reserved opcode past both raises. -/
theorem failedGateAndReservedOpcodes : Obligations.FailedGateAndReservedOpcodes := by
  refine ⟨fun s w failed op => ⟨s.tick + 1, ?_⟩, fun s op a running _ => exists_endsInError .illegalCmd ?_⟩
  · rcases decodeCmd_cases w with ⟨e, -⟩ | ⟨e, -⟩ | ⟨e, -⟩ | ⟨e, -⟩ | ⟨e, -⟩ | ⟨-, g⟩ | ⟨-, g⟩
    case inr.inr.inr.inr.inr.inl | inr.inr.inr.inr.inr.inr => rw [g, exec]; exact dispatchCommand_gated failed _ _
    all_goals rw [e] at op; exact absurd op (by decide)
  · rw [exec]
    exact dispatchCommand_runs fun failed => absurd failed running

/-- Settles O16, from the ways a command can end. -/
theorem commandsEndWithOneResult : Obligations.CommandsEndWithOneResult := by
  intro s t w next
  cases command_ends next with
  | reset | commitsInput | commitsOutput | consumes => exact .inl ⟨rfl, rfl, rfl⟩
  | beginsFrame => exact .inl (by simp)
  | gated _ failed => exact .inr (.inr ⟨rfl, rfl, rfl, failed⟩)
  | raises => exact .inr (.inr ⟨rfl, rfl, rfl, rfl⟩)
  | awaitsInput op => exact .inr (.inl ⟨op, true, false, by decide, rfl⟩)
  | awaitsRoom op => exact .inr (.inl ⟨op, false, true, by decide, rfl⟩)
  | raisesInBlock _ _ _ flush =>
    obtain ⟨_, _, _, _, rfl⟩ := tryFlush_shape flush
    exact .inr (.inr ⟨rfl, rfl, rfl, rfl⟩)
  | commitsBlock _ _ _ _ flush =>
    obtain ⟨_, _, _, _, rfl⟩ := tryFlush_shape flush
    exact .inl ⟨rfl, rfl, rfl⟩

end Sys2Proof.Machine
end

section
/-! SUPPORT. FRAME_BEGIN and the buffer commands (46_commands.md rules R711 to R717): each runs in every FSM state, as an operation
of the state with the hints clear, and each of its checks has an equation. -/

namespace Sys2Proof.Machine

/-- A command that runs in every FSM state, with its reserved bits 0, is its own operation with the hints clear. -/
theorem dispatchCommand_settles (f : State → Micro State) (s : State) :
    dispatchCommand true true (fun t => settle t (f t)) s = settle (clearHints s) (f (clearHints s)) :=
  dispatchCommand_runs fun _ => rfl

/-! ## FRAME_BEGIN -/

theorem exec_frameBegin (f : Bool) (a : Word32) (s : State) :
    exec (.frameBegin f 0 a 0) s = settle (clearHints s) (frameBegin a.toNat f (clearHints s)) :=
  dispatchCommand_settles (frameBegin a.toNat f) s

section
variable {a : Nat} {f : Bool} {s : State}

theorem frameBegin_window (large : windowSizeMax < a) : frameBegin a f s = raise .fbWindow := if_pos large

theorem frameBegin_cap (window : a ≤ windowSizeMax) (large : s.params.winCap < a + s.params.maxBlock) :
    frameBegin a f s = raise .fbCap := by
  rw [frameBegin, if_neg (Nat.not_lt.2 window), if_pos large]

theorem frameBegin_plain (window : a ≤ windowSizeMax) (room : a + s.params.maxBlock ≤ s.params.winCap) :
    frameBegin a false s = .ok (frameStart a none s) := by
  rw [frameBegin, if_neg (Nat.not_lt.2 window), if_neg (Nat.not_lt.2 room)]
  rfl

/-- Past the checks of the window, a frame that uses the dictionary has it left to check. -/
theorem frameBegin_dictionary (window : a ≤ windowSizeMax) (room : a + s.params.maxBlock ≤ s.params.winCap)
    {d : Dictionary} (dict : s.params.dict = some d) (domain : dictInDomain d = true) :
    frameBegin a true s = .ok (frameStart a (some d) s) := by
  rw [frameBegin, if_neg (Nat.not_lt.2 window), if_neg (Nat.not_lt.2 room), if_pos rfl, dict]
  exact if_pos domain

theorem frameBegin_noDict (window : a ≤ windowSizeMax) (room : a + s.params.maxBlock ≤ s.params.winCap)
    (missing : s.params.dict = none) : frameBegin a true s = raise .fbNoDict := by
  rw [frameBegin, if_neg (Nat.not_lt.2 window), if_neg (Nat.not_lt.2 room), if_pos rfl, missing]

end

/-- Settles O11: the checks in their order, then the state a frame begins in. -/
theorem frameBeginStartsFrame : Obligations.FrameBeginStartsFrame := by
  intro s a
  simp only [exec_frameBegin]
  refine ⟨fun window room => ⟨s.tick + 1, ?plain⟩, fun d window room dict domain => ⟨s.tick + 1, ?dictionary⟩,
    fun f large => exists_endsInError .fbWindow ?window, fun f window large => exists_endsInError .fbCap ?cap,
    fun window room dict => exists_endsInError .fbNoDict ?missing⟩
  case plain => rw [frameBegin_plain (s := clearHints s) window room]; rfl
  case dictionary => rw [frameBegin_dictionary (s := clearHints s) window room dict domain]; rfl
  case window => rw [frameBegin_window large]; rfl
  case cap => rw [frameBegin_cap (s := clearHints s) window large]; rfl
  case missing => rw [frameBegin_noDict (s := clearHints s) window room dict]; rfl

/-! ## The buffer commands -/

theorem exec_inputCommit (n : Word32) (s : State) :
    exec (.inputCommit false 0 n 0) s = settle (clearHints s) (inputCommit n.toNat (clearHints s)) :=
  dispatchCommand_settles (inputCommit n.toNat) s

theorem exec_outputCommit (n : Word32) (s : State) :
    exec (.outputCommit false 0 n 0) s = settle (clearHints s) (outputCommit n.toNat (clearHints s)) :=
  dispatchCommand_settles (outputCommit n.toNat) s

theorem exec_consume (n : Word32) (s : State) :
    exec (.consume false 0 n 0) s = settle (clearHints s) (consumeInput n.toNat (clearHints s)) :=
  dispatchCommand_settles (consumeInput n.toNat) s

section
variable {n : Nat} {s : State}

theorem inputCommit_fits (fits : n ≤ s.params.inCap - s.iEnd) :
    inputCommit n s = .ok { s with iEnd := s.iEnd + n, result := .ok } := if_neg (Nat.not_lt.2 fits)

theorem inputCommit_large (large : s.params.inCap - s.iEnd < n) : inputCommit n s = raise .inCommit := if_pos large

theorem outputCommit_there (there : n ≤ s.wEnd - s.wStart) :
    outputCommit n s = .ok { s with wStart := s.wStart + n, result := .ok } := if_neg (Nat.not_lt.2 there)

theorem outputCommit_large (large : s.wEnd - s.wStart < n) : outputCommit n s = raise .outCommit := if_pos large

theorem consumeInput_there (there : n ≤ s.iEnd) : consumeInput n s = .ok { consumeIn n s with result := .ok } :=
  if_neg (Nat.not_lt.2 there)

theorem consumeInput_large (large : s.iEnd < n) : consumeInput n s = raise .consume := if_pos large

end

/-- Settles O12: the one check of each command, and the cursor it moves. -/
theorem bufferCommitsMoveTheirCursor : Obligations.BufferCommitsMoveTheirCursor := by
  intro s n
  rw [exec_inputCommit, exec_outputCommit]
  refine ⟨fun _ fits => ⟨s.tick + 1, ?_⟩, fun large => exists_endsInError .inCommit ?_, fun _ there => ⟨s.tick + 1, ?_⟩,
    fun large => exists_endsInError .outCommit ?_⟩
  · rw [inputCommit_fits (s := clearHints s) fits]; rfl
  · rw [inputCommit_large (s := clearHints s) large]; rfl
  · rw [outputCommit_there (s := clearHints s) there]; rfl
  · rw [outputCommit_large (s := clearHints s) large]; rfl

/-- Settles O13: what is left of the input is where the compaction moves it (`inByte_consume`). -/
theorem consumeMovesInputToTheFront : Obligations.ConsumeMovesInputToTheFront := by
  intro s n
  rw [exec_consume]
  refine ⟨fun there => ?_, fun large => exists_endsInError .consume ?_⟩
  · rw [consumeInput_there (s := clearHints s) there]
    exact ⟨_, rfl, rfl, inByte_consume s _ n.toNat rfl rfl⟩
  · rw [consumeInput_large (s := clearHints s) large]; rfl

end Sys2Proof.Machine
end

section
/-! SUPPORT. BLOCK up to its materialization (46_commands.md rules R720, R721 and R723): the errors of the FSM, the operand, the kind
and the size, the waits for input and room, and the commit of a compressed block whose phases have a result. -/

namespace Sys2Proof.Machine

/-! ## The rows whose kind has a meaning -/

/-- The three rows of the kinds 0 to 2, each with the input and the room it needs (45_window.md rule R653). -/
def sizedBlocks (last : Bool) (size : BitVec 21) (s : State) : List (Instr × Nat × Nat) :=
  [(.blkRaw last size, size.toNat, size.toNat), (.blkRle last size, 1, size.toNat),
    (.blkCompressed last size, size.toNat, s.params.maxBlock)]

/-- In ACTIVE each is the steps of BLOCK with the hints clear. -/
theorem sizedBlocks_run {s : State} (active : s.fsm = .active) {last : Bool} {size : BitVec 21} {i : Instr} {needIn room : Nat}
    (row : (i, needIn, room) ∈ sizedBlocks last size s) :
    ∃ mat, exec i s = blockSteps size.toNat needIn room last mat (clearHints s) := by
  simp only [sizedBlocks, List.mem_cons, List.not_mem_nil, or_false, Prod.mk.injEq] at row
  rcases row with ⟨rfl, rfl, rfl⟩ | ⟨rfl, rfl, rfl⟩ | ⟨rfl, rfl, rfl⟩
  · exact ⟨_, dispatchBlock_runs active (blockRaw last size.toNat)⟩
  · exact ⟨_, dispatchBlock_runs active (blockRle last size.toNat)⟩
  · exact ⟨_, exec_blkCompressed_active active last size⟩

/-! ## The checks of the header -/

/-- BLOCK outside FAILED runs its own rule with the hints clear. -/
theorem exec_block_runs {s : State} (running : s.fsm ≠ .failed) (a : Word32) :
    exec (.block false 0 a 0) s = inActive (blockForm a) (clearHints s) :=
  dispatchCommand_runs fun failed => absurd failed running

theorem operandHigh_ne_zero {a : Word32} (large : 2 ^ 24 ≤ a.toNat) : operandHigh a ≠ 0 := by
  intro zero
  have value : (operandHigh a).toNat = 0 := by rw [zero]; rfl
  rw [operandHigh, extractLsb'_eq_ofNat_div, BitVec.toNat_ofNat] at value
  omega

theorem toNat_hdrSize (h : BitVec 24) : (hdrSize h).toNat = h.toNat / 8 := by
  rw [hdrSize, extractLsb'_eq_ofNat_div, BitVec.toNat_ofNat]
  omega

/-- A header is of kind 3, or one of the rows whose kind has a meaning. -/
theorem decodeBlockHeader_kinds (h : BitVec 24) (s : State) :
    (h.toNat / 2 % 4 = 3 ∧ decodeBlockHeader h = .blkReserved (hdrLast h) (hdrSize h)) ∨
    (h.toNat / 2 % 4 ≠ 3 ∧
      ∃ needIn room, (decodeBlockHeader h, needIn, room) ∈ sizedBlocks (hdrLast h) (hdrSize h) s) := by
  rw [← toNat_hdrKind]
  rcases decodeBlockHeader_cases h with ⟨kind, g⟩ | ⟨kind, g⟩ | ⟨kind, g⟩ | ⟨kind, g⟩ <;> rw [kind, g]
  · exact .inr ⟨by decide, _, _, .head _⟩
  · exact .inr ⟨by decide, _, _, .tail _ (.head _)⟩
  · exact .inr ⟨by decide, _, _, .tail _ (.tail _ (.head _))⟩
  · exact .inl ⟨rfl, rfl⟩

/-- Settles O19: past the operand check BLOCK is its header's row, and the kind decides before the size. -/
theorem blockHeaderErrors : Obligations.BlockHeaderErrors := by
  intro s a last size
  have header : a.toNat < 2 ^ 24 → (BitVec.ofNat 24 a.toNat).toNat = a.toNat := fun fits => Nat.mod_eq_of_lt fits
  refine ⟨fun stopped => exists_endsInError .illegalCmd ?fsm, fun active large => exists_endsInError .blkOperand ?operand,
    fun active fits kind => exists_endsInError .blkKind ?kind, fun active fits kind large => exists_endsInError .blkSize ?size,
    fun active => exists_endsInError .blkKind (dispatchBlock_runs active _)⟩
  case fsm =>
    have running : s.fsm ≠ .failed := by rcases stopped with e | e <;> rw [e] <;> decide
    have inactive : (clearHints s).fsm ≠ .active := by rcases stopped with e | e <;> rw [clearHints_fsm, e] <;> decide
    exact (exec_block_runs running a).trans (if_neg inactive)
  case operand =>
    have form : inActive (blockForm a) (clearHints s) = blockForm a (clearHints s) := if_pos active
    rw [exec_block_runs (by simp [active]), form]
    exact if_pos (operandHigh_ne_zero large)
  all_goals
    rw [blockRunsItsHeader.1 s a fits]
    rw [← header fits] at kind
    rcases decodeBlockHeader_kinds (BitVec.ofNat 24 a.toNat) s with ⟨reserved, row⟩ | ⟨sized, needIn, room, row⟩
  case kind.inl => rw [row]; exact dispatchBlock_runs active _
  case kind.inr => exact absurd kind sized
  case size.inl => exact absurd reserved kind
  case size.inr =>
    obtain ⟨mat, run⟩ := sizedBlocks_run active row
    have above : (clearHints s).params.maxBlock < (hdrSize (BitVec.ofNat 24 a.toNat)).toNat := by
      rw [toNat_hdrSize, header fits]; exact large
    rw [run]
    exact if_pos above

/-! ## Waiting -/

/-- Settles O20: the input is looked at first, and without room TRYFLUSH has no result (`tryFlush_eq_none`). -/
theorem blockWaitsForInputThenRoom : Obligations.BlockWaitsForInputThenRoom := by
  intro s last size active fits i needIn room row
  obtain ⟨mat, run⟩ := sizedBlocks_run active row
  have sized : ¬ (clearHints s).params.maxBlock < size.toNat := Nat.not_lt.2 fits
  rw [run, blockSteps, if_neg sized]
  refine ⟨fun short => ⟨s.tick + 1, if_pos short⟩, fun there full => ⟨s.tick + 1, ?_⟩⟩
  have input : ¬ (clearHints s).iEnd < needIn := Nat.not_lt.2 there
  have noRoom : tryFlush room (clearHints s) = none := tryFlush_eq_none full
  rw [if_neg input, noRoom]
  rfl

/-! ## The commit of a compressed block (45_window.md rules R655, R656 and R667) -/

theorem get_eq_winByte {s : State} {a : Nat} (defined : (Memory.get s.win a).isSome) :
    Memory.get s.win a = some (winByte s a) := by
  obtain ⟨b, value⟩ := Option.isSome_iff_exists.1 defined
  rw [winByte, value]
  rfl

/-- Settles O22: the phases write the run they produce and nothing else of the arena (`materializeCompressed_ok`). -/
theorem compressedBlockCommitsItsPhases : Obligations.CompressedBlockCommitsItsPhases := by
  intro s u v last size outLen inv active fits input flush phases
  obtain ⟨bound, ⟨m, r, ph, pf, dp, result⟩, run⟩ := materializeCompressed_ok phases
  have wf : Memory.wf u.win = true := (tryFlush_ready (clearHints_ready inv) flush).winWf
  have params : u.params = s.params := by obtain ⟨_, _, _, _, rfl⟩ := tryFlush_shape flush; rfl
  have win : v.win = m := by rw [result]
  obtain ⟨u', v', t, flush', phases', next, commits, history⟩ :=
    blockSteps_commits (s := clearHints s) (last := last) (fun j => winByte v (u.wEnd + j)) fits input
      (tryFlush_slides flush).1 rfl rfl fun u' flush' => by
        cases flush.symm.trans flush'
        refine ⟨v, m, r, ph, pf, dp, phases, result, fun j inside => ?_, fun a outside => ?_⟩
        · rw [← win]
          exact get_eq_winByte (run.inside wf _ (Nat.le_add_right _ _) (Nat.add_lt_add_left inside _))
        · rw [← win]
          exact run.outside wf a outside
  cases flush.symm.trans flush'
  cases phases.symm.trans phases'
  exact ⟨t, (exec_blkCompressed_active active last size).trans next, commits.of_clearHints, history, params ▸ bound⟩

end Sys2Proof.Machine
end

section
/-! SUPPORT. Between commands (60_exceptions.md rule R818): the third way of a step, beside `step_fetchSelector` and
`step_hostAccess`. -/

namespace Sys2Proof.Machine

/-- Settles O6: of the three ways of a step, the fetch needs a wire structure and the access needs one to come. -/
theorem engineHoldsItsStateBetweenCommands : Obligations.EngineHoldsItsStateBetweenCommands := by
  intro s noFetch noAccess
  simp only [step, stepWith, noFetch, noAccess]

end Sys2Proof.Machine
end

section
/-! SUPPORT. Draining makes room (70_reset_and_hazards.md rule R924): a slide drops drained bytes only, and once all output is drained
it leaves at most W bytes, beside which a block always fits. -/

namespace Sys2Proof.Machine

section Room
variable {need : Nat} {s : State}

/-- Undrained bytes stay in the arena, so there is room only beside them. -/
theorem hasRoom.undrained_le (room : hasRoom need s) : s.wEnd - s.wStart + need ≤ s.params.winCap := by
  have drainedOnly := (slideFor_le need s).1
  unfold hasRoom at room
  omega

/-- With all output drained, only the window has to stay. -/
theorem hasRoom_of_drained (drained : s.wStart = s.wEnd) (window : s.w + need ≤ s.params.winCap) : hasRoom need s := by
  unfold hasRoom slideFor
  split <;> omega

/-- TRYFLUSH has a result when there is room. -/
theorem exists_tryFlush (room : hasRoom need s) : ∃ t, tryFlush need s = some t := by
  obtain ⟨_, flush, -⟩ := tryFlush_slideFor room
  exact ⟨_, flush⟩

end Room

/-- Settles O26: too much undrained output leaves no room beside it, and without undrained output there is room. -/
theorem drainingCuresNotYet : Obligations.DrainingCuresNotYet := by
  intro s need inv small
  have arena := inv.room
  have order := inv.outOrder
  have window : s.w + need ≤ s.params.winCap := by omega
  refine ⟨fun full => tryFlush_eq_none fun room => ?full, fun noRoom => ⟨?undrained, ?cure⟩⟩
  case full =>
    have beside := room.undrained_le
    omega
  case undrained =>
    by_contra drained
    obtain ⟨t, flush⟩ := exists_tryFlush (hasRoom_of_drained (s := s) (by omega) window)
    rw [noRoom] at flush
    cases flush
  case cure => exact exists_tryFlush (hasRoom_of_drained (s := { s with wStart := s.wEnd }) rfl window)

end Sys2Proof.Machine
end

section
/-! SUPPORT. How an instruction can stop (70_reset_and_hazards.md rule R931): never with a fault, and with a refusal only where the
spec asks for one (00_scope.md rule R21, 93_implementation_defined.md section 2). -/

namespace Sys2Proof.Machine

/-- The answer is no fault, and a refusal only for a reason that `refuses` lists. -/
def StopsOnlyFor (refuses : Refusal → Prop) (x : Answer) : Prop :=
  (∀ f, x ≠ .fault f) ∧ ∀ r, x = .refused r → refuses r

section
variable {refuses : Refusal → Prop}

/-- An answer that stops for none of its reasons is a next state. -/
theorem StopsOnlyFor.exists_next {x : Answer} (stops : StopsOnlyFor refuses x) (never : ∀ r, ¬ refuses r) :
    ∃ t, x = .next t := by
  obtain ⟨noFault, refusal⟩ := stops
  cases x with
  | next t => exact ⟨t, rfl⟩
  | fault f => exact absurd rfl (noFault f)
  | refused r => exact absurd (refusal r rfl) (never r)

theorem stopsOnlyFor_next (t : State) : StopsOnlyFor refuses (.next t) :=
  ⟨nofun, nofun⟩

/-- The answer of an operation stops only for the reasons the operation refuses for. -/
theorem stopsOnlyFor_settle (s : State) {m : Micro State} (own : ∀ r, m = .error (.refused r) → refuses r) :
    StopsOnlyFor refuses (settle s m) :=
  ⟨settle_fault s m, fun r h => own r (settle_refuses h)⟩

/-- The common steps stop only as the command's own rule. -/
theorem stopsOnlyFor_dispatch {body : State → Answer} {s : State} (own : StopsOnlyFor refuses (body (clearHints s)))
    (rf rc : Bool) : StopsOnlyFor refuses (dispatchCommand rf rc body s) := by
  unfold dispatchCommand
  dsimp only
  split
  · exact stopsOnlyFor_next _
  · split
    · exact stopsOnlyFor_next _
    · exact own

/-- A command that is an operation of the state with the hints clear. -/
theorem stopsOnlyFor_command {f : State → Micro State} {s : State}
    (own : ∀ r, f (clearHints s) = .error (.refused r) → refuses r) (rf rc : Bool) :
    StopsOnlyFor refuses (dispatchCommand rf rc (fun t => settle t (f t)) s) :=
  stopsOnlyFor_dispatch (body := fun t => settle t (f t)) (stopsOnlyFor_settle _ own) rf rc

theorem stopsOnlyFor_inActive {body : State → Answer} {s : State} (own : StopsOnlyFor refuses (body s)) :
    StopsOnlyFor refuses (inActive body s) := by
  unfold inActive
  split
  · exact own
  · exact stopsOnlyFor_next _

end

/-! ## Blocks -/

/-- The one refusal of a block (00_scope.md rule R21). -/
def RefusesMatch (p : Params) (r : Refusal) : Prop := r = .dictMatchNotAdmitted ∧ p.admitDictMatch = false

theorem blockOf_stopsOnlyFor (k : BlockKind) (last : Bool) (size : Nat) (s : State) :
    StopsOnlyFor (RefusesMatch s.params) (blockOf k last size s) :=
  ⟨blockOf_fault, fun _ => blockOf_refuses⟩

theorem blockForm_stopsOnlyFor (a : Word32) (s : State) : StopsOnlyFor (RefusesMatch s.params) (blockForm a s) := by
  rcases blockForm_cases a s with ⟨e, -, run⟩ | ⟨k, last, size, run⟩ <;> rw [run]
  · exact stopsOnlyFor_next _
  · exact blockOf_stopsOnlyFor k last size s

/-- A BLOCK, by its operand or by a header row. -/
theorem block_stopsOnlyFor {i : Instr} (block : isBlock i = true) (s : State) :
    StopsOnlyFor (RefusesMatch s.params) (exec i s) := by
  unfold isBlock at block
  split at block
  next f rsv0 a rsv1 => exact stopsOnlyFor_dispatch (stopsOnlyFor_inActive (blockForm_stopsOnlyFor a (clearHints s))) _ _
  next last size =>
    exact stopsOnlyFor_dispatch (stopsOnlyFor_inActive (blockOf_stopsOnlyFor .raw last size.toNat (clearHints s))) _ _
  next last size =>
    exact stopsOnlyFor_dispatch (stopsOnlyFor_inActive (blockOf_stopsOnlyFor .rle last size.toNat (clearHints s))) _ _
  next last size =>
    exact stopsOnlyFor_dispatch (stopsOnlyFor_inActive (blockOf_stopsOnlyFor .compressed last size.toNat (clearHints s))) _ _
  next last size =>
    exact stopsOnlyFor_dispatch (stopsOnlyFor_inActive (body := blockReservedKind) (stopsOnlyFor_next _)) _ _
  next => cases block

/-! ## Commands -/

/-- FRAME_BEGIN refuses a configured dictionary outside the domain, when the frame is to use it. -/
theorem frameBegin_refuses {a : Nat} {f : Bool} {s : State} {r : Refusal} (refused : frameBegin a f s = .error (.refused r)) :
    r = .dictOutsideDomain ∧ f = true ∧ ∃ d, s.params.dict = some d ∧ dictInDomain d = false := by
  rcases frameBegin_cases a f s with ⟨e, -, run⟩ | ⟨flag, dict, run⟩ | ⟨-, -, d, -, run⟩ <;> cases run.symm.trans refused
  exact ⟨rfl, flag, dict⟩

theorem inputCommit_not_refused (n : Nat) (s : State) (r : Refusal) : inputCommit n s ≠ .error (.refused r) := by
  rcases inputCommit_cases n s with run | ⟨-, run⟩ <;> simp [run]

theorem outputCommit_not_refused (n : Nat) (s : State) (r : Refusal) : outputCommit n s ≠ .error (.refused r) := by
  rcases outputCommit_cases n s with run | ⟨-, run⟩ <;> simp [run]

theorem consumeInput_not_refused (n : Nat) (s : State) (r : Refusal) : consumeInput n s ≠ .error (.refused r) := by
  rcases consumeInput_cases n s with run | ⟨-, run⟩ <;> simp [run]

/-! ## Every instruction -/

/-- The refusals the spec asks for: of a block whose match reaches a dictionary that is not admitted, and of FRAME_BEGIN with a
dictionary outside the domain (log 9, log 10). -/
def MayRefuse (i : Instr) (s : State) (r : Refusal) : Prop :=
  (r = .dictMatchNotAdmitted ∧ s.params.admitDictMatch = false ∧ isBlock i = true) ∨
  (r = .dictOutsideDomain ∧ ∃ rsv0 a rsv1 d, i = .frameBegin true rsv0 a rsv1 ∧ s.params.dict = some d ∧
    dictInDomain d = false)

theorem exec_block_stops {i : Instr} (block : isBlock i = true) (s : State) : StopsOnlyFor (MayRefuse i s) (exec i s) := by
  obtain ⟨noFault, refusal⟩ := block_stopsOnlyFor block s
  refine ⟨noFault, fun r refused => .inl ?_⟩
  obtain ⟨reason, excluded⟩ := refusal r refused
  exact ⟨reason, excluded, block⟩

theorem exec_frameBegin_stops (f : Bool) (rsv0 : BitVec 7) (a : Word32) (rsv1 : BitVec 16) (s : State) :
    StopsOnlyFor (MayRefuse (.frameBegin f rsv0 a rsv1) s) (exec (.frameBegin f rsv0 a rsv1) s) := by
  refine stopsOnlyFor_command (f := frameBegin a.toNat f) (fun r refused => .inr ?_) _ _
  obtain ⟨reason, rfl, d, dict, outside⟩ := frameBegin_refuses refused
  exact ⟨reason, rsv0, a, rsv1, d, rfl, dict, outside⟩

theorem exec_selector_stops {i : Instr} (sel : isSelector i = true) (s : State) : StopsOnlyFor (MayRefuse i s) (exec i s) := by
  obtain ⟨t, next, -⟩ := selector_next sel s
  rw [next]
  exact stopsOnlyFor_next t

/-- No instruction faults, and each refuses only what the spec asks for. -/
theorem exec_stops (i : Instr) (s : State) : StopsOnlyFor (MayRefuse i s) (exec i s) := by
  cases i with
  | reset => exact stopsOnlyFor_next _
  | frameBegin f rsv0 a rsv1 => exact exec_frameBegin_stops f rsv0 a rsv1 s
  | inputCommit f rsv0 n rsv1 =>
    exact stopsOnlyFor_command (f := inputCommit n.toNat) (fun r h => absurd h (inputCommit_not_refused _ _ r)) _ _
  | outputCommit f rsv0 n rsv1 =>
    exact stopsOnlyFor_command (f := outputCommit n.toNat) (fun r h => absurd h (outputCommit_not_refused _ _ r)) _ _
  | consume f rsv0 n rsv1 =>
    exact stopsOnlyFor_command (f := consumeInput n.toNat) (fun r h => absurd h (consumeInput_not_refused _ _ r)) _ _
  | reservedOpcode op f rsv0 a rsv1 =>
    exact stopsOnlyFor_dispatch (body := fun t => .next (errorEntry .illegalCmd t)) (stopsOnlyFor_next _) _ _
  | block | blkRaw | blkRle | blkCompressed | blkReserved => exact exec_block_stops rfl s
  | _ => exact exec_selector_stops rfl s

/-- With dictionary matches admitted and the dictionary in its domain, nothing is left to refuse. -/
theorem not_mayRefuse {s : State} (admitted : s.params.admitDictMatch = true)
    (domain : ∀ d, s.params.dict = some d → dictInDomain d = true) (i : Instr) (r : Refusal) : ¬ MayRefuse i s r := by
  rintro (⟨-, excluded, -⟩ | ⟨-, _, _, _, d, -, dict, outside⟩)
  · simp [admitted] at excluded
  · simp [domain d dict] at outside

/-- Settles O57: an instruction stops only for a listed refusal, and under the hypotheses none applies. -/
theorem everyInstructionEndsInANextState : Obligations.EveryInstructionEndsInANextState :=
  ⟨fun i s admitted domain => (exec_stops i s).exists_next (not_mayRefuse admitted domain i),
    fun i s => (exec_stops i s).1, fun i s => (exec_stops i s).2⟩

end Sys2Proof.Machine
end
